-- ==== Sys2Proof/Word.lean ====
section
/-!
DEFINITION. The word types of the model: a byte of memory, a 32-bit register and a 64-bit pair (R15, R17).
-/

namespace Sys2Proof

/-- One byte of memory (R5). -/
abbrev Byte := BitVec 8

/-- One general register, one instruction word, one program counter (R15, R57). -/
abbrev Word := BitVec 32

/-- A 64-bit value: a register pair or a run latch (R15, R17). -/
abbrev DWord := BitVec 64

end Sys2Proof
end

