-- ==== Sys2Proof/Syntax.lean ====
section
/-!
DEFINITION. The syntax of the machine: one constructor of `Instr` per row of spec/opcode_table.json.

The first 146 constructors are the instruction words of R65; each holds the fields of its word. The other 88 are
the steps of the device that no instruction word names (a load's data arriving, a team being placed, a packet
arriving, a supervisor register being written): the table lists them as steps of their own, and each holds what
selects the occurrence and what the outside world brings with it.
-/

namespace Sys2Proof

/-- A 7-bit register field, decoded by R18. -/
abbrev Reg := BitVec 7

/-- A predicate name k0 to k7. -/
abbrev Pred := BitVec 3

/-- A record register name a0 to a15. -/
abbrev RecReg := BitVec 4

/-- Comparison conditions of CMP and CMPI (R84). -/
inductive Cond where
  | eq | ne | lt | le | ltu | leu
  deriving DecidableEq, Repr

/-- The functions of KOP (R85). -/
inductive KFn where
  | and | or | xor | andn | not
  deriving DecidableEq, Repr

/-- The element formats of FADD, FSUB, FMUL and FFMA (R138). -/
inductive FFmt where
  | f32 | bf16x2 | f16x2
  deriving DecidableEq, Repr

/-- The functions of FSGN (R140): copy, negate, exclusive-or of the sign. -/
inductive SgnFn where
  | j | jn | jx
  deriving DecidableEq, Repr

/-- The conditions of FCMP (R141). -/
inductive FCond where
  | eq | lt | le | un
  deriving DecidableEq, Repr

/-- The conversion formats of FCVT (R61), codes 0x0 to 0xC in order. -/
inductive CvtTy where
  | s32 | z32 | s64 | z64 | f32 | f16 | bf16 | e4m3 | e5m2 | s8 | z8 | s16 | z16
  deriving DecidableEq, Repr

/-- The rounding modes an FRND word names (R144); `dyn` takes %rmode. -/
inductive RndSel where
  | rne | rtz | rup | rdn | dyn
  deriving DecidableEq, Repr

/-- The special functions of SFN (R145). -/
inductive SfnFn where
  | exp2 | log2 | rcp | rsq | sin | cos | tanh | sigm
  deriving DecidableEq, Repr

/-- The element types of DOT4 (R151). -/
inductive DotTy where
  | s8 | z8 | e4m3 | e5m2
  deriving DecidableEq, Repr

/-- The forms of PACK and UNPK (R152). -/
inductive PackFn where
  | bf16x2 | f16x2 | e4m3 | e5m2 | h | b
  deriving DecidableEq, Repr

/-- The forms of RAND (R156). -/
inductive RandFn where
  | z32 | f32
  deriving DecidableEq, Repr

/-- The source-lane rules of SHFL (R203). -/
inductive ShflFn where
  | idx | up | down | xor
  deriving DecidableEq, Repr

/-- The forms of VOTE (R204). -/
inductive VoteFn where
  | all | any | ballot
  deriving DecidableEq, Repr

/-- The operations of LRED (R205). -/
inductive LredFn where
  | add | min | max | minu | maxu | and | or | xor
  deriving DecidableEq, Repr

/-- The operations of SCAN (R206). -/
inductive ScanFn where
  | add | addx | max | min
  deriving DecidableEq, Repr

/-- Access sizes (R60): byte, half, word, double. -/
inductive Size where
  | b | h | w | d
  deriving DecidableEq, Repr

/-- Cache hints (R60). -/
inductive Hint where
  | dflt | strm | keep | byp
  deriving DecidableEq, Repr

/-- WAITC conditions (R60). -/
inductive WCond where
  | eq | ne | ge | lt | geu | ltu
  deriving DecidableEq, Repr

/-- Element format codes of records (R49). -/
inductive Fmt where
  | none | s8 | z8 | s16 | z16 | f16 | bf16 | s32 | z32 | f32 | s64 | z64 | e4m3 | e5m2 | mxf4 | mxf8 | kd7 | kd3
  deriving DecidableEq, Repr

/-- Atomic operations (R310), and the decrement of a join cell (R193). -/
inductive RmwOp where
  | add | min | max | and | or | xor | xchg | cas | join
  deriving DecidableEq, Repr

/-- What an access over the fabric asks of the home device's memory (R424, R441). -/
inductive InboundOp where
  | load (size : Nat)
  | store (bytes : List (Option Byte))
  | rmw (op : RmwOp) (fmt : Fmt) (operand comparand : DWord) (returns : Bool)
  deriving DecidableEq, Repr

/-- Where a die meets an uncorrectable error (R396): a line of memory; a vault of a core; a register of a lane of a team's wave, by its
physical index; a byte of a team's scratchpad. -/
inductive ErrorSite where
  | line (pa : Nat)
  | vault (core vault : Nat)
  | register (team wave lane reg : Nat)
  | spad (team off : Nat)
  deriving DecidableEq, Repr

/-- What arrives of an outstanding load (R37 to R39): the load, by its place in program order, and the lanes whose data come. -/
structure LoadPart where
  seq : Nat
  lanes : BitVec 64
  deriving DecidableEq, Repr

/-- What arrives of a matrix partial at its slot (R287): the arrival, and the home slices that its adds have reached. -/
structure PartialPart where
  arrival : Nat
  slices : BitVec 64
  deriving DecidableEq, Repr

/-- The uncorrectable errors that a die meets (R395, R396). -/
structure DieErrors where
  die : Nat
  found : List ErrorSite
  deriving DecidableEq, Repr

/-- The body of a packet of the fabric (R428): an access, with the requester's own identity of it; the data that answer it, with
their address; its refusal with a fault code; the acknowledgement of a write; an invocation; or the reply to the invocation of a
die with a flow sequence number (R435). -/
inductive FabricBody where
  | access (req : Nat) (addr : DWord) (op : InboundOp)
  | response (req : Nat) (addr : DWord) (data : List Byte)
  | refused (req : Nat) (addr : DWord) (code : Nat)
  | ack (req : Nat)
  | invocation (packet : List Byte)
  | reply (die : Nat) (seq : Word) (status : Nat)
  deriving DecidableEq, Repr

/-- One constructor per row of spec/opcode_table.json, in the table's order. -/
inductive Instr where
  -- integer register-register (R76), unary (R78), multiply (R79), divide (R80), pairs (R82)
  | add (n : Bool) (d a b : Reg)
  | sub (n : Bool) (d a b : Reg)
  | and (n : Bool) (d a b : Reg)
  | or (n : Bool) (d a b : Reg)
  | xor (n : Bool) (d a b : Reg)
  | min (n : Bool) (d a b : Reg)
  | max (n : Bool) (d a b : Reg)
  | minu (n : Bool) (d a b : Reg)
  | maxu (n : Bool) (d a b : Reg)
  | shl (n : Bool) (d a b : Reg)
  | shr (n : Bool) (d a b : Reg)
  | sra (n : Bool) (d a b : Reg)
  | rot (n : Bool) (d a b : Reg)
  | clz (n : Bool) (d a : Reg)
  | popc (n : Bool) (d a : Reg)
  | brev (n : Bool) (d a : Reg)
  | mov (n : Bool) (d a : Reg)
  | mul (n : Bool) (d a b : Reg)
  | mulh (n : Bool) (d a b : Reg)
  | mulhu (n : Bool) (d a b : Reg)
  | mad (n : Bool) (d a b : Reg)
  | div (n : Bool) (d a b : Reg)
  | divu (n : Bool) (d a b : Reg)
  | rem (n : Bool) (d a b : Reg)
  | remu (n : Bool) (d a b : Reg)
  | addw (d a b : Reg)
  | subw (d a b : Reg)
  | mulw (d a b : Reg)
  -- bit fields (R81), immediates (R77), constants (R83)
  | bfx (n : Bool) (d a : Reg) (w p : BitVec 5)
  | bfi (n : Bool) (d a : Reg) (w p : BitVec 5)
  | addi (n : Bool) (d a : Reg) (i : BitVec 10)
  | andi (n : Bool) (d a : Reg) (i : BitVec 10)
  | ori (n : Bool) (d a : Reg) (i : BitVec 10)
  | xori (n : Bool) (d a : Reg) (i : BitVec 10)
  | movi (d : Reg) (i : BitVec 18)
  | movhi (d : Reg) (i : BitVec 18)
  -- predicates and selection (R84 to R86)
  | cmp (c : Cond) (d : Pred) (a b : Reg)
  | cmpi (c : Cond) (d : Pred) (a : Reg) (i : BitVec 10)
  | kop (f : KFn) (d a b : Pred)
  | sel (n : Bool) (g : Pred) (d a b : Reg)
  -- control (R87 to R93), special registers (R95, R96)
  | br (k : Pred) (s : Bool) (o : BitVec 14)
  | brl (k : Pred) (s : Bool) (a : Reg) (o : BitVec 14)
  | jr (k : Pred) (s : Bool) (a : Reg) (o : BitVec 14)
  | loop (a : Reg) (e : BitVec 10)
  | loopi (e : BitVec 10) (c : BitVec 8)
  | leave
  | nop
  | winb (i : BitVec 10)
  | gets (n : Bool) (d : Reg) (i : BitVec 10)
  | sets (a : Reg) (i : BitVec 10)
  -- records and flat memory (R97, R99), the trailer (R59, R92)
  | recld (d : RecReg) (a : Reg)
  | recset (d : RecReg) (a : Reg)
  | ld (d : Reg) (q : RecReg) (x : Reg) (h : Hint) (z : Size)
  | st (k : Pred) (d : Reg) (q : RecReg) (x : Reg) (h : Hint) (z : Size)
  | trail (b : Reg) (c : BitVec 3) (e : Reg) (f : BitVec 3) (y u v : Bool)
  -- lane floating point and special functions (R138 to R156)
  | fadd (n : Bool) (f : FFmt) (d a b : Reg)
  | fsub (n : Bool) (f : FFmt) (d a b : Reg)
  | fmul (n : Bool) (f : FFmt) (d a b : Reg)
  | ffma (n : Bool) (f : FFmt) (d a b : Reg)
  | fmin (n : Bool) (prop : Bool) (f : FFmt) (d a b : Reg)
  | fmax (n : Bool) (prop : Bool) (f : FFmt) (d a b : Reg)
  | fsgn (n : Bool) (f : SgnFn) (d a b : Reg)
  | fcmp (c : FCond) (d : Pred) (a b : Reg)
  | fclass (n : Bool) (d a : Reg)
  | fcvt (n : Bool) (d a : Reg) (s t : CvtTy)
  | frnd (n : Bool) (d a : Reg) (m : RndSel)
  | sfn (n : Bool) (f : SfnFn) (d a : Reg)
  | maxex (n : Bool) (d a b : Reg)
  | scalb (n : Bool) (d a b : Reg)
  | exp2m (n : Bool) (d a b : Reg)
  | dot4 (n : Bool) (f : DotTy) (d a b : Reg)
  | pack (n : Bool) (d a : Reg) (c : PackFn)
  | unpk (d a : Reg) (c : PackFn)
  | topki (k : BitVec 3) (d a b : Reg)
  | rand (n : Bool) (f : RandFn) (d : Reg)
  -- cross-lane, barriers and work creation (R203 to R220)
  | shfl (n : Bool) (f : ShflFn) (d a b : Reg)
  | vote (f : VoteFn) (d : Reg) (a : Pred)
  | lred (n : Bool) (f : LredFn) (d a : Reg)
  | scan (n : Bool) (f : ScanFn) (d a : Reg)
  | bar (a : Reg) (b : BitVec 4)
  | bara (a : Reg) (b : BitVec 4)
  | barw (b : BitVec 4)
  | rcb
  | yield
  | exit
  | lpass
  | fork (d a : Reg)
  | join (d : Reg)
  | take (d a : Reg)
  | launch (a b : Reg)
  | gbar (a : Reg)
  -- scratchpad, bundles, synchronisation, atomics (R294 to R311)
  | sld (n : Bool) (d a : Reg) (o : BitVec 7) (z : Size)
  | sldm (d a : Reg) (o : BitVec 7) (z : Size)
  | sst (d a : Reg) (o : BitVec 7) (z : Size)
  | sstm (d a : Reg) (o : BitVec 7) (z : Size)
  | pref (q : RecReg) (x : Reg) (h : Hint) (z : Size)
  | bdecl (d a : Reg)
  | benter (d a b : Reg)
  | bwait (d a b : Reg)
  | bleave (a b : Reg)
  | bdrop (d a : Reg)
  | acq (s : BitVec 3) (a b : Reg)
  | rel (s : BitVec 3) (a : Reg)
  | fence (s : BitVec 3)
  | waitc (d : Reg) (q : RecReg) (x : Reg) (c : WCond)
  | atomAdd (k : Pred) (d : Reg) (q : RecReg) (x : Reg) (s : BitVec 3)
  | redAdd (k : Pred) (d : Reg) (q : RecReg) (x : Reg) (s : BitVec 3)
  | atomMin (k : Pred) (d : Reg) (q : RecReg) (x : Reg) (s : BitVec 3)
  | redMin (k : Pred) (d : Reg) (q : RecReg) (x : Reg) (s : BitVec 3)
  | atomMax (k : Pred) (d : Reg) (q : RecReg) (x : Reg) (s : BitVec 3)
  | redMax (k : Pred) (d : Reg) (q : RecReg) (x : Reg) (s : BitVec 3)
  | atomAnd (k : Pred) (d : Reg) (q : RecReg) (x : Reg) (s : BitVec 3)
  | redAnd (k : Pred) (d : Reg) (q : RecReg) (x : Reg) (s : BitVec 3)
  | atomOr (k : Pred) (d : Reg) (q : RecReg) (x : Reg) (s : BitVec 3)
  | redOr (k : Pred) (d : Reg) (q : RecReg) (x : Reg) (s : BitVec 3)
  | atomXor (k : Pred) (d : Reg) (q : RecReg) (x : Reg) (s : BitVec 3)
  | redXor (k : Pred) (d : Reg) (q : RecReg) (x : Reg) (s : BitVec 3)
  | atomXchg (k : Pred) (d : Reg) (q : RecReg) (x : Reg) (s : BitVec 3)
  | cas (k : Pred) (d : Reg) (q : RecReg) (x : Reg) (s : BitVec 3)
  -- engine commands (R356 to R365)
  | copy (f : BitVec 2) (a b : Reg)
  | wtag (d a : Reg)
  | wtany (d a : Reg)
  | tfirst (d a : Reg)
  | vfill (d a b : Reg)
  | mloop (d a b : Reg)
  | aring (d a b : Reg)
  | aringRelease (d a b : Reg)
  | epi (d a b : Reg)
  | qfence (a : Reg)
  | qseq (d a : Reg)
  | sumpw (d a b : Reg)
  | sumpx (d a b : Reg)
  -- system (R400 to R406), invocation, frames, trace (R444 to R448)
  | trap (i : BitVec 10)
  | eret
  | wfi
  | tlbi (a b : Reg)
  | partEnq (d a b : Reg)
  | partAdd (d a b : Reg)
  | partRemove (d a b : Reg)
  | partReset (d a b : Reg)
  | halt
  | lostclr (d a : Reg)
  | invoke (a b : Reg)
  | frame (d a b : Reg)
  | fchk (d : Pred) (a : Reg)
  | evt (a : Reg) (i : BitVec 10)
  -- the device's own steps; a wave is named by its team's identity and its index in the team
  | runStart (team wave : Nat)
  | frontierSelect (team wave : Nat)
  | loadDataArrival (team wave : Nat) (part : LoadPart)
  | hold (team wave : Nat)
  | launchAccept (offer : Nat)
  | agingInterval (part : Nat)
  | teamPlace (part : Nat)
  | teamEnd (team : Nat)
  | steal (core : Nat)
  | lanternPass (launch : Nat)
  | bundleAdmission (die : Nat)
  | bundleFillLine (inst : Nat)
  | monitorPoll (team wave : Nat)
  | atomicAtHome (rmws : List Nat)
  | directoryRequest (die line : Nat) (own : Bool)
  | homeWrite (posted : Nat)
  | invalidation (posted die : Nat)
  | invalidationAck (posted die : Nat)
  | directoryMerge (die base : Nat)
  | updatePush (line die : Nat)
  | forwardedRead (line die : Nat)
  | writeBack (line die : Nat)
  | dieFailure (die : Nat)
  | linkReplay (link : Nat)
  | linkTraining (link : Nat) (peer : Nat) (version : Byte) (features : Word)
  | packetArrival (dev die cls : Nat) (seq : Word) (body : FabricBody)
  | flowDiscard (dev : Nat)
  | routeLost (dev : Nat)
  | inboundAccess (dev req : Nat) (addr : DWord) (op : InboundOp)
  | remoteTimeout (req : Nat)
  | invocationArrival (packet : List Byte)
  | invocationSlotHead (queue : Nat)
  | invokeReply (inv : Nat) (status : Nat)
  | invokeLinkTimeout (inv : Nat)
  | hostSubmission (whole : Bool) (packet : List Byte)
  | commandStart (core queue chunks : Nat)
  | commandComplete (core queue : Nat)
  | matrixStep (core quadrant : Nat)
  | matrixPartial (part : PartialPart)
  | slotDrain (core : Nat)
  | vaultRetention (core vault : Nat)
  | vaultWake (core group : Nat)
  | sumpRecordWrite (write : Nat)
  | sumpCheck (node : Nat)
  | sumpFlush (node : Nat)
  | reportRecordWrite (report : Nat)
  | handlerLaunch (handler : Nat)
  | pageWalk (core asid : Nat) (va : DWord)
  | runaheadEnd (team wave : Nat)
  | preemptRequest (teams : List Nat)
  | barrierLimit (team : Nat)
  | teamSave (team : Nat)
  | watchdogExpiry (part prio : Nat)
  | dualCompare (team : Nat)
  | correctedErrorSummary (errors : DieErrors)
  | timer (sup : Nat)
  | interrupt (sup : Nat)
  | powerOn
  | bootPortTimeout
  | tftpRetransmit
  | bootRetry
  | tftpData (bytes : List Byte) (last : Bool)
  | quoteComplete
  | coreGroupStart (part : Nat)
  | frameReceive (port : Nat) (bytes : List Byte) (fcsOk stamped : Bool)
  | frameTransmit
  | sip (sup : Nat) (v : Word)
  | presolve (sup : Nat) (v : Word)
  | scwake (sup : Nat) (v : DWord)
  | sdbell (sup : Nat) (v : Word)
  | atblk (sup : Nat) (v : DWord)
  | carve (sup : Nat) (v : Word)
  | devnum (sup : Nat) (v : Word)
  | prhead (sup : Nat) (v : Word)
  | drhead (sup : Nat) (v : Word)
  | ptbase (sup : Nat) (v : DWord)
  | ptsize (sup : Nat) (v : Word)
  | nrbase (sup : Nat) (v : DWord)
  | nrsize (sup : Nat) (v : Word)
  | nrhead (sup : Nat) (v : Word)
  | ntbase (sup : Nat) (v : DWord)
  | ntsize (sup : Nat) (v : Word)
  | nttail (sup : Nat) (v : Word)
  | holdClear (team wave : Nat)
  | outboundPortFree (die : Nat)
  | ptpLock (time : DWord)
  | holdover
  | portLinkChange (port : Nat) (up : Bool)
  deriving DecidableEq, Repr

end Sys2Proof
end

