-- ==== Sys2Proof/Machine/Bits.lean ====
section
/-!
DEFINITION. Bit helpers: extension (R55), bytes and little-endian words (R5), and the packing of byte lists.
-/

namespace Sys2Proof.Machine

/-- Bits `[lo + n - 1 : lo]` of a number. -/
def bitsOf (x lo n : Nat) : Nat := (x >>> lo) % 2 ^ n

/-- SignExtend to 32 bits (R55). -/
def sext32 {w : Nat} (x : BitVec w) : Word := x.signExtend 32

/-- ZeroExtend to 32 bits (R55). -/
def zext32 {w : Nat} (x : BitVec w) : Word := x.zeroExtend 32

/-- ZeroExtend to 64 bits (R55). -/
def zext64 {w : Nat} (x : BitVec w) : DWord := x.zeroExtend 64

/-- SignExtend to 64 bits (R55). -/
def sext64 {w : Nat} (x : BitVec w) : DWord := x.signExtend 64

/-- The low half of a pair (R17). -/
def lo32 (x : DWord) : Word := x.truncate 32

/-- The high half of a pair (R17). -/
def hi32 (x : DWord) : Word := (x >>> 32).truncate 32

/-- A pair from its low and high registers (R17). -/
def mkPair (lo hi : Word) : DWord := (zext64 hi <<< 32) ||| zext64 lo

/-- `n` bytes of a number, least significant first (R5). -/
def bytesLE : Nat → Nat → List Byte
  | 0, _ => []
  | n + 1, x => BitVec.ofNat 8 x :: bytesLE n (x / 256)

/-- The number that a byte list holds, least significant byte first (R5). -/
def natLE : List Byte → Nat
  | [] => 0
  | b :: bs => b.toNat + 256 * natLE bs

/-- `n` bytes of a list from an offset; bytes past its end read as zero. -/
def sliceBytes (bs : List Byte) (off n : Nat) : List Byte :=
  let t := (bs.drop off).take n
  t ++ List.replicate (n - t.length) 0

/-- The little-endian number in `n` bytes from an offset. -/
def fieldLE (bs : List Byte) (off n : Nat) : Nat := natLE (sliceBytes bs off n)

/-- The little-endian 32-bit field at an offset. -/
def field32 (bs : List Byte) (off : Nat) : Word := BitVec.ofNat 32 (fieldLE bs off 4)

/-- The little-endian 64-bit field at an offset. -/
def field64 (bs : List Byte) (off : Nat) : DWord := BitVec.ofNat 64 (fieldLE bs off 8)

/-- Whether the `n` bytes from an offset are all zero. -/
def zeroBytes (bs : List Byte) (off n : Nat) : Bool := (sliceBytes bs off n).all (· == 0)

/-- A list with the element at an index replaced by its image. -/
def modifyAt {α : Type} (f : α → α) (i : Nat) (l : List α) : List α := l.modify i f

/-- Round up to a multiple of `m`. -/
def roundUp (x m : Nat) : Nat := (x + m - 1) / m * m

/-- A counter that stops at 2^32 - 1 (R408). -/
def satInc (x : Word) (n : Nat) : Word := BitVec.ofNat 32 (Nat.min 0xFFFFFFFF (x.toNat + n))

/-- The least element of a list under a key. -/
def minBy {α : Type} (key : α → Nat) : List α → Option α
  | [] => none
  | a :: l =>
    match minBy key l with
    | none => some a
    | some b => if key b < key a then some b else some a

/-- The distinct elements of a list, in order of their first place. -/
def distinct {α : Type} [DecidableEq α] : List α → List α
  | [] => []
  | a :: l => a :: (distinct l).filter (· ≠ a)

/-- Insert before the first element that does not precede it. -/
def insertBy {α : Type} (le : α → α → Bool) (a : α) : List α → List α
  | [] => [a]
  | b :: l => if le a b then a :: b :: l else b :: insertBy le a l

/-- Stable insertion sort. -/
def sortBy {α : Type} (le : α → α → Bool) : List α → List α
  | [] => []
  | a :: l => insertBy le a (sortBy le l)

/-- Bit `i` of a lane mask. -/
def laneIn (m : BitVec 64) (i : Nat) : Bool := m.getLsbD i

/-- The mask of one lane. -/
def laneBit (i : Nat) : BitVec 64 := 1 <<< i

/-- The mask of the first `n` lanes. -/
def allLanes (n : Nat) : BitVec 64 := BitVec.ofNat 64 (2 ^ n - 1)

/-- The lanes of a mask among the first `w`, in ascending order. -/
def lanesOf (w : Nat) (m : BitVec 64) : List Nat := (List.range w).filter (laneIn m)

/-- The mask of a list of lanes. -/
def maskOf (l : List Nat) : BitVec 64 := l.foldl (fun m i => m ||| laneBit i) 0

end Sys2Proof.Machine
end

