-- ==== Sys2Proof/Machine/Memory.lean ====
section
/-!
DEFINITION. Byte memory as a canonical list of cells: addresses strictly rising, no cell holding 0, the value that an
unlisted address reads as (log entry 7). Used for HBM and for a team's scratchpad (R225).
-/

namespace Sys2Proof.Machine

/-- The byte that an address reads as when no cell lists it (log entry 7). -/
def Memory.background : Byte := 0

/-- Every address of the list is above `lo`, addresses rise strictly, and no cell holds the background. -/
def Memory.wfAbove : Option Nat → List Host.Cell → Bool
  | _, [] => true
  | lo, (a, v) :: m =>
    (match lo with | none => true | some b => decide (b < a)) && v != Memory.background && Memory.wfAbove (some a) m

/-- The canonical form. -/
def Memory.wf (m : List Host.Cell) : Bool := Memory.wfAbove none m

/-- Read one byte. -/
def Memory.read : List Host.Cell → Nat → Byte
  | [], _ => Memory.background
  | (b, v) :: m, a => if b = a then v else if a < b then Memory.background else Memory.read m a

/-- A cell in front of a memory, left out when it holds the background. -/
def Memory.cons (a : Nat) (v : Byte) (m : List Host.Cell) : List Host.Cell :=
  if v = Memory.background then m else (a, v) :: m

/-- Write one byte. -/
def Memory.write : List Host.Cell → Nat → Byte → List Host.Cell
  | [], a, v => Memory.cons a v []
  | (b, u) :: m, a, v =>
    if a < b then Memory.cons a v ((b, u) :: m)
    else if a = b then Memory.cons a v m
    else (b, u) :: Memory.write m a v

/-- Read `n` bytes from an address up. -/
def Memory.readN (m : List Host.Cell) : Nat → Nat → List Byte
  | _, 0 => []
  | a, n + 1 => Memory.read m a :: Memory.readN m (a + 1) n

/-- Write a list of bytes from an address up. -/
def Memory.writeN (m : List Host.Cell) : Nat → List Byte → List Host.Cell
  | _, [] => m
  | a, v :: vs => Memory.writeN (Memory.write m a v) (a + 1) vs

/-- Write the bytes that a list gives, from an address up; `none` leaves a byte as it is. -/
def Memory.writeSome (m : List Host.Cell) : Nat → List (Option Byte) → List Host.Cell
  | _, [] => m
  | a, some v :: vs => Memory.writeSome (Memory.write m a v) (a + 1) vs
  | a, none :: vs => Memory.writeSome m (a + 1) vs

end Sys2Proof.Machine
end

