-- ==== Sys2Proof/Machine/Shapes.lean ====
section
/-!
DEFINITION. What each word names: the registers it reads and writes (R17, R18, R27), the pairs of the bank rule
(R30), whether it produces a register result of fixed latency (R34), and where it may stand in a run (R26).
-/

namespace Sys2Proof.Machine

/-- A register field and the number of consecutive registers it stands for. -/
abbrev RegUse := Reg × Nat

/-- 1 or 2 registers, by access size (R60). -/
def Size.regs : Size → Nat
  | .d => 2
  | _ => 1

/-- Bytes of an access size (R60). -/
def Size.bytes : Size → Nat
  | .b => 1
  | .h => 2
  | .w => 4
  | .d => 8

/-- Element size of a format that lanes may access, 0 for `none` and the blocks (R49). -/
def Fmt.size : Fmt → Nat
  | .s8 | .z8 | .e4m3 | .e5m2 => 1
  | .s16 | .z16 | .f16 | .bf16 => 2
  | .s32 | .z32 | .f32 => 4
  | .s64 | .z64 => 8
  | _ => 0

/-- Registers an element of a format fills: a pair for 8 bytes (R99, R310). -/
def Fmt.regs (f : Fmt) : Nat := if Fmt.size f = 8 then 2 else 1

/-- Registers a conversion operand fills (R143). -/
def CvtTy.regs : CvtTy → Nat
  | .s64 | .z64 => 2
  | _ => 1

/-- Registers of the unpacked group of a PACK or UNPK form (R152). -/
def PackFn.group : PackFn → Nat
  | .bf16x2 | .f16x2 | .h => 2
  | _ => 4

/-- Width in registers of a readable special register, none when the number is not listed (R21, R408, R465). -/
def specialWidth (num : Nat) : Option Nat :=
  if num ∈ [0x004, 0x020, 0x201, 0x202, 0x206, 0x207, 0x212, 0x224, 0x230, 0x232, 0x240, 0x246, 0x249, 0x250, 0x255]
  then some 2
  else if num ∈ [0x001, 0x002, 0x003, 0x010, 0x011, 0x012, 0x013, 0x014, 0x015, 0x016, 0x017, 0x018] then some 1
  else if 0x200 ≤ num ∧ num ≤ 0x209 ∨ 0x210 ≤ num ∧ num ≤ 0x228 ∨ num = 0x231 ∨ num = 0x233 then some 1
  else if 0x240 ≤ num ∧ num ≤ 0x24B ∨ 0x250 ≤ num ∧ num ≤ 0x258 then some 1
  else none

/-- Special registers that SETS may not name: RO (R21, R408, R465). -/
def specialRO (num : Nat) : Bool :=
  num ∈ [0x010, 0x011, 0x012, 0x013, 0x014, 0x015, 0x016, 0x017, 0x018, 0x020, 0x208, 0x215, 0x223, 0x227, 0x242,
    0x243, 0x245, 0x246, 0x247, 0x24A, 0x253, 0x257]

/-- Registers that a word reads, beside those of its trailer (R27). `esz` gives the registers that an element of a
record's format fills, for the majors whose D field follows the record (R310). -/
def Instr.sources (esz : RecReg → Nat) : Instr → List RegUse
  | .add _ _ a b | .sub _ _ a b | .and _ _ a b | .or _ _ a b | .xor _ _ a b | .min _ _ a b | .max _ _ a b
  | .minu _ _ a b | .maxu _ _ a b | .shl _ _ a b | .shr _ _ a b | .sra _ _ a b | .rot _ _ a b
  | .mul _ _ a b | .mulh _ _ a b | .mulhu _ _ a b | .div _ _ a b | .divu _ _ a b | .rem _ _ a b | .remu _ _ a b
  | .cmp _ _ a b | .sel _ _ _ a b => [(a, 1), (b, 1)]
  | .clz _ _ a | .popc _ _ a | .brev _ _ a | .mov _ _ a => [(a, 1)]
  | .mad _ d a b => [(d, 1), (a, 1), (b, 1)]
  | .addw _ a b | .subw _ a b | .mulw _ a b => [(a, 2), (b, 2)]
  | .bfx _ _ a _ _ => [(a, 1)]
  | .bfi _ d a _ _ => [(d, 1), (a, 1)]
  | .addi _ _ a _ | .andi _ _ a _ | .ori _ _ a _ | .xori _ _ a _ | .cmpi _ _ a _ => [(a, 1)]
  | .movhi d _ => [(d, 1)]
  | .jr _ _ a _ => [(a, 1)]
  | .loop a _ => [(a, 1)]
  | .sets a i => [(a, (specialWidth i.toNat).getD 1)]
  | .recld _ a => [(a, 2)]
  | .recset _ a => [(a, 8)]
  | .ld _ _ x _ _ => [(x, 1)]
  | .st _ d _ x _ z => [(d, Size.regs z), (x, 1)]
  | .fadd _ _ _ a b | .fsub _ _ _ a b | .fmul _ _ _ a b | .fmin _ _ _ _ a b | .fmax _ _ _ _ a b | .fsgn _ _ _ a b
  | .fcmp _ _ a b | .maxex _ _ a b | .scalb _ _ a b | .exp2m _ _ a b | .shfl _ _ _ a b => [(a, 1), (b, 1)]
  | .ffma _ _ d a b | .dot4 _ _ d a b => [(d, 1), (a, 1), (b, 1)]
  | .fclass _ _ a | .frnd _ _ a _ | .sfn _ _ _ a | .lred _ _ _ a | .scan _ _ _ a => [(a, 1)]
  | .fcvt _ _ a s _ => [(a, CvtTy.regs s)]
  | .pack _ _ a c => [(a, PackFn.group c)]
  | .unpk _ a _ => [(a, 1)]
  | .topki k d a b => [(d, 2 * (k.toNat + 1)), (a, 1), (b, 1)]
  | .bar a _ | .bara a _ | .gbar a => [(a, 1)]
  | .fork _ a => [(a, 2)]
  | .launch a b => [(a, 2), (b, 1)]
  | .sld _ _ a _ _ | .sldm _ a _ _ => [(a, 1)]
  | .sst d a _ z | .sstm d a _ z => [(d, Size.regs z), (a, 1)]
  | .pref _ x _ _ => [(x, 1)]
  | .bdecl _ a => [(a, 2)]
  | .benter _ a b | .bwait _ a b | .bleave a b => [(a, 4), (b, 1)]
  | .bdrop _ a => [(a, 1)]
  | .acq _ a b => [(a, 1), (b, 1)]
  | .rel _ a => [(a, 1)]
  | .waitc d q x _ => [(d, esz q), (x, 1)]
  | .atomAdd _ d q x _ | .redAdd _ d q x _ | .atomMin _ d q x _ | .redMin _ d q x _ | .atomMax _ d q x _
  | .redMax _ d q x _ | .atomAnd _ d q x _ | .redAnd _ d q x _ | .atomOr _ d q x _ | .redOr _ d q x _
  | .atomXor _ d q x _ | .redXor _ d q x _ | .atomXchg _ d q x _ => [(d, esz q), (x, 1)]
  | .cas _ d q x _ => [(d, 2 * esz q), (x, 1)]
  | .copy _ a b => [(a, 4), (b, 1)]
  | .wtag _ a | .wtany _ a | .tfirst _ a => [(a, 2)]
  | .vfill d a b => [(d, 1), (a, 1), (b, 1)]
  | .mloop d a b => [(d, 1), (a, 4), (b, 1)]
  | .aring d a b | .aringRelease d a b | .epi d a b => [(d, 1), (a, 2), (b, 1)]
  | .qfence a => [(a, 1)]
  | .qseq _ a => [(a, 1)]
  | .sumpw _ a b | .sumpx _ a b => [(a, 2), (b, 1)]
  | .tlbi a b => [(a, 2), (b, 1)]
  | .partEnq _ a b | .partAdd _ a b | .partRemove _ a b | .partReset _ a b => [(a, 2), (b, 1)]
  | .lostclr _ a => [(a, 2)]
  | .invoke a b => [(a, 1), (b, 1)]
  | .frame _ a b => [(a, 1), (b, 1)]
  | .fchk _ a => [(a, 2)]
  | .evt a _ => [(a, 2)]
  | _ => []

/-- Predicates that a word reads to form a result (R20, R85, R86, R204). -/
def Instr.predSources : Instr → List Pred
  | .kop _ _ a b => [a, b]
  | .sel _ g _ _ _ => [g]
  | .vote _ _ a => [a]
  | _ => []

/-- Registers that a word writes (R18, R27). -/
def Instr.dests (esz : RecReg → Nat) : Instr → List RegUse
  | .add _ d _ _ | .sub _ d _ _ | .and _ d _ _ | .or _ d _ _ | .xor _ d _ _ | .min _ d _ _ | .max _ d _ _
  | .minu _ d _ _ | .maxu _ d _ _ | .shl _ d _ _ | .shr _ d _ _ | .sra _ d _ _ | .rot _ d _ _
  | .mul _ d _ _ | .mulh _ d _ _ | .mulhu _ d _ _ | .mad _ d _ _ | .div _ d _ _ | .divu _ d _ _ | .rem _ d _ _
  | .remu _ d _ _ | .sel _ _ d _ _ => [(d, 1)]
  | .clz _ d _ | .popc _ d _ | .brev _ d _ | .mov _ d _ => [(d, 1)]
  | .addw d _ _ | .subw d _ _ | .mulw d _ _ => [(d, 2)]
  | .bfx _ d _ _ _ | .bfi _ d _ _ _ => [(d, 1)]
  | .addi _ d _ _ | .andi _ d _ _ | .ori _ d _ _ | .xori _ d _ _ => [(d, 1)]
  | .movi d _ | .movhi d _ => [(d, 1)]
  | .brl _ _ a _ => [(a, 1)]
  | .gets _ d i => [(d, (specialWidth i.toNat).getD 1)]
  | .ld d _ _ _ z => [(d, Size.regs z)]
  | .fadd _ _ d _ _ | .fsub _ _ d _ _ | .fmul _ _ d _ _ | .ffma _ _ d _ _ | .fmin _ _ _ d _ _ | .fmax _ _ _ d _ _
  | .fsgn _ _ d _ _ | .maxex _ d _ _ | .scalb _ d _ _ | .exp2m _ d _ _ | .dot4 _ _ d _ _ | .shfl _ _ d _ _ => [(d, 1)]
  | .fclass _ d _ | .frnd _ d _ _ | .sfn _ _ d _ | .pack _ d _ _ | .rand _ _ d | .lred _ _ d _ | .scan _ _ d _ => [(d, 1)]
  | .fcvt _ d _ _ t => [(d, CvtTy.regs t)]
  | .unpk d _ c => [(d, PackFn.group c)]
  | .topki k d _ _ => [(d, 2 * (k.toNat + 1))]
  | .vote f d _ => if f = .ballot then [(d, 2)] else []
  | .fork d _ | .join d => [(d, 1)]
  | .take d a => [(d, 10), (a, 1)]
  | .sld _ d _ _ z | .sldm d _ _ z => [(d, Size.regs z)]
  | .bdecl d _ | .benter d _ _ | .bwait d _ _ | .bdrop d _ => [(d, 1)]
  | .atomAdd _ d q _ _ | .atomMin _ d q _ _ | .atomMax _ d q _ _ | .atomAnd _ d q _ _ | .atomOr _ d q _ _
  | .atomXor _ d q _ _ | .atomXchg _ d q _ _ | .cas _ d q _ _ => [(d, esz q)]
  | .wtag d _ | .wtany d _ | .tfirst d _ | .qseq d _ | .sumpw d _ _ | .sumpx d _ _ => [(d, 1)]
  | .partEnq d _ _ | .partAdd d _ _ | .partRemove d _ _ | .partReset d _ _ | .lostclr d _ => [(d, 1)]
  | .frame d _ _ => [(d, 2)]
  | _ => []

/-- Whether a word produces a register result of fixed latency, which its latch captures (R33, R34). -/
def Instr.latches : Instr → Bool
  | .add .. | .sub .. | .and .. | .or .. | .xor .. | .min .. | .max .. | .minu .. | .maxu .. | .shl .. | .shr ..
  | .sra .. | .rot .. | .clz .. | .popc .. | .brev .. | .mov .. | .mul .. | .mulh .. | .mulhu .. | .mad .. | .div ..
  | .divu .. | .rem .. | .remu .. | .addw .. | .subw .. | .mulw .. | .bfx .. | .bfi .. | .addi .. | .andi ..
  | .ori .. | .xori .. | .movi .. | .movhi .. | .sel .. | .brl .. | .gets .. | .fadd .. | .fsub .. | .fmul ..
  | .ffma .. | .fmin .. | .fmax .. | .fsgn .. | .fclass .. | .fcvt .. | .frnd .. | .sfn .. | .maxex .. | .scalb ..
  | .exp2m .. | .dot4 .. | .pack .. | .unpk .. | .rand .. | .shfl .. | .lred .. | .scan .. | .sld .. | .tfirst ..
  | .qseq .. | .frame .. => true
  | .vote f _ _ => f = .ballot
  | _ => false

/-- The no-write bit of a word (R35). -/
def Instr.noWrite : Instr → Bool
  | .add n _ _ _ | .sub n _ _ _ | .and n _ _ _ | .or n _ _ _ | .xor n _ _ _ | .min n _ _ _ | .max n _ _ _
  | .minu n _ _ _ | .maxu n _ _ _ | .shl n _ _ _ | .shr n _ _ _ | .sra n _ _ _ | .rot n _ _ _ | .clz n _ _
  | .popc n _ _ | .brev n _ _ | .mov n _ _ | .mul n _ _ _ | .mulh n _ _ _ | .mulhu n _ _ _ | .mad n _ _ _
  | .div n _ _ _ | .divu n _ _ _ | .rem n _ _ _ | .remu n _ _ _ | .bfx n _ _ _ _ | .bfi n _ _ _ _ | .addi n _ _ _
  | .andi n _ _ _ | .ori n _ _ _ | .xori n _ _ _ | .sel n _ _ _ _ | .gets n _ _ | .fadd n _ _ _ _ | .fsub n _ _ _ _
  | .fmul n _ _ _ _ | .ffma n _ _ _ _ | .fmin n _ _ _ _ _ | .fmax n _ _ _ _ _ | .fsgn n _ _ _ _ | .fclass n _ _
  | .fcvt n _ _ _ _ | .frnd n _ _ _ | .sfn n _ _ _ | .maxex n _ _ _ | .scalb n _ _ _ | .exp2m n _ _ _
  | .dot4 n _ _ _ _ | .pack n _ _ _ | .rand n _ _ | .shfl n _ _ _ _ | .lred n _ _ _ | .scan n _ _ _
  | .sld n _ _ _ _ => n
  | _ => false

/-- The record registers that a word names in its Q field (R98). -/
def Instr.recUse : Instr → Option RecReg
  | .ld _ q _ _ _ | .st _ _ q _ _ _ | .pref q _ _ _ | .waitc _ q _ _
  | .atomAdd _ _ q _ _ | .redAdd _ _ q _ _ | .atomMin _ _ q _ _ | .redMin _ _ q _ _ | .atomMax _ _ q _ _
  | .redMax _ _ q _ _ | .atomAnd _ _ q _ _ | .redAnd _ _ q _ _ | .atomOr _ _ q _ _ | .redOr _ _ q _ _
  | .atomXor _ _ q _ _ | .redXor _ _ q _ _ | .atomXchg _ _ q _ _ | .cas _ _ q _ _ => some q
  | _ => none

/-- The record register that a word writes (R97, R98). -/
def Instr.recDef : Instr → Option RecReg
  | .recld d _ | .recset d _ => some d
  | _ => none

/-- Words that must stand last before a trailer (R26, R88, R199, R398). -/
def Instr.mustBeLast : Instr → Bool
  | .br .. | .brl .. | .jr .. | .loop .. | .loopi .. | .exit | .take .. | .eret | .wfi | .halt => true
  | _ => false

/-- The trailer (R59). -/
def Instr.isTrail : Instr → Bool
  | .trail .. => true
  | _ => false

/-- Words marked "supervisor" in the opcode map (R64, R65). -/
def Instr.supervisorOnly : Instr → Bool
  | .wfi | .tlbi .. | .partEnq .. | .partAdd .. | .partRemove .. | .partReset .. | .halt | .lostclr .. => true
  | _ => false

/-- Words that name a supervisor special register (R21, R95, R96). -/
def Instr.supervisorReg : Instr → Bool
  | .gets _ _ i | .sets _ i => 0x200 ≤ i.toNat
  | _ => false

/-- The instruction words of R65: constructors that an encoding stands for. The other words of PART and ARING are
read as `partEnq` and `aring`, whose operation the operand selects at execution (R361, R405). -/
def Instr.hasWord : Instr → Bool
  | .add .. | .sub .. | .and .. | .or .. | .xor .. | .min .. | .max .. | .minu .. | .maxu .. | .shl .. | .shr ..
  | .sra .. | .rot .. | .clz .. | .popc .. | .brev .. | .mov .. | .mul .. | .mulh .. | .mulhu .. | .mad .. | .div ..
  | .divu .. | .rem .. | .remu .. | .addw .. | .subw .. | .mulw .. | .bfx .. | .bfi .. | .addi .. | .andi ..
  | .ori .. | .xori .. | .movi .. | .movhi .. | .cmp .. | .cmpi .. | .kop .. | .sel .. | .br .. | .brl .. | .jr ..
  | .loop .. | .loopi .. | .leave | .nop | .winb .. | .gets .. | .sets .. | .recld .. | .recset .. | .ld .. | .st ..
  | .trail .. | .fadd .. | .fsub .. | .fmul .. | .ffma .. | .fmin .. | .fmax .. | .fsgn .. | .fcmp .. | .fclass ..
  | .fcvt .. | .frnd .. | .sfn .. | .maxex .. | .scalb .. | .exp2m .. | .dot4 .. | .pack .. | .unpk .. | .topki ..
  | .rand .. | .shfl .. | .vote .. | .lred .. | .scan .. | .bar .. | .bara .. | .barw .. | .rcb | .yield | .exit
  | .lpass | .fork .. | .join .. | .take .. | .launch .. | .gbar .. | .sld .. | .sldm .. | .sst .. | .sstm ..
  | .pref .. | .bdecl .. | .benter .. | .bwait .. | .bleave .. | .bdrop .. | .acq .. | .rel .. | .fence .. | .waitc ..
  | .atomAdd .. | .redAdd .. | .atomMin .. | .redMin .. | .atomMax .. | .redMax .. | .atomAnd .. | .redAnd ..
  | .atomOr .. | .redOr .. | .atomXor .. | .redXor .. | .atomXchg .. | .cas .. | .copy .. | .wtag .. | .wtany ..
  | .tfirst .. | .vfill .. | .mloop .. | .aring .. | .epi .. | .qfence .. | .qseq .. | .sumpw .. | .sumpx ..
  | .trap .. | .eret | .wfi | .tlbi .. | .partEnq .. | .halt | .lostclr .. | .invoke .. | .frame .. | .fchk ..
  | .evt .. => true
  | _ => false

/-- The A and B fields of an R-format word to which the bank rule applies (R30, R75, R137, R198, R291, R351, R399,
R443). -/
def Instr.bankPair : Instr → Option (Reg × Reg)
  | .add _ _ a b | .sub _ _ a b | .and _ _ a b | .or _ _ a b | .xor _ _ a b | .min _ _ a b | .max _ _ a b
  | .minu _ _ a b | .maxu _ _ a b | .shl _ _ a b | .shr _ _ a b | .sra _ _ a b | .rot _ _ a b
  | .mul _ _ a b | .mulh _ _ a b | .mulhu _ _ a b | .mad _ _ a b | .div _ _ a b | .divu _ _ a b | .rem _ _ a b
  | .remu _ _ a b | .addw _ a b | .subw _ a b | .mulw _ a b | .cmp _ _ a b | .sel _ _ _ a b
  | .fadd _ _ _ a b | .fsub _ _ _ a b | .fmul _ _ _ a b | .ffma _ _ _ a b | .fmin _ _ _ _ a b | .fmax _ _ _ _ a b
  | .fsgn _ _ _ a b | .fcmp _ _ a b | .maxex _ _ a b | .scalb _ _ a b | .exp2m _ _ a b | .dot4 _ _ _ a b
  | .topki _ _ a b | .shfl _ _ _ a b | .benter _ a b | .bwait _ a b | .bleave a b | .acq _ a b | .copy _ a b
  | .vfill _ a b | .mloop _ a b | .aring _ a b | .aringRelease _ a b | .epi _ a b | .sumpw _ a b | .sumpx _ a b
  | .tlbi a b | .partEnq _ a b | .partAdd _ a b | .partRemove _ a b | .partReset _ a b | .invoke a b
  | .frame _ a b => some (a, b)
  | _ => none

/-- Words that are compare points of a DUAL team: barriers, exits, atomics, engine commands and INVOKE (R393). -/
def Instr.comparePoint : Instr → Bool
  | .bar .. | .bara .. | .barw .. | .gbar .. | .exit | .atomAdd .. | .redAdd .. | .atomMin .. | .redMin .. | .atomMax ..
  | .redMax .. | .atomAnd .. | .redAnd .. | .atomOr .. | .redOr .. | .atomXor .. | .redXor .. | .atomXchg .. | .cas ..
  | .rel .. | .join .. | .copy .. | .vfill .. | .mloop .. | .aring .. | .aringRelease .. | .epi .. | .sumpw .. | .sumpx ..
  | .invoke .. | .launch .. => true
  | _ => false

/-- How a word acts in runahead mode (R380). -/
inductive RunaheadClass where
  | safe | suppressed | ending
  deriving DecidableEq, Repr

/-- The class of each word (R136, R200, R292, R351, R380, R443). -/
def Instr.runaheadClass : Instr → RunaheadClass
  | .st .. | .sst .. | .sstm .. | .waitc .. | .atomAdd .. | .redAdd .. | .atomMin .. | .redMin .. | .atomMax ..
  | .redMax .. | .atomAnd .. | .redAnd .. | .atomOr .. | .redOr .. | .atomXor .. | .redXor .. | .atomXchg ..
  | .cas .. => .suppressed
  | .recld .. | .recset .. | .bar .. | .bara .. | .barw .. | .rcb | .yield | .exit | .lpass | .fork .. | .join ..
  | .take .. | .launch .. | .gbar .. | .bdecl .. | .benter .. | .bwait .. | .bleave .. | .bdrop .. | .acq .. | .rel ..
  | .fence .. | .copy .. | .wtag .. | .wtany .. | .tfirst .. | .vfill .. | .mloop .. | .aring .. | .aringRelease ..
  | .epi .. | .qfence .. | .qseq .. | .sumpw .. | .sumpx .. | .trap .. | .eret | .wfi | .tlbi .. | .partEnq ..
  | .partAdd .. | .partRemove .. | .partReset .. | .halt | .lostclr .. | .invoke .. | .evt .. => .ending
  | .gets _ _ i | .sets _ i => if 0x200 ≤ i.toNat then .ending else .safe
  | _ => .safe

end Sys2Proof.Machine
end

