-- ==== Sys2Proof/Config.lean ====
section
/-!
DEFINITION. What one device fixes and the spec does not: the fuses (R449), the identity of the device, the results the
spec only bounds (R146), the external hash and signature functions (R451, R454) and the passage of time.
Every constant here is uninterpreted: it has no body, so nothing can be proved of its value.
-/

namespace Sys2Proof.Config

/-- The default fabric device number in the fuses, of which bits [8:0] are used (R449, R466); log entry 9. -/
opaque fuseDevnum : Word

/-- The number of boot servers in the fuses less one, of which the low two bits are used (R449); log entry 9. -/
opaque fuseServers : Nat

/-- The key hash of each fuse slot (R449, R452); log entry 9. -/
opaque fuseKeyHash : Nat → List Byte

/-- The revocation bit of each fuse slot (R449, R452); log entry 9. -/
opaque fuseRevoked : Nat → Bool

/-- The minimum security version in the fuses (R449, R452); log entry 9. -/
opaque fuseMinSvn : Nat

/-- The MAC address of each front-end port, six bytes (R449, R463); log entry 9. -/
opaque fuseMac : Nat → List Byte

/-- The device serial number in the fuses (R454); log entry 9. -/
opaque fuseSerial : List Byte

/-- SM3 of a byte string: an external standard, uninterpreted here (R451, R453); log entry 10. -/
opaque sm3 : List Byte → List Byte

/-- Whether an SM2 signature verifies under a key: an external standard, uninterpreted here (R452); log entry 10. -/
opaque sm2Verify (key sig hash : List Byte) : Bool

/-- The SM2 signature by the identity key (R454); log entry 10. -/
opaque sm2Sign : List Byte → List Byte

/-- The identity public key (R454); log entry 10. -/
opaque identityKey : List Byte

/-- The special-function unit's result where R146 only bounds it: a fixed function of the operand; log entry 11. -/
opaque sfn : SfnFn → Word → Word

/-- .exp2 of a number that is no FP32 value, where R146 only bounds it: a fixed function of the number, in units of 2^-149 (R150); log
entry 11. -/
opaque exp2m : Int → Word

/-- Nanoseconds that pass in each step; the spec bounds no step's duration (R9); log entry 6. -/
opaque elapsed : Nat → Nat

/-- A page-table entry in another device's memory, by step and address: what that memory holds is not in the state; log entry 12. -/
opaque farEntry : Nat → Nat → DWord

/-- A 64-bit value the spec leaves open, one for each number drawn; log entry 6. -/
opaque freeWord : Nat → DWord

end Sys2Proof.Config
end

