-- ==== Sys2Proof/Machine/State.lean ====
section
/-!
DEFINITION. The state of a KX-9480 device as plain data: every register, store, queue and table that the spec gives
the machine, and `State.reset`, the device as it stands when power comes on.

Each field's comment gives: what it is; its width or bound; the rules that name it; its value at reset (or, for a
field of a thing that does not exist at reset, at the thing's creation). A physical address is a `Nat` below 2^43.
Where the model adds a field of its own the comment says MODEL and names the log entry.
-/

namespace Sys2Proof.Machine

/-! ## Faults of the device and stops of the model -/

/-- The fault codes of R366, in their numbering from 1. They are events of the device, not stops of the model. -/
inductive FaultCode where
  | illegal | priv | align | bounds | page | prot | bundleEscape | bundleTooBig | accState | gangGone | lineLost
  | remoteTimeout | remoteRefused | noHandler | version | dualMismatch | watchdog | eccUncorr | trap
  deriving DecidableEq, Repr

/-- Why a step of the model stops. -/
inductive Fault where
  /-- An instruction word is executed and no wave stands in a run. Raised by every instruction's meaning on a state
  in which `State.cur` names no wave that issues; no state that `step` reaches is one. Safe: the model stops. -/
  | noIssuer
  deriving DecidableEq, Repr

/-- Why an instruction has no meaning. -/
inductive Refusal where
  /-- The instruction has no meaning in this model yet; only `exec`'s arms answer it. Safe: the model stops. -/
  | notModelled (mnemonic : String)
  deriving DecidableEq, Repr

/-! ## A lane -/

/-- What a fixed-latency result is written to. -/
inductive Dst where
  | reg (phys : Nat)
  | pred (k : Nat)
  | orFlags
  | setFlags
  deriving DecidableEq, Repr

/-- A result of the current run that is written in cycle `due` of the run (R31). -/
structure PendWrite where
  /-- The cycle of the run in which it is written; Nat; R31; at issue -/
  due : Nat
  /-- Its destination; R31, R124; at issue -/
  dst : Dst
  /-- Its value; 32; R31; at issue -/
  val : Word
  deriving DecidableEq, Repr

/-- The content of a run latch: the result of one instruction of the current run (R33). -/
structure LatchVal where
  /-- The instruction's position in its run; 0 to 23; R33; at issue -/
  idx : Nat
  /-- The cycle in which the result completes; Nat; R32; at issue -/
  due : Nat
  /-- The result; 64; R15, R17; at issue -/
  val : DWord
  deriving DecidableEq, Repr

/-- One lane (R15). -/
structure Lane where
  /-- General registers, by physical index; n x 32 bits; R15, R16; zero, but for the launch's arguments (R167) -/
  regs : List Word
  /-- Predicates k0 to k7, bit i for ki; 8 x 1 bit; R15, R20; k0 true, the others false -/
  preds : BitVec 8
  /-- %flags; 32; R23; 0 -/
  flags : Word
  /-- %seed: C above K; 64; R154; 0 -/
  seed : DWord
  /-- Fixed-latency results of the current run not yet written; R31; empty -/
  pend : List PendWrite
  /-- SETS values of %seed not yet in effect, with their cycles; R96, R157; empty -/
  seedPend : List (Nat × DWord)
  /-- Run latches b1 to b7, held by the position of their producer; 64 bits each; R15, R33; cleared -/
  latches : List LatchVal
  /-- Runahead-invalid general registers; R380; empty -/
  invRegs : List Nat
  /-- Runahead-invalid predicates; R380; none -/
  invPreds : BitVec 8
  /-- Positions whose latch is runahead-invalid; R43; empty -/
  invLatches : List Nat
  /-- General registers that hold an uncorrectable error, by physical index; R396; empty -/
  badRegs : List Nat := []
  deriving DecidableEq, Repr

/-! ## Buffer records and the loop stack -/

/-- A buffer record register: the 32 bytes of R48. -/
structure BufRec where
  /-- VER; 8; R48; 0 -/
  ver : Byte
  /-- FMT; 8; R48, R49; 0x00 -/
  fmt : Byte
  /-- SWZ; 8; R48; 0 -/
  swz : Byte
  /-- FLG: bit 0 OOB, bit 1 BND; 8; R48; 0 -/
  flg : Byte
  /-- STRIDE; 32; R48; 0 -/
  stride : Word
  /-- BASE; 64; R48; 0 -/
  base : DWord
  /-- EXTENT; 32; R48; 0 -/
  extent : Word
  /-- BHANDLE; 32; R48; 0 -/
  bhandle : Word
  /-- Bytes 24 to 31, reserved; 64; R48, R12; 0 -/
  rsv : DWord
  deriving DecidableEq, Repr

/-- The record register at launch: all zero (R15). -/
def BufRec.zero : BufRec :=
  { ver := 0, fmt := 0, swz := 0, flg := 0, stride := 0, base := 0, extent := 0, bhandle := 0, rsv := 0 }

/-- One entry of the loop stack (R44). -/
structure LoopEntry where
  /-- Start; 32; R44; at push -/
  start : Word
  /-- End; 32; R44; at push -/
  stop : Word
  /-- Count; 32; R44; at push -/
  count : Word
  deriving DecidableEq, Repr

/-! ## The frontier -/

/-- What an instruction reads in one lane: the lane, its index, the window base, the instruction's position in its run
and the cycle in which the lane's slice issues (R31, R55). -/
structure LaneCtx where
  /-- The lane as it stands; R15; at issue -/
  lane : Lane
  /-- Its index; R15; at issue -/
  l : Nat
  /-- The window base; 9; R19; at issue -/
  winb : Nat
  /-- The instruction's position in its run; R29; at issue -/
  idx : Nat
  /-- The cycle in which its slice issues; R31; at issue -/
  cyc : Nat
  deriving DecidableEq, Repr

/-- A wave-scoped instruction or WAITC that a resumed entry performs again before it goes on, with the operands that it read
when it issued (R31, R367, R369). -/
structure Redo where
  /-- The instruction; R367; at issue -/
  instr : Instr
  /-- The window base that was in force; R367; at issue -/
  winb : Nat
  /-- Its address; 32; R367; at issue -/
  pc : Word
  /-- What it read in the lanes whose registers it uses; R31, R367; at issue -/
  ctxs : List LaneCtx
  /-- The record registers; R48, R367; at issue -/
  recs : List BufRec
  deriving DecidableEq, Repr

/-- One lane of a WAITC (R252, R309). -/
structure WaitLane where
  /-- The lane; R252; at issue -/
  lane : Nat
  /-- Its element's fabric-global address, or none when it is out of bounds under clamp-to-zero; 52; R309, R424; at issue -/
  pa : Option Nat
  /-- Virtual address of its element, for a report; 64; R372; at issue -/
  va : DWord
  /-- The value compared with; 64; R309; at issue -/
  val : DWord
  /-- Whether the compare has been observed true; R252; the compare at arming -/
  seen : Bool
  /-- When its line was last polled, in ns, its slice having had no free monitor; none with a monitor; R253; at arming -/
  poll : Option Nat
  /-- The wave's earlier writes of its element that had not reached their home at arming; R272; at issue -/
  after : List Nat
  deriving DecidableEq, Repr

/-- A WAITC that waits (R252, R309). -/
structure CmpWait where
  /-- Its place in program order; R260; at issue -/
  seq : Nat
  /-- Whether its first compare has been made, which a FENCE, an ACQ or a tag of its wave puts off; R252, R267; at issue -/
  armed : Bool
  /-- The elements' format; R309; at issue -/
  fmt : Fmt
  /-- The condition; R60; at issue -/
  cond : WCond
  /-- Its lanes; R252; at issue -/
  lanes : List WaitLane
  /-- The instruction, which a fault of a compare repeats; R367; at issue -/
  redo : Redo
  deriving DecidableEq, Repr

/-- An ACQ that waits (R266, R306). -/
structure AcqWait where
  /-- Its place in program order; R260; at issue -/
  seq : Nat
  /-- Whether its first read has been made; R266, R267; at issue -/
  armed : Bool
  /-- Fabric-global address of the object; 52; R264, R424; at issue -/
  obj : Nat
  /-- Its virtual address, for a report; 64; R372; at issue -/
  va : DWord
  /-- The value that it waits for; 64; R306; at issue -/
  val : DWord
  /-- Scope level; 0 to 7; R261; at issue -/
  level : Nat
  /-- The object's index; R264; at issue -/
  index : Nat
  /-- As a WAITC lane's; R253, R266; at arming -/
  poll : Option Nat
  /-- The instruction, which a fault of its read repeats; R367; at issue -/
  redo : Redo
  deriving DecidableEq, Repr

/-- Why a frontier entry is Blocked (R181). The waits are identities of posted writes, loads and commands. -/
inductive BlockWhy where
  | barrier (n : Nat) (phase : Bool)
  | gangBarrier (phase : Bool)
  | rcb (addr : Word)
  | tags (seq : Nat) (all : Bool) (mask : DWord) (dst : Option Nat) (report : Option Word)
  | acq (a : AcqWait)
  | rel (seq obj : Nat) (level index : Nat) (waits : List Nat) (inc : Option Nat)
  | fence (seq level : Nat) (waits : List Nat)
  | taken (seq : Nat) (waits : List Nat)
  | waitc (a : CmpWait)
  | tlbi (waits : List Nat) (va : DWord) (ctl : Word) (removed : Bool)
  | stores (waits : List Nat)
  | steal (dst : Nat) (status : Option Nat)
  | port (id : Nat) (waits : List Nat) (packet : List Byte) (tag : Option Nat)
  | wfi
  | halt
  | lantern
  | member (logical off : Nat) (bytes : List Byte)
  deriving DecidableEq, Repr

/-- What happens when a Parked entry is resumed (R369). -/
inductive Retry where
  | none
  | refetch
  | after (trailer : Word) (skips passes : Bool)
  | access (seq : Nat)
  | whole (redo : Redo)
  | goOn
  deriving DecidableEq, Repr

/-- A fault under which lanes are parked (R182, R367). -/
structure Parking where
  /-- Its code; R366; at the fault -/
  code : FaultCode
  /-- Its report, an identity; R372; at the fault -/
  report : Nat
  /-- What a resumption does; R369; at the fault -/
  retry : Retry
  deriving DecidableEq, Repr

/-- The state of a frontier entry (R181). Ready and Waiting are told apart by the pending marks (R27). An entry is Parked until each of its
faults has been disposed of. -/
inductive EntryState where
  | runnable
  | blocked (whys : List BlockWhy)
  | held (target : Option Word)
  | parked (faults : List Parking)
  deriving DecidableEq, Repr

/-- How an entry came to its PC, which decides what it becomes when it may run (R45, R90): `here` it simply runs,
`jumped` a branch took its lanes there, `loopEnd` its run's trailer is the top loop entry's end, where it is Held. -/
inductive Land where
  | here | jumped | loopEnd
  deriving DecidableEq, Repr

/-- A frontier entry (R181). -/
structure Entry where
  /-- PC; 32; R181, R15; the kernel's entry -/
  pc : Word
  /-- The lanes of the entry; 64; R181; all lanes -/
  mask : BitVec 64
  /-- Its state; R181; Ready -/
  st : EntryState
  /-- Its age, stopping at 2^32 - 1; R183; 0 -/
  age : Nat
  /-- How it came to its PC; R90; `here` -/
  land : Land
  /-- The instruction that it performs again when it next runs; R369; none -/
  redo : Option Redo := none
  /-- What it waits for once it is resumed: the waits of the run that parked it; R87, R182; empty -/
  after : List BlockWhy := []
  deriving DecidableEq, Repr

/-! ## Outstanding accesses of a wave -/

/-- A lane access that waits for its fault to be resolved (R182, R475). A bundle-bound one keeps the address that its instance gives the
element, which no translation changes (R233). -/
inductive ParkedOp where
  | load (fmt : Fmt) (hint : Hint) (bound : Option Nat)
  | store (bytes : List Byte)
  | rmw (op : RmwOp) (fmt : Fmt) (operand comparand : DWord) (level : Nat) (returns : Bool) (bound : Option Nat)
  deriving DecidableEq, Repr

/-- Where the data of a variable-latency result come from. -/
inductive LoadSrc where
  | value (v : DWord)
  | memory (pa : Nat) (fmt : Fmt) (hint : Hint)
  | remote (addr : DWord) (fmt : Fmt) (hint : Hint) (sent : Option Nat)
  | remoteData (bytes : List Byte) (fmt : Fmt)
  | reissue (fmt : Fmt) (hint : Hint)
  | rmw
  | member (team off size : Nat)
  | admission
  | fill (insts : List Nat)
  | launchReply (offer : Nat)
  | sump (write : Nat)
  | status (v : DWord)
  | performed (waits : List Nat) (v : DWord)
  | failed (f : FaultCode)
  | spoiled
  | parked (op : ParkedOp)
  deriving DecidableEq, Repr

/-- The part of a variable-latency result that goes to one lane. -/
structure LoadItem where
  /-- The lane; R37; at issue -/
  lane : Nat
  /-- The physical register written, none when the result is discarded; R18; at issue -/
  dst : Option Nat
  /-- Whether a pair is written; R17; at issue -/
  pair : Bool
  /-- Where its data come from; R37; at issue -/
  src : LoadSrc
  /-- Virtual address of its element, for a report and the access's repetition; 64; R372, R475; at issue -/
  va : DWord
  deriving DecidableEq, Repr

/-- An outstanding variable-latency result of a wave (R37, R38). -/
structure Load where
  /-- Its place in the wave's program order, an identity; R260; at issue -/
  seq : Nat
  /-- Its lanes; R37; at issue -/
  items : List LoadItem
  /-- Address of its instruction; 32; R372; at issue -/
  pc : Word
  /-- A wave-scoped instruction that a fault of the access repeats whole; R367; at issue -/
  whole : Option Redo
  /-- The registers that its run's trailer names, which a repeated access marks again; R37, R182; at issue -/
  named : List Nat := []
  /-- Once a barrier that follows it has been released: the writes of its team from this identity on follow the barrier, and the
  load reads none of them; R213; none -/
  upTo : Option Nat := none
  deriving DecidableEq, Repr

/-- A record load in flight (R97, R98). -/
structure RecLoad where
  /-- Its place in program order; R260; at issue -/
  seq : Nat
  /-- The record register; 4; R97; at issue -/
  reg : RecReg
  /-- The record's fabric-global address; 52; R97, R424; at issue -/
  pa : Nat
  /-- Address of its instruction; 32; R372; at issue -/
  pc : Word
  /-- Virtual address, for the report; 64; R372; at issue -/
  va : DWord
  /-- The lanes of the issuing entry, which a fault of the read parks; 64; R367; at issue -/
  mask : BitVec 64
  /-- The instruction, for its repetition; R367; at issue -/
  redo : Redo
  /-- When its read was sent to another device; ns; R439; none -/
  sent : Option Nat := none
  /-- The 32 bytes that another device has answered; R424; none -/
  data : Option (List Byte) := none
  /-- The fault that another device, or the port timeout, has answered; R439, R441; none -/
  fault : Option FaultCode := none
  /-- As a load's bound by a barrier; R213; none -/
  upTo : Option Nat := none
  /-- Whether its address is translated again, its team having been saved; R383; false -/
  reissue : Bool := false
  deriving DecidableEq, Repr

/-! ## What orders a wave's accesses -/

/-- The unperformed writes on which the order of a wave's later accesses rests (R270, R275, R276). -/
structure Deps where
  /-- Writes of its core that it has read from before they were performed; R275; empty -/
  readFrom : List Nat
  /-- Writes that were fenced before those, which precede what follows its next FENCE; R270; empty -/
  carried : List Nat
  /-- Writes that precede its last FENCE; R270; empty -/
  fenced : List Nat
  /-- For each register that a load has filled, the writes that the load has read from; R276; empty -/
  regs : List (Nat × List Nat)
  /-- The writes on which the branches, JRs and LOOPs taken so far depend; R276; empty -/
  ctrl : List Nat
  deriving DecidableEq, Repr

/-- A wave at launch depends on nothing. -/
def Deps.none : Deps := { readFrom := [], carried := [], fenced := [], regs := [], ctrl := [] }

/-! ## A run in progress -/

/-- The run that a wave is issuing (R25 to R37). -/
structure Run where
  /-- Address of its first word; 32; R25; at start -/
  start : Word
  /-- Its words, decoded when it was fetched, the trailer last; R62; at start -/
  words : List Instr
  /-- Position of the next word to issue; 0 to 24; R29; 0 -/
  idx : Nat
  /-- The cycle in which the next word's first slice issues; Nat; R29; 0 -/
  cycle : Nat
  /-- The lanes of the issuing entry; 64; R181; the selected entry's mask -/
  mask : BitVec 64
  /-- Its lanes of `parks` and `repeats`; 64; R182; none -/
  parkedMask : BitVec 64
  /-- The faults under which its lanes are parked from the trailer on; R182; empty -/
  parks : List (BitVec 64 × Parking)
  /-- The instruction that lanes resumed before the trailer perform again after it; R369; empty -/
  repeats : List (BitVec 64 × Redo) := []
  /-- The window base in force; 9; R19; %winb -/
  winb : Nat
  /-- %winb written for the next run; 9; R19, R93; none -/
  newWinb : Option Nat
  /-- The lanes that a branch takes, with their targets; R87; empty -/
  taken : List (Nat × Word)
  /-- The LOOP to be pushed at the trailer: start, end, count; R88; none -/
  push : Option LoopEntry
  /-- LOOP with a count of 0: where control continues; 32; R44; none -/
  skipTo : Option Word
  /-- Entries that LEAVE pops from the loop stack at the trailer; Nat; R89, R95; 0 -/
  leaves : Nat
  /-- Whether the entry yields; R40, R208; false -/
  yields : Bool
  /-- Whether its lanes exit at the trailer; R209; false -/
  exits : Bool
  /-- Whether the lantern is passed at the trailer; R210; false -/
  lpass : Bool
  /-- Whether the wave's turn on its quadrant ends at the trailer; R194; false -/
  turnEnds : Bool
  /-- Why the entries formed at the trailer are Blocked: they stay so until all of these have ended; R87; empty -/
  blocks : List BlockWhy
  /-- First free cycle of the quadrant's scratchpad port; Nat; R228; 0 -/
  spadPort : Nat
  /-- First free cycle of the quadrant's bundle port; Nat; R231; 0 -/
  bundlePort : Nat
  /-- A trap return at the trailer; R401; false -/
  returns : Bool
  /-- The next run's address given by TAKE, or where an entry whose instruction is repeated goes on; 32; R218, R369; none -/
  jump : Option (Word × Land)
  /-- The instruction that the run repeats, which reads its first operands; R367, R369; none -/
  again : Option Redo := none
  /-- Whether its next word waits for a FENCE, an ACQ or a tag of the same run, so that other waves may issue; R267; false -/
  stalled : Bool := false
  deriving DecidableEq, Repr

/-- The frozen state of a wave in runahead mode (R380). -/
structure Checkpoint where
  /-- Registers, predicates, %flags and %seed of every lane; R380; at entry to runahead -/
  lanes : List Lane
  /-- Loop stack; R380; at entry to runahead -/
  loops : List LoopEntry
  /-- %winb; R380; at entry to runahead -/
  winb : Nat
  /-- %rmode; R380; at entry to runahead -/
  rmode : Word
  /-- Frontier; R380; at entry to runahead -/
  frontier : List Entry
  /-- Progress count; R380; at entry to runahead -/
  progress : Nat
  /-- Registers the entry waits on; R381; at entry to runahead -/
  waitsOn : List Nat
  /-- Distinct registers written in runahead mode, at most 64; R380; empty -/
  written : List Nat
  /-- Instructions issued in runahead mode, at most 256; R381; 0 -/
  issued : Nat
  deriving DecidableEq, Repr

/-- Privilege levels (R397). -/
inductive Priv where
  | user | trap | supervisor
  deriving DecidableEq, Repr

/-- One wave (R158). -/
structure Wave where
  /-- %wave; 0 to 15; R21; its index -/
  idx : Nat
  /-- %width: W; 16, 32 or 64; R21; the region's WIDTH -/
  width : Nat
  /-- %nregs: n; 8 to 512; R21; the region's NREGS -/
  nregs : Nat
  /-- %winb; 9; R15, R22; 0 -/
  winb : Nat
  /-- %rmode; 32; R24; 0 -/
  rmode : Word
  /-- SETS values of %rmode not yet in effect, with their cycles; R96; empty -/
  rmodePend : List (Nat × Word)
  /-- Record registers a0 to a15; 16 x 32 bytes; R15, R48; all zero -/
  recs : List BufRec
  /-- Records placed by RECSET that become available at the next run; R98; empty -/
  recNext : List (Nat × BufRec)
  /-- Record loads in flight; R98; empty -/
  recLoads : List RecLoad
  /-- Loop stack, top first; at most 4 entries; R15, R44; empty -/
  loops : List LoopEntry
  /-- The lanes; W; R15, R158; as `Lane` -/
  lanes : List Lane
  /-- The frontier; at most W entries; R181; one entry of all lanes at the kernel's entry -/
  frontier : List Entry
  /-- The skip entry, by its PC; 32; R183, R184; none -/
  skip : Option Word
  /-- The selected entry, by its PC; 32; R183; none -/
  sel : Option Word
  /-- The run in progress; R25; none -/
  run : Option Run
  /-- Progress count, stopping at 2^32 - 1; R187; 0 -/
  progress : Nat
  /-- Outstanding variable-latency results; R37; empty -/
  loads : List Load
  /-- Pending marks, by physical register; R37; empty -/
  marks : List Nat
  /-- Armed phase of each barrier; 16 x (none or a phase); R212; none -/
  armed : List (Option Bool)
  /-- Whether the wave has issued GBAR in the current gang phase; R215; false -/
  gbarDone : Bool
  /-- Current join cell address; 64; R216; 0 -/
  joinCell : DWord
  /-- Identities of unperformed writes that hb-precede the wave's next access; R267, R271; empty -/
  before : List Nat
  /-- What its reads have made it depend on; R270, R275, R276; nothing -/
  deps : Deps
  /-- Cycles until every fixed-latency result of its last run is written; R28; 0 -/
  drain : Nat
  /-- Lanes that have exited with a store or a read-modify-write that waits under a report; R209; empty -/
  ghosts : List (BitVec 64 × Parking)
  /-- Number of causes that hold the wave; R41; 0 -/
  holds : Nat
  /-- Runahead checkpoint; R380; none -/
  runahead : Option Checkpoint
  /-- Privilege; R397; user, on a supervisor core supervisor -/
  priv : Priv
  /-- In the save entry (true) or the restore entry (false) of trap mode; R386, R401; false -/
  saving : Bool
  deriving DecidableEq, Repr

/-! ## Engine commands -/

/-- A vault set: first vault, chain length, column groups and B format code (R335, R358). -/
structure VaultSet where
  /-- V0; 5; R358; at issue -/
  v0 : Nat
  /-- L; 1, 2, 4 or 8; R335; at issue -/
  chain : Nat
  /-- C; 1 to 32; R335; at issue -/
  groups : Nat
  /-- BF; 5; R358; at issue -/
  bf : Fmt
  deriving DecidableEq, Repr

/-- The epilogue descriptor as EPI copied it (R344, R362). -/
structure Epilogue where
  /-- Its address; 64; R345; at EPI -/
  addr : DWord
  /-- OFMT; 8; R344; at EPI -/
  ofmt : Fmt
  /-- ACT; 8; R344; at EPI -/
  act : Nat
  /-- FLG[0] BIAS; R344; at EPI -/
  bias : Bool
  /-- FLG[1] SVEC; R344; at EPI -/
  svec : Bool
  /-- FLG[2] RM; R344; at EPI -/
  rtz : Bool
  /-- CT; 16; R344; at EPI -/
  ct : Nat
  /-- OBASE; 64; R344; at EPI -/
  obase : DWord
  /-- OSTRIDE; 32; R344; at EPI -/
  ostride : Word
  /-- SCALE; 32; R344; at EPI -/
  scale : Word
  /-- BIASV; 64; R344; at EPI -/
  biasv : DWord
  /-- SCALEV; 64; R344; at EPI -/
  scalev : DWord
  deriving DecidableEq, Repr

/-- What a COPY names (R331, R356). -/
structure CopyArgs where
  /-- DIR: 0 global to scratchpad, 1 scratchpad to global, 2 global to global; R356; at issue -/
  dir : Nat
  /-- The source record; R356; at issue -/
  src : BufRec
  /-- The destination record; R356; at issue -/
  dst : BufRec
  /-- SPOS; 32; R356; at issue -/
  spos : Nat
  /-- DPOS; 32; R356; at issue -/
  dpos : Nat
  /-- CNT; 32; R356; at issue -/
  cnt : Nat
  /-- DQ; R333, R356; at issue -/
  dq : Bool
  /-- DQF: FP32 output, else BF16; R356; at issue -/
  dqf32 : Bool
  /-- SWZ; 0 to 3; R333, R356; at issue -/
  swz : Nat
  deriving DecidableEq, Repr

/-- What an MLOOP names (R337, R360). -/
structure MloopArgs where
  /-- The vault set; R358; at issue -/
  set : VaultSet
  /-- ABASE; 32; R360; at issue -/
  abase : Nat
  /-- AINC; 32; R360; at issue -/
  ainc : Nat
  /-- INT; R134, R360; at issue -/
  int : Bool
  /-- AF; R360; at issue -/
  af : Fmt
  /-- R; 1 to 1,048,575; R360; at issue -/
  rows : Nat
  /-- KTAG; 12; R360; at issue -/
  ktag : Nat
  /-- RING; 6; R360; at issue -/
  ring : Nat
  /-- FIRST; 12; R360; at issue -/
  first : Nat
  deriving DecidableEq, Repr

/-- What an engine command does (R356 to R362). -/
inductive CmdKind where
  /-- COPY, with the destination bytes already reached (R331). -/
  | copy (args : CopyArgs) (done : Nat)
  /-- VFILL: the set and the scratchpad offset (R359). -/
  | vfill (set : VaultSet) (off : Nat)
  /-- MLOOP, with the steps already made (R337). -/
  | mloop (args : MloopArgs) (step : Nat)
  /-- ARING: REL, INT, the ring number, the target, N and the base (R361). -/
  | aring (rel int : Bool) (ring target n : Nat) (base : DWord)
  /-- EPI: the ring's die and number, the slots left to drain, the descriptor (R345, R362). -/
  | epi (die ring left : Nat) (desc : Epilogue)
  deriving DecidableEq, Repr

/-- A read of another device's memory that an engine command has sent (R424, R440). -/
structure Fetch where
  /-- Its identity; MODEL, log 5; unique -/
  id : Nat
  /-- Fabric-global address; 52; R424; at the read -/
  addr : Nat
  /-- Number of bytes; R424; at the read -/
  size : Nat
  /-- When it was sent; ns; R440; at the read -/
  sentAt : Nat
  /-- Its data, once they have come; R424; none -/
  data : Option (List Byte)
  deriving DecidableEq, Repr

/-- An engine command in a queue (R325, R327). -/
structure Command where
  /-- Its identity; MODEL, log 5; unique -/
  id : Nat
  /-- The issuing team; R327; at issue -/
  team : Nat
  /-- The issuing wave; R327; at issue -/
  wave : Nat
  /-- The issuing lane; R330; at issue -/
  lane : Nat
  /-- The tag it owns; R329; at issue -/
  tag : Option Nat
  /-- Address of its instruction; 32; R372; at issue -/
  pc : Word
  /-- What it does; R356 to R362; at issue -/
  kind : CmdKind
  /-- Writes and loads that must be performed before it starts; R280; at issue -/
  waits : List Nat
  /-- Commands that must have completed before it starts; R279; at issue -/
  after : List Nat
  /-- Whether it has started; R280; false -/
  started : Bool
  /-- Whether a matrix step of it is in progress; R338; false -/
  stepping : Bool := false
  /-- Flags it has raised; 32; R330; 0 -/
  flags : Word
  /-- The fault that ends it, with its address; R330; none -/
  fault : Option (FaultCode × Option DWord)
  /-- Whether what has met it is one of its EPI's writes, which concerns the ring's domain; R346; false -/
  ringFault : Bool := false
  /-- The page report that it waits for; R330, R376; none -/
  page : Option Nat
  /-- Its writes, which are performed before it completes; R281; empty -/
  writes : List Nat
  /-- Its reads of other devices' memory; R424; empty -/
  fetches : List Fetch
  /-- Whether it is a lantern operation of an ordered launch; R195, R355; at issue -/
  shared : Bool
  deriving DecidableEq, Repr

/-! ## A team -/

/-- A completion tag (R329). -/
structure Tag where
  /-- Ready bit; 1; R329; clear -/
  ready : Bool
  /-- Status byte; 8; R329, R354; 0 -/
  status : Byte
  /-- Identity of the command that owns it; R329; none -/
  owner : Option Nat
  /-- Whether a LAUNCH or an INVOKE set it, whose observation follows the launched work's accesses; R282; false -/
  far : Bool
  deriving DecidableEq, Repr

/-- One team barrier (R212). -/
structure Barrier where
  /-- Expected count E; R212; 0 -/
  expected : Nat
  /-- Arrival count; R212; 0 -/
  count : Nat
  /-- The waves that have arrived; R212; empty -/
  arrived : List Nat
  /-- Phase bit; 1; R212; 0 -/
  phase : Bool
  deriving DecidableEq, Repr

/-- A store that a DUAL copy holds back until a compare point (R393). -/
structure DualStore where
  /-- Its identity, which its posted write keeps; MODEL, log 5; unique -/
  id : Nat
  /-- Virtual address; R378; at the store -/
  va : DWord
  /-- Fabric-global address; R393; at the store -/
  pa : Nat
  /-- The bytes; R393; at the store -/
  bytes : List (Option Byte)
  deriving DecidableEq, Repr

/-- The DUAL state of a copy (R393). -/
structure Dual where
  /-- The other copy's team; R393; at placement -/
  peer : Nat
  /-- Whether this is the primary; R393; at placement -/
  primary : Bool
  /-- The buffered global store stream, at most 16 KiB; R393; empty -/
  stream : List DualStore
  /-- The wave of the copy that stands at a compare point; R393; none -/
  atPoint : Option Nat
  /-- Whether the compare point has been passed and its request may be performed; R393; false -/
  passed : Bool
  /-- In the secondary, the primary's load that its own request's result is shared with; R393; none -/
  shares : Option Nat
  deriving DecidableEq, Repr

/-- The range of a sump launch (R350). -/
structure SumpRange where
  /-- Node control block's physical address; R350; at trigger -/
  node : Nat
  /-- First sequence number; 64; R350; at trigger -/
  start : Nat
  /-- Number of records; R350; at trigger -/
  count : Nat
  /-- Records released by SUMPX; R365; 0 -/
  released : Nat
  deriving DecidableEq, Repr

/-- One team (R158). A supervisor core is held as a team of one wave that no launch has started (log entry 8). -/
structure Team where
  /-- Its identity; MODEL, log 5; unique -/
  id : Nat
  /-- The launch it belongs to, none for a supervisor core; R158; at start -/
  launch : Option Nat
  /-- The core: die x 100 + %core; R21; at start -/
  core : Nat
  /-- Logical team index s; R171; at start -/
  logical : Nat
  /-- %team; 32; R160; at start -/
  linear : Word
  /-- Its waves; 1 to 16; R158; as `Wave` -/
  waves : List Wave
  /-- Bytes of its scratchpad that are not zero; SPAD bytes; R225; reads as zero -/
  spad : List Host.Cell
  /-- SPAD; 0 to 983,040; R168; the region's SPAD, on a supervisor core 0 -/
  spadSize : Nat
  /-- Offset of the allocation in the core's scratchpad; R225; lowest free -/
  spadBase : Nat
  /-- 1 KiB regions written since launch; R386; empty -/
  spadRegions : List Nat
  /-- Bytes of its scratchpad that hold an uncorrectable error; R396; empty -/
  spadBad : List Nat := []
  /-- Completion tags t0 to t(TAGS - 1); R329; clear, no owner -/
  tags : List Tag
  /-- Barriers 0 to 15; R212; count 0, phase 0 -/
  barriers : List Barrier
  /-- First member's logical index of its gang; R160; at start -/
  gangBase : Nat
  /-- Gang size; R160; at start -/
  gangSize : Nat
  /-- Whether a pre-emption request names it; R382; false -/
  preempt : Bool
  /-- When the request was made; ns; R382; 0 -/
  preemptAt : Nat := 0
  /-- Whether the barrier limit has expired; R382; false -/
  limitPassed : Bool
  /-- Whether its launch is being ended: its waves stop at their next run boundary; R371; false -/
  ending : Bool
  /-- Its last VFILLs, in order: vault, B format, scratchpad offset; R387; empty -/
  fillLog : List (Nat × Fmt × Nat)
  /-- DUAL state; R393; none -/
  dual : Option Dual
  /-- Whether it is the save or restore handler's turn; R386; false -/
  restoring : Bool
  /-- Engine commands of the team while it is saved, with their queues; R383, R384; empty -/
  held : List (Nat × Command)
  /-- Commands of the team, while it is saved, that the later ones of a queue wait for; R279, R384; empty -/
  heldFences : List (Nat × List Nat) := []
  /-- Whether it is saved because all its waves wait in WAITC: it returns once a compare ends a wait; R254; false -/
  echo : Bool := false
  /-- Whether it has ended, its scratchpad being kept for its gang; R179; false -/
  gone : Bool
  deriving DecidableEq, Repr

/-! ## Launches and partitions -/

/-- Who asked for a launch (R162). -/
inductive Source where
  | supervisor (team seq : Nat)
  | instr (team : Nat) (tag : Option Nat)
  | host (tag : Option Nat) (wend : Bool)
  | remote (dev : Nat) (tag : Option Nat) (die : Nat) (seq : Word) (wend : Bool)
  | sump (range : SumpRange)
  | handler (report : Nat)
  deriving DecidableEq, Repr

/-- A shared-range entry of a region control block (R168). -/
structure SharedRange where
  /-- BASE; 64; R168; 0 -/
  base : DWord
  /-- LEN; 32; R168; 0, unused -/
  len : Word
  /-- SO; 8; R168; 0 -/
  so : Byte
  deriving DecidableEq, Repr

/-- The budgets that one block of a launch's chain owns (R170). -/
structure Budget where
  /-- Address of the block; R170; at acceptance -/
  block : DWord
  /-- CORES; R168; at acceptance -/
  cores : Nat
  /-- TAGS; R168; at acceptance -/
  tags : Nat
  /-- SPAD; R168; at acceptance -/
  spad : Nat
  /-- BLINES; R168; at acceptance -/
  blines : Nat
  /-- RSLOTS; R168; at acceptance -/
  rslots : Nat
  deriving DecidableEq, Repr

/-- The effective region of a launch (R168, R169). -/
structure Region where
  /-- Address of the region control block; 64; R165; at acceptance -/
  block : DWord
  /-- MODE[0]; R168; at acceptance -/
  ord : Bool
  /-- MODE[1]; R168; at acceptance -/
  dual : Bool
  /-- MODE[2]; R168; at acceptance -/
  nofair : Bool
  /-- MODE[3]; R168; at acceptance -/
  preempt : Bool
  /-- MODE[4]; R168; at acceptance -/
  task : Bool
  /-- PRIO; 0 to 3; R168; at acceptance -/
  prio : Nat
  /-- W from WIDTH; 16, 32 or 64; R168; at acceptance -/
  width : Nat
  /-- NREGS; R168; at acceptance -/
  nregs : Nat
  /-- CARVE; 0 to 4; R168, R224; at acceptance -/
  carve : Nat
  /-- CURVE; 0 to 3; R168, R172; at acceptance -/
  curve : Nat
  /-- TILE; 8; R168; at acceptance -/
  tile : Byte
  /-- TSWZ[0]; R168; at acceptance -/
  serpentine : Bool
  /-- DUALN; R168; at acceptance -/
  dualn : Nat
  /-- WAVES; 1 to 16; R168; at acceptance -/
  waves : Nat
  /-- GANG; R168; at acceptance -/
  gang : Nat
  /-- TAGS; 0 to 64; R168; at acceptance -/
  tags : Nat
  /-- SPAD; R168; at acceptance -/
  spad : Nat
  /-- CORES; 1 to 384; R168; at acceptance -/
  cores : Nat
  /-- BLINES; 32; R168; at acceptance -/
  blines : Nat
  /-- RSLOTS; 16; R168; at acceptance -/
  rslots : Nat
  /-- The budgets of the chain's blocks that set group 5; R170; at acceptance -/
  budgets : List Budget
  /-- GRIDX; 32; R168; at acceptance -/
  gx : Nat
  /-- GRIDY; 32; R168; at acceptance -/
  gy : Nat
  /-- ENTRY, low 32 bits of the word address; R168; at acceptance -/
  entry : Word
  /-- FDH; R168; at acceptance -/
  fdh : Word
  /-- FDPOL; 0 to 2; R168, R368; at acceptance -/
  fdpol : Nat
  /-- WDOG in ms; R168; at acceptance -/
  wdog : Nat
  /-- F: the fairness interval in cc; R168, R183; at acceptance -/
  fair : Nat
  /-- SPILLN; R168; at acceptance -/
  spilln : Nat
  /-- SPILL; R168; at acceptance -/
  spill : DWord
  /-- CSA; R168, R385; at acceptance -/
  csa : DWord
  /-- SHR0 to SHR3; R168; at acceptance -/
  shr : List SharedRange
  /-- SYN0 to SYN7; R168; at acceptance -/
  syn : List DWord
  deriving DecidableEq, Repr

/-- The states of a lantern (R196). -/
inductive Lantern where
  | at (wave : Nat)
  | passing (wave : Nat)
  | awaiting (wave : Nat)
  | retired
  deriving DecidableEq, Repr

/-- The barrier of one gang (R215). -/
structure Gang where
  /-- Logical index of its first member; R160; at the gang's first GBAR -/
  first : Nat
  /-- Its member teams; R160; at the gang's first GBAR -/
  size : Nat
  /-- The expected count of the phase, fixed by its first GBAR; R215; none -/
  expected : Option Nat
  /-- Completed phases; R462; 0 -/
  phases : Nat
  /-- The team whose arrival fulfils the phase, before its release; R462; none -/
  last : Option Nat
  /-- Whether a member team has arrived in the phase; R462; false -/
  begun : Bool
  deriving DecidableEq, Repr

/-- One accepted launch (R158, R164, R169). -/
structure Launch where
  /-- Its identity, in the order of acceptance; R194; unique -/
  id : Nat
  /-- Its partition; 0 to 15; R161; at acceptance -/
  part : Nat
  /-- Its source; R162; at acceptance -/
  source : Source
  /-- Its address space; 12; R376; %pasid of its partition -/
  asid : Nat
  /-- Its launch queue; 0 to 3; R161, R350, R370; at acceptance -/
  queue : Nat
  /-- Levels its head has risen by; 0 to 3; R163; 0 -/
  aged : Nat
  /-- Time its head's aging interval began; ns; R163; when it becomes the head -/
  agedAt : Nat
  /-- The effective region; R169; at acceptance -/
  region : Region
  /-- Argument words; 12 x 32; R166; at acceptance -/
  args : List Word
  /-- Bundle handles named; at most 4; R165; at acceptance -/
  bundles : List Word
  /-- Next step of the placement walk; R172; 0 -/
  walk : Nat
  /-- Logical index of the next team; R171; 0 -/
  nextTeam : Nat
  /-- Logical indices whose saved teams wait to be placed again; R389; empty -/
  savedTeams : List Nat
  /-- Teams that have ended; R164; 0 -/
  ended : Nat
  /-- The lantern of an ordered launch; R195, R196; at wave 0 -/
  lantern : Option Lantern
  /-- Dies on which the launch holds its bundle entry; R175, R246; empty -/
  entryDies : List Nat
  /-- Why it is being ended; R371; none -/
  ending : Option FaultCode
  /-- The range of a sump launch; R350; none -/
  range : Option SumpRange
  /-- Logical index and wave of each wave that has exited; R196; empty -/
  exited : List Nat
  /-- Barriers of its gangs; R215; empty -/
  gangs : List Gang
  /-- Writes that must be performed before its teams start; R220, R283; the offer's -/
  after : List Nat
  /-- Whether a team of it has been displaced for the one that the lantern awaits, which then goes first; R196; false -/
  displaced : Bool := false
  deriving DecidableEq, Repr

/-- A launch offered to the distributor (R162, R169). -/
structure Offer where
  /-- Its identity; MODEL, log 5; unique -/
  id : Nat
  /-- The partition; R220, R405; at the offer -/
  part : Nat
  /-- Template address; 64; R165; at the offer -/
  template : DWord
  /-- Its source; R162; at the offer -/
  source : Source
  /-- Writes that must be performed before the launched teams access memory; R220, R283; at the offer -/
  after : List Nat
  /-- Arguments that replace ARGS; R166; none -/
  args : Option (List Word)
  /-- Priority that replaces the region's; R350, R434; none -/
  prio : Option Nat
  deriving DecidableEq, Repr

/-- One extent of a bundle (R234). -/
structure Extent where
  /-- BASE_i; 64; R234; at BDECL -/
  base : Nat
  /-- LEN_i; 32; R234; at BDECL -/
  len : Nat
  deriving DecidableEq, Repr

/-- One entry of a partition's declaration table that is in use or has been (R235). -/
structure Decl where
  /-- Index in the table; 10; R235; at BDECL -/
  idx : Nat
  /-- Generation; 18; R235, R299; 1 at the first use -/
  gen : Nat
  /-- Whether it holds a declaration; R235, R304; at BDECL -/
  live : Bool
  /-- The extents; at most 16; R234; at BDECL -/
  extents : List Extent
  deriving DecidableEq, Repr

/-- A partition's reset in progress (R391, R392, R405). -/
structure Resetting where
  /-- CODE of its KIND 3 record: 17 for the watchdog, 0 for PART; R392, R405; at the start -/
  code : Nat
  /-- RCB of the record; 64; R392; at the start -/
  rcb : DWord
  /-- Launches that it ends; R392; at the start -/
  ended : Nat
  /-- The team, wave and load of each PART that waits for its end; R405; at the PART -/
  replies : List (Nat × Nat × Nat)
  deriving DecidableEq, Repr

/-- One partition (R158, R408, R465, R474). -/
structure Part where
  /-- %pasid; 32 ([11:0]); R408; 0 -/
  pasid : Word
  /-- %prbase; 64; R408; 0 -/
  prbase : DWord
  /-- %prsize; 32; R408, R474; 6 -/
  prsize : Word
  /-- %prhead; 32; R408; 0 -/
  prhead : Word
  /-- %prtail; 32; R408; 0 -/
  prtail : Word
  /-- %prdrop; 32; R408; 0 -/
  prdrop : Word
  /-- %paging; 32; R408, R474; 1,000 -/
  paging : Word
  /-- %pbarlim; 32; R408, R474; 4,000 -/
  pbarlim : Word
  /-- %prefuse; 32; R408; 0 -/
  prefuse : Word
  /-- %pibc; 32; R408, R118; 0 -/
  pibc : Word
  /-- %pbud0 to %pbud3; 4 x 32; R408; 0 -/
  pbud : List Word
  /-- %psave; 32; R408; 0 -/
  psave : Word
  /-- %prest; 32; R408; 0 -/
  prest : Word
  /-- %pdone; 32; R408; 0 -/
  pdone : Word
  /-- %ptbase; 64; R465; 0 -/
  ptbase : DWord
  /-- %ptsize; 32; R465; k = 6, STEP clear -/
  ptsize : Word
  /-- %pthead; 32; R465; 0 -/
  pthead : Word
  /-- %pttail; 32; R465; 0 -/
  pttail : Word
  /-- %ptdrop; 32; R465; 0 -/
  ptdrop : Word
  /-- Declaration table; 1,024 entries; R235; empty -/
  decls : List Decl
  /-- Watchdog timer of each launch queue: its launch, when it was armed in ns and its timeout in ms; 4; R390; stopped -/
  timers : List (Option (Nat × Nat × Nat))
  /-- The last core the distributor used; R174; none -/
  lastCore : Option Nat
  /-- Its reset in progress, during which its launch queues take no launch; R391, R476; none -/
  resetting : Option Resetting
  /-- When the last group of its cores started; ns; R455; none -/
  groupAt : Option Nat := none
  deriving DecidableEq, Repr

/-! ## Queues, vaults and cores -/

/-- One engine queue (R325, R328). -/
structure Queue where
  /-- Its commands, the head first; depth 16 or 8; R325; empty -/
  cmds : List Command
  /-- Completion counter; 32; R328; 0 -/
  counter : Word
  /-- Commands that a later command must wait for; R279; empty -/
  fence : List Nat
  deriving DecidableEq, Repr

/-- One vault (R334, R336). -/
structure Vault where
  /-- Its B as VFILL read it, column by column; 16 KiB of cells; R334, R336; every cell +0 -/
  b : List Byte
  /-- The recorded B format, none after a reset; R359, R360; none -/
  bf : Option Fmt
  /-- The MLOOPs with integer accumulation that have counted its ill-formed blocks; R135; empty -/
  counted : List Nat
  /-- In retention; R455; false -/
  retained : Bool
  /-- When it last served a step or a fill; ns; R455; 0 -/
  usedAt : Nat
  /-- In error until a VFILL rewrites it; R396; false -/
  bad : Bool
  deriving DecidableEq, Repr

/-- A task record (R189). -/
structure Task where
  /-- ENTRY; 64; R189; at FORK -/
  entry : DWord
  /-- JOINC; 64; R189; at FORK -/
  joinc : DWord
  /-- ARGS; 10 x 32; R189; at FORK -/
  args : List Word
  /-- Writes that a reader of the record must see performed first; R193; at FORK -/
  after : List Nat
  deriving DecidableEq, Repr

/-- One compute core (R158). -/
structure Core where
  /-- die x 100 + core number; R21; its own -/
  id : Nat
  /-- The partition it belongs to; R405; none -/
  part : Option Nat
  /-- Whether it has started after power-up or its partition's reset; R455; false -/
  started : Bool
  /-- Whether it has halted; R374, R403; false -/
  halted : Bool
  /-- Carve-out code in force; 0 to 4; R224; none before the first team -/
  carve : Option Nat
  /-- On-chip task deque, the youngest first; at most 512; R190; empty -/
  deque : List Task
  /-- Spilled blocks of 256 records, the youngest first, as the spill segment holds them; R191; empty -/
  spill : List (List Task)
  /-- Steal LFSR; 16; R192; core number + 1 at partition reset -/
  lfsr : BitVec 16
  /-- Whether the steal unit is probing: victims already probed; R192; none -/
  probed : List Nat
  /-- Engine queues: copy 0-3, matrix 0-3, flowstone; 9; R278, R325; empty -/
  queues : List Queue
  /-- The ordered wave whose turn it is on each quadrant: team and wave; 4; R194; none -/
  turns : List (Option (Nat × Nat))
  /-- Vaults 0 to 31; R334; as `Vault` -/
  vaults : List Vault
  deriving DecidableEq, Repr

/-! ## Supervisor cores -/

/-- The registers that exist once per supervisor core (R408, R474). -/
structure Sup where
  /-- %tvec; 32; R408; 0 -/
  tvec : Word
  /-- %tfp; 64; R408; 0 -/
  tfp : DWord
  /-- %tlim; 64; R408; 0 -/
  tlim : DWord
  /-- %twb; 32; R408; 0 -/
  twb : Word
  /-- %sie; 32; R408; 0 -/
  sie : Word
  /-- %sip; 32; R408; 0 -/
  sip : Word
  /-- %stcmp; 64; R408, R474; 0xFFFF_FFFF_FFFF_FFFF -/
  stcmp : DWord
  /-- %psel; 32; R408; 0 -/
  psel : Word
  /-- %scsel; 32; R408, R474; 0x0000_0001 -/
  scsel : Word
  /-- Halted; its bit of %shalt; R403, R474; true but for core 0 of D0 -/
  halted : Bool
  deriving DecidableEq, Repr

/-! ## Memory agents -/

/-- A posted write that its home has not applied, or whose copies have not all acknowledged (R263, R416). -/
structure Posted where
  /-- Its identity; MODEL, log 5; unique, rising with program order -/
  id : Nat
  /-- The issuing team and wave; R258; at issue -/
  team : Nat
  /-- The issuing wave; R258; at issue -/
  wave : Nat
  /-- The issuing core; R258; at issue -/
  core : Nat
  /-- Local physical address, or fabric-global address of a remote store; R424; at issue -/
  pa : Nat
  /-- The bytes of one line from there on, none where the request writes nothing; R54; at issue -/
  bytes : List (Option Byte)
  /-- Whether the line is homed on another device; R424; at issue -/
  remote : Bool
  /-- Whether it is a bundle-bound store, held in its die's overlay; R421; at issue -/
  bound : Bool
  /-- Whether its home has ordered it, and awaits the acknowledgements of its copies; to another device, whether it has been sent;
  R263, R416; false -/
  applied : Bool
  /-- When that was; ns; R414; 0 -/
  appliedAt : Nat := 0
  /-- Dies whose invalidation or update has not been acknowledged; R416, R418; at application -/
  acks : List Nat
  /-- Dies that answered "none held"; R416; empty -/
  noneHeld : List Nat
  /-- Dies that have dropped their copy, their acknowledgement being on its way; R416; empty -/
  dropped : List Nat
  /-- Whether it lies in a shared range of an ordered launch: a lantern operation; R195; at issue -/
  shared : Bool
  /-- Virtual address, for reports; 64; R440; at issue -/
  va : DWord
  /-- Writes that a FENCE of its wave has ordered before it and that are unperformed; R270; at issue -/
  carries : List Nat := []
  /-- Writes that must be performed before it; R276; at issue -/
  after : List Nat := []
  deriving DecidableEq, Repr

/-- A read-modify-write on its way to its home (R273, R310). -/
structure Rmw where
  /-- Its identity, rising with program order and lane; MODEL, log 5; unique -/
  id : Nat
  /-- The request: shared by the lanes of one instruction that address one element; R255; at issue -/
  req : Nat
  /-- The issuing team; R258; at issue -/
  team : Nat
  /-- The issuing wave; R258; at issue -/
  wave : Nat
  /-- The issuing lane; R255; at issue -/
  lane : Nat
  /-- The issuing core; R258; at issue -/
  core : Nat
  /-- The element's address; R310; at issue -/
  pa : Nat
  /-- The operation; R310; at issue -/
  op : RmwOp
  /-- The element's type; R310; at issue -/
  fmt : Fmt
  /-- The operand, for CAS the new value; 64; R310; at issue -/
  operand : DWord
  /-- CAS comparand; 64; R310; at issue -/
  comparand : DWord
  /-- The load that receives the old value, none for RED; R311; at issue -/
  load : Option Nat
  /-- Scope level; 0 to 7; R261; at issue -/
  level : Nat
  /-- Whether its launch is ordered; R255; at issue -/
  ordered : Bool
  /-- Whether it is homed on another device; R425; at issue -/
  remote : Bool
  /-- When it was sent to another device; ns; R439; none -/
  sentAt : Option Nat
  /-- Virtual address, for reports; 64; R372; at issue -/
  va : DWord
  /-- Address of its instruction; 32; R372; at issue -/
  pc : Word
  /-- As a posted write's; R270; at issue -/
  carries : List Nat := []
  /-- As a posted write's; R276; at issue -/
  after : List Nat := []
  /-- The writes that hb-precede it, which RMWs of its bytes follow; R284; at issue -/
  prior : List Nat := []
  /-- The posted write that carries its result, once its home has ordered it; R263; none -/
  result : Option Nat := none
  /-- Whether it is bundle-bound; R54; at issue -/
  bound : Bool := false
  deriving DecidableEq, Repr

/-- A performed write that carried unperformed ones: a later reader of its core still takes them over (R270). -/
structure PastWrite where
  /-- The writing core; R258; at the write's end -/
  core : Nat
  /-- Fabric-global address; R270; at the write's end -/
  addr : Nat
  /-- Number of bytes; R270; at the write's end -/
  size : Nat
  /-- What it carried; R270; at the write's end -/
  carries : List Nat
  deriving DecidableEq, Repr

/-- A copy of a 64-byte line in a core's L1, in a die's L2 or as a scoped copy of a remote line (R226, R415, R425). -/
structure LineCopy where
  /-- The core (L1) or the die (L2) that holds it; R226; at the copy -/
  holder : Nat
  /-- The line's address; R226; at the copy -/
  line : Nat
  /-- Its 64 bytes; R226; at the copy -/
  data : List Byte
  /-- Whether it is the only modified copy (L2); R420, R423; false -/
  modified : Bool
  /-- Its replacement priority in an L1: 0 lowest, 1, 2 highest; R60, R226; 1 -/
  prio : Nat := 1
  deriving DecidableEq, Repr

/-- A directory entry (R415). -/
structure DirEntry where
  /-- Home die; R415; at creation -/
  die : Nat
  /-- First line of the region; R415; at creation -/
  base : Nat
  /-- j: the region is 2^j lines; 0 to 10; R415; at creation -/
  j : Nat
  /-- Sharer mask over the dies; 4; R415; at creation -/
  sharers : List Nat
  /-- Update mode; R415; invalidate -/
  update : Bool
  /-- Pattern counter; 2; R415, R418; 0 -/
  counter : Nat
  /-- Dies invalidated by the last write; R418; empty -/
  invalidated : List Nat
  /-- Whether another die has read the line since the previous write; R418; false -/
  readSince : Bool
  /-- When it last sent or received anything; ns; R417, R419; at creation -/
  usedAt : Nat
  deriving DecidableEq, Repr

/-- A push of a written line's bytes to an update-mode copy (R418, R421). -/
structure Push where
  /-- The posted write it carries; R421; at application -/
  posted : Nat
  /-- The die it goes to; R421; at application -/
  die : Nat
  /-- Address of the bytes; R421; at application -/
  pa : Nat
  /-- The bytes; R421; at application -/
  bytes : List (Option Byte)
  /-- Its number on its line; R421; at application -/
  num : Nat
  deriving DecidableEq, Repr

/-- A bound store's bytes that its die's copy does not yet hold (R421). -/
structure Overlay where
  /-- The storing die; R421; at the store -/
  die : Nat
  /-- The posted write; R421; at the store -/
  posted : Nat
  /-- Address of the bytes; R421; at the store -/
  pa : Nat
  /-- The bytes; R421; at the store -/
  bytes : List (Option Byte)
  deriving DecidableEq, Repr

/-- A translation held by a TLB (R376, R377). -/
structure TlbEntry where
  /-- The core (L1 TLB) or the die (L2 TLB); R376; at the walk -/
  holder : Nat
  /-- ASID; 12; R376; at the walk -/
  asid : Nat
  /-- First virtual address of the page; 56; R377; at the walk -/
  va : Nat
  /-- log2 of the page size: 16, 21 or 30; R377; at the walk -/
  log : Nat
  /-- Fabric-global address of the page; 52; R377; at the walk -/
  pa : Nat
  /-- R; R377; at the walk -/
  r : Bool
  /-- W; R377; at the walk -/
  w : Bool
  /-- X; R377; at the walk -/
  x : Bool
  deriving DecidableEq, Repr

/-! ## Bundles, rings and sumps -/

/-- Who holds a bundle entry (R236). -/
inductive Holder where
  | team (id : Nat)
  | launch (id : Nat)
  deriving DecidableEq, Repr

/-- The states of a bundle's residency on a die (R245). -/
inductive BState where
  | filling | entered | unentered | orphaned | failed
  deriving DecidableEq, Repr

/-- A bundle's residency on a die (R236). -/
structure BInst where
  /-- Its identity; MODEL, log 5; unique -/
  id : Nat
  /-- The declaring partition; R235; at admission -/
  part : Nat
  /-- The declaration's handle; 32; R235; at admission -/
  handle : Word
  /-- The die; R236; at admission -/
  die : Nat
  /-- Its state; R245; Filling -/
  st : BState
  /-- Its holders' entries; R236; the first holder -/
  entries : List Holder
  /-- Its lines: virtual line and, once placed, the fabric-global address of its line; R241; none placed -/
  lines : List (Nat × Option Nat)
  /-- When its entry count last fell to 0; ns; R238; 0 -/
  leftAt : Nat
  /-- Code and address of the first line that failed; R241; none -/
  failure : Option (FaultCode × DWord)
  /-- The holder whose admission created it; R241; at admission -/
  creator : Holder
  /-- The wave that asked for that admission, 0 for a launch's; R241; at admission -/
  wave : Nat
  /-- Whether its fill has a page report outstanding, for this virtual line; R241; none -/
  pageWait : Option (Nat × Nat)
  /-- Entries that a BLEAVE releases once the wave's earlier bound writes are performed: holder and writes; R303; empty -/
  leaving : List (Holder × List Nat) := []
  deriving DecidableEq, Repr

/-- A request in a die's admission queue (R239). -/
structure Admission where
  /-- The die; R239; at the request -/
  die : Nat
  /-- The partition; R239; at the request -/
  part : Nat
  /-- The holder; R238; at the request -/
  holder : Holder
  /-- The bundles; 1 to 4 handles; R238; at the request -/
  handles : List Word
  /-- Effective priority; 0 to 3; R239; the region's -/
  level : Nat
  /-- Aging intervals waited at level 3; R239; 0 -/
  atTop : Nat
  /-- When its current interval began; ns; R239; at the request -/
  since : Nat
  /-- The team, wave and load that wait for its status; R301; at the request -/
  reply : Option (Nat × Nat × Nat)
  deriving DecidableEq, Repr

/-- The states of a ring slot (R248); Free is momentary. -/
inductive SlotState where
  | armed | complete | draining
  deriving DecidableEq, Repr

/-- One ring slot (R248). -/
structure Slot where
  /-- Its state; R248; Armed -/
  st : SlotState
  /-- Arrival count; R248; 0 -/
  count : Nat
  /-- Valid-row count VR; R341; 0 -/
  vr : Nat
  /-- Recorded flags; 32; R248, R135; 0 -/
  flags : Word
  /-- Error code and address; R250; none -/
  err : Option (FaultCode × DWord)
  /-- Its elements that are not zero, by row x 128 + column; 2,048 x 32; R247, R340; zero -/
  data : List (Nat × Word)
  /-- K-block tags applied in this use; R287; empty -/
  tags : List Nat
  deriving DecidableEq, Repr

/-- An armed epilogue of a ring (R345). -/
structure ArmedEpi where
  /-- Address of its descriptor; 64; R345; at EPI's start -/
  addr : DWord
  /-- Drain count d; R345; 0 -/
  drained : Nat
  /-- The core that drains it; R362; at EPI's start -/
  core : Nat
  /-- The EPI that is draining, none between EPIs; R345; at EPI's start -/
  cmd : Option Nat
  deriving DecidableEq, Repr

/-- One ring (R340). -/
structure Ring where
  /-- Home die; R340; at ARING -/
  die : Nat
  /-- Ring number; 0 to 63; R340; at ARING -/
  num : Nat
  /-- The owning partition; R361; at ARING -/
  part : Nat
  /-- The launch that set it up; R340; at ARING -/
  launch : Nat
  /-- Virtual base; 64; R340; at ARING -/
  base : DWord
  /-- Physical address of each slot in the die's stalagmite window; R247, R340; at ARING -/
  pas : List Nat
  /-- N slots; 1 to 4,096; R340; at ARING -/
  slots : List Slot
  /-- Arrival target; 1 to 4,096; R340; at ARING -/
  target : Nat
  /-- INT32 elements; R340; at ARING -/
  int : Bool
  /-- Tail; R343; 0 -/
  tail : Nat
  /-- Armed epilogue; R345; none -/
  epi : Option ArmedEpi
  /-- Whether a page of its lines was invalidated; R378; false -/
  frameHeld : Bool
  deriving DecidableEq, Repr

/-- A matrix partial or a lane RED.add on its way to a slot (R248, R249). -/
structure Arrival where
  /-- Its identity; MODEL, log 5; unique -/
  id : Nat
  /-- The ring's die; R341; at shipment -/
  die : Nat
  /-- The ring number; R341; at shipment -/
  ring : Nat
  /-- The slot; R337; at shipment -/
  slot : Nat
  /-- Rows n, 0 for a lane RED; R337; at shipment -/
  rows : Nat
  /-- Element index and value of each add; R132, R134; at shipment -/
  adds : List (Nat × Word)
  /-- K-block tag; 12; R287; at shipment -/
  ktag : Nat
  /-- Whether its launch is ordered; R287; at shipment -/
  ordered : Bool
  /-- The MLOOP that shipped it, none for a lane RED; R339; at shipment -/
  cmd : Option Nat
  /-- Whether the home slice holds it; R249, R342; false -/
  held : Bool
  deriving DecidableEq, Repr

/-- A sump record whose write to its slot is outstanding, or has been refused (R348, R364). -/
structure SumpWrite where
  /-- Its identity; MODEL, log 5; unique -/
  id : Nat
  /-- Node control block's physical address; R347; at SUMPW -/
  node : Nat
  /-- Its sequence number; 64; R348; at SUMPW -/
  seqno : Nat
  /-- The record's bytes; R364; at SUMPW -/
  bytes : List Byte
  /-- The issuing team; R364; at SUMPW -/
  team : Nat
  /-- The issuing wave; R364; at SUMPW -/
  wave : Nat
  /-- Whether it has been written; R348; false -/
  written : Bool
  /-- The load that receives the status; R364; at issue -/
  load : Nat
  /-- Address of the instruction; 32; R372; at issue -/
  pc : Word
  /-- The issuing lane; R372; at issue -/
  lane : Nat
  /-- The report that its write waits for; R364, R376; none -/
  blocked : Option Nat
  /-- The fault that its write has met and that is still to be raised, with its address; R364; none -/
  fault : Option (FaultCode × DWord)
  /-- Its write to another device that is under way: the request, the slot's fabric-global address and the lines not acknowledged; R424; none -/
  sent : Option (Nat × Nat × Nat) := none
  deriving DecidableEq, Repr

/-- What a sump unit keeps of a node beside its block (R348 to R350). -/
structure SumpNode where
  /-- The block's physical address; R347; at the first SUMPW -/
  pa : Nat
  /-- When each fully written record not yet taken came to lie below ARR, the oldest first; ns; R348; empty -/
  times : List Nat
  /-- Whether it holds one of its slice's 64 flush timers; R349; true while one is free -/
  timed : Bool
  /-- When it was last checked; ns; R349; at the first SUMPW -/
  checkedAt : Nat
  /-- Ranges given to teams and not yet released, oldest first; R350; empty -/
  ranges : List SumpRange
  /-- A launch that found its queue full; R162, R349; false -/
  pending : Bool
  deriving DecidableEq, Repr

/-! ## Reports and handlers -/

/-- A record for a report ring that has not been written (R372, R373). -/
structure Report where
  /-- Its identity; MODEL, log 5; unique -/
  id : Nat
  /-- The partition whose ring takes it, none for the device ring; R372, R373; at the report -/
  ring : Option Nat
  /-- KIND; 8; R372; at the report -/
  kind : Nat
  /-- CODE; 8; R372; at the report -/
  code : Nat
  /-- FLG; 8; R372; at the report -/
  flg : Byte
  /-- DIE; 8; R372; at the report -/
  die : Nat
  /-- CORE; 16; R372; at the report -/
  core : Nat
  /-- ADDR; 64; R372; at the report -/
  addr : DWord
  /-- RCB; 64; R372; at the report -/
  rcb : DWord
  /-- TEAM; 32; R372; at the report -/
  team : Word
  /-- WAVE; 8; R372; at the report -/
  wave : Nat
  /-- LANE; 8; R372; at the report -/
  lane : Nat
  /-- DISP as written; 8; R368, R372; 0xFF -/
  disp : Byte
  /-- PC; 32; R372; at the report -/
  pc : Word
  /-- AUX; 32; R372; at the report -/
  aux : Word
  /-- AUX2; 64; R372; at the report -/
  aux2 : DWord
  /-- The launch whose domain it is for; R366; at the report -/
  launch : Option Nat
  /-- Where it stands in its ring once written: the ring index; 32; R409; none -/
  index : Option Word
  deriving DecidableEq, Repr

/-! ## The fabric -/

/-- One Zhevlek link (R427, R430). -/
structure Link where
  /-- Trained and up; R427, R430; down -/
  up : Bool
  /-- The device at its other end; R430; none -/
  peer : Option Nat
  /-- Protocol version in use; 8; R430; 0 -/
  version : Byte
  /-- Features in use; 32; R430; 0 -/
  features : Word
  /-- Replays in a row; R427; 0 -/
  replays : Nat
  deriving DecidableEq, Repr

/-- One end of a flow (R428). -/
structure Flow where
  /-- The other device; R428; at its first packet -/
  dev : Nat
  /-- The source die; R428; at its first packet -/
  die : Nat
  /-- Class: 0 requests, 1 responses, 2 posted writes, 3 invocations; R428; at its first packet -/
  cls : Nat
  /-- Whether this device sends on it; R428; at its first packet -/
  out : Bool
  /-- Next sequence number; 32; R428; 0 -/
  next : Word
  /-- Packets that arrived early; R428; empty -/
  early : List (Word × FabricBody)
  /-- When its last packet arrived; ns; R428; 0 -/
  lastAt : Nat
  deriving DecidableEq, Repr

/-- A packet in a die's outbound port (R444). -/
structure OutPacket where
  /-- The die; R444; at issue -/
  die : Nat
  /-- The target device; R432; at issue -/
  dev : Nat
  /-- The 64 bytes; R432; at issue -/
  bytes : List Byte
  deriving DecidableEq, Repr

/-- A packet given to the links (R428). -/
structure SentPacket where
  /-- Target device; R428; at the send -/
  dev : Nat
  /-- Source die; R428; at the send -/
  die : Nat
  /-- Class: 0 requests, 1 responses, 2 posted writes, 3 invocations; R428; at the send -/
  cls : Nat
  /-- Its flow's sequence number; 32; R428; at the send -/
  seq : Word
  /-- What it carries; R428; at the send -/
  body : FabricBody
  deriving DecidableEq, Repr

/-- An invocation that waits for its reply (R435, R445). -/
structure Invocation where
  /-- Its identity, the owner of its tag; MODEL, log 5; unique -/
  id : Nat
  /-- The issuing team; R435; at INVOKE -/
  team : Nat
  /-- The tag; R435; at INVOKE -/
  tag : Nat
  /-- WEND; R432; at INVOKE -/
  wend : Bool
  /-- The target device; R432; at INVOKE -/
  dev : Nat
  /-- The issuing die; R428; at INVOKE -/
  die : Nat
  /-- Its sequence number in its flow; 32; R428; at INVOKE -/
  seq : Word
  /-- When it was sent; ns; R445; at INVOKE -/
  sentAt : Nat
  deriving DecidableEq, Repr

/-- One invocation queue (R434). -/
structure InvQueue where
  /-- Hardware slots, the oldest first; at most 64; R434; empty -/
  slots : List (List Byte)
  /-- Overflow ring: index of its oldest entry; R434; 0 -/
  head : Nat
  /-- Overflow ring: index of its next entry; R434; 0 -/
  tail : Nat
  deriving DecidableEq, Repr

/-! ## Boot and the front end -/

/-- One fetch of the image by the ROM (R450, R451). -/
structure Fetching where
  /-- The front-end port in use; 0 or 1; R449; at the fetch -/
  port : Nat
  /-- The server's index in the fuses; 0 to 3; R450; at the fetch -/
  server : Nat
  /-- Retransmissions of the request or of an acknowledgement; 0 to 5; R450; 0 -/
  retries : Nat
  /-- When the last packet was sent; ns; R450; at the fetch -/
  since : Nat
  /-- The bytes of the image that have come; R450, R451; empty -/
  got : List Byte
  deriving DecidableEq, Repr

/-- How far the ROM has come (R449 to R453): power is off, it waits for the link of a port since a time, it fetches, it pauses after the
last server since a time, or Dylet runs. -/
inductive Boot where
  | off
  | waitLink (port since : Nat)
  | fetching (f : Fetching)
  | pausing (port since : Nat)
  | running
  deriving DecidableEq, Repr

/-! ## The device -/

/-- The whole device. -/
structure State where
  /-- %time in ns; 64; R21, R457; 0 at power-on -/
  time : Nat
  /-- Steps taken; counts the free values drawn; MODEL, log 6; 0 -/
  ticks : Nat
  /-- Next identity; MODEL, log 5; 16 -/
  nextId : Nat
  /-- The steps that the outside world and the device's other agents take next; MODEL, log 4; empty -/
  agenda : List Instr
  /-- The wave that issues next: team and wave; MODEL, log 4; supervisor core 0 of D0 -/
  cur : Nat × Nat
  /-- Choices made between runs: at an even one the current wave may start a run, at an odd one another agent acts; MODEL, log 4; 0 -/
  turn : Nat
  /-- Boot progress; R449 to R453; power-on -/
  boot : Boot
  /-- Dies powered up; R449, R455; none -/
  diesUp : Nat
  /-- Failed dies; R414; none -/
  diesFailed : List Nat
  /-- TFTP read requests that the ROM has sent: port and server; R450; none -/
  romRequests : List (Nat × Nat)
  /-- The image header's first 256 bytes, measured at hand-over; R453; empty -/
  image : List Byte
  /-- Bytes of memory that are not zero, by local physical address; HBM of R230; R2, R230; log 7 -/
  mem : List Host.Cell
  /-- Lines marked LOST; R423; none -/
  lost : List Nat
  /-- Lines whose check bits hold an uncorrectable error; R396; none -/
  ecc : List Nat
  /-- Corrected errors of each die and when its summary was last written; R395; 0 -/
  corrected : List (Nat × Nat)
  /-- Copies in the L1s; R226; empty -/
  l1 : List LineCopy
  /-- Copies in the L2s of dies other than the home; R415; empty -/
  l2 : List LineCopy
  /-- Scoped copies of remote lines in the L2s; R425; empty -/
  scopedCopies : List LineCopy
  /-- Lines of other devices as the bundle carves of the L2s hold them; R236, R241; empty -/
  bundleCopies : List LineCopy
  /-- Directory entries; R415, R419; empty -/
  dir : List DirEntry
  /-- Pushes in flight; R421; empty -/
  pushes : List Push
  /-- Overlay bytes; R421; empty -/
  overlays : List Overlay
  /-- Number of the last write of each line that had a push; R421; empty -/
  pushNums : List (Nat × Nat)
  /-- Reads forwarded to a die, kept by the home: line, requesting die, holder, and when in ns; R414, R420; empty -/
  forwards : List (Nat × Nat × Nat × Nat)
  /-- Write-backs on their way home: line, die, data; R420; empty -/
  writeBacks : List LineCopy
  /-- Writes not yet performed, in program order; R263; empty -/
  posted : List Posted
  /-- Read-modify-writes not yet performed, in program order; R273; empty -/
  rmws : List Rmw
  /-- Performed writes that carried unperformed ones; R270; empty -/
  past : List PastWrite
  /-- Unperformed writes carried by each sync object, by address; R269; empty -/
  objects : List (Nat × List Nat)
  /-- Translations held by the L1 TLBs, at most 256 per core; R376; empty -/
  tlb1 : List TlbEntry
  /-- Translations held by the L2 TLBs, at most 32,768 per die; R376; empty -/
  tlb2 : List TlbEntry
  /-- Teams on cores: the supervisor cores first; R158; the 16 supervisor cores -/
  teams : List Team
  /-- Saved teams; R384; empty -/
  saved : List Team
  /-- Launches accepted and not ended; R164; empty -/
  launches : List Launch
  /-- Launches offered and not decided; R162; empty -/
  offers : List Offer
  /-- Partitions 0 to 15; R158, R474; as `Part` -/
  parts : List Part
  /-- Compute cores, by die and number; 384; R2; in no partition -/
  cores : List Core
  /-- Supervisor cores' registers; 16; R474; as `Sup` -/
  sups : List Sup
  /-- Bundle residencies; R236; empty -/
  insts : List BInst
  /-- Admission queues of the dies, in order of arrival; R239; empty -/
  admissions : List Admission
  /-- Rings; at most 64 per die; R340; empty -/
  rings : List Ring
  /-- Rings saved with all their teams, out of the L2s; R251, R388; empty -/
  savedRings : List Ring
  /-- Arrivals in flight or held; R342; empty -/
  arrivals : List Arrival
  /-- Sump records not fully written; R348; empty -/
  sumpWrites : List SumpWrite
  /-- Active sump nodes; R347 to R350; empty -/
  sumps : List SumpNode
  /-- Records not yet written, or written and not yet disposed of; R372; empty -/
  reports : List Report
  /-- Reports that wait for a handler launch, oldest first; R370; empty -/
  handlers : List Nat
  /-- %drbase; 64; R408, R474; 0 -/
  drbase : DWord
  /-- %drsize; 32; R408, R474; 6 -/
  drsize : Word
  /-- %drhead; 32; R408; 0 -/
  drhead : Word
  /-- %drtail; 32; R408; 0 -/
  drtail : Word
  /-- %drdrop; 32; R408; 0 -/
  drdrop : Word
  /-- %asidt; 64; R408; 0 -/
  asidt : DWord
  /-- Scope table read through %scsel and %scmask, word 8 x (h - 1) + w; 5 x 512; R262, R408, R474; own device only -/
  scopes : List DWord
  /-- %carve of each die; 4 x 32; R408, R474; 0 -/
  carves : List Word
  /-- The die whose carve %carve reads; R408; 0 -/
  carveDie : Nat
  /-- %ptpst; 32; R465; free-running, port 0 -/
  ptpst : Word
  /-- %ptoff; 64; R465; log 9 -/
  ptoff : DWord
  /-- Whether the first lock has been made; R457; false -/
  locked : Bool
  /-- %bootsrv; 32; R465; 0 attempts, server 0 -/
  bootsrv : Word
  /-- %hostpw; 32; R465; 0 -/
  hostpw : Word
  /-- Address written to %atblk whose quote is being made; 64; R454; 0 -/
  atblk : DWord
  /-- %atstat; 32; R465; 0 -/
  atstat : Word
  /-- %devnum; 32 ([8:0]); R465, R466; the fuse default -/
  devnum : Word
  /-- %nrbase; 64; R465; 0 -/
  nrbase : DWord
  /-- %nrsize; 32; R465; k = 4 -/
  nrsize : Word
  /-- %nrhead; 32; R465; 0 -/
  nrhead : Word
  /-- %nrtail; 32; R465; 0 -/
  nrtail : Word
  /-- %nrdrop; 32; R465; 0 -/
  nrdrop : Word
  /-- %ntbase; 64; R465; 0 -/
  ntbase : DWord
  /-- %ntsize; 32; R465; k = 4 -/
  ntsize : Word
  /-- %nthead; 32; R465; 0 -/
  nthead : Word
  /-- %nttail; 32; R465; 0 -/
  nttail : Word
  /-- Link of each front-end port; 2; R449, R464; down -/
  portUp : List Bool
  /-- Frames sent, with their port; R464; empty -/
  sentFrames : List (Nat × List Byte)
  /-- Zhevlek links; 32; R427; down -/
  links : List Link
  /-- Flows; R428; empty -/
  flows : List Flow
  /-- Packets in the outbound ports; at most 64 per die; R444; empty -/
  outPort : List OutPacket
  /-- Devices to which every route has been lost; R429; empty -/
  noRoute : List Nat
  /-- Packets given to the links; R428; empty -/
  sent : List SentPacket
  /-- Invocations that wait for a reply; R435; empty -/
  invocations : List Invocation
  /-- Invocation queues 0 to 63; R434; empty -/
  invQueues : List InvQueue
  /-- Host reply words; 64 x 32; R442; log 9 -/
  replyWords : List Word
  deriving DecidableEq, Repr

/-! ## Reset -/

/-- A lane at launch, before its arguments are written (R15). -/
def Lane.fresh (n : Nat) : Lane :=
  { regs := List.replicate n 0, preds := 1, flags := 0, seed := 0, pend := [], seedPend := [], latches := [],
    invRegs := [], invPreds := 0, invLatches := [] }

/-- A wave at launch, before its arguments are written (R15, R167). -/
def Wave.fresh (idx width nregs : Nat) (entry : Word) (mask : BitVec 64) (p : Priv) : Wave :=
  { idx := idx, width := width, nregs := nregs, winb := 0, rmode := 0, rmodePend := [],
    recs := List.replicate 16 BufRec.zero, recNext := [], recLoads := [], loops := [],
    lanes := List.replicate width (Lane.fresh nregs),
    frontier := [{ pc := entry, mask := mask, st := .runnable, age := 0, land := .here }],
    skip := none, sel := none, run := none, progress := 0, loads := [], marks := [],
    armed := List.replicate 16 none, gbarDone := false, joinCell := 0, before := [], deps := Deps.none, drain := 0, ghosts := [], holds := 0,
    runahead := none, priv := p, saving := false }

/-- A barrier at team start (R212). -/
def Barrier.fresh : Barrier := { expected := 0, count := 0, arrived := [], phase := false }

/-- A tag at team start (R329). -/
def Tag.fresh : Tag := { ready := false, status := 0, owner := none, far := false }

/-- Registers of a supervisor core's one active lane (log entry 8). -/
def Team.supRegs : Nat := 512

/-- Supervisor core `i` as the model holds it: a team of one 16-lane wave with one active lane (R3, log entry 8). -/
def Team.supervisor (i : Nat) : Team :=
  { id := i, launch := none, core := (i / 4) * 100 + 96 + i % 4, logical := 0, linear := 0,
    waves := [Wave.fresh 0 16 Team.supRegs 0 1 .supervisor], spad := [], spadSize := 0, spadBase := 0,
    spadRegions := [], tags := [], barriers := List.replicate 16 Barrier.fresh, gangBase := 0, gangSize := 1,
    preempt := false, limitPassed := false, ending := false, fillLog := [], dual := none, restoring := false, held := [], gone := false }

/-- A partition at device reset (R474, R465). -/
def Part.fresh : Part :=
  { pasid := 0, prbase := 0, prsize := 6, prhead := 0, prtail := 0, prdrop := 0, paging := 1000, pbarlim := 4000,
    prefuse := 0, pibc := 0, pbud := [0, 0, 0, 0], psave := 0, prest := 0, pdone := 0, ptbase := 0, ptsize := 6,
    pthead := 0, pttail := 0, ptdrop := 0, decls := [], timers := [none, none, none, none], lastCore := none,
    resetting := none }

/-- An engine queue at reset (R328). -/
def Queue.fresh : Queue := { cmds := [], counter := 0, fence := [] }

/-- A vault at reset: every cell +0 (R336). -/
def Vault.fresh : Vault := { b := [], bf := none, counted := [], retained := false, usedAt := 0, bad := false }

/-- Compute core number `n` of die `d` at power-on: in no partition (R453). -/
def Core.fresh (d n : Nat) : Core :=
  { id := d * 100 + n, part := none, started := false, halted := false, carve := none, deque := [], spill := [],
    lfsr := BitVec.ofNat 16 (n + 1), probed := [], queues := List.replicate 9 Queue.fresh,
    turns := [none, none, none, none], vaults := List.replicate 32 Vault.fresh }

/-- A supervisor core's registers at device reset (R474). -/
def Sup.fresh (halted : Bool) : Sup :=
  { tvec := 0, tfp := 0, tlim := 0, twb := 0, sie := 0, sip := 0, stcmp := 0xFFFFFFFFFFFFFFFF, psel := 0, scsel := 1,
    halted := halted }

/-- A Zhevlek link before training (R430). -/
def Link.fresh : Link := { up := false, peer := none, version := 0, features := 0, replays := 0 }

/-- An invocation queue at reset (R434). -/
def InvQueue.fresh : InvQueue := { slots := [], head := 0, tail := 0 }

/-- The scope table at reset: every level's mask holds only the device's own bit (R474). -/
def scopesReset (dev : Word) : List DWord :=
  (List.range 40).map fun i => if i % 8 = dev.toNat / 64 then 1 <<< (dev.toNat % 64) else 0

/-- The device at power-on (R449, R453, R465, R474). -/
def State.reset : State :=
  { time := 0, ticks := 0, nextId := 16, agenda := [], cur := (0, 0), turn := 0, boot := .off, diesUp := 0, diesFailed := [], romRequests := [],
    image := [], mem := [], lost := [], ecc := [], corrected := List.replicate 4 (0, 0), l1 := [], l2 := [],
    scopedCopies := [], bundleCopies := [], dir := [], pushes := [], overlays := [], pushNums := [], forwards := [], writeBacks := [],
    posted := [], rmws := [], past := [], objects := [], tlb1 := [], tlb2 := [],
    teams := (List.range 16).map Team.supervisor, saved := [], launches := [], offers := [],
    parts := List.replicate 16 Part.fresh,
    cores := (List.range 384).map fun i => Core.fresh (i / 96) (i % 96),
    sups := (List.range 16).map fun i => Sup.fresh (i != 0),
    insts := [], admissions := [], rings := [], savedRings := [], arrivals := [], sumpWrites := [], sumps := [], reports := [],
    handlers := [], drbase := 0, drsize := 6, drhead := 0, drtail := 0, drdrop := 0, asidt := 0,
    scopes := scopesReset (Config.fuseDevnum &&& 0x1FF), carves := [0, 0, 0, 0], carveDie := 0, ptpst := 0, ptoff := 0,
    locked := false, bootsrv := 0, hostpw := 0, atblk := 0, atstat := 0, devnum := Config.fuseDevnum &&& 0x1FF,
    nrbase := 0, nrsize := 4, nrhead := 0, nrtail := 0, nrdrop := 0, ntbase := 0, ntsize := 4, nthead := 0, nttail := 0,
    portUp := [false, false], sentFrames := [], links := List.replicate 32 Link.fresh, flows := [], outPort := [],
    noRoute := [], sent := [], invocations := [], invQueues := List.replicate 64 InvQueue.fresh,
    replyWords := List.replicate 64 0 }

end Sys2Proof.Machine
end

