-- ==== Sys2Proof/Machine/Operands.lean ====
section
/-!
DEFINITION. Operand forms: what a lane reads in a cycle of its run (R16 to R18, R20, R31 to R33, R55) and what is
written, and when (R31, R35).
-/

namespace Sys2Proof.Machine

/-! ## Pending results of a run (R31) -/

/-- The latest write to a destination that has been made by cycle `c`, among a lane's pending results. -/
def lastDue (d : Dst) (c : Nat) (l : List PendWrite) : Option PendWrite :=
  l.foldl (fun best w =>
    if w.dst = d ∧ w.due ≤ c then
      match best with
      | none => some w
      | some b => if b.due ≤ w.due then some w else best
    else best) none

/-- A physical register as it reads in cycle `c` (R31, R32). -/
def Lane.physAt (l : Lane) (c p : Nat) : Word :=
  match lastDue (.reg p) c l.pend with
  | some w => w.val
  | none => l.regs.getD p 0

/-- A predicate as it reads in cycle `c`; k0 reads true (R20). -/
def Lane.predAt (l : Lane) (c : Nat) (k : Pred) : Bool :=
  if k = 0 then true
  else match lastDue (.pred k.toNat) c l.pend with
    | some w => w.val != 0
    | none => l.preds.getLsbD k.toNat

/-- Latch `b k` in the instruction at position `j`, as it reads in cycle `c` (R32, R33). -/
def Lane.latchAt (l : Lane) (c j k : Nat) : DWord :=
  match l.latches.find? fun v => v.idx + k == j && decide (v.due ≤ c) with
  | some v => v.val
  | none => 0

/-- Order of pending results: by cycle, SETS to %flags before raised flags in one cycle (R96). -/
def PendWrite.before (a b : PendWrite) : Bool :=
  decide (2 * a.due + (if a.dst = .orFlags then 1 else 0) ≤ 2 * b.due + (if b.dst = .orFlags then 1 else 0))

/-- The flag results made by cycle `c`, in order. -/
def flagEvents (c : Nat) (l : List PendWrite) : List PendWrite :=
  sortBy PendWrite.before (l.filter fun w => (w.dst = .orFlags || w.dst = .setFlags) && decide (w.due ≤ c))

/-- %flags as it reads in cycle `c` (R95, R96). -/
def Lane.flagsAt (l : Lane) (c : Nat) : Word :=
  (flagEvents c l.pend).foldl (fun f w => if w.dst = .setFlags then w.val else f ||| w.val) l.flags

/-- The value that a SETS has put into effect by cycle `c`, else the old one (R96). -/
def settle {α : Type} (c : Nat) (old : α) (l : List (Nat × α)) : α :=
  match (l.filter fun p => decide (p.1 ≤ c)).getLast? with
  | some p => p.2
  | none => old

/-- The value when every SETS has taken effect. -/
def settleAll {α : Type} (old : α) (l : List (Nat × α)) : α :=
  match l.getLast? with
  | some p => p.2
  | none => old

/-- %seed as it stands in cycle `c` (R96, R157). -/
def Lane.seedAt (l : Lane) (c : Nat) : DWord := settle c l.seed l.seedPend

/-- %rmode as it stands in cycle `c` (R96). -/
def Wave.rmodeAt (w : Wave) (c : Nat) : Word := settle c w.rmode w.rmodePend

/-! ## Reading a field (R18) -/

/-- ReadReg(f) (R55). -/
def LaneCtx.reg (x : LaneCtx) (f : Reg) : Word :=
  if f.toNat < 120 then x.lane.physAt x.cyc (x.winb + f.toNat)
  else if f.toNat = 120 then 0
  else lo32 (x.lane.latchAt x.cyc x.idx (f.toNat - 120))

/-- ReadPair(f) (R17, R55). -/
def LaneCtx.pair (x : LaneCtx) (f : Reg) : DWord :=
  if f.toNat < 120 then
    mkPair (x.lane.physAt x.cyc (x.winb + f.toNat)) (x.lane.physAt x.cyc (x.winb + f.toNat + 1))
  else if f.toNat = 120 then 0
  else x.lane.latchAt x.cyc x.idx (f.toNat - 120)

/-- Whether a register that a source names holds an uncorrectable error as it reads (R396); a pending result has replaced it. -/
def LaneCtx.inError (x : LaneCtx) (u : RegUse) : Bool :=
  decide (u.1.toNat < 120) && (List.range u.2).any fun i =>
    let p := x.winb + u.1.toNat + i
    x.lane.badRegs.contains p && (lastDue (.reg p) x.cyc x.lane.pend).isNone

/-- Register `i` of the group that starts at a window register, or of a pair held in a latch. -/
def LaneCtx.grp (x : LaneCtx) (f : Reg) (i : Nat) : Word :=
  if f.toNat < 120 then x.lane.physAt x.cyc (x.winb + f.toNat + i)
  else if i = 0 then lo32 (x.pair f) else hi32 (x.pair f)

/-- A predicate (R20). -/
def LaneCtx.pred (x : LaneCtx) (k : Pred) : Bool := x.lane.predAt x.cyc k

/-- Guard(K, S) (R58). -/
def LaneCtx.guard (x : LaneCtx) (k : Pred) (s : Bool) : Bool := x.pred k != s

/-! ## Writing results (R31, R35) -/

/-- What one instruction writes in one lane: physical registers, its latch, a predicate, raised flags, and the
%seed that its draws leave, with the cycle of the draws (R157). -/
structure LaneOut where
  regs : List (Nat × Word) := []
  latch : Option DWord := none
  pred : Option (Pred × Bool) := none
  flags : Word := 0
  seed : Option (Nat × DWord) := none
  deriving DecidableEq, Repr

/-- WriteReg(D, v), with the no-write bit (R35, R55). -/
def outReg (x : LaneCtx) (n : Bool) (d : Reg) (v : Word) (fl : Word := 0) : LaneOut :=
  { regs := if n || decide (120 ≤ d.toNat) then [] else [(x.winb + d.toNat, v)], latch := some (zext64 v), flags := fl }

/-- WritePair(D, v) (R17, R55). -/
def outPair (x : LaneCtx) (d : Reg) (v : DWord) (fl : Word := 0) : LaneOut :=
  { regs := if 120 ≤ d.toNat then [] else [(x.winb + d.toNat, lo32 v), (x.winb + d.toNat + 1, hi32 v)],
    latch := some v, flags := fl }

/-- A predicate result; a write to k0 is discarded (R20). -/
def outPred (k : Pred) (v : Bool) (fl : Word := 0) : LaneOut :=
  { pred := if k = 0 then none else some (k, v), flags := fl }

/-- A predicate as a bit of a word. -/
def boolWord (b : Bool) : Word := if b then 1 else 0

/-- Add an instruction's results to a lane's pending results, to be written in cycle `due` (R31). -/
def Lane.put (l : Lane) (idx due : Nat) (o : LaneOut) : Lane :=
  { l with
    pend := l.pend ++ o.regs.map (fun (p, v) => { due := due, dst := .reg p, val := v : PendWrite }) ++
      (match o.pred with
        | some (k, v) => [{ due := due, dst := .pred k.toNat, val := boolWord v : PendWrite }]
        | none => []) ++
      (if o.flags = 0 then [] else [{ due := due, dst := .orFlags, val := o.flags : PendWrite }])
    latches := match o.latch with
      | some v => { idx := idx, due := due, val := v } :: l.latches
      | none => l.latches
    seed := match o.seed with
      | some v => v.2
      | none => l.seed
    seedPend := match o.seed with
      | some v => l.seedPend.filter fun p => decide (v.1 < p.1)
      | none => l.seedPend }

/-- Set bit `i` of the predicates. -/
def setPred (p : BitVec 8) (i : Nat) (v : Bool) : BitVec 8 :=
  if v then p ||| (1#8 <<< i) else p &&& ~~~(1#8 <<< i)

/-- A register written: an uncorrectable error that it held is gone (R396). -/
def Lane.write (l : Lane) (p : Nat) (v : Word) : Lane := { l with regs := l.regs.set p v, badRegs := l.badRegs.filter (· != p) }

/-- One pending result written (R31). -/
def Lane.apply (l : Lane) (w : PendWrite) : Lane :=
  match w.dst with
  | .reg p => l.write p w.val
  | .pred k => { l with preds := setPred l.preds k (w.val != 0) }
  | .orFlags => { l with flags := l.flags ||| w.val }
  | .setFlags => { l with flags := w.val }

/-- The drain of R28: every pending result is written, every SETS takes effect, and the latches are lost (R33). -/
def Lane.drain (l : Lane) : Lane :=
  let l := (sortBy PendWrite.before l.pend).foldl Lane.apply l
  { l with pend := [], seed := settleAll l.seed l.seedPend, seedPend := [],
           latches := [], invLatches := [] }

/-! ## Runahead validity (R43, R380) -/

/-- Whether a source is runahead-invalid in a lane. -/
def LaneCtx.invalid (x : LaneCtx) (u : RegUse) : Bool :=
  let f := u.1.toNat
  if f < 120 then (List.range u.2).any fun i => x.lane.invRegs.contains (x.winb + f + i)
  else if f = 120 then false
  else x.lane.invLatches.any fun j => j + (f - 120) == x.idx

/-- Mark the destinations of an instruction runahead-invalid, or valid, in a lane. -/
def Lane.markInvalid (l : Lane) (winb idx : Nat) (bad noWrite : Bool) (ds : List RegUse) (pr : Option Pred) : Lane :=
  let ps := if noWrite then [] else
    ds.flatMap fun (f, n) => if f.toNat < 120 then (List.range n).map (winb + f.toNat + ·) else []
  { l with
    invRegs := if bad then ps ++ l.invRegs else l.invRegs.filter fun p => !ps.contains p
    invPreds := match pr with
      | some k => if k = 0 then l.invPreds else setPred l.invPreds k.toNat bad
      | none => l.invPreds
    invLatches := if bad then idx :: l.invLatches else l.invLatches }

end Sys2Proof.Machine
end

