-- ==== Sys2Proof/Machine/Records.lean ====
section
/-!
DEFINITION. Buffer records: their codes and checks (R12, R48 to R50), swizzles and element addresses (R51, R53).
-/

namespace Sys2Proof.Machine

/-- The format of an FMT code (R49). -/
def fmtOf : Nat → Option Fmt
  | 0x00 => some .none | 0x01 => some .s8 | 0x02 => some .z8 | 0x03 => some .s16 | 0x04 => some .z16
  | 0x05 => some .f16 | 0x06 => some .bf16 | 0x07 => some .s32 | 0x08 => some .z32 | 0x09 => some .f32
  | 0x0A => some .s64 | 0x0B => some .z64 | 0x0C => some .e4m3 | 0x0D => some .e5m2
  | 0x10 => some .mxf4 | 0x11 => some .mxf8 | 0x12 => some .kd7 | 0x13 => some .kd3
  | _ => none

/-- Size of a block format in bytes, 0 for an element format (R49). -/
def Fmt.blockBytes : Fmt → Nat
  | .mxf4 => 17 | .mxf8 => 33 | .kd7 => 32 | .kd3 => 16
  | _ => 0

/-- Whether the device takes a record's version byte (R12): its major version is 1. -/
def versionOk (v : Byte) : Bool := v.toNat / 16 == 1

/-- Whether a record's reserved content must be zero (R12): its minor version is 0. -/
def minorZero (v : Byte) : Bool := v.toNat % 16 == 0

/-- The record in 32 bytes (R48). -/
def BufRec.ofBytes (b : List Byte) : BufRec :=
  { ver := b.getD 0 0, fmt := b.getD 1 0, swz := b.getD 2 0, flg := b.getD 3 0, stride := field32 b 4, base := field64 b 8,
    extent := field32 b 16, bhandle := field32 b 20, rsv := field64 b 24 }

/-- OOB (R48). -/
def BufRec.oobFault (r : BufRec) : Bool := r.flg.getLsbD 0

/-- BND (R48). -/
def BufRec.bound (r : BufRec) : Bool := r.flg.getLsbD 1

/-- CheckRecord (R50). -/
def BufRec.check (r : BufRec) : Option FaultCode :=
  if !versionOk r.ver then some .version
  else if (fmtOf r.fmt.toNat).isNone || decide (3 < r.swz.toNat) || (minorZero r.ver && (r.flg.toNat / 4 != 0 || r.rsv != 0)) ||
      (!r.bound && r.bhandle != 0) || decide (2 ^ 56 ≤ r.base.toNat) then some .illegal
  else none

/-- The element format of a record. -/
def BufRec.format (r : BufRec) : Fmt := (fmtOf r.fmt.toNat).getD .none

/-- Registers that an element of a record's format fills, in a wave. -/
def Wave.esz (w : Wave) (q : RecReg) : Nat := Fmt.regs (((w.recs[q.toNat]?).bind fun r => fmtOf r.fmt.toNat).getD .none)

/-- Swizzle (R53). -/
def swizzle (mode off : Nat) : Nat :=
  match mode with
  | 1 => Nat.xor off (bitsOf off 6 2 * 16)
  | 2 => Nat.xor off (bitsOf off 7 3 * 16)
  | 3 => Nat.xor off (bitsOf off 8 2 * 32)
  | _ => off

/-- Where one lane's element lies (R51): its virtual address, none when it is out of bounds and clamped, or a fault. R51 does not type the
sum BASE + off: the model adds exactly, so a sum of 2^64 or more is out of bounds and does not wrap (DESIGN CHOICE, log entry 83). -/
def BufRec.addr (r : BufRec) (idx : Word) (size : Nat) : Except FaultCode (Option Nat) :=
  let va := r.base.toNat + swizzle r.swz.toNat (idx.toNat * r.stride.toNat)
  let oob := decide (r.extent.toNat ≤ idx.toNat) || decide (2 ^ 56 < va + size)
  if !oob then (if va % size = 0 then .ok (some va) else .error .align)
  else if r.oobFault then .error .bounds else .ok none

end Sys2Proof.Machine
end

