-- ==== Sys2Proof/Machine/Ops.lean ====
section
/-!
DEFINITION. The operations over the state that the meanings share: finding and replacing teams, waves, launches and
partitions; stores made at once; reports (R372); issuing an instruction in the run of the current wave (R29 to R31);
parking an entry on a fault (R367); trap entry and return (R374, R375); and the end of runahead (R381).
-/

namespace Sys2Proof.Machine

/-! ## Lookup and replacement -/

/-- The team with an identity. -/
def State.team? (s : State) (i : Nat) : Option Team := s.teams.find? fun t => t.id == i

/-- A wave of a team. -/
def State.wave? (s : State) (i w : Nat) : Option Wave := (s.team? i).bind fun t => t.waves[w]?

/-- Replace the team with an identity. -/
def State.updTeam (s : State) (i : Nat) (f : Team → Team) : State :=
  { s with teams := s.teams.map fun t => if t.id = i then f t else t }

/-- Replace a wave of a team. -/
def Team.updWave (t : Team) (w : Nat) (f : Wave → Wave) : Team := { t with waves := t.waves.modify w f }

/-- Replace a wave of the team with an identity. -/
def State.updWave (s : State) (i w : Nat) (f : Wave → Wave) : State := s.updTeam i fun t => t.updWave w f

/-- A team with an identity as it goes on: its saved state, if it is saved or its waves run a handler entry, else the team on its core (R384,
R386). -/
def State.real? (s : State) (i : Nat) : Option Team :=
  match s.saved.find? fun t => t.id == i with
  | some t => some t
  | none => s.team? i

/-- Replace that team. -/
def State.updReal (s : State) (i : Nat) (f : Team → Team) : State :=
  if s.saved.any fun t => t.id == i then { s with saved := s.saved.map fun t => if t.id = i then f t else t } else s.updTeam i f

/-- The launch with an identity. -/
def State.launch? (s : State) (i : Nat) : Option Launch := s.launches.find? fun l => l.id == i

/-- Replace the launch with an identity. -/
def State.updLaunch (s : State) (i : Nat) (f : Launch → Launch) : State :=
  { s with launches := s.launches.map fun l => if l.id = i then f l else l }

/-- The launch of a team. -/
def State.launchOf (s : State) (t : Team) : Option Launch := t.launch.bind s.launch?

/-- A partition; the fresh one for a number that names none. -/
def State.part (s : State) (p : Nat) : Part := s.parts.getD p Part.fresh

/-- Replace a partition. -/
def State.updPart (s : State) (p : Nat) (f : Part → Part) : State := { s with parts := s.parts.modify p f }

/-- The compute core with an identity. -/
def State.core? (s : State) (i : Nat) : Option Core := s.cores.find? fun c => c.id == i

/-- Replace a compute core. -/
def State.updCore (s : State) (i : Nat) (f : Core → Core) : State :=
  { s with cores := s.cores.map fun c => if c.id = i then f c else c }

/-- Registers of a supervisor core; reset values for a number that names none. -/
def State.sup (s : State) (i : Nat) : Sup := s.sups.getD i (Sup.fresh true)

/-- Replace a supervisor core's registers. -/
def State.updSup (s : State) (i : Nat) (f : Sup → Sup) : State := { s with sups := s.sups.modify i f }

/-- Whether a team stands for a supervisor core (R3, log entry 8). -/
def Team.isSup (t : Team) : Bool := decide (96 ≤ t.core % 100)

/-- The supervisor core that a team stands for: its number among the 16. -/
def Team.supIdx (t : Team) : Nat := t.core / 100 * 4 + (t.core % 100 - 96)

/-- The die of a core (R21). -/
def dieOf (core : Nat) : Nat := core / 100

/-- The partition of a team, 0 for a supervisor core. -/
def State.partOf (s : State) (t : Team) : Nat := ((s.launchOf t).map (·.part)).getD 0

/-- A new identity (log entry 5). -/
def State.fresh (s : State) : Nat × State := (s.nextId, { s with nextId := s.nextId + 1 })

/-- A free value (log entry 6). -/
def State.free (s : State) : DWord × State := (Config.freeWord s.ticks, { s with ticks := s.ticks + 1 })

/-! ## Memory that is not cached: stores made at once -/

/-- The byte that a write at `wa` puts at an address, none where it writes nothing. -/
def writtenAt (wa : Nat) (ws : List (Option Byte)) (a : Nat) : Option Byte := if wa ≤ a then (ws[a - wa]?).join else none

/-- The bytes of a list with those that a write at `wa` covers replaced; the list starts at `pa`. -/
def patchBytes (pa : Nat) (bs : List Byte) (wa : Nat) (ws : List (Option Byte)) : List Byte :=
  bs.mapIdx fun i b => (writtenAt wa ws (pa + i)).getD b

/-- Replace the bytes of a line copy that a write at `pa` covers. -/
def LineCopy.patch (c : LineCopy) (pa : Nat) (bs : List (Option Byte)) : LineCopy := { c with data := patchBytes c.line c.data pa bs }

/-- A write of every byte of a list. -/
def whole (bs : List Byte) : List (Option Byte) := bs.map some

/-- Bytes written at their home, and in every L2 copy of their lines: a store of the device itself, performed at .dev at once.
A core's L1 keeps what it holds until a FENCE or an ACQ drops it (R226, R409). A whole line's write clears its marks (R396,
R423). -/
def State.storeNow (s : State) (pa : Nat) (bs : List Byte) : State :=
  let full := fun line : Nat => decide (line = pa ∧ pa % 64 = 0 ∧ bs.length = 64)
  { s with mem := Memory.writeN s.mem pa bs, l2 := s.l2.map (LineCopy.patch · pa (whole bs)),
           writeBacks := s.writeBacks.map (LineCopy.patch · pa (whole bs)), lost := s.lost.filter fun l => !full l,
           ecc := s.ecc.filter fun l => !full l }

/-- A line of a trap frame is posted like a store of the core's own, in its order among the core's stores (R374). -/
def State.frameStore (s : State) (t : Team) (pa : Nat) (bs : List Byte) : State :=
  let (id, s) := s.fresh
  let p : Posted :=
    { id := id, team := t.id, wave := 0, core := t.core, pa := pa, bytes := whole bs, remote := false, bound := false, applied := false,
      acks := [], noneHeld := [], dropped := [], shared := false, va := BitVec.ofNat 64 pa }
  { s with posted := s.posted ++ [p] }

/-- Size of a die's HBM in bytes: 144 GiB (R230). -/
def hbmBytes : Nat := 144 * 2 ^ 30

/-- First address of a die's stalagmite window (R247). -/
def windowBase (d : Nat) : Nat := d * 2 ^ 41 + 2 ^ 40

/-- Bytes of a die's stalagmite window under its carve (R247, R408). -/
def State.windowBytes (s : State) (d : Nat) : Nat := bitsOf (s.carves.getD d 0).toNat 0 4 * 2 ^ 22

/-- Home die of a local physical address (R230). -/
def homeDie (pa : Nat) : Nat := bitsOf pa 41 2

/-- Whether an address lies in a die's HBM (R230). -/
def inHbm (pa : Nat) : Bool := decide (pa < 2 ^ 43 ∧ pa % 2 ^ 41 < hbmBytes)

/-- Whether an address lies in a die's stalagmite window (R247). -/
def State.inWindow (s : State) (pa : Nat) : Bool :=
  decide (pa < 2 ^ 43 ∧ windowBase (homeDie pa) ≤ pa ∧ pa < windowBase (homeDie pa) + s.windowBytes (homeDie pa))

/-- The line of an address (R6). -/
def lineOf (pa : Nat) : Nat := pa / 64 * 64

/-! ## Interrupt latches (R407) -/

/-- Latch a source in one supervisor core's %sip. -/
def State.latchSip (s : State) (i bit : Nat) : State := s.updSup i fun u => { u with sip := u.sip ||| (1 <<< bit) }

/-- Latch a source in every supervisor core's %sip. -/
def State.latchAll (s : State) (bit : Nat) : State :=
  { s with sups := s.sups.map fun u => { u with sip := u.sip ||| (1 <<< bit) } }

/-! ## Faults and reports -/

/-- The number of a fault code (R366). -/
def FaultCode.num : FaultCode → Nat
  | .illegal => 1 | .priv => 2 | .align => 3 | .bounds => 4 | .page => 5 | .prot => 6 | .bundleEscape => 7
  | .bundleTooBig => 8 | .accState => 9 | .gangGone => 10 | .lineLost => 11 | .remoteTimeout => 12
  | .remoteRefused => 13 | .noHandler => 14 | .version => 15 | .dualMismatch => 16 | .watchdog => 17
  | .eccUncorr => 18 | .trap => 19

/-- The tag status of a fault: 0x80 + n (R354). -/
def FaultCode.status (c : FaultCode) : Nat := 0x80 + c.num

/-- An empty record of a kind, for a partition's ring or the device's (R372, R373). -/
def Report.blank (id : Nat) (ring : Option Nat) (kind code : Nat) : Report :=
  { id := id, ring := ring, kind := kind, code := code, flg := 0, die := 0, core := 0xFFFF, addr := 0, rcb := 0, team := 0,
    wave := 0, lane := 0, disp := 0xFF, pc := 0, aux := 0, aux2 := 0, launch := none, index := none }

/-- Give a record to the reporting logic; REPORT_RECORD_WRITE writes it (R372). -/
def State.addReport (s : State) (r : Report) : State := { s with reports := s.reports ++ [r] }

/-- Details of a fault: its code, lowest lane, address, instruction address and AUX; and whether it is the code of a Failed bundle
instance, whose PAGE the supervisor has already left unresolved (R241). -/
structure FaultInfo where
  code : FaultCode
  lane : Nat := 0
  addr : Option DWord := none
  pc : Word := 0
  aux : Word := 0
  ofInst : Bool := false
  deriving DecidableEq, Repr

/-- The FLG byte of a fault record: LANE valid, ADDR valid, SUP, asynchronous (R372). -/
def reportFlg (lane addr glob sup async : Bool) : Byte :=
  (boolWord lane ||| (boolWord addr <<< 1) ||| (boolWord glob <<< 2) ||| (boolWord sup <<< 3) |||
    (boolWord async <<< 4)).truncate 8

/-- The KIND 0 record of a fault of a wave (R372). -/
def State.faultReport (s : State) (t : Team) (w : Nat) (f : FaultInfo) (sup async : Bool) (id : Nat) : Report :=
  { Report.blank id (some (s.partOf t)) 0 f.code.num with
    flg := reportFlg true f.addr.isSome false sup async, die := dieOf t.core, core := t.core % 100,
    addr := f.addr.getD 0, rcb := ((s.launchOf t).map fun l => l.region.block).getD 0, team := t.linear, wave := w,
    lane := f.lane, pc := f.pc, aux := f.aux, launch := t.launch }

/-- A copy of a fault's record for the supervisor, on the device ring, with the physical address (R396). -/
def State.deviceCopy (s : State) (r : Report) (pa : Option DWord) : State :=
  let (i, s) := s.fresh
  s.addReport { r with
    id := i, ring := none, addr := pa.getD 0, flg := reportFlg true pa.isSome false false false, launch := none }

/-- Halt a supervisor core; HALTNOTE is latched (R374, R403). -/
def State.haltSup (s : State) (i : Nat) : State := (s.updSup i fun u => { u with halted := true }).latchAll 4

/-! ## Frontier entries -/

/-- Everything that an entry waits for, at once or when it is resumed. -/
def Entry.whys (e : Entry) : List BlockWhy := (match e.st with | .blocked l => l | _ => []) ++ e.after

/-- The RCB address at which an entry is Blocked. -/
def Entry.rcbAddr (e : Entry) : Option Word :=
  match e.st with
  | .blocked whys => whys.findSome? fun y => match y with | .rcb a => some a | _ => none
  | _ => none

/-- Whether a wait brings its entry's lanes a value or their next PC, so that no other lanes wait with them (log entry 18). -/
def BlockWhy.brings : BlockWhy → Bool
  | .tags _ _ _ (some _) _ | .steal _ _ => true
  | _ => false

/-- The state of two states other than Parked merged: a Blocked entry's waits hold the lanes of both, and Held entries merge when they are
held for one reason; none where they stay apart (R181, log entry 18). -/
def EntryState.merged : EntryState → EntryState → Option EntryState
  | .runnable, .runnable => some .runnable
  | .blocked l, .blocked m => some (.blocked (l ++ m.filter fun y => !l.contains y))
  | .blocked l, .runnable | .runnable, .blocked l => some (.blocked l)
  | .held a, .held b => if a = b then some (.held a) else none
  | _, _ => none

/-- Two entries with one PC as one: union of masks, smaller age (R181); none where they do not merge (log entry 18). -/
def Entry.merged (f e : Entry) : Option Entry :=
  if f.pc = e.pc ∧ f.land = e.land ∧ f.redo = none ∧ e.redo = none ∧ f.rcbAddr = e.rcbAddr ∧ !(f.whys ++ e.whys).any BlockWhy.brings then
    (f.st.merged e.st).map fun st =>
      { f with mask := f.mask ||| e.mask, age := Nat.min f.age e.age, st := st, after := f.after ++ e.after.filter fun y => !f.after.contains y }
  else none

/-- An entry added to others: it becomes one with the first that it merges with (R181). -/
def mergeEntry (e : Entry) : List Entry → List Entry
  | [] => [e]
  | f :: l =>
    match f.merged e with
    | some g => g :: l
    | none => f :: mergeEntry e l

/-- Add entries to a frontier; entries without lanes vanish. -/
def addEntries (new : List Entry) (old : List Entry) : List Entry :=
  new.foldl (fun l e => if e.mask = 0 then l else mergeEntry e l) old

/-- The lanes of a wave that have not exited (R181). -/
def Wave.liveMask (w : Wave) : BitVec 64 :=
  w.frontier.foldl (fun m e => m ||| e.mask) ((w.run.map (·.mask)).getD 0)

/-- Whether every lane of a wave has exited. -/
def Wave.exited (w : Wave) : Bool := w.liveMask == 0

/-- The skip entry of a wave's next selection: the one that holds some lanes (R184). -/
def Wave.skipOver (w : Wave) (m : BitVec 64) : Wave :=
  { w with skip := (w.frontier.find? fun e => e.mask &&& m != 0).map (·.pc) }

/-- Whether a target lies inside the top loop entry's range, or there is none (R46). -/
def inTop (loops : List LoopEntry) (pc : Word) : Bool :=
  match loops with
  | [] => true
  | t :: _ => decide (t.start.toNat ≤ pc.toNat ∧ pc.toNat ≤ t.stop.toNat)

/-- An entry that no longer waits: Held at the loop's end (R90, rule 1), Held outside its range (R90, rule 2), or free to
run. -/
def Entry.go (loops : List LoopEntry) (e : Entry) : Entry :=
  match e.land with
  | .here => { e with st := .runnable }
  | .loopEnd => { e with st := .held none, land := .here }
  | .jumped => { e with st := if inTop loops e.pc then .runnable else .held (some e.pc), land := .here }

/-- Where an entry that leaves a run with its trailer at `trailer`, no branch being taken, continues: at the top loop
entry's end when the trailer is that end, else at the word after it (R45, R87). -/
def fallThrough (loops : List LoopEntry) (trailer : Word) : Word × Land :=
  match loops with
  | t :: _ => if t.stop = trailer then (trailer, .loopEnd) else (trailer + 1, .here)
  | [] => (trailer + 1, .here)

/-! ## The current issue -/

/-- The wave that issues: its team, the wave, and its run. -/
structure Issue where
  team : Team
  wave : Wave
  run : Run
  deriving DecidableEq, Repr

/-- The issue of the current wave, when it stands in a run. -/
def State.issuer (s : State) : Option Issue :=
  match s.team? s.cur.1 with
  | none => none
  | some t =>
    match t.waves[s.cur.2]? with
    | none => none
    | some w =>
      match w.run with
      | none => none
      | some r => some { team := t, wave := w, run := r }

/-- Replace the current wave. -/
def State.updCur (s : State) (f : Wave → Wave) : State := s.updWave s.cur.1 s.cur.2 f

/-- Replace the current team. -/
def State.updCurTeam (s : State) (f : Team → Team) : State := s.updTeam s.cur.1 f

/-- The active lanes of the issue, in ascending order. -/
def Issue.lanes (c : Issue) : List Nat := lanesOf c.wave.width c.run.mask

/-- Number of 16-lane slices of the wave (R29). -/
def Issue.slices (c : Issue) : Nat := c.wave.width / 16

/-- Whether A and B of a word name general registers in one bank (R30). -/
def bankConflict (winb : Nat) (i : Instr) : Bool :=
  match Instr.bankPair i with
  | some (a, b) => decide (a.toNat < 120 ∧ b.toNat < 120 ∧ (winb + a.toNat) % 4 = (winb + b.toNat) % 4)
  | none => false

/-- Issue cycles of each slice of a word (R29, R30, R137). -/
def Issue.cost (c : Issue) (i : Instr) (base : Nat) : Nat := base + (if bankConflict c.run.winb i then 1 else 0)

/-- First issue cycle of a lane's slice. -/
def Issue.cycOf (c : Issue) (cost l : Nat) : Nat := c.run.cycle + l / 16 * cost

/-- Last issue cycle of a lane's slice (R31). -/
def Issue.lastOf (c : Issue) (cost l : Nat) : Nat := c.run.cycle + (l / 16 + 1) * cost - 1

/-- Last issue cycle of the whole instruction (R202). -/
def Issue.lastCycle (c : Issue) (cost : Nat) : Nat := c.run.cycle + c.slices * cost - 1

/-- What the instruction reads in a lane, in a given cycle. -/
def Issue.ctxAt (c : Issue) (l cyc : Nat) (ln : Lane) : LaneCtx :=
  { lane := ln, l := l, winb := c.run.winb, idx := c.run.idx, cyc := cyc }

/-- What a lane reads in its slice's issue cycle, the empty lane for a number that names none. An instruction that is performed
again has the operands that it read when it issued (R31, R367). -/
def Issue.ctx (c : Issue) (cost l : Nat) : LaneCtx :=
  match (c.run.again.map (·.ctxs)).bind (·.find? fun x => x.l == l) with
  | some x => x
  | none => c.ctxAt l (c.cycOf cost l) (c.wave.lanes.getD l (Lane.fresh 0))

/-- The lowest-numbered active lane (R74). -/
def Issue.lowest (c : Issue) : Option Nat := c.lanes.head?

/-- Address of the word being issued. -/
def Issue.pc (c : Issue) : Word := c.run.start + BitVec.ofNat 32 c.run.idx

/-- The record registers that the instruction reads (R48): one that is performed again reads those of its issue (R367). -/
def Issue.recs (c : Issue) : List BufRec :=
  match c.run.again with
  | some r => r.recs
  | none => c.wave.recs

/-- The instruction as a resumed entry performs it again, with its operands in some lanes (R367, R369). -/
def Issue.redo (c : Issue) (i : Instr) (cost : Nat) (ls : List Nat) : Redo :=
  { instr := i, winb := c.run.winb, pc := c.pc, ctxs := ls.map (c.ctx cost), recs := c.recs }

/-- Address of the run's trailer (R25). -/
def Issue.trailerPc (c : Issue) : Word := c.run.start + BitVec.ofNat 32 (c.run.words.length - 1)

/-- Whether an address lies in [start, end) of a loop entry. -/
def LoopEntry.before (t : LoopEntry) (pc : Word) : Bool := decide (t.start.toNat ≤ pc.toNat ∧ pc.toNat < t.stop.toNat)

/-- Whether an entry stands at the top loop entry's end while another lane has a PC in its [start, end): frontier selection
passes over it (R90, rule 1). -/
def Wave.passesOver (w : Wave) (e : Entry) : Bool :=
  match w.loops with
  | [] => false
  | t :: _ => decide (e.pc = t.stop) &&
      (w.frontier.any (fun f => t.before f.pc) || ((w.run.map fun r => t.before r.start).getD false))

/-- The age of an entry that may issue rises by the cycles another entry issues (R183). -/
def Entry.grow (w : Wave) (n : Nat) (e : Entry) : Entry :=
  match e.st with
  | .runnable => if w.passesOver e then e else { e with age := Nat.min 0xFFFFFFFF (e.age + n) }
  | _ => e

/-- The wave after an instruction has issued: position, cycle, progress count (R187) and ages (R183). -/
def Wave.advance (w : Wave) (n : Nat) : Wave :=
  { w with
    run := w.run.map fun r => { r with idx := r.idx + 1, cycle := r.cycle + n, stalled := false }
    progress := if w.runahead.isSome then w.progress else Nat.min 0xFFFFFFFF (w.progress + 1)
    frontier := w.frontier.map (Entry.grow w n)
    runahead := w.runahead.map fun k => { k with issued := k.issued + 1 } }

/-- The state after the current instruction has issued, its slices taking `cost` cycles each. -/
def State.advance (s : State) (c : Issue) (cost : Nat) : State :=
  s.updCur fun w => w.advance (c.slices * cost)

/-! ## Turns of ordered waves (R194) -/

/-- Whether a team belongs to an ordered launch (R14), or is a DUAL copy, which has ordered-mode semantics (R393). -/
def State.ordered (s : State) (t : Team) : Bool := ((s.launchOf t).map (·.region.ord)).getD false || t.dual.isSome

/-- The logical index of a wave of a launch (R194). -/
def Launch.logicalWave (l : Launch) (t : Team) (w : Nat) : Nat := t.logical * l.region.waves + w

/-- Logical waves of a launch (R194). -/
def Launch.waveCount (l : Launch) : Nat := l.region.gx * l.region.gy * l.region.waves

/-- The ordered waves resident on a quadrant of a core, in cycle order: by launch, then by logical index. -/
def State.orderedWaves (s : State) (core q : Nat) : List (Nat × Nat) :=
  let ws := s.teams.flatMap fun t =>
    if t.core = core && s.ordered t && !t.ending then
      (t.waves.filter fun w => w.idx % 4 == q && !w.exited).map fun w => (t.launch.getD 0, t.logical, w.idx, t.id)
    else []
  (sortBy (fun a b => decide (a.1 < b.1 ∨ a.1 = b.1 ∧ (a.2.1 < b.2.1 ∨ a.2.1 = b.2.1 ∧ a.2.2.1 ≤ b.2.2.1))) ws).map
    fun a => (a.2.2.2, a.2.2.1)

/-- Whether a wait ends the turn of an ordered wave (R194, R293, R355). -/
def BlockWhy.endsTurn : BlockWhy → Bool
  | .barrier .. | .gangBarrier _ | .acq _ | .rel .. | .fence .. | .waitc _ | .tags .. | .stores _ | .lantern => true
  | _ => false

/-- Whether an ordered wave still stands at a wait that ended its turn, with nothing else to run: the turn passes it by (R194). -/
def Wave.passedBy (w : Wave) : Bool :=
  w.run.isNone && w.frontier.all (fun e => e.st != .runnable) &&
  w.frontier.any fun e => match e.st with | .blocked l => l.any BlockWhy.endsTurn | _ => false

/-- The ordered waves of a quadrant, from the one whose turn it was last. -/
def State.turnOrder (s : State) (core q : Nat) : List (Nat × Nat) :=
  let l := s.orderedWaves core q
  match (s.core? core).bind fun c => (c.turns[q]?).join with
  | none => l
  | some x => if l.contains x then l.dropWhile (· != x) ++ l.takeWhile (· != x) else l

/-- The ordered wave whose turn it is on a quadrant (R194). -/
def State.turnOf (s : State) (core q : Nat) : Option (Nat × Nat) :=
  let l := s.turnOrder core q
  match l.find? fun x => !((s.wave? x.1 x.2).map Wave.passedBy).getD false with
  | some x => some x
  | none => l.head?

/-- An ordered wave takes its turn on its quadrant, until it ends it (R194). -/
def State.takeTurn (s : State) (t : Team) (w : Nat) : State :=
  if s.ordered t then s.updCore t.core fun c => { c with turns := c.turns.set (w % 4) (some (t.id, w)) } else s

/-- The element after another one in a list taken in a circle; the first one after one that it does not hold. -/
def nextIn (l : List (Nat × Nat)) (x : Nat × Nat) : Option (Nat × Nat) :=
  match (l.dropWhile (· != x)).drop 1 with
  | y :: _ => some y
  | [] => l.head?

/-- End the turn of an ordered wave: the next one of the quadrant follows (R194). -/
def State.endTurn (s : State) (t : Team) (w : Nat) : State :=
  if s.ordered t && s.turnOf t.core (w % 4) == some (t.id, w) then
    s.updCore t.core fun c => { c with turns := c.turns.set (w % 4) (nextIn (s.orderedWaves t.core (w % 4)) (t.id, w)) }
  else s

/-! ## The lantern (R195, R196) -/

/-- The holder passes the lantern, once its operations are performed (R196). -/
def State.passLantern (s : State) (t : Team) (w : Nat) : State :=
  match s.launchOf t with
  | none => s
  | some l =>
    if l.region.ord && l.lantern == some (.at (l.logicalWave t w)) then
      s.updLaunch l.id fun l => { l with lantern := some (.passing (l.logicalWave t w)) }
    else s

/-- Whether a wave holds the lantern of its launch; a wave of a free launch needs none (R195). -/
def State.holdsLantern (s : State) (t : Team) (w : Nat) : Bool :=
  match s.launchOf t with
  | none => true
  | some l => !l.region.ord || l.lantern == some (.at (l.logicalWave t w))

/-- What an ordered wave's run does when it ends (R194, R208, R210, R214): the lantern passes on a yield, an arrival or, at its trailer, an
LPASS; the turn ends on a yield, on an arrival and on a wait of the list of R293. -/
def State.runEnds (s : State) (t : Team) (w : Nat) (r : Run) (passes yields : Bool) : State :=
  let s := if passes || yields then s.passLantern t w else s
  if r.turnEnds || yields || r.blocks.any BlockWhy.endsTurn then s.endTurn t w else s

/-! ## The end of runahead (R381) -/

/-- A change of a wave's lanes and frontier from outside its run: in runahead mode the checkpoint takes it too (R380). -/
def Wave.both (w : Wave) (f : Wave → Wave) : Wave :=
  match w.runahead with
  | none => f w
  | some k =>
    let v := f { w with lanes := k.lanes, loops := k.loops, frontier := k.frontier, run := none, runahead := none }
    { f w with runahead := some { k with lanes := v.lanes, frontier := v.frontier } }

/-- Restore a wave's checkpoint; the latches are cleared and the run is fetched again, after 4 cycles (R43, R381). -/
def Wave.restore (w : Wave) : Wave :=
  match w.runahead with
  | none => w
  | some k =>
    { w with lanes := k.lanes.map Lane.drain, loops := k.loops, winb := k.winb, rmode := k.rmode, rmodePend := [],
             frontier := k.frontier, progress := k.progress, run := none, runahead := none, drain := 4 }

/-- End the current wave's runahead. -/
def State.endRunahead (s : State) : State := s.updCur Wave.restore

/-! ## Ending a run on a fault (R367) -/

/-- Registers that a trailer names, by physical index (R37, R59). -/
def trailerRegs (winb : Nat) : Instr → List Nat
  | .trail b c e f _ u v =>
    (if v then (List.range (c.toNat + 1)).map (winb + b.toNat + ·) else []) ++
    (if u then (List.range (f.toNat + 1)).map (winb + e.toNat + ·) else [])
  | _ => []

/-- The registers that one load writes. -/
def LoadItem.regs (i : LoadItem) : List Nat :=
  match i.dst with
  | none => []
  | some p => if i.pair then [p, p + 1] else [p]

/-- Whether an access waits for its fault to be resolved. -/
def LoadItem.isParked (i : LoadItem) : Bool :=
  match i.src with
  | .parked _ => true
  | _ => false

/-- Whether a register still waits for a lane that is not parked (R37, R182). -/
def Wave.awaited (w : Wave) (p : Nat) : Bool :=
  w.loads.any fun l => l.items.any fun i => !i.isParked && i.regs.contains p

/-- Marks of registers that no outstanding write awaits are cleared (R37). -/
def Wave.unmark (w : Wave) (regs : List Nat) : Wave :=
  { w with marks := w.marks.filter fun p => !(regs.contains p && !w.awaited p) }

/-- Record registers with the records that RECSET or RECLD has placed put into force (R98). -/
def placeRecs (recs : List BufRec) (l : List (Nat × BufRec)) : List BufRec := l.foldl (fun r p => r.set p.1 p.2) recs

/-- The wave after its run has ended: results written, latches lost, the new window base in force, LEAVE's pops made,
records placed (R19, R28, R33, R95, R98). -/
def Wave.endRun (w : Wave) (r : Run) : Wave :=
  let w := { w with lanes := w.lanes.map Lane.drain, rmode := settleAll w.rmode w.rmodePend,
                    rmodePend := [], winb := r.newWinb.getD w.winb, run := none, loops := w.loops.drop r.leaves,
                    recs := placeRecs w.recs w.recNext, recNext := [] }
  w.unmark (r.words.getLast?.map (trailerRegs r.winb) |>.getD [])

/-- The latest cycle of a run in which a fixed-latency result or a special-register write of the wave is made (R28). -/
def Wave.lastDue (w : Wave) : Nat :=
  let of := fun l : Lane => l.pend.map (·.due) ++ l.seedPend.map (·.1) ++ l.latches.map (·.due)
  (w.rmodePend.map (·.1) ++ w.lanes.flatMap of).foldl Nat.max 0

/-- Cycles pass on a quadrant: the waves that drain come nearer to their next run (R28); `skip` is the wave whose run has taken them. -/
def State.passCycles (s : State) (core q n : Nat) (skip : Option (Nat × Nat)) : State :=
  { s with teams := s.teams.map fun t =>
    if t.core = core then { t with waves := t.waves.map fun w =>
      if w.idx % 4 = q ∧ skip ≠ some (t.id, w.idx) then { w with drain := w.drain - n } else w } else t }

/-- A run has ended: its wave drains from now on, and the quadrant's other waves have drained meanwhile (R28, R188). -/
def State.drains (s : State) (c : Issue) : State :=
  (s.passCycles c.team.core (c.wave.idx % 4) c.run.cycle (some (c.team.id, c.wave.idx))).updCur fun w =>
    { w with drain := c.wave.lastDue - c.run.cycle }

/-- Whether a run's trailer has its Y bit set (R40). -/
def Run.trailerYields (r : Run) : Bool :=
  match r.words.getLast? with
  | some (.trail _ _ _ _ y _ _) => y
  | _ => false

/-- What the faults of a run have left of a lane: those under which it is parked, and the instruction that it performs again. -/
def Run.parkOf (r : Run) (l : Nat) : List Parking × Option Redo :=
  ((r.parks.filter fun p => laneIn p.1 l).map (·.2), (r.repeats.find? fun p => laneIn p.1 l).map (·.2))

/-- The entries that lanes of a run form which continue at a PC, apart by their faults (R87, R182). -/
def Run.entriesAt (r : Run) (loops : List LoopEntry) (pc : Word) (land : Land) (m : BitVec 64) : List Entry :=
  let lanes := lanesOf 64 m
  (distinct (lanes.map r.parkOf)).map fun k =>
    let e : Entry := { pc := pc, mask := maskOf (lanes.filter fun l => r.parkOf l = k), st := .runnable, age := 0, land := land }
    match k with
    | ([], none) => if r.blocks.isEmpty then e.go loops else { e with st := .blocked r.blocks }
    | ([], rd) => { e with redo := rd, after := r.blocks }
    | (ps, rd) => { e with st := .parked ps, redo := rd, after := r.blocks }

/-- Park the whole issuing entry at the faulting instruction, and report the fault (R367): lanes that an access of the run has parked wait for
both. What its run has done to the lantern and the
turn takes effect as the run ends; what its trailer would do waits for RESUME (R369). -/
def State.parkWhole (s : State) (c : Issue) (f : FaultInfo) : State :=
  let (id, s) := s.fresh
  let r := s.faultReport c.team c.wave.idx f false false id
  let s := s.addReport r
  let s := match f.code with
    | .eccUncorr => s.deviceCopy r none
    | _ => s
  let left := c.run.yields || c.run.turnEnds
  let (pc, land, retry) : Word × Land × Retry := match c.run.jump with
    | some (pc, land) => (pc, land, .goOn)
    | none => (f.pc, .here, if c.run.exits then .none
        else .after c.trailerPc (c.run.yields || c.run.trailerYields) (!left && (c.run.lpass || c.run.trailerYields)))
  let run := { c.run with parks := c.run.parks ++ [(c.run.mask, (⟨f.code, id, retry⟩ : Parking))] }
  let s := (if c.wave.priv = .trap then s else s.runEnds c.team c.wave.idx c.run left c.run.yields).drains c
  s.updCur fun w =>
    let w := w.endRun c.run
    { w with frontier := addEntries (run.entriesAt w.loops pc land run.mask) w.frontier }

/-! ## Trap entry and return (R374, R375) -/

/-- The bytes of a loop-stack entry in a trap frame (R374). -/
def LoopEntry.bytes (e : LoopEntry) : List Byte := bytesLE 4 e.start.toNat ++ bytesLE 4 e.stop.toNat ++ bytesLE 4 e.count.toNat

/-- The trap frame (R374): cause, return address, faulting address and INFO, and the state before entry. -/
def trapFrame (w : Wave) (priv gie : Bool) (mask : BitVec 64) (cause : Nat) (ret : Word) (addr : DWord) (info : Word) :
    List Byte :=
  let flags := ((lanesOf w.width mask).head?.bind fun l => w.lanes[l]?).map (·.flags) |>.getD 0
  let ls := (w.loops.reverse.take 4).flatMap LoopEntry.bytes
  [0x10, BitVec.ofNat 8 cause, BitVec.ofNat 8 w.loops.length, (boolWord priv ||| (boolWord gie <<< 1)).truncate 8] ++
  bytesLE 4 ret.toNat ++ bytesLE 8 addr.toNat ++ bytesLE 4 w.winb ++ bytesLE 4 flags.toNat ++ bytesLE 4 w.rmode.toNat ++
  bytesLE 8 mask.toNat ++ bytesLE 4 info.toNat ++ List.replicate 8 0 ++ ls ++ List.replicate (48 - ls.length) 0 ++
  List.replicate 32 0

/-- Trap entry on a supervisor core for a wave whose run has ended, with the entry's lanes `mask` (R374): the frame is
written at %tfp - 128, or the core halts when it would lie below %tlim. -/
def State.trapEntry (s : State) (t : Team) (mask : BitVec 64) (cause : Nat) (ret : Word) (addr : DWord) (info : Word) :
    State :=
  let i := t.supIdx
  let u := s.sup i
  match s.wave? t.id 0 with
  | none => s
  | some w =>
    if u.tfp.toNat < u.tlim.toNat + 128 then s.haltSup i
    else
      let fp := u.tfp - 128
      let bs := trapFrame w (w.priv == .supervisor) (u.sie.getLsbD 31) mask cause ret addr info
      let s := (s.frameStore t fp.toNat (bs.take 64)).frameStore t (fp.toNat + 64) (bs.drop 64)
      let s := s.updSup i fun u => { u with tfp := fp, sie := u.sie &&& 0x7FFFFFFF }
      s.updWave t.id 0 fun w =>
        { w with frontier := [{ pc := u.tvec, mask := mask, st := .runnable, age := 0, land := .here }], winb := u.twb.toNat, loops := [],
                 priv := .supervisor, run := none, sel := none, skip := none }

/-- A fault raised at execution by the current instruction: on a supervisor core a trap whose return address is the run
after the trailer (R374), elsewhere the entry is parked (R367); in runahead mode runahead ends (R381). -/
def State.raise (s : State) (c : Issue) (f : FaultInfo) : State :=
  let f := { f with pc := c.pc }
  if c.wave.runahead.isSome then s.endRunahead
  else if c.team.isSup then
    let s := (s.drains c).updCur fun w => w.endRun c.run
    s.trapEntry c.team c.run.mask f.code.num (c.trailerPc + 1) (f.addr.getD 0) (if f.code = .trap then f.aux else f.pc)
  else s.parkWhole c f

/-- Reads of memory by the device itself: HBM bytes at their homes, those of a modified copy where one is away (R420). -/
def State.peek (s : State) (pa n : Nat) : List Byte :=
  ((s.l2.filter (·.modified)) ++ s.writeBacks).foldl (fun b c => patchBytes pa b c.line (whole c.data)) (Memory.readN s.mem pa n)

/-- The loop stack in a trap frame, top first (R374). -/
def frameLoops (bs : List Byte) (n : Nat) : List LoopEntry :=
  ((List.range n).map fun i =>
    { start := field32 bs (48 + 12 * i), stop := field32 bs (52 + 12 * i), count := field32 bs (56 + 12 * i) }).reverse

/-- Whether a trap frame is valid: version, depth, reserved bytes, and the reserved bits of %winb, %flags and %rmode
(R22 to R24, R375). -/
def frameValid (bs : List Byte) : Bool :=
  let minor0 := bitsOf (fieldLE bs 0 1) 0 4 == 0
  decide (bitsOf (fieldLE bs 0 1) 4 4 = 1) && decide (fieldLE bs 2 1 ≤ 4) &&
  (!minor0 || (decide (fieldLE bs 3 1 < 4) && zeroBytes bs 40 8 && zeroBytes bs 96 32)) &&
  decide (fieldLE bs 16 4 < 512 ∧ fieldLE bs 16 4 % 8 = 0 ∧ fieldLE bs 20 4 < 64 ∧ fieldLE bs 24 4 ≤ 4)

/-- Trap return on a supervisor core, at the trailer of ERET's run: the frame at %tfp is restored and 128 is added to
%tfp (R375, R401). The frame is valid. -/
def State.trapReturn (s : State) (t : Team) (bs : List Byte) : State :=
  let i := t.supIdx
  let flg := fieldLE bs 3 1
  let s := s.updSup i fun u =>
    { u with tfp := u.tfp + 128, sie := (u.sie &&& 0x7FFFFFFF) ||| (if flg / 2 % 2 = 1 then 0x80000000 else 0) }
  s.updWave t.id 0 fun w =>
    let mask := (field64 bs 28) &&& allLanes w.width
    { w with
      frontier := [{ pc := field32 bs 4, mask := mask, st := .runnable, age := 0, land := .here }], winb := (field32 bs 16).toNat,
      rmode := field32 bs 24, loops := frameLoops bs (fieldLE bs 2 1),
      priv := if flg % 2 = 1 then .supervisor else .user, run := none, sel := none, skip := none,
      lanes := w.lanes.mapIdx fun l ln => if laneIn mask l then { ln with flags := field32 bs 20 } else ln }

/-! ## Issuing (R29 to R36) -/

/-- Bytes that a DUAL copy's store buffer holds (R393). -/
def dualBuffer : Nat := 16384

/-- Whether an instruction is a compare point of a DUAL copy: by its kind, or a store of the wave that the buffer may have no
room for (R393). -/
def Dual.atCompare (d : Dual) (w : Wave) (i : Instr) : Bool :=
  Instr.comparePoint i || match i with
    | .st _ _ _ _ _ z => decide (dualBuffer < (d.stream.map fun x => x.bytes.length).sum + w.width * Size.bytes z)
    | _ => false

/-- Whether the issue waits at a compare point that DUAL_COMPARE has not passed (R393). -/
def Issue.dualStalls (c : Issue) (i : Instr) : Bool :=
  match c.team.dual with
  | none => false
  | some d => d.atCompare c.wave i && !(d.passed && d.atPoint == some c.wave.idx)

/-- A compare point left behind (R393). When the primary leaves it, having performed the request, the secondary may pass, and
its result is shared with the load that the primary's request has added. -/
def State.leavePoint (s : State) (c : Issue) (i : Instr) : State :=
  match c.team.dual with
  | none => s
  | some d =>
    if !d.atCompare c.wave i then s
    else
      let s := s.updTeam c.team.id fun t => { t with dual := t.dual.map fun d => { d with atPoint := none, passed := false } }
      if d.primary then
        let seq := ((s.wave? c.team.id c.wave.idx).bind fun w => w.loads.getLast?).map (·.seq)
        s.updTeam d.peer fun t => { t with dual := t.dual.map fun d => { d with passed := true, shares := seq } }
      else s

/-- A wave that reaches a compare point stalls there; one that another wave's compare point keeps waiting just waits. -/
def State.standAtPoint (s : State) (c : Issue) : State :=
  s.updTeam c.team.id fun t => { t with dual := t.dual.map fun d => { d with atPoint := some (d.atPoint.getD c.wave.idx) } }

/-! ## Accesses that wait for a FENCE, an ACQ or a tag (R266, R267, R281) -/

/-- Everything that a wave's entries wait for, at this run's trailer too. -/
def Wave.blocks (w : Wave) : List BlockWhy :=
  ((w.run.map (·.blocks)).getD []) ++ w.frontier.flatMap Entry.whys

/-- The place in program order of what an entry waits for, where that is one of the wave's accesses or of its fences. -/
def BlockWhy.seq? : BlockWhy → Option Nat
  | .waitc a => some a.seq
  | .acq a => some a.seq
  | .tags q _ _ _ none | .rel q _ _ _ _ _ | .fence q _ _ | .taken q _ => some q
  | _ => none

/-- Whether an access of a wave with an identity must wait, because an earlier FENCE or ACQ of the wave has not completed, or an
earlier WTAG or WTANY has not made its observation (R266, R267, R281). -/
def Wave.gates (w : Wave) (id : Nat) : Bool :=
  w.blocks.any fun y => match y with
    | .fence seq _ _ | .taken seq _ | .tags seq _ _ _ none => decide (seq < id)
    | .acq a => decide (a.seq < id)
    | _ => false

/-- Whether an instruction makes accesses when it issues, and not later: its access has to wait for what its wave waits for. A LD makes
them then through a bundle-bound record (R100). -/
def Instr.accesses (recs : List BufRec) : Instr → Bool
  | .sld .. | .sst .. | .sstm .. | .invoke .. | .fork .. | .bdecl .. | .epi .. | .sumpw .. | .sumpx .. | .eret => true
  | .ld _ q _ _ _ => (recs.getD q.toNat BufRec.zero).flg.getLsbD 1
  | _ => false

/-- Whether an instruction reads memory as a whole when it issues: the wave's earlier read-modify-writes are performed before (R272). -/
def Instr.readsWhole : Instr → Bool
  | .fork .. | .bdecl .. | .epi .. | .sumpw .. | .eret => true
  | _ => false

/-- Whether the next word of a run waits where it stands (R267, R272): a FENCE, an ACQ or a tag wait of its wave is not over, and the word
makes an access at once; or it reads memory and a read-modify-write of its wave has still to be performed. What an earlier run has left to
wait for has held the run back at its start; the wait counts no cycle (log entry 39). -/
def State.stalls (s : State) (c : Issue) (i : Instr) : Bool :=
  (Instr.accesses c.recs i && c.wave.gates s.nextId) ||
  (Instr.readsWhole i && s.rmws.any fun m => m.team == c.team.id && m.wave == c.wave.idx)

/-- The run's next word waits; other waves of the quadrant may issue. -/
def State.stall (s : State) : State := s.updCur fun w => { w with run := w.run.map fun r => { r with stalled := true } }

/-- The lowest active lane in which a register that a word reads holds an uncorrectable error (R396). One that is performed again reads no
register. -/
def Issue.readsError (c : Issue) (i : Instr) : Option Nat :=
  if c.run.again.isSome || c.wave.lanes.all (fun l => l.badRegs.isEmpty) then none
  else
    c.lanes.find? fun l => (Instr.sources c.wave.esz i).any (c.ctx (c.cost i 1) l).inError

/-- An outcome of the step of one instruction: it needs a wave that stands in a run, in runahead mode a word that ends runahead
does so instead of acting, and so does the 257th (R380, R381), an access waits for what goes before it (R267), a DUAL copy stalls at its
compare points (R393), and a word that reads a register in error is ECC_UNCORR (R396). -/
def issue (i : Instr) (s : State) (go : Issue → State) : Host.Outcome State Fault Refusal :=
  match s.issuer with
  | none => .fault .noIssuer
  | some c =>
    if c.wave.runahead.any fun k => Instr.runaheadClass i == .ending || decide (256 ≤ k.issued) then .next s.endRunahead
    else if c.wave.runahead.isNone && s.stalls c i then .next s.stall
    else if c.wave.runahead.isNone && c.dualStalls i then .next (s.standAtPoint c)
    else
      match c.readsError i with
      | some l => .next (s.raise c { code := .eccUncorr, lane := l, aux := 1 })
      | none => .next ((go c).leavePoint c i)

/-- Whether a register or predicate that an instruction reads is runahead-invalid in a lane (R43, R380). -/
def LaneCtx.anyInvalid (x : LaneCtx) (i : Instr) : Bool :=
  (Instr.sources (fun _ => 1) i).any x.invalid || (Instr.predSources i).any fun k => x.lane.invPreds.getLsbD k.toNat

/-- One lane's results of an instruction put into its lane, with runahead validity (R31, R43). -/
def Lane.issued (c : Issue) (i : Instr) (cost due : Nat) (o : LaneOut) (l : Nat) (ln : Lane) : Lane :=
  let ln' := ln.put c.run.idx due o
  if c.wave.runahead.isSome then
    let x := c.ctx cost l
    let bad := x.anyInvalid i
    ln'.markInvalid c.run.winb c.run.idx bad (Instr.noWrite i) (Instr.dests (fun _ => 1) i) (o.pred.map (·.1))
  else ln'

/-- Replace the active lanes of the current wave. -/
def Wave.mapActive (w : Wave) (mask : BitVec 64) (f : Nat → Lane → Lane) : Wave :=
  { w with lanes := w.lanes.mapIdx fun l ln => if laneIn mask l then f l ln else ln }

/-- The latest result cycle of a lane instruction of latency `lat` (R28, R31). -/
def Issue.dueOf (c : Issue) (cost lat l : Nat) : Nat := c.lastOf cost l + lat

/-- A lane instruction (R74): in each active lane, `f` of what the lane reads, written `lat` cycles after the last issue
cycle of the lane's slice; slices cost `base` cycles and the bank term. -/
def laneOp (i : Instr) (base lat : Nat) (f : Issue → LaneCtx → LaneOut) (s : State) : Host.Outcome State Fault Refusal :=
  issue i s fun c =>
    let cost := c.cost i base
    (s.updCur fun w => w.mapActive c.run.mask fun l ln =>
      Lane.issued c i cost (c.dueOf cost lat l) (f c (c.ctx cost l)) l ln).advance c cost

/-- What an instruction's execution checks and effect come to: a fault, or the next state. -/
abbrev Acted := Except FaultInfo State

/-- The state after an instruction that acts on `s'`, or that faults at `s` (R52, R367). -/
def State.settleActed (s : State) (c : Issue) : Acted → State
  | .ok s' => s'
  | .error f => s.raise c f

/-- A wave-scoped instruction of one cycle for each slice (R74): `f` acts once, on the operands of the lowest active lane
and the state after the issue; with no active lane nothing changes but the issue. -/
def waveOp (i : Instr) (f : Issue → LaneCtx → State → Acted) (s : State) : Host.Outcome State Fault Refusal :=
  issue i s fun c =>
    let cost := c.cost i 1
    match c.lowest with
    | none => s.advance c cost
    | some l => s.settleActed c (f c (c.ctx cost l) (s.advance c cost))

/-- A lane instruction that acts on all active lanes together, in one cycle for each slice; with no active lane nothing
changes but the issue (R74). -/
def lanesOp (i : Instr) (f : Issue → Nat → State → Acted) (s : State) : Host.Outcome State Fault Refusal :=
  issue i s fun c =>
    let cost := c.cost i 1
    if c.lanes.isEmpty then s.advance c cost else s.settleActed c (f c cost (s.advance c cost))

/-- The run of the current wave, replaced. -/
def State.updRun (s : State) (f : Run → Run) : State := s.updCur fun w => { w with run := w.run.map f }

end Sys2Proof.Machine
end

