-- ==== Sys2Proof/Machine/Scalar.lean ====
section
/-!
DEFINITION. The scalar family (spec 03): integer arithmetic and logic, bit fields, constants, predicates, selection,
branches, hardware loops, NOP and WINB. One definition for each instruction.
-/

namespace Sys2Proof.Machine

/-! ## Shared forms -/

/-- A register result of A and B. -/
def aluOp (i : Instr) (lat : Nat) (n : Bool) (d a b : Reg) (g : Word → Word → Word) (s : State) :
    Host.Outcome State Fault Refusal :=
  laneOp i 1 lat (fun _ x => outReg x n d (g (x.reg a) (x.reg b))) s

/-- A register result of A. -/
def unaryOp (i : Instr) (n : Bool) (d a : Reg) (g : Word → Word) (s : State) : Host.Outcome State Fault Refusal :=
  laneOp i 1 4 (fun _ x => outReg x n d (g (x.reg a))) s

/-- A pair result of the pairs A and B (R82). -/
def pairOp (i : Instr) (lat : Nat) (d a b : Reg) (g : DWord → DWord → DWord) (s : State) :
    Host.Outcome State Fault Refusal :=
  laneOp i 1 lat (fun _ x => outPair x d (g (x.pair a) (x.pair b))) s

/-! ## Functions of the operands -/

/-- SHL: 0 when the amount is 32 or more (R76). -/
def shlW (a b : Word) : Word := if 32 ≤ b.toNat then 0 else a <<< b.toNat
/-- SHR: 0 when the amount is 32 or more (R76). -/
def shrW (a b : Word) : Word := if 32 ≤ b.toNat then 0 else a >>> b.toNat
/-- SRA: the amount stops at 31 (R76). -/
def sraW (a b : Word) : Word := a.sshiftRight (Nat.min b.toNat 31)
/-- ROT: left, by the amount mod 32 (R76). -/
def rotW (a b : Word) : Word := a.rotateLeft (b.toNat % 32)
/-- Signed minimum. -/
def minS (a b : Word) : Word := if a.toInt ≤ b.toInt then a else b
/-- Signed maximum. -/
def maxS (a b : Word) : Word := if a.toInt ≤ b.toInt then b else a
/-- Unsigned minimum. -/
def minU (a b : Word) : Word := if a.toNat ≤ b.toNat then a else b
/-- Unsigned maximum. -/
def maxU (a b : Word) : Word := if a.toNat ≤ b.toNat then b else a
/-- Leading zero bits of the low `n` bits. -/
def clzFrom (a : Word) : Nat → Nat
  | 0 => 0
  | n + 1 => if a.getLsbD n then 0 else 1 + clzFrom a n
/-- CLZ (R78). -/
def clzW (a : Word) : Word := BitVec.ofNat 32 (clzFrom a 32)
/-- POPC (R78). -/
def popcW (a : Word) : Word := BitVec.ofNat 32 ((List.range 32).countP a.getLsbD)
/-- BREV (R78). -/
def brevW (a : Word) : Word := a.reverse
/-- MULH: the high half of the signed product (R79). -/
def mulhS (a b : Word) : Word := BitVec.ofInt 32 (a.toInt * b.toInt / 2 ^ 32)
/-- MULHU: the high half of the unsigned product (R79). -/
def mulhU (a b : Word) : Word := BitVec.ofNat 32 (a.toNat * b.toNat / 2 ^ 32)
/-- DIV: truncating; all ones for a zero divisor; the overflow wraps to 0x80000000 (R80). -/
def divS (a b : Word) : Word := if b = 0 then 0xFFFFFFFF else BitVec.ofInt 32 (a.toInt.tdiv b.toInt)
/-- DIVU (R80). -/
def divU (a b : Word) : Word := if b = 0 then 0xFFFFFFFF else BitVec.ofNat 32 (a.toNat / b.toNat)
/-- REM: the sign of the dividend; the dividend for a zero divisor (R80). -/
def remS (a b : Word) : Word := if b = 0 then a else BitVec.ofInt 32 (a.toInt.tmod b.toInt)
/-- REMU (R80). -/
def remU (a b : Word) : Word := if b = 0 then a else BitVec.ofNat 32 (a.toNat % b.toNat)
/-- The mask of a bit field: width w + 1 cut off above bit 31 (R81). -/
def fieldMask (w p : BitVec 5) : Word :=
  let n := Nat.min (w.toNat + 1) (32 - p.toNat)
  BitVec.ofNat 32 (2 ^ n - 1) <<< p.toNat
/-- BFX (R81). -/
def bfxW (a : Word) (w p : BitVec 5) : Word := (a &&& fieldMask w p) >>> p.toNat
/-- BFI (R81). -/
def bfiW (d a : Word) (w p : BitVec 5) : Word :=
  (d &&& ~~~fieldMask w p) ||| ((a <<< p.toNat) &&& fieldMask w p)
/-- MOVHI (R83). -/
def movhiW (d : Word) (i : BitVec 18) : Word := (zext32 i <<< 14) ||| (d &&& 0x3FFF)
/-- The outcome of a comparison (R84). -/
def condHolds : Cond → Word → Word → Bool
  | .eq, a, b => a == b
  | .ne, a, b => a != b
  | .lt, a, b => decide (a.toInt < b.toInt)
  | .le, a, b => decide (a.toInt ≤ b.toInt)
  | .ltu, a, b => decide (a.toNat < b.toNat)
  | .leu, a, b => decide (a.toNat ≤ b.toNat)
/-- The functions of KOP (R85). -/
def kopFn : KFn → Bool → Bool → Bool
  | .and, a, b => a && b
  | .or, a, b => a || b
  | .xor, a, b => a != b
  | .andn, a, b => a && !b
  | .not, a, _ => !a

/-! ## Integer register operations (R76 to R80) -/

/-- ADD: a + b modulo 2^32 (R76) -/
def execAdd (n : Bool) (d a b : Reg) (s : State) : Host.Outcome State Fault Refusal :=
  aluOp (.add n d a b) 4 n d a b (· + ·) s

/-- SUB: a - b modulo 2^32 (R76) -/
def execSub (n : Bool) (d a b : Reg) (s : State) : Host.Outcome State Fault Refusal :=
  aluOp (.sub n d a b) 4 n d a b (· - ·) s

/-- AND (R76) -/
def execAnd (n : Bool) (d a b : Reg) (s : State) : Host.Outcome State Fault Refusal :=
  aluOp (.and n d a b) 4 n d a b (· &&& ·) s

/-- OR (R76) -/
def execOr (n : Bool) (d a b : Reg) (s : State) : Host.Outcome State Fault Refusal :=
  aluOp (.or n d a b) 4 n d a b (· ||| ·) s

/-- XOR (R76) -/
def execXor (n : Bool) (d a b : Reg) (s : State) : Host.Outcome State Fault Refusal :=
  aluOp (.xor n d a b) 4 n d a b (· ^^^ ·) s

/-- MIN: smaller, signed (R76) -/
def execMin (n : Bool) (d a b : Reg) (s : State) : Host.Outcome State Fault Refusal :=
  aluOp (.min n d a b) 4 n d a b minS s

/-- MAX: larger, signed (R76) -/
def execMax (n : Bool) (d a b : Reg) (s : State) : Host.Outcome State Fault Refusal :=
  aluOp (.max n d a b) 4 n d a b maxS s

/-- MINU: smaller, unsigned (R76) -/
def execMinu (n : Bool) (d a b : Reg) (s : State) : Host.Outcome State Fault Refusal :=
  aluOp (.minu n d a b) 4 n d a b minU s

/-- MAXU: larger, unsigned (R76) -/
def execMaxu (n : Bool) (d a b : Reg) (s : State) : Host.Outcome State Fault Refusal :=
  aluOp (.maxu n d a b) 4 n d a b maxU s

/-- SHL (R76) -/
def execShl (n : Bool) (d a b : Reg) (s : State) : Host.Outcome State Fault Refusal :=
  aluOp (.shl n d a b) 4 n d a b shlW s

/-- SHR (R76) -/
def execShr (n : Bool) (d a b : Reg) (s : State) : Host.Outcome State Fault Refusal :=
  aluOp (.shr n d a b) 4 n d a b shrW s

/-- SRA (R76) -/
def execSra (n : Bool) (d a b : Reg) (s : State) : Host.Outcome State Fault Refusal :=
  aluOp (.sra n d a b) 4 n d a b sraW s

/-- ROT (R76) -/
def execRot (n : Bool) (d a b : Reg) (s : State) : Host.Outcome State Fault Refusal :=
  aluOp (.rot n d a b) 4 n d a b rotW s

/-- MUL: low half of the product (R79) -/
def execMul (n : Bool) (d a b : Reg) (s : State) : Host.Outcome State Fault Refusal :=
  aluOp (.mul n d a b) 6 n d a b (· * ·) s

/-- MULH (R79) -/
def execMulh (n : Bool) (d a b : Reg) (s : State) : Host.Outcome State Fault Refusal :=
  aluOp (.mulh n d a b) 6 n d a b mulhS s

/-- MULHU (R79) -/
def execMulhu (n : Bool) (d a b : Reg) (s : State) : Host.Outcome State Fault Refusal :=
  aluOp (.mulhu n d a b) 6 n d a b mulhU s

/-- DIV (R80) -/
def execDiv (n : Bool) (d a b : Reg) (s : State) : Host.Outcome State Fault Refusal :=
  aluOp (.div n d a b) 36 n d a b divS s

/-- DIVU (R80) -/
def execDivu (n : Bool) (d a b : Reg) (s : State) : Host.Outcome State Fault Refusal :=
  aluOp (.divu n d a b) 36 n d a b divU s

/-- REM (R80) -/
def execRem (n : Bool) (d a b : Reg) (s : State) : Host.Outcome State Fault Refusal :=
  aluOp (.rem n d a b) 36 n d a b remS s

/-- REMU (R80) -/
def execRemu (n : Bool) (d a b : Reg) (s : State) : Host.Outcome State Fault Refusal :=
  aluOp (.remu n d a b) 36 n d a b remU s

/-- MAD: the low half of the product added to D, read at issue (R79) -/
def execMad (n : Bool) (d a b : Reg) (s : State) : Host.Outcome State Fault Refusal :=
  laneOp (.mad n d a b) 1 6 (fun _ x => outReg x n d (x.reg d + x.reg a * x.reg b)) s

/-- CLZ (R78) -/
def execClz (n : Bool) (d a : Reg) (s : State) : Host.Outcome State Fault Refusal := unaryOp (.clz n d a) n d a clzW s

/-- POPC (R78) -/
def execPopc (n : Bool) (d a : Reg) (s : State) : Host.Outcome State Fault Refusal := unaryOp (.popc n d a) n d a popcW s

/-- BREV (R78) -/
def execBrev (n : Bool) (d a : Reg) (s : State) : Host.Outcome State Fault Refusal := unaryOp (.brev n d a) n d a brevW s

/-- MOV (R78) -/
def execMov (n : Bool) (d a : Reg) (s : State) : Host.Outcome State Fault Refusal := unaryOp (.mov n d a) n d a id s

/-- ADDW (R82) -/
def execAddw (d a b : Reg) (s : State) : Host.Outcome State Fault Refusal := pairOp (.addw d a b) 4 d a b (· + ·) s

/-- SUBW (R82) -/
def execSubw (d a b : Reg) (s : State) : Host.Outcome State Fault Refusal := pairOp (.subw d a b) 4 d a b (· - ·) s

/-- MULW (R82) -/
def execMulw (d a b : Reg) (s : State) : Host.Outcome State Fault Refusal := pairOp (.mulw d a b) 6 d a b (· * ·) s

/-! ## Bit fields, immediates and constants (R77, R81, R83) -/

/-- BFX (R81) -/
def execBfx (n : Bool) (d a : Reg) (w p : BitVec 5) (s : State) : Host.Outcome State Fault Refusal :=
  unaryOp (.bfx n d a w p) n d a (bfxW · w p) s

/-- BFI: D is read at issue (R81) -/
def execBfi (n : Bool) (d a : Reg) (w p : BitVec 5) (s : State) : Host.Outcome State Fault Refusal :=
  laneOp (.bfi n d a w p) 1 4 (fun _ x => outReg x n d (bfiW (x.reg d) (x.reg a) w p)) s

/-- ADDI: the immediate is sign-extended (R77) -/
def execAddi (n : Bool) (d a : Reg) (i : BitVec 10) (s : State) : Host.Outcome State Fault Refusal :=
  unaryOp (.addi n d a i) n d a (· + sext32 i) s

/-- ANDI: the immediate is zero-extended (R77) -/
def execAndi (n : Bool) (d a : Reg) (i : BitVec 10) (s : State) : Host.Outcome State Fault Refusal :=
  unaryOp (.andi n d a i) n d a (· &&& zext32 i) s

/-- ORI (R77) -/
def execOri (n : Bool) (d a : Reg) (i : BitVec 10) (s : State) : Host.Outcome State Fault Refusal :=
  unaryOp (.ori n d a i) n d a (· ||| zext32 i) s

/-- XORI (R77) -/
def execXori (n : Bool) (d a : Reg) (i : BitVec 10) (s : State) : Host.Outcome State Fault Refusal :=
  unaryOp (.xori n d a i) n d a (· ^^^ zext32 i) s

/-- MOVI: the immediate is sign-extended (R83) -/
def execMovi (d : Reg) (i : BitVec 18) (s : State) : Host.Outcome State Fault Refusal :=
  laneOp (.movi d i) 1 4 (fun _ x => outReg x false d (sext32 i)) s

/-- MOVHI: D is read at issue (R83) -/
def execMovhi (d : Reg) (i : BitVec 18) (s : State) : Host.Outcome State Fault Refusal :=
  laneOp (.movhi d i) 1 4 (fun _ x => outReg x false d (movhiW (x.reg d) i)) s

/-! ## Predicates and selection (R84 to R86) -/

/-- CMP (R84). -/
def execCmp (c : Cond) (d : Pred) (a b : Reg) (s : State) : Host.Outcome State Fault Refusal :=
  laneOp (.cmp c d a b) 1 4 (fun _ x => outPred d (condHolds c (x.reg a) (x.reg b))) s

/-- CMPI: the immediate is sign-extended, then compared as the condition says (R84). -/
def execCmpi (c : Cond) (d : Pred) (a : Reg) (i : BitVec 10) (s : State) : Host.Outcome State Fault Refusal :=
  laneOp (.cmpi c d a i) 1 4 (fun _ x => outPred d (condHolds c (x.reg a) (sext32 i))) s

/-- KOP (R85). -/
def execKop (f : KFn) (d a b : Pred) (s : State) : Host.Outcome State Fault Refusal :=
  laneOp (.kop f d a b) 1 4 (fun _ x => outPred d (kopFn f (x.pred a) (x.pred b))) s

/-- SEL: A where the guard reads true, B where it reads false (R86). -/
def execSel (n : Bool) (g : Pred) (d a b : Reg) (s : State) : Host.Outcome State Fault Refusal :=
  laneOp (.sel n g d a b) 1 4 (fun _ x => outReg x n d (if x.pred g then x.reg a else x.reg b)) s

/-! ## Control (R87 to R93) -/

/-- Whether the guard or a source of a branch is runahead-invalid in an active lane (R380). -/
def Issue.branchInvalid (c : Issue) (i : Instr) (k : Pred) (cost : Nat) : Bool :=
  c.lanes.any fun l =>
    let x := c.ctx cost l
    x.lane.invPreds.getLsbD k.toNat || (Instr.sources (fun _ => 1) i).any x.invalid

/-- The lanes that take a branch, with their targets (R87). -/
def Issue.takenLanes (c : Issue) (cost : Nat) (k : Pred) (sn : Bool) (target : LaneCtx → Word) : List (Nat × Word) :=
  c.lanes.filterMap fun l =>
    let x := c.ctx cost l
    if x.guard k sn then some (l, target x) else none

/-- A branch: the lanes whose guard passes are recorded with their targets, which take effect at the trailer; `link`
names the register that receives the address of the word after the trailer in the taken lanes (R87). -/
def branchOp (i : Instr) (k : Pred) (sn : Bool) (link : Option Reg) (target : Issue → LaneCtx → Word) (s : State) :
    Host.Outcome State Fault Refusal :=
  issue i s fun c =>
    let cost := c.cost i 1
    if c.wave.runahead.isSome && c.branchInvalid i k cost then s.endRunahead
    else
      let tk := c.takenLanes cost k sn (target c)
      (s.updCur fun w =>
        ({ w with run := w.run.map fun r => { r with taken := tk } } : Wave).mapActive (maskOf (tk.map (·.1))) fun l ln =>
          match link with
          | none => ln
          | some a =>
            Lane.issued c i cost (c.dueOf cost 4 l) (outReg (c.ctx cost l) false a (c.pc + 2)) l ln).advance c cost

/-- BR (R87). -/
def execBr (k : Pred) (sn : Bool) (o : BitVec 14) (s : State) : Host.Outcome State Fault Refusal :=
  branchOp (.br k sn o) k sn none (fun c _ => c.pc + sext32 o) s

/-- BRL: the link is written in the taken lanes only (R87). -/
def execBrl (k : Pred) (sn : Bool) (a : Reg) (o : BitVec 14) (s : State) : Host.Outcome State Fault Refusal :=
  branchOp (.brl k sn a o) k sn (some a) (fun c _ => c.pc + sext32 o) s

/-- JR (R87). -/
def execJr (k : Pred) (sn : Bool) (a : Reg) (o : BitVec 14) (s : State) : Host.Outcome State Fault Refusal :=
  branchOp (.jr k sn a o) k sn none (fun _ x => x.reg a + sext32 o) s

/-- The checks and the effect of LOOP and LOOPI with a count (R44, R88): the push, or the skip past the end, takes place
at the trailer. DESIGN CHOICE (log entry 86): the overflow of R44 is judged on the depth that the stack will have at the trailer, after the pops of
the run's LEAVEs. -/
def loopAct (c : Issue) (off : Nat) (count : Word) (s : State) : Acted :=
  let p := c.pc
  let stop := p + BitVec.ofNat 32 off
  if off < 2 then .error { code := .illegal, lane := c.lowest.getD 0 }
  else if count = 0 then .ok (s.updRun fun r => { r with skipTo := some (stop + 1) })
  else if 4 ≤ c.wave.loops.length - c.run.leaves then .error { code := .illegal, lane := c.lowest.getD 0 }
  else .ok (s.updRun fun r => { r with push := some { start := p + 2, stop := stop, count := count } })

/-- LOOP: the count is that of the lowest active lane, and 0 when no lane is active (R74, R88). -/
def execLoop (a : Reg) (e : BitVec 10) (s : State) : Host.Outcome State Fault Refusal :=
  issue (.loop a e) s fun c =>
    let cost := c.cost (.loop a e) 1
    let x := (c.lowest.map (c.ctx cost))
    if c.wave.runahead.isSome && (x.map fun x => x.invalid (a, 1)) == some true then s.endRunahead
    else s.settleActed c (loopAct c e.toNat ((x.map fun x => x.reg a).getD 0) (s.advance c cost))

/-- LOOPI: the count is encoded (R88). -/
def execLoopi (e : BitVec 10) (n : BitVec 8) (s : State) : Host.Outcome State Fault Refusal :=
  issue (.loopi e n) s fun c =>
    let cost := c.cost (.loopi e n) 1
    s.settleActed c (loopAct c e.toNat (if c.lowest.isSome then zext32 n else 0) (s.advance c cost))

/-- LEAVE: one entry is popped at the trailer; ILLEGAL on an empty stack (R47, R89). -/
def execLeave (s : State) : Host.Outcome State Fault Refusal :=
  waveOp .leave (fun c x s =>
    if c.wave.loops.length ≤ c.run.leaves then .error { code := .illegal, lane := x.l }
    else .ok (s.updRun fun r => { r with leaves := r.leaves + 1 })) s

/-- NOP occupies its issue cycles (R91). -/
def execNop (s : State) : Host.Outcome State Fault Refusal :=
  issue .nop s fun c => s.advance c (c.cost .nop 1)

/-- A new window base for the next run; a base of n or more is ILLEGAL (R19, R93). -/
def winbAct (c : Issue) (l base : Nat) (s : State) : Acted :=
  if c.wave.nregs ≤ base then .error { code := .illegal, lane := l }
  else .ok (s.updRun fun r => { r with newWinb := some base })

/-- WINB (R93). -/
def execWinb (i : BitVec 10) (s : State) : Host.Outcome State Fault Refusal :=
  waveOp (.winb i) (fun c x s => winbAct c x.l i.toNat s) s

end Sys2Proof.Machine
end

