-- ==== Sys2Proof/Machine/Flags.lean ====
section
/-!
DEFINITION. Numbers and their flags (spec 04): the value of a code, exact sums and products of dyadic numbers, rounding
under every mode with the flags it raises (R120 to R128), and the sticky flag bits (R23).
-/

namespace Sys2Proof.Machine

/-! ## Flag bits (R23) -/

/-- NV, invalid operation. -/
def flNV : Word := 1
/-- DZ, division by zero. -/
def flDZ : Word := 2
/-- OF, overflow or saturation. -/
def flOF : Word := 4
/-- UF, underflow. -/
def flUF : Word := 8
/-- NX, inexact. -/
def flNX : Word := 16
/-- IB, ill-formed block read. -/
def flIB : Word := 32

/-- A flag when a condition holds. -/
def flIf (c : Bool) (f : Word) : Word := if c then f else 0

/-! ## Rounding modes (R24, R120) -/

/-- Rounding modes; SR carries the 16 bits that the element drew (R121). -/
inductive RMode where
  | rne | rtz | rup | rdn
  | sr (draw : Nat)
  deriving DecidableEq, Repr

/-- The mode that %rmode names, with SR read as RNE (R24). -/
def modeOf (r : Word) : RMode :=
  match bitsOf r.toNat 0 3 with
  | 1 => .rtz
  | 2 => .rup
  | 3 => .rdn
  | _ => .rne

/-- Whether %rmode selects SR (R24). -/
def isSR (r : Word) : Bool := bitsOf r.toNat 0 3 == 4

/-! ## Values -/

/-- The value of a code: NaN, infinity, or (-1)^neg x m x 2^e. -/
inductive FV where
  | nan (sig : Bool)
  | inf (neg : Bool)
  | fin (neg : Bool) (m : Nat) (e : Int)
  deriving DecidableEq, Repr

/-- The floating-point formats (R104, R107, R108). -/
inductive FpFmt where
  | f32 | f16 | bf16 | e4m3 | e5m2
  deriving DecidableEq, Repr

/-- Fraction bits. -/
def FpFmt.fbits : FpFmt → Nat
  | .f32 => 23 | .f16 => 10 | .bf16 => 7 | .e4m3 => 3 | .e5m2 => 2

/-- Exponent bits. -/
def FpFmt.ebits : FpFmt → Nat
  | .f32 => 8 | .f16 => 5 | .bf16 => 8 | .e4m3 => 4 | .e5m2 => 5

/-- Bias. -/
def FpFmt.bias : FpFmt → Int
  | .f32 => 127 | .f16 => 15 | .bf16 => 127 | .e4m3 => 7 | .e5m2 => 15

/-- Width in bits. -/
def FpFmt.width (f : FpFmt) : Nat := 1 + f.ebits + f.fbits

/-- The code of the largest finite magnitude. -/
def FpFmt.maxCode : FpFmt → Nat
  | .e4m3 => 0x7E
  | f => (2 ^ f.ebits - 1) * 2 ^ f.fbits - 1

/-- The canonical NaN (R106). -/
def FpFmt.canon : FpFmt → Nat
  | .f32 => 0x7FC00000 | .f16 => 0x7E00 | .bf16 => 0x7FC0 | .e4m3 => 0x7F | .e5m2 => 0x7E

/-- The exponent of a subnormal's unit. -/
def FpFmt.qmin (f : FpFmt) : Int := 1 - f.bias - f.fbits

/-- A code with its sign. -/
def FpFmt.signed (f : FpFmt) (neg : Bool) (c : Nat) : Nat := (if neg then 2 ^ (f.width - 1) else 0) + c

/-- Decode(fmt, bits) (R104, R107, R108, R120). -/
def FpFmt.decode (f : FpFmt) (bits : Nat) : FV :=
  let neg := bits / 2 ^ (f.width - 1) % 2 == 1
  let e := bits / 2 ^ f.fbits % 2 ^ f.ebits
  let m := bits % 2 ^ f.fbits
  if f = .e4m3 then
    if e = 15 ∧ m = 7 then .nan false
    else if e = 0 then .fin neg m f.qmin else .fin neg (2 ^ f.fbits + m) (f.qmin + (e - 1 : Nat))
  else if e = 2 ^ f.ebits - 1 then
    if m = 0 then .inf neg else .nan (m / 2 ^ (f.fbits - 1) == 0)
  else if e = 0 then .fin neg m f.qmin
  else .fin neg (2 ^ f.fbits + m) (f.qmin + (e - 1 : Nat))

/-! ## Rounding -/

/-- Whether a magnitude of `k` units and a remainder `rem` out of `2^s` rounds away from zero. -/
def roundsUp (mode : RMode) (neg : Bool) (k rem s : Nat) : Bool :=
  if rem = 0 then false else
  match mode with
  | .rne => decide (2 ^ s < 2 * rem) || (2 ^ s == 2 * rem && k % 2 == 1)
  | .rtz => false
  | .rup => !neg
  | .rdn => neg
  | .sr draw => decide (draw < rem * 65536 / 2 ^ s)

/-- m x 2^e as units of 2^q: whole units, remainder, and log2 of the remainder's scale. A shift past every bit of m is
cut to 20 bits past it, which changes no decision of `roundsUp`. -/
def splitAt (m : Nat) (e q : Int) : Nat × Nat × Nat :=
  if q ≤ e then (m * 2 ^ (e - q).toNat, 0, 0)
  else
    let s := Nat.min (q - e).toNat (Nat.log2 m + 20)
    (m >>> s, m % 2 ^ s, s)

/-- The overflow result and its flags (R121, R122). -/
def FpFmt.overflow (f : FpFmt) (mode : RMode) (neg : Bool) : Nat × Word :=
  let big := f.signed neg f.maxCode
  let inf := f.signed neg (f.maxCode + 1)
  let c :=
    if f = .e4m3 then big else
    match mode with
    | .rne => inf
    | .rtz => big
    | .rup => if neg then big else inf
    | .rdn => if neg then inf else big
    | .sr _ => inf
  (c, flOF ||| flNX)

/-- The direction in which a rounding of an inexact value went, as a mode that reproduces it (R123). -/
def settledMode (mode : RMode) (neg up : Bool) : RMode :=
  match mode with
  | .sr _ => if up == neg then .rdn else .rup
  | m => m

/-- Round(x, fmt, mode) of a nonzero finite (-1)^neg x m x 2^e, with its flags (R120 to R123). -/
def FpFmt.round (f : FpFmt) (mode : RMode) (neg : Bool) (m : Nat) (e : Int) : Nat × Word :=
  let top : Int := Nat.log2 m + e
  let q := max (top - f.fbits) f.qmin
  let (k, rem, s) := splitAt m e q
  let up := roundsUp mode neg k rem s
  let k' := if up then k + 1 else k
  let code := ((q - f.qmin).toNat <<< f.fbits) + k'
  if f.maxCode < code then f.overflow mode neg
  else
    let inexact := rem != 0
    let tiny :=
      if top < 1 - f.bias then
        let (k2, rem2, s2) := splitAt m e (top - f.fbits)
        let k2' := if roundsUp (settledMode mode neg up) neg k2 rem2 s2 then k2 + 1 else k2
        !(top == -f.bias && k2' == 2 ^ (f.fbits + 1))
      else false
    (f.signed neg code, flIf inexact flNX ||| flIf (inexact && tiny) flUF)

/-- A value written in a format: a NaN gives the canonical NaN, an infinity the format's infinity or, in E4M3, the
largest finite with OF and NX (R122, R125). Zero keeps its sign. No NV is raised here. -/
def FpFmt.encode (f : FpFmt) (mode : RMode) : FV → Nat × Word
  | .nan _ => (f.canon, 0)
  | .inf neg => if f = .e4m3 then (f.signed neg f.maxCode, flOF ||| flNX) else (f.signed neg (f.maxCode + 1), 0)
  | .fin neg m e => if m = 0 then (f.signed neg 0, 0) else f.round mode neg m e

/-- A finite value rounded to an integer, and whether that is inexact (R120, R128). -/
def roundInt (mode : RMode) (neg : Bool) (m : Nat) (e : Int) : Int × Bool :=
  let (k, rem, s) := splitAt m e 0
  let k' := if roundsUp mode neg k rem s then k + 1 else k
  (if neg then -(k' : Int) else k', rem != 0)

/-! ## Exact arithmetic -/

/-- Whether a value is a NaN. -/
def FV.isNan : FV → Bool
  | .nan _ => true
  | _ => false

/-- Whether a value is a signalling NaN. -/
def FV.isSig : FV → Bool
  | .nan s => s
  | _ => false

/-- Whether a value is a zero. -/
def FV.isZero : FV → Bool
  | .fin _ 0 _ => true
  | _ => false

/-- The sign of a value. -/
def FV.neg? : FV → Bool
  | .nan _ => false
  | .inf n => n
  | .fin n _ _ => n

/-- The value with its sign changed. -/
def FV.negate : FV → FV
  | .nan s => .nan s
  | .inf n => .inf !n
  | .fin n m e => .fin (!n) m e

/-- A signed number of units of 2^e. -/
def dyadic (n : Int) (e : Int) (zeroNeg : Bool) : FV := .fin (if n = 0 then zeroNeg else decide (n < 0)) n.natAbs e

/-- The signed number of units of 2^q in m x 2^e, for q at most e. -/
def units (neg : Bool) (m : Nat) (e q : Int) : Int :=
  let k : Int := m * 2 ^ (e - q).toNat
  if neg then -k else k

/-- The exact sum; a quiet NaN for a NaN operand or for infinities of both signs; the zero sign of R127. -/
def FV.add (rdn : Bool) : FV → FV → FV
  | .nan _, _ | _, .nan _ => .nan false
  | .inf a, .inf b => if a = b then .inf a else .nan false
  | .inf a, _ => .inf a
  | _, .inf b => .inf b
  | .fin a m e, .fin b n f =>
    if m = 0 ∧ n = 0 then .fin (if a = b then a else rdn) 0 0
    else
      let q := min e f
      dyadic (units a m e q + units b n f q) q rdn

/-- The exact product; a quiet NaN for a NaN operand or for zero times infinity. -/
def FV.mul : FV → FV → FV
  | .nan _, _ | _, .nan _ => .nan false
  | .inf a, .inf b => .inf (a != b)
  | .inf a, .fin b n _ => if n = 0 then .nan false else .inf (a != b)
  | .fin a m _, .inf b => if m = 0 then .nan false else .inf (a != b)
  | .fin a m e, .fin b n f => .fin (a != b) (m * n) (e + f)

/-- NV of an operation: a signalling operand, or a NaN result from operands without NaN, the addend of a product set
apart: infinity times zero raises NV whatever the addend (R124, R138). -/
def nvOf (ops : List FV) (r : FV) : Word :=
  flIf (ops.any FV.isSig || (r.isNan && !ops.any FV.isNan)) flNV

/-- A comparison of finite or infinite values: -1, 0 or 1. -/
def FV.cmp : FV → FV → Int
  | .inf a, .inf b => if a = b then 0 else if a then -1 else 1
  | .inf a, _ => if a then -1 else 1
  | _, .inf b => if b then 1 else -1
  | .fin a m e, .fin b n f => let q := min e f; (units a m e q - units b n f q).sign
  | _, _ => 0

/-- FP32 bits as a value. -/
def f32 (w : Word) : FV := FpFmt.f32.decode w.toNat

/-- A code as a word. -/
def codeW (c : Nat) : Word := BitVec.ofNat 32 c

/-! ## FMIN and FMAX (R126) -/

/-- FMIN or FMAX of two codes of a format: the chosen operand's bits, and NV (R126, R139). -/
def fminmax (f : FpFmt) (isMax prop : Bool) (a b : Nat) : Nat × Word :=
  let x := f.decode a
  let y := f.decode b
  let nv := flIf (x.isSig || y.isSig) flNV
  if prop && (x.isNan || y.isNan) then (f.canon, nv)
  else if x.isSig || y.isSig || (x.isNan && y.isNan) then (f.canon, nv)
  else if x.isNan then (b, nv)
  else if y.isNan then (a, nv)
  else
    let c := x.cmp y
    let less := if c = 0 then x.neg? && !y.neg? else decide (c < 0)
    (if c = 0 ∧ x.neg? = y.neg? then a else if less != isMax then a else b, nv)

/-! ## FPX (R131) -/

/-- RoundFPX: a 32-bit significand, unbounded exponent, RNE (R120, R131). -/
def roundFPX : FV → FV
  | .fin neg m e =>
    if m = 0 then .fin neg 0 0
    else
      let q := max ((Nat.log2 m + e : Int) - 31) e
      let (k, rem, s) := splitAt m e q
      .fin neg (if roundsUp .rne neg k rem s then k + 1 else k) q
  | v => v

/-! ## Element and block values -/

/-- Signed and unsigned ranges of an integer type: least and greatest (R103). -/
def intRange (signed : Bool) (bits : Nat) : Int × Int :=
  if signed then (-(2 ^ (bits - 1) : Nat), (2 ^ (bits - 1) : Nat) - 1) else (0, (2 ^ bits : Nat) - 1)

/-- An integer held to a range, and whether it saturated (R103). -/
def saturate (r : Int × Int) (v : Int) : Int × Bool :=
  if v < r.1 then (r.1, true) else if r.2 < v then (r.2, true) else (v, false)

/-- The integer in the low bits of a number, signed or unsigned. -/
def intOf (signed : Bool) (bits x : Nat) : Int :=
  if signed then (BitVec.ofNat bits x).toInt else (x % 2 ^ bits : Nat)

/-- Crc8 over bytes (R113). -/
def crc8 (bs : List Byte) : Byte :=
  bs.foldl (fun crc b => (List.range 8).foldl (fun c _ => if c.msb then (c <<< 1) ^^^ 0x07 else c <<< 1) (crc ^^^ b)) 0

/-- The value of an E2M1 code (R110). -/
def e2m1 (v : Nat) : FV :=
  let e := v / 2 % 4
  let m := v % 2
  .fin (v / 8 % 2 == 1) (if e = 0 then m else 2 + m) (if e = 0 then -1 else (e : Int) - 2)

/-- An element value scaled by 2^(x - 127). -/
def FV.scale (v : FV) (k : Int) : FV :=
  match v with
  | .fin n m e => .fin n m (e + k)
  | w => w

/-- Element `i` of an MX block, with NV when the scale is 0xFF (R109, R112). -/
def mxElem (four : Bool) (bs : List Byte) (i : Nat) : FV × Word :=
  let x := fieldLE bs (if four then 16 else 32) 1
  if x = 0xFF then (.nan false, flNV)
  else
    let v := if four then e2m1 (fieldLE bs (i / 2) 1 / 16 ^ (i % 2) % 16) else FpFmt.e4m3.decode (fieldLE bs i 1)
    (v.scale ((x : Int) - 127), 0)

/-- What the header of a KD block says (R115, R117). -/
inductive KdHead where
  | bad | zero
  | code (c p s : Nat)
  deriving DecidableEq, Repr

/-- The header checks of R117, for KD7 or KD3 geometry. -/
def kdHead (seven : Bool) (bs : List Byte) : KdHead :=
  let c := fieldLE bs 0 1
  if fieldLE bs 3 1 ≠ (crc8 (sliceBytes bs 0 3)).toNat then .bad
  else if c = 0 then .zero
  else if (seven && (c == 0x71 || c == 0x72 || c == 0x73)) || (!seven && c == 0x31) then
    .code c (fieldLE bs 1 1) (fieldLE bs 2 1)
  else .bad

/-- What an element of a KD block reads as (R117). -/
inductive KdElem where
  | bad | reserved
  | val (v : FV)
  deriving DecidableEq, Repr

/-- val(v) of a KD value code; none for a reserved one (R115, R116). -/
def kdVal (c v : Nat) : Option FV :=
  if c = 0x71 then
    let e := v / 4 % 8
    let m := v % 4
    if e = 7 ∧ m = 3 then none
    else some (.fin (v / 32 % 2 == 1) (if e = 0 then m else 4 + m) (if e = 0 then -4 else (e : Int) - 5))
  else if c = 0x72 then
    let e := v / 8 % 4
    let m := v % 8
    if e = 3 ∧ m = 7 then none
    else some (.fin (v / 32 % 2 == 1) (if e = 0 then m else 8 + m) (if e = 0 then -3 else (e : Int) - 4))
  else if c = 0x73 then
    if v = 0x20 then none else let n := intOf true 6 v; some (.fin (decide (n < 0)) n.natAbs 0)
  else some (.fin (v / 2 % 2 == 1) (v % 2) 0)

/-- Selector and value code of element `i` of a KD block (R114). -/
def kdBits (seven : Bool) (bs : List Byte) (i : Nat) : Nat × Nat :=
  let w := if seven then 7 else 3
  let x := fieldLE bs 4 (if seven then 28 else 12) / 2 ^ (w * i) % 2 ^ w
  (x / 2 ^ (w - 1), x % 2 ^ (w - 1))

/-- Element `i` of a KD block (R114, R115, R117). -/
def kdElem (seven : Bool) (bs : List Byte) (i : Nat) : KdElem :=
  match kdHead seven bs with
  | .bad => .bad
  | .zero => .val (.fin false 0 0)
  | .code c p s =>
    let (sel, v) := kdBits seven bs i
    let e := if sel = 0 then p else s
    if e = 0xFF then .bad
    else match kdVal c v with
      | none => .reserved
      | some x => .val (x.scale ((e : Int) - 127))

/-- The value, flags and ill-formedness that a KD element reads as outside integer accumulation (R118). -/
def KdElem.read : KdElem → FV × Word × Bool
  | .bad => (.nan false, flNV ||| flIB, true)
  | .reserved => (.nan false, flNV, false)
  | .val v => (v, 0, false)

end Sys2Proof.Machine
end

