-- ==== Sys2Proof/Machine/Sfn.lean ====
section
/-!
DEFINITION. The special-function unit (R145 to R147, R150). Exact and special results are computed; where R146 only
bounds the error, the result is the uninterpreted `Config.sfn` (or `Config.exp2m`) of the operand when that value keeps
the bound, and the correctly rounded value otherwise, so that every result the bound allows is a result of the model
and no other is. The bound is tested against a reference of 160 fixed-point bits (log entry 11).
-/

namespace Sys2Proof.Machine

/-! ## Reference values in 160-bit fixed point -/

/-- Fraction bits of the reference arithmetic. -/
def fxBits : Nat := 160

/-- One. -/
def fxOne : Nat := 2 ^ fxBits

/-- ln 2 in fixed point. -/
def fxLn2 : Nat := 1013035739299659071135698605846798551586536899366

/-- 2 pi in fixed point. -/
def fxTwoPi : Nat := 9182885614096437842769610399486622256908310048836

/-- log2 e in fixed point. -/
def fxLog2e : Nat := 2108501164428393954197770173035669514763056903505

/-- Product in fixed point. -/
def fxMul (a b : Nat) : Nat := (a * b) >>> fxBits

/-- m x 2^e in fixed point, cut below its last bit. -/
def fxOf (m : Nat) (e : Int) : Nat := if -(fxBits : Int) ≤ e then m * 2 ^ (e + fxBits).toNat else m >>> (-e - fxBits).toNat

/-- e^y for y in [0, 1), by 44 terms. -/
def fxExp (y : Nat) : Nat := (List.range 44).foldr (fun n acc => fxOne + fxMul y acc / (n + 1)) fxOne

/-- 2^t of a signed fixed-point number as m x 2^e. -/
def refExp2 (t : Int) : Nat × Int := (fxExp (fxMul (t % fxOne).toNat fxLn2), t / fxOne - fxBits)

/-- The bits of log2 of y in [1, 2), most significant first, by squaring. -/
def log2Bits : Nat → Nat → Nat → Nat
  | 0, _, acc => acc
  | n + 1, y, acc =>
    let z := fxMul y y
    if 2 * fxOne ≤ z then log2Bits n (z / 2) (2 * acc + 1) else log2Bits n z (2 * acc)

/-- log2 of m x 2^e as a signed number of units of 2^-64. -/
def refLog2 (m : Nat) (e : Int) : Int :=
  let k : Nat := Nat.log2 m
  ((k : Int) + e) * 2 ^ 64 + log2Bits 64 (fxOf m (-(k : Int))) 0

/-- The integer square root, bit by bit. -/
def isqrt (n : Nat) : Nat :=
  (List.range 260).foldr (fun i r => if (r + 2 ^ i) * (r + 2 ^ i) ≤ n then r + 2 ^ i else r) 0

/-- sin of y in [0, pi/2] in fixed point, by 24 terms. -/
def fxSin (y : Nat) : Nat :=
  let y2 := fxMul y y
  fxMul y ((List.range 24).foldr (fun n acc => fxOne - fxMul y2 acc / ((2 * n + 2) * (2 * n + 3))) fxOne)

/-- sin of 2 pi x for a quarter-turn fraction x in [0, 1) in fixed point, signed. -/
def refSin (x : Nat) : Int :=
  let q := 4 * x / fxOne
  let r := x - q * (fxOne / 4)
  let v := fxSin (fxMul (if q % 2 = 0 then r else fxOne / 4 - r) fxTwoPi)
  if 2 ≤ q then -(v : Int) else v

/-! ## Bounds (R146) -/

/-- floor(log2) of a nonzero m x 2^e. -/
def expOf (m : Nat) (e : Int) : Int := (Nat.log2 m : Int) + e

/-- One ULP of a nonzero value, as an exponent of 2 (R146). -/
def ulpExp (m : Nat) (e : Int) : Int := max (expOf m e) (-126) - 23

/-- Whether a finite value lies within `n` x 2^u of (-1)^neg x m x 2^e. -/
def within (v : FV) (neg : Bool) (m : Nat) (e : Int) (n : Nat) (u : Int) : Bool :=
  match v with
  | .fin a k f =>
    let q := min (min e f) u
    decide ((units a k f q - units neg m e q).natAbs ≤ n * 2 ^ (u - q).toNat)
  | _ => false

/-- A candidate result when it keeps the bound, else the rounded reference. -/
def bounded (cand : Word) (neg : Bool) (m : Nat) (e : Int) (n : Nat) (u : Int) : Word :=
  if within (f32 cand) neg m e n u then cand
  else if m = 0 then codeW (FpFmt.f32.signed neg 0) else codeW (FpFmt.f32.round .rne neg m e).1

/-! ## The functions at finite operands -/

/-- FP32 one with a sign. -/
def oneF (neg : Bool) : Word := if neg then 0xBF800000 else 0x3F800000

/-- FP32 infinity with a sign. -/
def infF (neg : Bool) : Word := if neg then 0xFF800000 else 0x7F800000

/-- The canonical NaN. -/
def nanF : Word := 0x7FC00000

/-- Whether (-1)^neg x m x 2^e is an integer, and that integer, for magnitudes below 2^40. -/
def asInt (neg : Bool) (m : Nat) (e : Int) : Option Int :=
  if 0 ≤ e then some (units neg m e 0)
  else
    let s := (-e).toNat
    if m % 2 ^ s = 0 then some (if neg then -((m / 2 ^ s : Nat) : Int) else (m / 2 ^ s : Nat)) else none

/-- .exp2 at t = (-1)^neg x m x 2^e, with the candidate result (R146). -/
def exp2At (neg : Bool) (m : Nat) (e : Int) (cand : Word) : Word × Word :=
  if m = 0 then (oneF false, 0)
  else if 7 ≤ expOf m e ∧ !neg then (infF false, flOF)
  else if 8 ≤ expOf m e then (0, 0)
  else
    let t : Int := if neg then -(fxOf m e : Int) else fxOf m e
    if t < -150 * fxOne then (0, 0)
    else
      match asInt neg m e with
      | some n =>
        if -149 ≤ n then (codeW (FpFmt.f32.round .rne false 1 n).1, 0)
        else let (k, f) := refExp2 t; (bounded cand false k f 1 (-149), 0)
      | none =>
        let (k, f) := refExp2 t
        if -126 * fxOne ≤ t then (bounded cand false k f 2 (ulpExp k f), 0) else (bounded cand false k f 1 (-149), 0)

/-- .log2 of a positive m x 2^e (R146). -/
def log2At (m : Nat) (e : Int) (cand : Word) : Word :=
  let k : Nat := Nat.log2 m
  let pow2 := m == 2 ^ k
  let top : Int := (k : Int) + e
  if pow2 && top == 0 then 0
  else
    let r := refLog2 m e
    if top = -1 ∨ top = 0 ∨ (pow2 ∧ top = 1) then bounded cand (decide (r < 0)) r.natAbs (-64) 1 (-22)
    else if pow2 then codeW (FpFmt.f32.round .rne (decide (top < 0)) top.natAbs 0).1
    else bounded cand (decide (r < 0)) r.natAbs (-64) 2 (ulpExp r.natAbs (-64))

/-- .rcp of a nonzero finite value (R146). -/
def rcpAt (neg : Bool) (m : Nat) (e : Int) (cand : Word) : Word × Word :=
  let k : Nat := Nat.log2 m
  if m = 2 ^ k then
    let x := -((k : Int) + e)
    if 128 ≤ x then (infF neg, flOF) else (codeW (FpFmt.f32.round .rne neg 1 x).1, 0)
  else if (k : Int) + e < -128 then (infF neg, flOF)
  else
    let r : Nat := 2 ^ (fxBits + k) / m
    let f := -((fxBits + k : Nat) : Int) - e
    (bounded cand neg r f 1 (ulpExp r f), 0)

/-- .rsq of a positive finite value (R146). -/
def rsqAt (m : Nat) (e : Int) (cand : Word) : Word :=
  let k : Nat := Nat.log2 m
  let top : Int := (k : Int) + e
  if m = 2 ^ k ∧ top % 2 = 0 then codeW (FpFmt.f32.round .rne false 1 (-(top / 2))).1
  else
    -- 1/sqrt(m 2^e) = sqrt(2^(2w) / (m 2^p)) 2^(-w - (e - p)/2), p the parity of e
    let p : Nat := (e % 2).toNat
    let w : Nat := 200
    let r : Nat := isqrt (2 ^ (2 * w) / (m * 2 ^ p))
    let f := -(w : Int) - (e - p) / 2
    bounded cand false r f 2 (ulpExp r f)

/-- The fraction of a turn of a finite value, in fixed point, exactly reduced. -/
def turn (neg : Bool) (m : Nat) (e : Int) : Nat :=
  let f := if 0 ≤ e then 0 else fxOf (m % 2 ^ (-e).toNat) e
  if neg then (fxOne - f) % fxOne else f

/-- Whether a finite value is a multiple of 1/4. -/
def quarterTurn (m : Nat) (e : Int) : Bool := decide (-2 ≤ e) || m % 2 ^ (-e - 2).toNat == 0

/-- .sin or .cos of a finite value in turns (R146). -/
def sinAt (cosine neg : Bool) (m : Nat) (e : Int) (cand : Word) : Word :=
  let x := turn neg m e
  let y := if cosine then (x + fxOne / 4) % fxOne else x
  if quarterTurn m e then
    let q := 4 * y / fxOne
    if q % 2 = 0 then (if cosine then 0 else codeW (FpFmt.f32.signed neg 0)) else oneF (q == 3)
  else
    let r := refSin y
    bounded cand (decide (r < 0)) r.natAbs (-(fxBits : Int)) 1 (-21)

/-- e^y - 1 over y, for y in [0, 1), by 44 terms. -/
def fxExpm1Over (y : Nat) : Nat := (List.range 44).foldr (fun n acc => fxOne + fxMul y acc / (n + 2)) fxOne

/-- .tanh of a nonzero finite value (R146). -/
def tanhAt (neg : Bool) (m : Nat) (e : Int) (cand : Word) : Word :=
  if 4 ≤ expOf m e ∨ 9 * fxOne ≤ fxOf m e then oneF neg
  else if expOf m e < -40 then
    -- x - x^3/3, which lies just below x: one ULP is that of tanh x
    let k := 2 * e + fxBits
    let r := m * 2 ^ fxBits - Nat.max 1 ((if 0 ≤ k then m ^ 3 * 2 ^ k.toNat else m ^ 3 >>> (-k).toNat) / 3)
    bounded cand neg r (e - fxBits) 2 (ulpExp r (e - fxBits))
  else if expOf m e < -1 then
    -- tanh x = (e^2x - 1) / (e^2x + 1), with 2x below 1
    let y := 2 * fxOf m e
    let num := fxMul y (fxExpm1Over y)
    let r := num * fxOne / (num + 2 * fxOne)
    bounded cand neg r (-(fxBits : Int)) 2 (ulpExp r (-(fxBits : Int)))
  else
    -- 1 - 2 / (e^2x + 1)
    let (k, f) := refExp2 (2 * fxMul (fxOf m e) fxLog2e : Nat)
    let ex := fxOf k f
    let r := fxOne - 2 * fxOne * fxOne / (ex + fxOne)
    bounded cand neg r (-(fxBits : Int)) 1 (-22)

/-- .sigm of a nonzero finite value (R146). -/
def sigmAt (neg : Bool) (m : Nat) (e : Int) (cand : Word) : Word :=
  if !neg && (decide (5 ≤ expOf m e) || decide (17 * fxOne ≤ fxOf m e)) then oneF false
  else if neg && decide (8 ≤ expOf m e) then bounded cand false 1 (-400) 4 (-149)
  else
    let x := fxOf m e
    let t : Int := if neg then -(fxMul x fxLog2e : Int) else fxMul x fxLog2e
    let (k, f) := refExp2 t
    if neg && decide (8 * fxOne < x) then
      -- 2^t / (1 + 2^t), 2^t below 2^-11
      let r := k * 2 ^ fxBits / (fxOne + fxOf k f)
      bounded cand false r f 4 (ulpExp r f)
    else
      let ex := fxOf k f
      let r := ex * fxOne / (ex + fxOne)
      bounded cand false r (-(fxBits : Int)) 1 (-23)

/-- SFN: the result and its flags (R145 to R147). -/
def sfnFn (f : SfnFn) (a : Word) : Word × Word :=
  let cand := Config.sfn f a
  match f32 a with
  | .nan sig => (nanF, flIf sig flNV)
  | .inf neg =>
    match f with
    | .exp2 => (if neg then 0 else infF false, 0)
    | .log2 => if neg then (nanF, flNV) else (infF false, 0)
    | .rcp => (if neg then 0x80000000 else 0, 0)
    | .rsq => if neg then (nanF, flNV) else (0, 0)
    | .sin | .cos => (nanF, flNV)
    | .tanh => (oneF neg, 0)
    | .sigm => (if neg then 0 else oneF false, 0)
  | .fin neg m e =>
    match f with
    | .exp2 => exp2At neg m e cand
    | .log2 => if m = 0 then (infF true, flDZ) else if neg then (nanF, flNV) else (log2At m e cand, 0)
    | .rcp => if m = 0 then (infF neg, flDZ) else rcpAt neg m e cand
    | .rsq => if m = 0 then (infF neg, flDZ) else if neg then (nanF, flNV) else (rsqAt m e cand, 0)
    | .sin => if m = 0 then (a, 0) else (sinAt false neg m e cand, 0)
    | .cos => if m = 0 then (oneF false, 0) else (sinAt true neg m e cand, 0)
    | .tanh => if m = 0 then (a, 0) else (tanhAt neg m e cand, 0)
    | .sigm => if m = 0 then (0x3F000000, 0) else (sigmAt neg m e cand, 0)

/-- The candidate of .exp2 at (-1)^neg x m x 2^-149: that of SFN where an FP32 value stands for the number (R146, R150). -/
def exp2Cand (neg : Bool) (m : Nat) : Word :=
  let (c, fl) := FpFmt.f32.round .rne neg m (-149)
  if fl = 0 then Config.sfn .exp2 (codeW c) else Config.exp2m (if neg then -(m : Int) else m)

/-- EXP2M: .exp2 at x - b, and its flags (R150). -/
def exp2mFn (a b : Word) : Word × Word :=
  match f32 a with
  | .nan sig => (nanF, flIf sig flNV)
  | .inf neg => (if neg then 0 else infF false, 0)
  | .fin neg m e =>
    let t := units neg m e (-149) - b.toInt * 2 ^ 149
    exp2At (decide (t < 0)) t.natAbs (-149) (exp2Cand (decide (t < 0)) t.natAbs)

end Sys2Proof.Machine
end

