-- ==== Sys2Proof/Machine/LaneMath.lean ====
section
/-!
DEFINITION. The lane floating-point family (spec 05): arithmetic, comparison, conversion, special functions, softmax
steps, dot products, packing, top-k insertion and random numbers. One definition for each instruction.
-/

namespace Sys2Proof.Machine

/-! ## The random stream (R154, R155) -/

/-- The logical identity L of a lane (R155). -/
def streamId (team : Word) (wave lane : Nat) : DWord :=
  (zext64 team <<< 10) ||| (BitVec.ofNat 64 wave <<< 6) ||| BitVec.ofNat 64 lane

/-- The draw of a lane with identity `l` and %seed `seed` (R155). -/
def drawOf (l seed : DWord) : Word :=
  let z := ((zext64 (lo32 seed) <<< 32) ||| zext64 (hi32 seed)) ^^^ (l * 0xD1B54A32D192ED03)
  let z := (z ^^^ (z >>> 29)) * 0xAEF17502108EF2D9
  let z := (z ^^^ (z >>> 32)) * 0x9E6C63D0676A9A99
  lo32 (z ^^^ (z >>> 29))

/-- %seed after a draw: C advanced by one (R155). -/
def nextSeed (seed : DWord) : DWord := mkPair (lo32 seed) (hi32 seed + 1)

/-- `n` draws in order, and the seed after them. -/
def drawN (l : DWord) : Nat → DWord → List Word × DWord
  | 0, seed => ([], seed)
  | n + 1, seed => let (ws, z) := drawN l n (nextSeed seed); (drawOf l seed :: ws, z)

/-- The draws that an instruction takes in a lane in its first issue cycle (R157). -/
def Issue.draws (c : Issue) (x : LaneCtx) (n : Nat) : List Word × DWord :=
  drawN (streamId c.team.linear c.wave.idx x.l) n (x.lane.seedAt c.run.cycle)

/-! ## Rounding modes of an instruction -/

/-- Formats that SR rounds to (R24, R121). -/
def FpFmt.takesSR : FpFmt → Bool
  | .f32 => false
  | _ => true

/-- The modes of the elements of an instruction that rounds `n` elements to a format under %rmode, with the seed that
its draws leave (R121, R157). -/
def Issue.modes (c : Issue) (x : LaneCtx) (f : FpFmt) (n : Nat) : (Nat → RMode) × Option (Nat × DWord) :=
  let r := c.wave.rmodeAt c.run.cycle
  if isSR r && f.takesSR then
    let (ws, z) := c.draws x n
    (fun e => .sr (bitsOf (ws.getD e 0).toNat 0 16), some (c.run.cycle, z))
  else (fun _ => modeOf r, none)

/-! ## Packed arithmetic (R104, R138) -/

/-- The format of an element (R138). -/
def FFmt.fp : FFmt → FpFmt
  | .f32 => .f32 | .bf16x2 => .bf16 | .f16x2 => .f16

/-- Elements in a register (R138). -/
def FFmt.count : FFmt → Nat
  | .f32 => 1
  | _ => 2

/-- Element `e` of a register (R104). -/
def FFmt.elem (f : FFmt) (w : Word) (e : Nat) : Nat :=
  match f with
  | .f32 => w.toNat
  | _ => bitsOf w.toNat (16 * e) 16

/-- A register from its elements (R104). -/
def FFmt.join (f : FFmt) (l : List Nat) : Word :=
  match f with
  | .f32 => codeW (l.getD 0 0)
  | _ => codeW (l.getD 0 0 + 65536 * l.getD 1 0)

/-- The result of a value and the flags of forming it (R120, R125). -/
def finish (f : FpFmt) (mode : RMode) (r : FV × Word) : Nat × Word :=
  match r.1 with
  | .nan _ => (f.canon, r.2)
  | v => let (c, fl) := f.encode mode v; (c, fl ||| r.2)

/-- An arithmetic instruction on the elements of registers: `op` gives the exact result and NV from the operands; one
rounding for each element (R138). -/
def fpOp (i : Instr) (n : Bool) (f : FFmt) (d : Reg) (ops : List Reg) (op : Bool → List FV → FV × Word) (s : State) :
    Host.Outcome State Fault Refusal :=
  laneOp i 1 6 (fun c x =>
    let (md, seed) := c.modes x (FFmt.fp f) (FFmt.count f)
    let res := (List.range (FFmt.count f)).map fun e =>
      finish (FFmt.fp f) (md e) (op (md e == .rdn) (ops.map fun r => (FFmt.fp f).decode (FFmt.elem f (x.reg r) e)))
    { outReg x n d (FFmt.join f (res.map (·.1))) (res.foldl (fun fl r => fl ||| r.2) 0) with seed := seed }) s

/-- Exact sum with NV (R138). -/
def opAdd (rdn : Bool) (l : List FV) : FV × Word := let r := (l.getD 0 (.nan false)).add rdn (l.getD 1 (.nan false)); (r, nvOf l r)
/-- Exact difference with NV (R138). -/
def opSub (rdn : Bool) (l : List FV) : FV × Word :=
  let r := (l.getD 0 (.nan false)).add rdn (l.getD 1 (.nan false)).negate; (r, nvOf l r)
/-- Exact product with NV (R138). -/
def opMul (_ : Bool) (l : List FV) : FV × Word := let r := (l.getD 0 (.nan false)).mul (l.getD 1 (.nan false)); (r, nvOf l r)
/-- Exact product plus addend with NV (R138). -/
def opFma (rdn : Bool) (l : List FV) : FV × Word :=
  let p := (l.getD 0 (.nan false)).mul (l.getD 1 (.nan false))
  let z := l.getD 2 (.nan false)
  let r := p.add rdn z
  (r, nvOf (l.take 2) p ||| nvOf [p, z] r)

/-- FADD (R138). -/
def execFadd (n : Bool) (f : FFmt) (d a b : Reg) (s : State) : Host.Outcome State Fault Refusal :=
  fpOp (.fadd n f d a b) n f d [a, b] opAdd s

/-- FSUB (R138). -/
def execFsub (n : Bool) (f : FFmt) (d a b : Reg) (s : State) : Host.Outcome State Fault Refusal :=
  fpOp (.fsub n f d a b) n f d [a, b] opSub s

/-- FMUL (R138). -/
def execFmul (n : Bool) (f : FFmt) (d a b : Reg) (s : State) : Host.Outcome State Fault Refusal :=
  fpOp (.fmul n f d a b) n f d [a, b] opMul s

/-- FFMA: D is the addend, read at issue; one rounding (R138). -/
def execFfma (n : Bool) (f : FFmt) (d a b : Reg) (s : State) : Host.Outcome State Fault Refusal :=
  fpOp (.ffma n f d a b) n f d [a, b, d] opFma s

/-- FMIN and FMAX, element by element (R126, R139). -/
def minmaxOp (i : Instr) (isMax n prop : Bool) (f : FFmt) (d a b : Reg) (s : State) : Host.Outcome State Fault Refusal :=
  laneOp i 1 4 (fun _ x =>
    let res := (List.range (FFmt.count f)).map fun e => fminmax (FFmt.fp f) isMax prop (FFmt.elem f (x.reg a) e) (FFmt.elem f (x.reg b) e)
    outReg x n d (FFmt.join f (res.map (·.1))) (res.foldl (fun fl r => fl ||| r.2) 0)) s

/-- FMIN (R139). -/
def execFmin (n p : Bool) (f : FFmt) (d a b : Reg) (s : State) : Host.Outcome State Fault Refusal :=
  minmaxOp (.fmin n p f d a b) false n p f d a b s

/-- FMAX (R139). -/
def execFmax (n p : Bool) (f : FFmt) (d a b : Reg) (s : State) : Host.Outcome State Fault Refusal :=
  minmaxOp (.fmax n p f d a b) true n p f d a b s

/-- The new sign of FSGN (R140). -/
def sgnBit : SgnFn → Word → Word → Bool
  | .j, _, b => b.msb
  | .jn, _, b => !b.msb
  | .jx, a, b => a.msb != b.msb

/-- FSGN: bits [30:0] of A with a new sign; no flag (R140). -/
def execFsgn (n : Bool) (f : SgnFn) (d a b : Reg) (s : State) : Host.Outcome State Fault Refusal :=
  laneOp (.fsgn n f d a b) 1 4 (fun _ x =>
    outReg x n d ((x.reg a &&& 0x7FFFFFFF) ||| (boolWord (sgnBit f (x.reg a) (x.reg b)) <<< 31))) s

/-! ## Comparison and classification (R141, R142) -/

/-- The outcome and the flag of FCMP (R141). -/
def fcmpFn (cnd : FCond) (a b : Word) : Bool × Word :=
  let x := f32 a
  let y := f32 b
  if x.isNan || y.isNan then
    (cnd == .un, flIf (x.isSig || y.isSig || cnd == .lt || cnd == .le) flNV)
  else
    let k := x.cmp y
    (match cnd with
      | .eq => k == 0
      | .lt => decide (k < 0)
      | .le => decide (k ≤ 0)
      | .un => false, 0)

/-- FCMP (R141). -/
def execFcmp (cnd : FCond) (d : Pred) (a b : Reg) (s : State) : Host.Outcome State Fault Refusal :=
  laneOp (.fcmp cnd d a b) 1 4 (fun _ x => let r := fcmpFn cnd (x.reg a) (x.reg b); outPred d r.1 r.2) s

/-- The class bit of an FP32 operand (R142). -/
def fclassBit (a : Word) : Nat :=
  match f32 a with
  | .nan true => 8
  | .nan false => 9
  | .inf true => 0
  | .inf false => 7
  | .fin neg m _ =>
    if m = 0 then (if neg then 3 else 4)
    else if m < 2 ^ 23 then (if neg then 2 else 5)
    else if neg then 1 else 6

/-- FCLASS (R142). -/
def execFclass (n : Bool) (d a : Reg) (s : State) : Host.Outcome State Fault Refusal :=
  laneOp (.fclass n d a) 1 4 (fun _ x => outReg x n d (1 <<< fclassBit (x.reg a))) s

/-! ## Conversion (R128, R143, R144) -/

/-- The floating format of a conversion operand, none for an integer type. -/
def CvtTy.fp : CvtTy → Option FpFmt
  | .f32 => some .f32 | .f16 => some .f16 | .bf16 => some .bf16 | .e4m3 => some .e4m3 | .e5m2 => some .e5m2
  | _ => none

/-- Signedness and width of an integer conversion operand. -/
def CvtTy.int : CvtTy → Bool × Nat
  | .s32 => (true, 32) | .z32 => (false, 32) | .s64 => (true, 64) | .z64 => (false, 64) | .s8 => (true, 8)
  | .z8 => (false, 8) | .s16 => (true, 16) | .z16 => (false, 16)
  | _ => (false, 32)

/-- A conversion operand's value: an integer or a floating value. -/
inductive CvtVal where
  | int (v : Int)
  | fl (v : FV)
  deriving DecidableEq, Repr

/-- The value of the source of a conversion; bits above its width are ignored (R143). -/
def cvtSource (t : CvtTy) (x : DWord) : CvtVal :=
  match CvtTy.fp t with
  | some f => .fl (f.decode (x.toNat % 2 ^ f.width))
  | none => .int (intOf (CvtTy.int t).1 (CvtTy.int t).2 x.toNat)

/-- A value converted to an integer type: result and flags (R128). -/
def toIntTy (mode : RMode) (signed : Bool) (bits : Nat) : CvtVal → Int × Word
  | .int v => let (r, sat) := saturate (intRange signed bits) v; (r, flIf sat flOF)
  | .fl (.nan _) => (0, flNV)
  | .fl (.inf neg) => (if neg then (intRange signed bits).1 else (intRange signed bits).2, flNV)
  | .fl (.fin neg m e) =>
    -- a magnitude of 2^64 or more lies outside every range, and its integer is not formed
    if m ≠ 0 ∧ 64 < (Nat.log2 m : Int) + e then
      (if neg then (intRange signed bits).1 else (intRange signed bits).2, flNV)
    else
      let (v, nx) := roundInt mode neg m e
      let (r, out) := saturate (intRange signed bits) v
      (r, if out then flNV else flIf nx flNX)

/-- A value converted to a floating format: code and flags (R128). -/
def toFpTy (mode : RMode) (f : FpFmt) : CvtVal → Nat × Word
  | .int v => f.encode mode (.fin (decide (v < 0)) v.natAbs 0)
  | .fl v => let (c, fl) := f.encode mode v; (c, fl ||| flIf v.isSig flNV)

/-- The 64 bits that a conversion writes, and its flags (R143). -/
def cvtResult (mode : RMode) (t : CvtTy) (v : CvtVal) : DWord × Word :=
  match CvtTy.fp t with
  | some f => let (c, fl) := toFpTy mode f v; (BitVec.ofNat 64 c, fl)
  | none =>
    let (sg, bits) := CvtTy.int t
    let (r, fl) := toIntTy mode sg bits v
    (BitVec.ofInt 64 r, fl)

/-- FCVT: rounds under %rmode, SR only to BF16, FP16, E4M3 and E5M2, which draw once (R121, R143). -/
def execFcvt (n : Bool) (d a : Reg) (src dst : CvtTy) (s : State) : Host.Outcome State Fault Refusal :=
  laneOp (.fcvt n d a src dst) 1 6 (fun c x =>
    let (md, seed) := match CvtTy.fp dst with
      | some f => c.modes x f 1
      | none => (fun _ => modeOf (c.wave.rmodeAt c.run.cycle), none)
    let v := cvtSource src (if CvtTy.regs src = 2 then x.pair a else zext64 (x.reg a))
    let (r, fl) := cvtResult (md 0) dst v
    { (if CvtTy.regs dst = 2 then outPair x d r fl else outReg x n d (lo32 r) fl) with seed := seed }) s

/-- An FP32 value rounded to an integral FP32 value, with NV for a signalling NaN only (R144). -/
def frndFn (mode : RMode) (a : Word) : Word × Word :=
  match f32 a with
  | .nan sig => (codeW FpFmt.f32.canon, flIf sig flNV)
  | .inf _ => (a, 0)
  | .fin neg m e =>
    if m = 0 ∨ 0 ≤ e then (a, 0)
    else
      let (v, _) := roundInt mode neg m e
      (codeW (if v = 0 then FpFmt.f32.signed neg 0 else (FpFmt.f32.round .rne neg v.natAbs 0).1), 0)

/-- The mode that FRND names, SR read as RNE (R61, R144). -/
def rndMode (r : Word) : RndSel → RMode
  | .rne => .rne | .rtz => .rtz | .rup => .rup | .rdn => .rdn
  | .dyn => modeOf r

/-- FRND (R144). -/
def execFrnd (n : Bool) (d a : Reg) (m : RndSel) (s : State) : Host.Outcome State Fault Refusal :=
  laneOp (.frnd n d a m) 1 6 (fun c x =>
    let r := frndFn (rndMode (c.wave.rmodeAt c.run.cycle) m) (x.reg a)
    outReg x n d r.1 r.2) s

/-! ## Special functions and softmax (R145 to R150) -/

/-- SFN (R145 to R147). -/
def execSfn (n : Bool) (f : SfnFn) (d a : Reg) (s : State) : Host.Outcome State Fault Refusal :=
  laneOp (.sfn n f d a) 4 16 (fun _ x => let r := sfnFn f (x.reg a); outReg x n d r.1 r.2) s

/-- MAXEX: the larger of m and the saturated ceiling of x (R148). -/
def maxexFn (m b : Word) : Word × Word :=
  match f32 b with
  | .nan sig => (m, flIf sig flNV)
  | .inf neg => (maxS m (BitVec.ofInt 32 (if neg then -32768 else 32767)), 0)
  | .fin neg k e =>
    let c : Int :=
      if k ≠ 0 ∧ 16 < (Nat.log2 k : Int) + e then (if neg then -32768 else 32767)
      else (saturate (-32768, 32767) (roundInt .rup neg k e).1).1
    (maxS m (BitVec.ofInt 32 c), 0)

/-- MAXEX (R148). -/
def execMaxex (n : Bool) (d a b : Reg) (s : State) : Host.Outcome State Fault Refusal :=
  laneOp (.maxex n d a b) 1 4 (fun _ x => let r := maxexFn (x.reg a) (x.reg b); outReg x n d r.1 r.2) s

/-- SCALB: a x 2^b, rounded once (R149). -/
def scalbFn (mode : RMode) (a b : Word) : Word × Word :=
  match f32 a with
  | .nan sig => (codeW FpFmt.f32.canon, flIf sig flNV)
  | .inf _ => (a, 0)
  | .fin neg m e =>
    if m = 0 then (a, 0) else let (c, fl) := FpFmt.f32.round mode neg m (e + b.toInt); (codeW c, fl)

/-- SCALB (R149). -/
def execScalb (n : Bool) (d a b : Reg) (s : State) : Host.Outcome State Fault Refusal :=
  laneOp (.scalb n d a b) 1 6 (fun c x =>
    let r := scalbFn (modeOf (c.wave.rmodeAt c.run.cycle)) (x.reg a) (x.reg b)
    outReg x n d r.1 r.2) s

/-- EXP2M: .exp2 at x - b, formed exactly (R150). -/
def execExp2m (n : Bool) (d a b : Reg) (s : State) : Host.Outcome State Fault Refusal :=
  laneOp (.exp2m n d a b) 4 16 (fun _ x => let r := exp2mFn (x.reg a) (x.reg b); outReg x n d r.1 r.2) s

/-! ## Dot products and packing (R151, R152) -/

/-- Byte `i` of a word. -/
def byteAt (w : Word) (i : Nat) : Nat := bitsOf w.toNat (8 * i) 8

/-- The integer dot product of DOT4 (R151). -/
def dotInt (signed : Bool) (a b d : Word) : Word × Word :=
  let sum : Int := intOf signed 32 d.toNat +
    ((List.range 4).map fun i => intOf signed 8 (byteAt a i) * intOf signed 8 (byteAt b i)).sum
  let (r, sat) := saturate (intRange signed 32) sum
  (BitVec.ofInt 32 r, flIf sat flOF)

/-- The floating dot product of DOT4: the exact sum, rounded once (R151). The zero sign is that of R127 over the sum; infinities of both signs
among its terms set NV, whatever the others are. -/
def dotFp (f : FpFmt) (mode : RMode) (a b d : Word) : Word × Word :=
  let rdn := mode == .rdn
  let xs := (List.range 4).map fun i => (f.decode (byteAt a i), f.decode (byteAt b i))
  let ps := xs.map fun p => p.1.mul p.2
  let z := f32 d
  let ops := z :: xs.flatMap fun p => [p.1, p.2]
  let r := ps.foldl (fun acc p => acc.add rdn p) z
  let allNegZero := (z :: ps).all fun v => v.isZero && v.neg?
  let allPosZero := (z :: ps).all fun v => v.isZero && !v.neg?
  let r := match r with
    | .fin _ 0 _ => FV.fin (if allNegZero then true else if allPosZero then false else rdn) 0 0
    | v => v
  let bothInf := (z :: ps).contains (.inf false) && (z :: ps).contains (.inf true)
  let nv := flIf (ops.any FV.isSig || (xs.zip ps).any (fun p => p.2.isNan && !p.1.1.isNan && !p.1.2.isNan) || bothInf) flNV
  let (c, fl) := finish .f32 mode (r, nv)
  (codeW c, fl)

/-- DOT4 (R151). -/
def execDot4 (n : Bool) (f : DotTy) (d a b : Reg) (s : State) : Host.Outcome State Fault Refusal :=
  laneOp (.dot4 n f d a b) 1 6 (fun c x =>
    let mode := modeOf (c.wave.rmodeAt c.run.cycle)
    let r := match f with
      | .s8 => dotInt true (x.reg a) (x.reg b) (x.reg d)
      | .z8 => dotInt false (x.reg a) (x.reg b) (x.reg d)
      | .e4m3 => dotFp .e4m3 mode (x.reg a) (x.reg b) (x.reg d)
      | .e5m2 => dotFp .e5m2 mode (x.reg a) (x.reg b) (x.reg d)
    outReg x n d r.1 r.2) s

/-- The floating format of a PACK form; none for the forms that copy bits (R152). -/
def PackFn.fp : PackFn → Option FpFmt
  | .bf16x2 => some .bf16 | .f16x2 => some .f16 | .e4m3 => some .e4m3 | .e5m2 => some .e5m2
  | .h | .b => none

/-- PACK: one rounding and, under SR, one draw for each element (R152). -/
def execPack (n : Bool) (d a : Reg) (f : PackFn) (s : State) : Host.Outcome State Fault Refusal :=
  laneOp (.pack n d a f) 1 6 (fun c x =>
    let k := PackFn.group f
    let w := 32 / k
    let (res, seed) : List (Nat × Word) × Option (Nat × DWord) := match PackFn.fp f with
      | some t =>
        let (md, seed) := c.modes x t k
        ((List.range k).map fun e => toFpTy (md e) t (.fl (f32 (x.grp a e))), seed)
      | none => ((List.range k).map fun e => ((x.grp a e).toNat % 2 ^ w, 0), none)
    let v := (List.range k).foldl (fun acc e => acc + (res.getD e (0, 0)).1 * 2 ^ (w * e)) 0
    { outReg x n d (codeW v) (res.foldl (fun fl r => fl ||| r.2) 0) with seed := seed }) s

/-- UNPK: exact widening; NV for a signalling NaN element (R152). -/
def execUnpk (d a : Reg) (f : PackFn) (s : State) : Host.Outcome State Fault Refusal :=
  laneOp (.unpk d a f) 1 6 (fun _ x =>
    let k := PackFn.group f
    let w := 32 / k
    let res : List (Word × Word) := (List.range k).map fun e =>
      let v := bitsOf (x.reg a).toNat (w * e) w
      match PackFn.fp f with
      | some t => let (cd, fl) := toFpTy .rne .f32 (.fl (t.decode v)); (codeW cd, fl)
      | none => (codeW v, 0)
    { regs := (List.range k).map fun e => (x.winb + d.toNat + e, (res.getD e (0, 0)).1)
      latch := some (mkPair (res.getD 0 (0, 0)).1 (res.getD 1 (0, 0)).1)
      flags := res.foldl (fun fl r => fl ||| r.2) 0 }) s

/-! ## Top-k and random numbers (R153 to R157) -/

/-- The rank of a key: -inf lowest, -0 below +0, a NaN above +inf (R153). -/
def keyRank (w : Word) : Int :=
  match f32 w with
  | .nan _ => 2 ^ 32
  | _ => if w.msb then -((w.toNat % 2 ^ 31 : Nat) : Int) - 1 else (w.toNat : Int)

/-- The list after an insertion (R153). -/
def topkInsert (l : List (Word × Word)) (key idx : Word) : List (Word × Word) :=
  let p := l.countP fun e => decide (keyRank key ≤ keyRank e.1)
  if p < l.length then l.take p ++ (key, idx) :: (l.drop p).dropLast else l

/-- TOPKI (R153). -/
def execTopki (k : BitVec 3) (d a b : Reg) (s : State) : Host.Outcome State Fault Refusal :=
  laneOp (.topki k d a b) 1 8 (fun _ x =>
    let n := k.toNat + 1
    let l := (List.range n).map fun j => (x.grp d (2 * j), x.grp d (2 * j + 1))
    let key := f32 (x.reg a)
    let l' := if key.isNan then l else topkInsert l (x.reg a) (x.reg b)
    { regs := (l'.flatMap fun p => [p.1, p.2]).mapIdx fun i v => (x.winb + d.toNat + i, v)
      flags := flIf key.isSig flNV }) s

/-- RAND: one draw for each active lane (R156). -/
def execRand (n : Bool) (f : RandFn) (d : Reg) (s : State) : Host.Outcome State Fault Refusal :=
  laneOp (.rand n f d) 1 6 (fun c x =>
    let (ws, z) := c.draws x 1
    let w := ws.getD 0 0
    let v := match f with
      | .z32 => w
      | .f32 => codeW (FpFmt.f32.encode .rne (.fin false (w.toNat / 256) (-24))).1
    { outReg x n d v with seed := some (c.run.cycle, z) }) s

end Sys2Proof.Machine
end

