-- ==== Sys2Proof/Machine/Translate.lean ====
section
/-!
DEFINITION. Address translation (R376, R377): the page-table walk, the TLBs, and the split of a fabric-global address into
device and local address (R424).
-/

namespace Sys2Proof.Machine

/-- What an access asks of a page (R377). -/
inductive Access where
  | read | write | rmw | fetch
  deriving DecidableEq, Repr

/-- A leaf found by a walk: log2 of the page size, the page's fabric-global address, and the permissions R, W, X. -/
structure Leaf where
  log : Nat
  pa : Nat
  r : Bool
  w : Bool
  x : Bool
  deriving DecidableEq, Repr

/-- The device's own number (R466). -/
def State.ownDev (s : State) : Nat := bitsOf s.devnum.toNat 0 9

/-- The device of a fabric-global address (R424). -/
def devOf (a : Nat) : Nat := bitsOf a 43 9

/-- The local part of a fabric-global address (R424). -/
def localOf (a : Nat) : Nat := a % 2 ^ 43

/-- The fields of a page-table entry (R377). -/
def pteAdr (e : Nat) : Nat := bitsOf e 8 44 * 256

/-- Whether an entry's reserved bits are clear. -/
def pteRsv (e : Nat) : Bool := bitsOf e 52 12 == 0 && bitsOf e 5 3 == 0

/-- The first VA bit, the number of index bits of each level, and log2 of the next table's size (R377). -/
def walkLevels : List (Nat × Nat × Nat) := [(39, 17, 12), (30, 9, 12), (21, 9, 8), (16, 5, 0)]

/-- The entry at a fabric-global address; what another device's memory holds is free (R377, log entry 12). -/
def State.tableEntry (s : State) (a : Nat) : Nat :=
  if devOf a = s.ownDev then natLE (s.peek (localOf a) 8) else (Config.farEntry s.ticks a).toNat

/-- The walk from a table on: each level reads one entry at `table + 8 x index` (R377). -/
def State.walkFrom (s : State) (va : Nat) : List (Nat × Nat × Nat) → Nat → Except FaultCode Leaf
  | [], _ => .error .prot
  | (lo, n, next) :: rest, table =>
    let e := s.tableEntry (table + 8 * bitsOf va lo n)
    if e % 2 = 0 then .error .page
    else if !pteRsv e then .error .prot
    else if bitsOf e 1 1 = 1 then
      if lo = 39 || pteAdr e % 2 ^ lo != 0 then .error .prot
      else .ok { log := lo, pa := pteAdr e, r := bitsOf e 2 1 == 1, w := bitsOf e 3 1 == 1, x := bitsOf e 4 1 == 1 }
    else if lo = 16 || pteAdr e % 2 ^ next != 0 then .error .prot
    else State.walkFrom s va rest (pteAdr e)

/-- A walk of an address space (R376, R377, R408: %asidt). -/
def State.walk (s : State) (asid va : Nat) : Except FaultCode Leaf :=
  let root := natLE (s.peek (s.asidt.toNat + 8 * asid) 8)
  if root % 2 = 0 then .error .page
  else if (root - 1) % 2 ^ 20 != 0 then .error .prot
  else s.walkFrom va walkLevels (root - 1)

/-- Whether a leaf allows an access (R377). -/
def Leaf.allows (l : Leaf) : Access → Bool
  | .read => l.r
  | .write => l.w
  | .rmw => l.r && l.w
  | .fetch => l.x

/-- Whether a TLB entry translates an address for a holder. -/
def TlbEntry.hits (e : TlbEntry) (holder asid va : Nat) : Bool :=
  e.holder == holder && e.asid == asid && e.va == va / 2 ^ e.log * 2 ^ e.log

/-- The leaf that a TLB entry holds. -/
def TlbEntry.leaf (e : TlbEntry) : Leaf := { log := e.log, pa := e.pa, r := e.r, w := e.w, x := e.x }

/-- A TLB entry from a leaf. -/
def Leaf.entry (l : Leaf) (holder asid va : Nat) : TlbEntry :=
  { holder := holder, asid := asid, va := va / 2 ^ l.log * 2 ^ l.log, log := l.log, pa := l.pa, r := l.r, w := l.w, x := l.x }

/-- Put an entry into a TLB that holds `cap` entries for each holder; the oldest one leaves a full TLB (log entry 12). -/
def tlbAdd (cap : Nat) (e : TlbEntry) (l : List TlbEntry) : List TlbEntry :=
  let mine := l.filter fun f => f.holder == e.holder
  let drop := if mine.length < cap then none else mine.getLast?
  e :: l.filter fun f => some f ≠ drop

/-- The leaf for an address, through the L1 TLB, the L2 TLB or a walk, and the state with the TLBs filled (R376). -/
def State.lookup (s : State) (core asid va : Nat) : State × Except FaultCode Leaf :=
  match s.tlb1.find? fun e => e.hits core asid va with
  | some e => (s, .ok e.leaf)
  | none =>
    match s.tlb2.find? fun e => e.hits (dieOf core) asid va with
    | some e => ({ s with tlb1 := tlbAdd 256 (e.leaf.entry core asid va) s.tlb1 }, .ok e.leaf)
    | none =>
      match s.walk asid va with
      | .error f => (s, .error f)
      | .ok l =>
        ({ s with tlb1 := tlbAdd 256 (l.entry core asid va) s.tlb1,
                  tlb2 := tlbAdd 32768 (l.entry (dieOf core) asid va) s.tlb2 }, .ok l)

/-- Whether a fabric-global address names memory: another device, or HBM or a stalagmite line of this one (R230, R247). -/
def State.exists? (s : State) (a : Nat) : Bool :=
  devOf a != s.ownDev || inHbm (localOf a) || s.inWindow (localOf a)

/-- The fabric-global address of a physical address that a supervisor core names: it is local when its device bits are 0
(log entry 8). -/
def State.physical (s : State) (va : Nat) : Nat := if devOf va = 0 then s.ownDev * 2 ^ 43 + va else va

/-- The fault of reading a line: LOST (R423) or an uncorrectable error (R396). -/
def State.lineFault (s : State) (pa : Nat) : Option FaultCode :=
  if s.lost.contains (lineOf pa) then some .lineLost
  else if s.ecc.contains (lineOf pa) then some .eccUncorr
  else none

/-! ## Links and routes (R427 to R430) -/

/-- Whether a route to a device remains: some link is up, and the device is not one whose every route has been lost (log entry 34). -/
def State.hasRoute (s : State) (dev : Nat) : Bool := s.links.any (·.up) && !s.noRoute.contains dev

/-- The links that a packet for a device may take: those whose other end is the device, else every link that is up (log entry 34). -/
def State.routeLinks (s : State) (dev : Nat) : List Link :=
  let direct := s.links.filter fun l => l.up && l.peer == some dev
  if direct.isEmpty then s.links.filter (·.up) else direct

/-- Whether the route of a packet has a feature (R430). Links that differ in it leave it to the adaptive routing, which is free. -/
def State.routeHas (s : State) (dev bit : Nat) : State × Bool :=
  let ls := s.routeLinks dev
  if ls.all fun l => l.features.getLsbD bit then (s, true)
  else if ls.any fun l => l.features.getLsbD bit then
    let (v, s) := s.free
    (s, v.getLsbD 0)
  else (s, false)

/-- The next sequence number of a flow that this device sends on (R428). -/
def State.takeSeq (s : State) (dev die cls : Nat) : Word × State :=
  let mine := fun f : Flow => f.out && f.dev == dev && f.die == die && f.cls == cls
  let seq := ((s.flows.find? mine).map (·.next)).getD 0
  let f : Flow := { dev := dev, die := die, cls := cls, out := true, next := seq + 1, early := [], lastAt := s.time }
  (seq, { s with flows := f :: s.flows.filter (fun g => !mine g) })

/-- A packet is given to the links: it takes the next sequence number of its flow (R428). -/
def State.send (s : State) (dev die cls : Nat) (body : FabricBody) : State :=
  let (seq, s) := s.takeSeq dev die cls
  { s with sent := s.sent ++ [{ dev := dev, die := die, cls := cls, seq := seq, body := body }] }

/-- An RMW of another device's memory needs a route with feature bit 0, else it is PROT (R430). With no route at all it times out
instead (R429). -/
def State.farRmw (s : State) (a : Nat) (k : Access) : State × Except FaultCode Nat :=
  if k != .rmw || devOf a == s.ownDev || !s.hasRoute (devOf a) then (s, .ok a)
  else
    match s.routeHas (devOf a) 0 with
    | (s, true) => (s, .ok a)
    | (s, false) => (s, .error .prot)

/-- Translation of a virtual address for a core and an address space (R376, R377). A supervisor core's addresses are
physical (R453, log entry 8). An address above 2^56, or one that names no memory, is PROT (R366). -/
def State.translate (s : State) (core asid : Nat) (sup : Bool) (va : Nat) (k : Access) : State × Except FaultCode Nat :=
  if sup then
    if va < 2 ^ 52 && s.exists? (s.physical va) then s.farRmw (s.physical va) k else (s, .error .prot)
  else if 2 ^ 56 ≤ va then (s, .error .prot)
  else
    match s.lookup core asid va with
    | (s, .error f) => (s, .error f)
    | (s, .ok l) =>
      let a := (l.pa + va % 2 ^ l.log) % 2 ^ 52
      if !l.allows k then (s, .error .prot)
      else if s.exists? a then s.farRmw a k else (s, .error .prot)

/-- The address space of a team: the ASID of its launch (R376). -/
def State.asidOf (s : State) (t : Team) : Nat := ((s.launchOf t).map (·.asid)).getD 0

/-- Translation for a team. -/
def State.translateFor (s : State) (t : Team) (va : Nat) (k : Access) : State × Except FaultCode Nat :=
  s.translate t.core (s.asidOf t) t.isSup va k

/-- PAGE_WALK: a walker fills the TLBs with a valid leaf. A walk that finds none belongs to a prefetch or to runahead, whose
failed walks are dropped (R298, R380): an access that waits for its page walks when it is issued and reports it then. -/
def execPageWalk (core asid : Nat) (va : DWord) (s : State) : Host.Outcome State Fault Refusal :=
  .next (if va.toNat < 2 ^ 56 then (s.lookup core asid va.toNat).1 else s)

/-- The physical address of the line that an access of a team at a virtual address meets, for the supervisor's record of an error (R396). -/
def State.lineAt (s : State) (t : Team) (va : Nat) (k : Access) : Option DWord :=
  match (s.translateFor t va k).2 with
  | .ok g => if devOf g = s.ownDev then some (BitVec.ofNat 64 (lineOf (localOf g))) else none
  | .error _ => none

end Sys2Proof.Machine
end

