-- ==== Sys2Proof/Machine/Team.lean ====
section
/-!
DEFINITION. What the waves of a team do to one another: the trace ring (R459), reconvergence (R186), team and gang
barriers (R212 to R215), the turn of an ordered wave (R194), the lantern (R196) and the exit of lanes (R209).
-/

namespace Sys2Proof.Machine

/-! ## Trace records (R448, R459, R462) -/

/-- Write one 32-byte record into a partition's trace ring; a full ring loses its oldest record (R459). -/
def State.trace (s : State) (p : Nat) (rec : List Byte) : State :=
  let q := s.part p
  if q.ptbase = 0 then s
  else
    let k := bitsOf q.ptsize.toNat 0 5
    let full := (q.pttail - q.pthead).toNat = 2 ^ k
    (s.storeNow (q.ptbase.toNat + 32 * (q.pttail.toNat % 2 ^ k)) rec).updPart p fun q =>
      { q with pttail := q.pttail + 1, pthead := if full then q.pthead + 1 else q.pthead,
               ptdrop := if full then satInc q.ptdrop 1 else q.ptdrop }

/-- The bytes of a trace record (R448). -/
def traceRecord (kind code part core : Nat) (time : Nat) (team : Word) (wave : Nat) (data : DWord) : List Byte :=
  [0x10, BitVec.ofNat 8 kind] ++ bytesLE 2 (code % 1024) ++ [BitVec.ofNat 8 part, BitVec.ofNat 8 (dieOf core)] ++
  bytesLE 2 (core % 100) ++ bytesLE 8 time ++ bytesLE 4 team.toNat ++ [BitVec.ofNat 8 wave, 0, 0, 0] ++ bytesLE 8 data.toNat

/-! ## Unblocking -/

/-- Replace everything that an entry waits for. -/
def Entry.mapWhys (f : BlockWhy → BlockWhy) (e : Entry) : Entry :=
  { e with after := e.after.map f, st := match e.st with | .blocked l => .blocked (l.map f) | x => x }

/-- Remove ended waits from an entry; when none is left the entry may run (R181, R90). -/
def Entry.unblock (loops : List LoopEntry) (done : BlockWhy → Bool) (e : Entry) : Entry :=
  let e := { e with after := e.after.filter fun y => !done y }
  match e.st with
  | .blocked whys =>
    match whys.filter fun y => !done y with
    | [] => e.go loops
    | l => { e with st := .blocked l }
  | _ => e

/-- An entry that goes on where it stands, once what its run left to wait for has ended (R182, R369). -/
def Entry.goOn (loops : List LoopEntry) (e : Entry) : Entry :=
  if e.after.isEmpty then e.go loops else { e with st := .blocked e.after, after := [] }

/-- Remove ended waits from every entry of a wave; entries that have become alike merge. -/
def Wave.unblock (w : Wave) (done : BlockWhy → Bool) : Wave :=
  w.both fun w => { w with
    frontier := addEntries (w.frontier.map (Entry.unblock w.loops done)) []
    run := w.run.map fun r => { r with blocks := r.blocks.filter fun y => !done y } }

/-- Whether an entry waits for something that satisfies `p`. -/
def Entry.waitsOn (p : BlockWhy → Bool) (e : Entry) : Bool := e.whys.any p

/-- Whether an access of a team's wave must wait for a FENCE, an ACQ or a tag (R266, R267, R281). -/
def State.gated (s : State) (team wave id : Nat) : Bool :=
  match (s.teams ++ s.saved).find? fun t => t.id == team with
  | some t => ((t.waves[wave]?).map fun w => w.gates id).getD false
  | none => false

/-! ## A wave's accesses to one byte (R101, R272, R274) -/

/-- Whether two byte ranges overlap. -/
def overlap (a n b m : Nat) : Bool := decide (a < b + m ∧ b < a + n)

/-- The read-modify-writes issued before `id`, by the wave or before it by hb, that have not been performed on some bytes: a later
access of the wave to them waits. -/
def State.rmwsBefore (s : State) (t : Nat) (w : Wave) (id pa n : Nat) : List Nat :=
  (s.rmws.filter fun m => decide (m.id < id) && !m.remote && ((m.team == t && m.wave == w.idx) || w.before.contains m.id) &&
    overlap m.pa (Fmt.size m.fmt) pa n).map (·.id)

/-- Those, and the stores that have not been performed: a read at the home waits for them. -/
def State.writesBefore (s : State) (t : Nat) (w : Wave) (id pa n : Nat) : List Nat :=
  s.rmwsBefore t w id pa n ++ (s.posted.filter fun p => decide (p.id < id) && !p.remote &&
    ((p.team == t && p.wave == w.idx) || w.before.contains p.id) && overlap p.pa p.bytes.length pa n).map (·.id)

/-- Whether a read of a wave precedes an access with an identity: it was issued before it by the same wave (`mine`), or before a
barrier that the access follows (R101, R213). -/
def readPrecedes (mine : Bool) (id seq : Nat) (upTo : Option Nat) : Bool :=
  (mine && decide (seq < id)) || upTo.any fun k => decide (k ≤ id)

/-- Whether an access of a wave to some bytes, from a fabric-global address on, has an earlier WAITC of the wave before it that has still to
observe one of them: no read of a wave returns an older value than an earlier one, or what a later access of the wave writes (R272). -/
def Wave.waitcBefore (w : Wave) (g id n : Nat) : Bool :=
  w.blocks.any fun y => match y with
    | .waitc a => decide (a.seq < id) && a.lanes.any fun l => !l.seen && l.pa.any fun p => overlap p (Fmt.size a.fmt) g n
    | _ => false

/-- Whether a wave has a load, a record load or a WAITC, before an access with an identity, that has still to read some bytes of device `dev`. -/
def Wave.readsBefore (w : Wave) (dev : Nat) (mine : Bool) (id pa n : Nat) : Bool :=
  (w.loads.any fun l => readPrecedes mine id l.seq l.upTo && l.items.any fun i =>
    match i.src with
    | .memory p f _ => overlap p (Fmt.size f) pa n
    | _ => false) ||
  (w.recLoads.any fun r => readPrecedes mine id r.seq r.upTo && devOf r.pa == dev && overlap (localOf r.pa) 32 pa n) ||
  (mine && w.waitcBefore (dev * 2 ^ 43 + pa) id n)

/-- Whether a write of a team's wave waits for an earlier load of the wave, or one that a barrier puts before it, to read its bytes.
A line in fault answers no load. -/
def State.readsFirst (s : State) (team wave id pa n : Nat) : Bool :=
  (s.lineFault pa).isNone && !s.inWindow pa &&
  match (s.teams ++ s.saved).find? fun t => t.id == team with
  | some t => t.waves.any fun w => w.readsBefore s.ownDev (w.idx == wave) id pa n
  | none => false

/-- Replace the team with an identity, on a core and saved. -/
def State.updBoth (s : State) (i : Nat) (f : Team → Team) : State :=
  let g := fun t : Team => if t.id = i then f t else t
  { s with teams := s.teams.map g, saved := s.saved.map g }

/-- Replace a wave of the team with an identity, on a core and saved. -/
def State.updAny (s : State) (i w : Nat) (f : Wave → Wave) : State := s.updBoth i fun t => t.updWave w f

/-! ## Reconvergence (R186, R207) -/

/-- Release the RCB at which every non-exited lane stands (R186). -/
def Wave.checkRcb (w : Wave) : Wave :=
  match w.run, w.frontier.head?.bind Entry.rcbAddr with
  | none, some a =>
    if w.frontier.all fun e => e.rcbAddr == some a then w.unblock fun y => y == .rcb a else w
  | _, _ => w

/-! ## Team barriers (R212, R213) -/

/-- Writes of a team's wave that have not been performed, with those that precede them (R213, R263). -/
def State.wavePending (s : State) (t : Nat) (w : Wave) : List Nat :=
  w.before ++ (s.posted.filter fun p => p.team == t && p.wave == w.idx).map (·.id) ++
    (s.rmws.filter fun p => p.team == t && p.wave == w.idx).map (·.id)

/-- The writes that have still to be performed at a scope level, of a list (R263). At .team a posted write is performed: the core's lanes
and engines read it; a read-modify-write is not before its home has performed it. At .die and .dev a store to another device is
performed once it has left and the device's copies of its line are dropped (R425). -/
def State.scopeWaits (s : State) (level : Nat) (ids : List Nat) : List Nat :=
  ids.filter fun i => (s.rmws.any fun m => m.id == i) ||
    (level != 0 && s.posted.any fun p => p.id == i && (!p.remote || !p.applied || decide (2 < level)))

/-- Whether all of a list of writes have been performed (R263). -/
def State.performed (s : State) (ids : List Nat) : Bool :=
  ids.all fun i => !(s.posted.any fun p => p.id == i) && !(s.rmws.any fun r => r.id == i)

/-- Union of identity lists. -/
def unionIds (a b : List Nat) : List Nat := a ++ b.filter fun x => !a.contains x

/-- Whether an arrival count fulfils a barrier (R212). -/
def Barrier.fulfilled (b : Barrier) (live : Nat) : Bool :=
  if b.expected = 0 then decide (live ≤ b.count) else decide (b.expected ≤ b.count)

/-- The waves of a team that have not exited. -/
def Team.liveWaves (t : Team) : Nat := (t.waves.filter fun w => !w.exited).length

/-- Whether a pre-emption request lets a wave of a team run on: while a barrier is partly arrived, the waves that have not arrived run until
the limit (R382). -/
def Team.runsOn (t : Team) (w : Wave) : Bool :=
  !t.limitPassed && !w.exited && t.barriers.any fun b => decide (0 < b.count) && !b.arrived.contains w.idx

/-- The team of a gang member, by its logical index, when it has started: the issuing team, or one of its launch (R223). -/
def State.member? (s : State) (t : Team) (logical : Nat) : Option Team :=
  if t.logical = logical then s.team? t.id
  else s.teams.find? fun u => u.launch == t.launch && u.launch.isSome && u.logical == logical

/-- Whether bytes of a team's scratchpad hold an uncorrectable error (R396). -/
def Team.spadError (t : Team) (a n : Nat) : Bool := t.spadBad.any fun b => decide (a ≤ b ∧ b < a + n)

/-- A member load whose member has started has read its bytes, or met an error in them. -/
def State.memberRead (s : State) (t : Team) (i : LoadItem) : LoadItem :=
  match i.src with
  | .member logical off size => match s.member? t logical with
    | some u => { i with src := if u.spadError off size then .spoiled else .value (BitVec.ofNat 64 (natLE (Memory.readN u.spad off size))) }
    | none => i
  | _ => i

/-- The outstanding reads of a wave whose arrival a barrier's release follows: they read none of the team's writes from `lim` on, and
those of scratchpads are made (R213). -/
def State.closeReads (s : State) (t : Team) (lim : Nat) (w : Wave) : Wave :=
  { w with
    loads := w.loads.map fun l => { l with upTo := some (l.upTo.getD lim), items := l.items.map (s.memberRead t) }
    recLoads := w.recLoads.map fun r => { r with upTo := some (r.upTo.getD lim) } }

/-- The progress count of a wave is reset; in runahead mode the one that the wave comes back to, too (R187, R380). -/
def Wave.resetProgress (w : Wave) : Wave :=
  { w with progress := 0, runahead := w.runahead.map fun k => { k with progress := 0 } }

/-- Check release of one barrier (R212): the phase turns, progress counts are reset (R187), the waiters go on, and what
the arrived waves wrote precedes what every wave of the team does next (R213). -/
def State.checkBarrier (s : State) (t n : Nat) : State :=
  match s.real? t with
  | none => s
  | some tm =>
    match tm.barriers[n]? with
    | none => s
    | some b =>
      if b.count = 0 || !b.fulfilled tm.liveWaves then s
      else
        let ids := (tm.waves.filter fun w => b.arrived.contains w.idx).foldl (fun l w => unionIds l (s.wavePending t w)) []
        s.updReal t fun tm =>
          { tm with
            barriers := tm.barriers.set n { b with phase := !b.phase, count := 0, arrived := [] }
            waves := tm.waves.map fun w =>
              let waits := w.frontier.any (·.waitsOn fun y => y == .barrier n b.phase) ||
              ((w.run.map fun r => r.blocks.contains (.barrier n b.phase)).getD false)
              let w := w.unblock fun y => y == .barrier n b.phase
              let w := if b.arrived.contains w.idx then s.closeReads tm s.nextId w else w
              { w.resetProgress with before := unionIds w.before ids, armed := if waits then w.armed.set n none else w.armed } }

/-- An arrival at a barrier by a wave (R212). -/
def State.arriveBarrier (s : State) (t w n e : Nat) : State :=
  (s.updReal t fun tm =>
    match tm.barriers[n]? with
    | none => tm
    | some b =>
      let b := if b.count = 0 then { b with expected := e } else b
      let b := if b.arrived.contains w then b else { b with arrived := w :: b.arrived, count := b.count + 1 }
      { tm with barriers := tm.barriers.set n b,
                waves := tm.waves.modify w fun v => { v with armed := v.armed.set n (some b.phase) } }).checkBarrier t n

/-! ## Gang barriers (R215) -/

/-- The gang of a team, as its launch holds it. -/
def Launch.gangOf (l : Launch) (t : Team) : Gang :=
  (l.gangs.find? fun g => g.first == t.gangBase).getD
    { first := t.gangBase, size := t.gangSize, expected := none, phases := 0, last := none, begun := false }

/-- Replace a gang of a launch. -/
def Launch.setGang (l : Launch) (g : Gang) : Launch :=
  { l with gangs := g :: l.gangs.filter fun h => h.first != g.first }

/-- Whether member `k` of a launch has arrived: each of its waves has exited or has issued GBAR in the phase (R215). -/
def State.gangArrived (s : State) (l : Launch) (k : Nat) : Bool :=
  (List.range l.region.waves).all fun w =>
    l.exited.contains (k * l.region.waves + w) ||
    (s.teams ++ s.saved).any fun t => t.launch == some l.id && t.logical == k && ((t.waves[w]?).map (·.gbarDone)).getD false

/-- Whether a team is a member of a gang. -/
def Team.inGang (t : Team) (l : Launch) (g : Gang) : Bool := t.launch == some l.id && t.gangBase == g.first

/-- A step record of a gang (R462): `t` is the team that CORE names. -/
def State.stepRecord (s : State) (l : Launch) (g : Gang) (kind : Nat) (t : Team) : State :=
  if g.size < 2 || !(s.part l.part).ptsize.getLsbD 8 then s
  else
    let team0 := ((s.teams ++ s.saved).find? fun u => u.launch == some l.id && u.logical == g.first).map (·.linear)
    let data : DWord := zext64 (team0.getD 0) ||| BitVec.ofNat 64 ((t.logical - g.first) * 2 ^ 32 + g.size % 256 * 2 ^ 40)
    s.trace l.part (traceRecord kind g.phases l.part t.core s.time 0xFFFFFFFF 0xFF data)

/-- After an arrival or an exit in team `t`: the first arrival of a phase is recorded (R462), and the arrival that fulfils
the expected count is noted. -/
def State.checkGang (s : State) (t : Team) : State :=
  match s.launchOf t with
  | none => s
  | some l =>
    let g := l.gangOf t
    let n := ((List.range g.size).filter fun k => s.gangArrived l (g.first + k)).length
    match g.expected with
    | none => s
    | some e =>
      let arrivedHere := s.gangArrived l t.logical
      let (s, g) := if arrivedHere && !g.begun then (s.stepRecord l g 1 t, { g with begun := true }) else (s, g)
      let g := if arrivedHere && g.last.isNone && decide ((if e = 0 then g.size else e) ≤ n) then { g with last := some t.id } else g
      s.updLaunch l.id fun l => l.setGang g

/-- The release of a gang phase (R215): once the count is fulfilled and what the arrived waves wrote, with what precedes it, has been
performed at .die, the phase turns, progress counts are reset and the waiters go on; a member core drops its L1's copies. -/
def State.releaseGang (s : State) (t : Team) : State :=
  match s.launchOf t with
  | none => s
  | some l =>
    let g := l.gangOf t
    let members := (s.teams ++ s.saved).filter fun u => u.inGang l g
    let ids := members.foldl (fun a u => u.waves.foldl (fun a w => if w.gbarDone then unionIds a (s.wavePending u.id w) else a) a) []
    match g.last with
    | none => s
    | some i =>
      if !(s.scopeWaits 1 ids).isEmpty then s
      else
        let last := ((s.teams ++ s.saved).find? fun u => u.id == i).getD t
        let s := s.stepRecord l g 2 last
        let cores := members.map (·.core)
        let go := fun u : Team => if u.inGang l g then
          { u with waves := u.waves.map fun w =>
              let w := if w.gbarDone then s.closeReads u s.nextId w else w
              { (w.unblock fun y => match y with | .gangBarrier _ => true | _ => false).resetProgress with
                gbarDone := false, before := unionIds w.before ids } } else u
        { (s.updLaunch l.id fun l => l.setGang { g with expected := none, phases := g.phases + 1, last := none, begun := false }) with
          teams := s.teams.map go, saved := s.saved.map go,
          l1 := if g.size < 2 then s.l1 else s.l1.filter fun c => !cores.contains c.holder }

/-! ## Exit of lanes (R209) -/

/-- What follows when lanes of a wave have exited: RCBs (R207), barriers that wait for every wave (R212), the gang barrier
(R215), and, when it was the last lane, the end of the wave's hold on the lantern (R196). -/
def State.afterExit (s : State) (t w : Nat) : State :=
  let s := s.updReal t fun tm => tm.updWave w Wave.checkRcb
  match s.real? t with
  | none => s
  | some tm =>
    if ((tm.waves[w]?).map Wave.exited).getD true then
      let s := s.passLantern tm w
      let s := match s.launchOf tm with
        | none => s
        | some l => s.updLaunch l.id fun l =>
            let k := l.logicalWave tm w
            if l.exited.contains k then l else { l with exited := k :: l.exited }
      let s := (List.range 16).foldl (fun s n =>
        if ((tm.barriers[n]?).map (·.expected)).getD 1 = 0 then s.checkBarrier t n else s) s
      s.checkGang tm
    else s

end Sys2Proof.Machine
end

