-- ==== Sys2Proof/Machine/Coherence.lean ====
section
/-!
DEFINITION. What a core reads and how it posts writes (R226, R263, R272): its own posted writes before they reach their home,
L1 and L2 copies, the marks LOST (R423) and uncorrectable (R396), and reads of records by the device.
-/

namespace Sys2Proof.Machine

/-- Posted writes of a core that its lanes and engines read, in program order: those to this device's memory that have not been performed at
their home (R263: performed at .team). One that a FENCE, an ACQ or a tag of its wave still holds back is not read (R266, R267). -/
def State.postedOf (s : State) (core : Nat) : List Posted :=
  s.posted.filter fun p => p.core == core && !p.remote && !s.gated p.team p.wave p.id

/-- Bytes with those of a list of posted writes laid over them; the bytes start at `pa`. -/
def overlaid (ps : List Posted) (pa : Nat) (bs : List Byte) : List Byte := ps.foldl (fun b p => patchBytes pa b p.pa p.bytes) bs

/-- Bytes as a core reads them at their home, with its own posted writes (R101, R272). -/
def State.homeView (s : State) (core pa n : Nat) : List Byte := overlaid (s.postedOf core) pa (s.peek pa n)

/-- The copy of a line in a core's L1 (R226). -/
def State.l1Copy (s : State) (core line : Nat) : Option LineCopy := s.l1.find? fun c => c.holder == core && c.line == line

/-- The copy of a line in a die's L2 (R415). -/
def State.l2Copy (s : State) (die line : Nat) : Option LineCopy := s.l2.find? fun c => c.holder == die && c.line == line

/-- The modified copy of a line (R420). -/
def State.modifiedCopy (s : State) (line : Nat) : Option LineCopy := s.l2.find? fun c => c.line == line && c.modified

/-- Whether a modified copy of a line, or its data on the way home, keeps the home's bytes stale (R420). -/
def State.heldAway (s : State) (line : Nat) : Bool :=
  (s.modifiedCopy line).isSome || s.writeBacks.any fun c => c.line == line

/-- Bytes of one line as they lie in the L2 of a core's die, or else at their home or in the copy that is newer than the home (R415, R420),
with the core's own posted writes (R101). A bundle-bound read takes the overlay bytes of its die too (R421). -/
def State.dieView (s : State) (core pa n : Nat) (bound : Bool := false) : List Byte :=
  match s.l2Copy (dieOf core) (lineOf pa) with
  | some c =>
    let held := if bound then s.overlays.filter fun o => o.die == dieOf core else []
    overlaid (s.postedOf core) pa
      (held.foldl (fun b o => patchBytes pa b o.pa o.bytes) (sliceBytes c.data (pa - lineOf pa) n))
  | none => s.homeView core pa n

/-- The trap frame at a supervisor core's %tfp, as the core sees it (R375). -/
def State.frameBytes (s : State) (t : Team) : List Byte :=
  let fp := (s.sup t.supIdx).tfp.toNat
  s.dieView t.core fp 64 ++ s.dieView t.core (fp + 64) 64

/-- Bytes of one line as a lane load reads them: from the L1 unless the hint is .byp, with the core's posted writes (R60, R226). -/
def State.laneView (s : State) (core : Nat) (byp : Bool) (pa n : Nat) : List Byte :=
  match if byp then none else s.l1Copy core (lineOf pa) with
  | some c => overlaid (s.postedOf core) pa (sliceBytes c.data (pa - lineOf pa) n)
  | none => s.dieView core pa n

/-- L1 bytes of a core under its carve-out code (R224). -/
def l1Bytes (carve : Option Nat) : Nat := [1024, 768, 512, 256, 64].getD (carve.getD 0) 1024 * 1024

/-- The replacement priority at which a hint allocates a line in the L1 (R60). -/
def Hint.prio : Hint → Nat
  | .strm => 0
  | .keep => 2
  | _ => 1

/-- The copy that leaves a full L1: one of the lowest priority, the oldest of them (R60, log entry 14). The newest stands first. -/
def victimCopy (cs : List LineCopy) : Option LineCopy := minBy (fun c : LineCopy => c.prio) cs.reverse

/-- A load brings its line into the L1, at its hint's priority (R60, R226). -/
def State.l1Fill (s : State) (core pa : Nat) (h : Hint) : State :=
  let line := lineOf pa
  if (s.l1Copy core line).isSome then s
  else
    let c : LineCopy := { holder := core, line := line, data := s.dieView core line 64, modified := false, prio := Hint.prio h }
    let mine := s.l1.filter fun d => d.holder == core
    let cap := l1Bytes (((s.core? core).map (·.carve)).getD none) / 64
    let drop := if mine.length < cap then none else victimCopy mine
    { s with l1 := c :: s.l1.filter fun d => some d ≠ drop }

/-- Bytes that a core has read past its L1 are put into its copy, so that no later load reads older ones (R272). -/
def State.l1Refresh (s : State) (core pa : Nat) (bs : List Byte) : State :=
  { s with l1 := s.l1.map fun c => if c.holder = core then c.patch pa (whole bs) else c }

/-- Drop the copies of a line in a core's L1 (R226, R281). -/
def State.l1Drop (s : State) (core line : Nat) : State :=
  { s with l1 := s.l1.filter fun c => !(c.holder == core && c.line == line) }

/-- `n` free bytes: what another device's memory holds is not in the state (log entry 15). -/
def State.freeBytes (s : State) : Nat → State × List Byte
  | 0 => (s, [])
  | n + 1 =>
    let (v, s) := s.free
    let (s, l) := State.freeBytes s n
    (s, v.truncate 8 :: l)

/-! ## The port timeout (R431, R439) -/

/-- Bytes of the fabric control block, at physical address 0 of die 0 (R431). -/
def State.fcb (s : State) (off n : Nat) : Nat := natLE (s.peek off n)

/-- Whether the device accepts the control block's version (R12, R431). -/
def State.fcbOk (s : State) : Bool := versionOk (BitVec.ofNat 8 (s.fcb 0 1))

/-- The port timeout in ns: PTO, or 100 µs when it is 0 or absent. -/
def State.portTimeout (s : State) : Nat :=
  let v := s.fcb 4 4
  if !s.fcbOk ∨ v = 0 ∨ 1000000 < v then 100000 else v * 1000

/-- The codes that the home of another device may answer a read with (R441). -/
def farCodes : List FaultCode := [.prot, .accState, .lineLost, .eccUncorr]

/-- A read of another device's memory that a wave-scoped instruction makes as a whole (log entry 78): without a route, or when the free
outcome says so, no answer comes within the port timeout (R429, R439); the home may refuse it (R441); or its bytes come, which are free. -/
def State.farRead (s : State) (g n : Nat) : State × Except FaultCode (List Byte) :=
  let late := fun s : State => ({ s with time := s.time + s.portTimeout }, Except.error FaultCode.remoteTimeout)
  if !s.hasRoute (devOf g) then late s
  else
    let (v, s) := s.free
    if v.toNat % 8 = 7 then late s
    else if v.toNat % 8 = 6 then (s, .error (farCodes.getD (v.toNat / 8 % 4) .prot))
    else let (s, l) := s.freeBytes n; (s, .ok l)

/-- A read by the device for a core, at a fabric-global address, of bytes of one line: the bytes, or a fault of the line. A
stalagmite line is ACC_STATE (R249; for the record of a RECLD no rule says so, log entry 79). -/
def State.readGlobal (s : State) (core a n : Nat) : State × Except FaultCode (List Byte) :=
  if devOf a != s.ownDev then s.farRead a n
  else if s.inWindow (localOf a) then (s, .error .accState)
  else
    match s.lineFault (localOf a) with
    | some f => (s, .error f)
    | none => (s, .ok (s.dieView core (localOf a) n))

/-- The pieces of a byte range that lie in single lines: first address and length. -/
def linePieces : Nat → Nat → Nat → List (Nat × Nat)
  | 0, _, _ => []
  | fuel + 1, a, n =>
    if n = 0 then []
    else
      let k := Nat.min n (64 - a % 64)
      (a, k) :: linePieces fuel (a + k) (n - k)

/-! ## What a read depends on (R270, R275, R276) -/

/-- Whether a write has still to be performed (R263). -/
def State.unperformed (s : State) (i : Nat) : Bool := (s.posted.any fun p => p.id == i) || s.rmws.any fun m => m.id == i

/-- The fabric-global address of a posted write. -/
def State.globalOf (s : State) (p : Posted) : Nat := if p.remote then p.pa else s.ownDev * 2 ^ 43 + p.pa

/-- The posted writes that a read of `n` bytes at a fabric-global address by a core reads from, those below identity `lim`. A bundle-bound
read takes those of its die's overlays too (R421). -/
def State.readSources (s : State) (core g n : Nat) (lim : Option Nat) (bound : Bool) : List Posted :=
  s.posted.filter fun p =>
    ((p.core == core && !s.gated p.team p.wave p.id) ||
      (bound && s.overlays.any fun o => o.posted == p.id && o.die == dieOf core)) &&
    overlap (s.globalOf p) p.bytes.length g n && (lim.map fun k => decide (p.id < k)).getD true

/-- What a reader takes over from the write that it has read, at its next FENCE (R270): what a write of its own core carries, and of
another core's write what was on its way to another device, since only that can be unperformed after a FENCE that the reader shares. -/
def State.carriedTo (s : State) (core g n : Nat) (src : List Posted) : List Nat :=
  (src.flatMap (·.carries) ++ (s.past.filter fun x => overlap x.addr x.size g n).flatMap fun x =>
    if x.core = core then x.carries else x.carries.filter fun i => s.posted.any fun p => p.id == i && p.remote).filter s.unperformed

/-- A wave's dependences after a read that fills registers `regs`. -/
def Deps.read (d : Deps) (keep : Nat → Bool) (ids carries regs : List Nat) : Deps :=
  { d with
    readFrom := unionIds (d.readFrom.filter keep) ids
    carried := unionIds (d.carried.filter keep) carries
    regs := (if ids.isEmpty then [] else regs.map (·, ids)) ++ d.regs.filter fun p => p.2.any keep }

/-- A read of `n` bytes at a fabric-global address has been made by a wave of a team, into registers `regs`. -/
def State.noteRead (s : State) (t : Team) (w : Nat) (regs : List Nat) (g n : Nat) (lim : Option Nat := none) (bound : Bool := false) : State :=
  let src := s.readSources t.core g n lim bound
  let carries := s.carriedTo t.core g n src
  if src.isEmpty && carries.isEmpty then s
  else s.updAny t.id w fun v => { v with deps := v.deps.read s.unperformed (src.map (·.id)) carries regs }

/-- A read of a record at a virtual address by a wave-scoped instruction or for it (R102): piece by piece; the first fault, with
its address, decides. -/
def State.readPieces (t : Team) (w : Nat) : List (Nat × Nat) → State → State × Except (FaultCode × Nat) (List Byte)
  | [], s => (s, .ok [])
  | (a, n) :: l, s =>
    match s.translateFor t a .read with
    | (s, .error f) => (s, .error (f, a))
    | (s, .ok g) =>
      match s.readGlobal t.core g n with
      | (s, .error f) => (s, .error (f, a))
      | (s, .ok b) =>
        match State.readPieces t w l (s.noteRead t w [] g n) with
        | (s, .error f) => (s, .error f)
        | (s, .ok bs) => (s, .ok (b ++ bs))

/-- A read of `n` bytes at a virtual address for a wave of a team. -/
def State.readVirtual (s : State) (t : Team) (w va n : Nat) : State × Except (FaultCode × Nat) (List Byte) :=
  State.readPieces t w (linePieces (n / 64 + 2) va n) s

/-- Bytes of a line of another device as the bundle carve of a core's die holds them, with the core's own posted writes (R243). -/
def State.residentView (s : State) (core g n : Nat) : List Byte :=
  let held := (s.bundleCopies.find? fun c => c.holder == dieOf core && c.line == lineOf g).map fun c => sliceBytes c.data (g - lineOf g) n
  overlaid (s.posted.filter fun p => p.core == core && p.remote && !p.applied && !s.gated p.team p.wave p.id) g
    (held.getD (List.replicate n 0))

/-- A store of a die to a line of another device: the die's own scoped copy is updated, the other dies' copies of the line are
dropped (R425). -/
def State.scopedStore (s : State) (die a : Nat) (bs : List (Option Byte)) : List LineCopy :=
  (s.scopedCopies.filter fun c => c.holder == die || c.line != lineOf a).map fun c => if c.holder = die then c.patch a bs else c

/-- The writes that the loads which filled some registers have read from (R276). -/
def Deps.ofRegs (d : Deps) (regs : List Nat) : List Nat := (d.regs.filter fun p => regs.contains p.1).foldl (fun l p => unionIds l p.2) []

/-- The physical registers that some words read, at a window base. -/
def Wave.readRegs (w : Wave) (winb : Nat) (ws : List Instr) : List Nat :=
  (ws.flatMap fun i => Instr.sources w.esz i).flatMap fun (f, k) => if f.toNat < 120 then (List.range k).map (winb + f.toNat + ·) else []

/-- The unperformed writes on which a write of a wave's run depends: its words read what a load of them has filled, or a JR or LOOP before it
has (R276). -/
def Wave.runDeps (w : Wave) : List Nat :=
  match w.run with
  | none => []
  | some r => unionIds w.deps.ctrl (w.deps.ofRegs (w.readRegs r.winb r.words))

/-- What a write of a wave carries and waits for: what a FENCE of the wave has ordered before it and is unperformed (R270), and what its
run depends on (R276). An engine's writes belong to no wave. -/
def State.writeDeps (s : State) (team wave : Nat) : List Nat × List Nat :=
  match s.wave? team wave with
  | none => ([], [])
  | some w => (w.deps.fenced.filter s.unperformed, w.runDeps.filter s.unperformed)

/-- Post a write of bytes of one line, under an identity: the core reads it from now on, unless a FENCE, an ACQ or a tag holds it back, and
it waits for its home (R226, R263). -/
def State.postAs (s : State) (id : Nat) (t : Team) (w : Nat) (a : Nat) (bs : List (Option Byte)) (va : DWord) (bound shared : Bool) : State :=
  let remote := devOf a != s.ownDev
  let pa := if remote then a else localOf a
  let (carries, after) := s.writeDeps t.id w
  let p : Posted :=
    { id := id, team := t.id, wave := w, core := t.core, pa := pa, bytes := bs, remote := remote, bound := bound,
      applied := false, acks := [], noneHeld := [], dropped := [], shared := shared, va := va, carries := carries, after := after }
  let far := bound && !remote && dieOf t.core != homeDie pa
  { s with posted := s.posted ++ [p],
           overlays := if far then s.overlays ++ [{ die := dieOf t.core, posted := id, pa := pa, bytes := bs }] else s.overlays }

/-- Post a write under a new identity. -/
def State.post (s : State) (t : Team) (w : Nat) (a : Nat) (bs : List (Option Byte)) (va : DWord) (bound shared : Bool) : State :=
  let (id, s) := s.fresh
  s.postAs id t w a bs va bound shared

/-- A lane store: a DUAL copy keeps it in its buffer until a compare point (R393), every other team posts it. -/
def State.storeOut (s : State) (t : Team) (w : Nat) (a : Nat) (bs : List (Option Byte)) (va : DWord) (bound shared : Bool) : State :=
  if t.dual.isSome then
    let (id, s) := s.fresh
    s.updBoth t.id fun u => { u with dual := u.dual.map fun d => { d with stream := d.stream ++ [{ id := id, va := va, pa := a, bytes := bs }] } }
  else s.post t w a bs va bound shared

/-- Bytes that a team reads, with the stores that its DUAL buffer holds (R393); `a` is fabric-global. -/
def Team.dualView (t : Team) (a : Nat) (bs : List Byte) : List Byte :=
  ((t.dual.map (·.stream)).getD []).foldl (fun b x => patchBytes a b x.pa x.bytes) bs

/-- Extend: an element as a register or pair receives it (R99). -/
def extendElem (f : Fmt) (bs : List Byte) : DWord :=
  let n := natLE bs
  match f with
  | .s8 => zext64 (sext32 (BitVec.ofNat 8 n))
  | .s16 => zext64 (sext32 (BitVec.ofNat 16 n))
  | _ => BitVec.ofNat 64 n

/-- An outstanding load of a wave reads some bytes now, unless it waits for what goes before it (R272, R281). -/
def State.readNow (s : State) (t : Team) (w : Wave) (seq pa n : Nat) (i : LoadItem) : LoadItem :=
  match i.src with
  | .memory p f h =>
    if overlap p (Fmt.size f) pa n && (s.lineFault p).isNone && !s.inWindow p && !w.gates seq && (s.rmwsBefore t.id w seq p (Fmt.size f)).isEmpty then
      { i with src := .value (extendElem f (t.dualView (s.ownDev * 2 ^ 43 + p) (s.laneView t.core (h == .byp) p (Fmt.size f)))) }
    else i
  | _ => i

/-- The wave's outstanding loads of some bytes read them before an access of the wave that follows: no read of a wave returns what a later
access of it writes, or a newer value than a later read of it does (R101, R272). -/
def State.readFirst (s : State) (t : Team) (w pa n : Nat) : State :=
  s.updAny t.id w fun v => { v with loads := v.loads.map fun l => { l with items := l.items.map (s.readNow t v l.seq pa n) } }

/-- Whether a team's requests reach the outside: the secondary of a DUAL pair performs none (R393). -/
def Team.performs (t : Team) : Bool := (t.dual.map (·.primary)).getD true

/-- Whether a DUAL primary's secondary has still to pass the compare point that the primary has left: the result of the request waits
until both can receive it (R393). -/
def State.secondaryLags (s : State) (t : Nat) : Bool :=
  match (s.team? t).bind (·.dual) with
  | some d => d.primary && (((s.team? d.peer).bind (·.dual)).map (·.passed)).getD false
  | none => false

/-- Whether a virtual address lies in a shared range that satisfies a test (R168, R195, R264). -/
def Region.inShared (r : Region) (ok : SharedRange → Bool) (va : Nat) : Bool :=
  r.shr.any fun x => ok x && x.len != 0 && decide (x.base.toNat ≤ va ∧ va < x.base.toNat + x.len.toNat)

/-- Whether some bytes meet a shared range (R195, R355). -/
def Region.meetsShared (r : Region) (va n : Nat) : Bool :=
  r.shr.any fun x => x.len != 0 && decide (x.base.toNat < va + n ∧ va < x.base.toNat + x.len.toNat)

/-- Whether an access of a team of an ordered launch lies in a shared range, so that it is a lantern operation (R195). -/
def State.sharedAccess (s : State) (t : Team) (va : Nat) : Bool :=
  match s.launchOf t with
  | none => false
  | some l => l.region.ord && l.region.inShared (fun _ => true) va

/-- A read of another device that is under way when the scoped copies of its line are dropped leaves no copy behind (R263, R425). -/
def LoadItem.noCopy (p : Nat → Bool) (i : LoadItem) : LoadItem :=
  match i.src with
  | .remote a f _ (some n) => if p (lineOf a.toNat) then { i with src := .remote a f .byp (some n) } else i
  | _ => i

/-- The same for every load of a die's teams. -/
def Team.noCopy (die : Nat) (p : Nat → Bool) (t : Team) : Team :=
  if dieOf t.core ≠ die then t
  else { t with waves := t.waves.map fun (w : Wave) =>
    { w with loads := w.loads.map fun (l : Load) => { l with items := l.items.map (LoadItem.noCopy p) } } }

/-- Copies dropped by an acquire or a fence at a scope level, of the lines whose fabric-global address satisfies `p` (R263): the L1 copies of the core
from .die on, and the scoped copies of its die beyond the device. -/
def State.dropCopies (s : State) (core level : Nat) (p : Nat → Bool) : State :=
  { s with
    teams := if level ≤ 2 then s.teams else s.teams.map (Team.noCopy (dieOf core) p)
    l1 := if level = 0 then s.l1 else s.l1.filter fun c => !(c.holder == core && p (s.ownDev * 2 ^ 43 + c.line))
    scopedCopies := if level ≤ 2 then s.scopedCopies else s.scopedCopies.filter fun c => !(c.holder == dieOf core && p c.line) }

/-- The result of a wave-scoped read that faults: the whole entry is parked in the manner of R182, with its PC at the next run,
and the instruction is repeated on resume (R367); `sup` says whether the supervisor resolves it first (R376). On a supervisor core it traps; in runahead mode runahead has ended. -/
def State.parkAtTrailer (s : State) (c : Issue) (r₀ : Redo) (f : FaultCode) (lane : Nat) (va : Nat) (sup : Bool) : State :=
  if c.team.isSup then s.raise c { code := f, lane := lane, addr := some (BitVec.ofNat 64 va) }
  else
    let (id, s) := s.fresh
    let info : FaultInfo := { code := f, lane := lane, addr := some (BitVec.ofNat 64 va), pc := c.pc }
    let r := s.faultReport c.team c.wave.idx info sup false id
    let s := s.addReport r
    let s := if f = .eccUncorr then s.deviceCopy r (s.lineAt c.team va .read) else s
    s.updRun fun r =>
      { r with parkedMask := r.mask, parks := r.parks ++ [(r.mask, ⟨f, id, .whole r₀⟩)] }

/-- Whether a fault of a read is delivered in the manner of R182 (R367): the access, not an execution check, has failed. -/
def FaultCode.ofAccess : FaultCode → Bool
  | .page | .prot | .lineLost | .eccUncorr | .remoteTimeout => true
  | _ => false

/-- Whether an instruction raises the code of a Failed bundle instance, whose PAGE the supervisor has already left unresolved (R241,
R302). -/
def Instr.ofInstances : Instr → Bool
  | .bwait _ _ _ => true
  | _ => false

/-- A wave-scoped instruction that may read memory (R74, R367): `f` acts on the operands of the lowest active lane and the
state after the issue. A failed access to memory parks the whole entry at the trailer; any other fault parks it at the instruction. -/
def memWaveOp (i : Instr) (f : Issue → LaneCtx → State → State × Except (FaultCode × Option Nat × Word) Unit) (s : State) :
    Host.Outcome State Fault Refusal :=
  issue i s fun c =>
    let cost := c.cost i 1
    match c.lowest with
    | none => s.advance c cost
    | some l =>
      match f c (c.ctx cost l) (s.advance c cost) with
      | (s', .ok ()) => s'
      | (s', .error (e, va, aux)) =>
        if FaultCode.ofAccess e && !(e == .eccUncorr && va.isNone) then s'.parkAtTrailer c (c.redo i cost [l]) e l (va.getD 0) (e == .page && !Instr.ofInstances i)
        else s.raise c { code := e, lane := l, addr := va.map (BitVec.ofNat 64), aux := aux }

/-- A variable-latency result of every active lane of the current run, that waits for `src` (R37): registers from physical
index `d` on. -/
def State.addLoad (s : State) (c : Issue) (d : Option Nat) (pair : Bool) (src : Nat → LoadSrc)
    (whole : Option Redo) : Nat × State :=
  let (seq, s) := s.fresh
  let items := c.lanes.map fun l => ({ lane := l, dst := d, pair := pair, src := src l, va := 0 } : LoadItem)
  (seq, s.updCur fun w => { w with loads := w.loads ++ [{ seq := seq, items := items, pc := c.pc, whole := whole }] })

/-- The physical register of a destination field, none for gz. -/
def Issue.phys (c : Issue) (d : Reg) : Option Nat := if d.toNat < 120 then some (c.run.winb + d.toNat) else none

/-- A status that every active lane receives when it arrives (R292, R399). -/
def State.statusLoad (s : State) (c : Issue) (d : Reg) (v : Word) : State :=
  (s.addLoad c (c.phys d) false (fun _ => .value (zext64 v)) none).2

/-- The same for a status on which an ordered wave's wait ends its turn: of BENTER, BWAIT, SUMPW and SUMPX (R293, R355). -/
def State.turnStatus (s : State) (c : Issue) (d : Reg) (v : Word) : State :=
  (s.addLoad c (c.phys d) false (fun _ => .status (zext64 v)) none).2

end Sys2Proof.Machine
end

