-- ==== Sys2Proof/Machine/Bundles.lean ====
section
/-!
DEFINITION. Bundles: descriptors and handles (R234, R235, R299), instances and their limits (R236, R237), admission (R238 to
R240), bound accesses (R243), release (R245), and BDECL, BENTER, BWAIT, BLEAVE, BDROP (R300 to R304).
-/

namespace Sys2Proof.Machine

/-! ## Descriptors and handles -/

/-- Most lines of a bundle: 8 MiB (R235). -/
def maxBundleLines : Nat := 131072

/-- Sorted spans (first line, count) joined where they touch or overlap; the first is `cur`. -/
def joinSpans (cur : Nat × Nat) : List (Nat × Nat) → List (Nat × Nat)
  | [] => [cur]
  | x :: l =>
    if x.1 ≤ cur.1 + cur.2 then joinSpans (cur.1, Nat.max cur.2 (x.1 + x.2 - cur.1)) l else cur :: joinSpans x l

/-- The distinct virtual lines of extents, as disjoint spans (R234). -/
def spansOf (es : List Extent) : List (Nat × Nat) :=
  match sortBy (fun a b => decide (a.1 ≤ b.1)) (es.map fun e => (e.base / 64, e.len / 64)) with
  | [] => []
  | x :: l => joinSpans x l

/-- Number of distinct lines of extents. -/
def lineCount (es : List Extent) : Nat := ((spansOf es).map (·.2)).sum

/-- The distinct virtual lines of extents, in ascending order. -/
def linesOf (es : List Extent) : List Nat := (spansOf es).flatMap fun (a, n) => (List.range n).map (a + ·)

/-- Extent `i` of a descriptor, when it is well formed (R234). -/
def extentAt (b : List Byte) (minor0 : Bool) (i : Nat) : Option Extent :=
  let base := fieldLE b (16 + 16 * i) 8
  let len := fieldLE b (24 + 16 * i) 4
  if base % 64 = 0 ∧ base < 2 ^ 56 ∧ len ≠ 0 ∧ len % 64 = 0 ∧ base + len ≤ 2 ^ 56 ∧ (!minor0 || zeroBytes b (28 + 16 * i) 4) then
    some { base := base, len := len }
  else none

/-- All elements of a list of options, when none is missing. -/
def allSome {α : Type} : List (Option α) → Option (List α)
  | [] => some []
  | none :: _ => none
  | some a :: l => (allSome l).map (a :: ·)

/-- The extents of a descriptor, or the fault of R235. -/
def descriptorOf (b : List Byte) : Except FaultCode (List Extent) :=
  let v := b.getD 0 0
  let n := fieldLE b 1 1
  if !versionOk v then .error .version
  else if n < 1 || 16 < n || (minorZero v && !zeroBytes b 2 14) then .error .illegal
  else
    match allSome ((List.range n).map (extentAt b (minorZero v))) with
    | none => .error .illegal
    | some es => if maxBundleLines < lineCount es then .error .illegal else .ok es

/-- The handle of a declaration (R235). -/
def Decl.handle (d : Decl) (part : Nat) : Word := BitVec.ofNat 32 (part * 2 ^ 28 + d.gen * 2 ^ 10 + d.idx)

/-- The declaration that a valid handle names, for a partition (R235, R299). -/
def State.declOf (s : State) (part : Nat) (h : Word) : Option Decl :=
  if bitsOf h.toNat 10 18 = 0 ∨ bitsOf h.toNat 28 4 ≠ part then none
  else (s.part part).decls.find? fun d => d.live && d.idx == bitsOf h.toNat 0 10 && d.gen == bitsOf h.toNat 10 18

/-- The next generation of a table entry (R299). -/
def nextGen (g : Nat) : Nat := if g + 1 < 2 ^ 18 then g + 1 else 1

/-- The lowest free entry of a declaration table (R235). -/
def freeDecl (ds : List Decl) : Option Nat :=
  (List.range 1024).find? fun i => !(ds.any fun d => d.live && d.idx == i)

/-! ## Holders, instances and limits -/

/-- Whether an instance is complete: every line is placed (R241). -/
def BInst.complete (b : BInst) : Bool := b.failure.isNone && b.lines.all fun l => l.2.isSome

/-- Whether an instance may gain entries: it is the bundle's live one (R236, R245). -/
def BInst.live (b : BInst) : Bool := b.st == .filling || b.st == .entered || b.st == .unentered

/-- Whether a team, itself or through its launch, is a holder (R236). -/
def Holder.isFor (t : Team) : Holder → Bool
  | .team i => i == t.id
  | .launch i => t.launch == some i

/-- Whether a team holds an entry in an instance. -/
def BInst.heldBy (b : BInst) (t : Team) : Bool := b.entries.any (Holder.isFor t)

/-- The instance of a bundle on a die in which a team holds an entry (R243, R245). -/
def State.heldInst (s : State) (t : Team) (part : Nat) (h : Word) : Option BInst :=
  s.insts.find? fun b => b.part == part && b.handle == h && b.die == dieOf t.core && b.heldBy t

/-- The live instance of a bundle on a die, or its failed one (R301). -/
def State.liveInst (s : State) (part die : Nat) (h : Word) : Option BInst :=
  s.insts.find? fun b => b.part == part && b.handle == h && b.die == die && b.st != .orphaned

/-- The launch of a holder. -/
def State.holderLaunch (s : State) : Holder → Option Launch
  | .team i => ((s.teams ++ s.saved).find? fun t => t.id == i).bind s.launchOf
  | .launch i => s.launch? i

/-- h(x): the L2 slice of a line (R230). -/
def sliceOf (x : Nat) : Nat :=
  ((List.range 6).map fun j =>
    (if ((List.range 7).countP fun k => (x.testBit (6 + j + 6 * k)) && decide (6 + j + 6 * k ≤ 42)) % 2 = 1 then 2 ^ j else 0)).sum

/-- What a line counts as: orphaned instances keep lines of their own (R245). -/
def BInst.keys (b : BInst) : List (Nat × Nat) := b.lines.map fun l => (if b.st = .orphaned then b.id + 1 else 0, l.1)

/-- The distinct lines that a partition holds on a die (R237). -/
def State.partLines (s : State) (part die : Nat) (new : List Nat) : Nat :=
  (distinct ((s.insts.filter fun b => b.part == part && b.die == die).flatMap BInst.keys ++ new.map fun l => (0, l))).length

/-- The bundle budget of a partition on a die (R237, R408). -/
def State.bundleBudget (s : State) (part die : Nat) : Nat := ((s.part part).pbud.getD die 0).toNat

/-- The lines of each slice's bundle carve on a die (R237, R408). -/
def State.sliceRoom (s : State) (die : Nat) : Nat := bitsOf (s.carves.getD die 0).toNat 8 5 * 1024

/-- The fabric-global address from which a virtual line of a partition would be filled now, when its translation exists (R241). -/
def State.lineTarget (s : State) (asid vline : Nat) : Option Nat :=
  match s.walk asid (vline * 64) with
  | .ok l => some ((l.pa + vline * 64 % 2 ^ l.log) % 2 ^ 52)
  | .error _ => none

/-- Lines of each of the 64 slices that a list of physical lines takes. -/
def perSlice (ls : List Nat) : List Nat := (List.range 64).map fun j => ls.countP fun x => sliceOf x == j

/-- The address space of an instance's lines: its creator's launch's, else its partition's (R376). -/
def State.instAsid (s : State) (b : BInst) : Nat :=
  match s.holderLaunch b.creator with
  | some l => l.asid
  | none => bitsOf (s.part b.part).pasid.toNat 0 12

/-- The physical lines that an instance keeps residency slots for: the lines placed, and while its fill goes on those that it will
place (R242). -/
def State.slotsOf (s : State) (b : BInst) : List Nat :=
  b.lines.filterMap fun l => l.2 <|> if b.failure.isNone then s.lineTarget (s.instAsid b) l.1 else none

/-- The physical lines resident on a die for bundles, each once, with the slots reserved and with those that new lines would add (R236, R237,
R242). -/
def State.dieLines (s : State) (die asid : Nat) (new : List Nat) : List Nat :=
  distinct ((s.insts.filter fun b => b.die == die).flatMap s.slotsOf ++ new.filterMap (s.lineTarget asid))

/-- Distinct lines, summed over dies, of the instances entered by the subtree of a block, once it has entered those of a request's lines on
a die (R170, R237). -/
def State.subtreeLines (s : State) (block : DWord) (die : Nat) (lines : List Nat) : Nat :=
  let mine := s.insts.filter fun b => b.entries.any fun h =>
    ((s.holderLaunch h).map fun l => l.region.budgets.any fun g => g.block == block).getD false
  ((List.range 4).map fun d =>
    (distinct ((mine.filter fun b => b.die == d).flatMap BInst.keys ++ (if d = die then lines.map fun l => (0, l) else []))).length).sum

/-- The distinct virtual lines of bundles. -/
def State.linesOfAll (s : State) (part : Nat) (hs : List Word) : List Nat :=
  distinct (hs.flatMap fun h => ((s.declOf part h).map fun d => linesOf d.extents).getD [])

/-- The virtual lines that a request would add to a die: those of its bundles that no live instance of the partition holds
there (R238). -/
def State.newLines (s : State) (part die : Nat) (hs : List Word) : List Nat :=
  let have_ := (s.insts.filter fun b => b.part == part && b.die == die && b.live).flatMap fun b => b.lines.map (·.1)
  (s.linesOfAll part hs).filter fun l => !have_.contains l

/-- The limits of R237 for a request: each count with its bound. The slice limits come last. -/
def State.limits (s : State) (part die : Nat) (l : Option Launch) (hs : List Word) : List (Nat × Nat) :=
  let new := s.newLines part die hs
  (s.partLines part die new, s.bundleBudget part die) ::
  ((l.map (·.region.budgets)).getD []).map (fun g => (s.subtreeLines g.block die (s.linesOfAll part hs), g.blines)) ++
  (perSlice (s.dieLines die ((l.map (·.asid)).getD 0) new)).map fun n => (n, s.sliceRoom die)

/-- Whether a request fits (R238). -/
def fitsIn (ls : List (Nat × Nat)) : Bool := ls.all fun p => decide (p.1 ≤ p.2)

/-- Copies of other devices' lines that no instance of their die holds any more are freed (R236, R245). -/
def State.trimCopies (s : State) : State :=
  { s with bundleCopies := s.bundleCopies.filter fun c => s.insts.any fun b => b.die == c.holder && b.lines.any fun l => l.2 == some c.line }

/-- An instance is gone, and its lines with it, but for those that another holds (R236, R245). -/
def State.dropInst (s : State) (i : Nat) : State := ({ s with insts := s.insts.filter fun x => x.id != i } : State).trimCopies

/-- Evict instances in the order given until the request fits; none when it never does (R238). What the request would add is counted anew
after each eviction. -/
def State.evictFor (part die : Nat) (l : Option Launch) (hs : List Word) : List BInst → State → Option State
  | [], s => if fitsIn (s.limits part die l hs) then some s else none
  | b :: bs, s =>
    let now := s.limits part die l hs
    if fitsIn now then some s
    else
      let s' := s.dropInst b.id
      let helps := (now.zip (s'.limits part die l hs)).any fun (x, y) => decide (x.2 < x.1 ∧ y.1 < x.1)
      State.evictFor part die l hs bs (if helps then s' else s)

/-- The state in which a request fits, with the instances evicted that it needs, or none (R238). -/
def State.tryFit (s : State) (part die : Nat) (holder : Holder) (hs : List Word) : Option State :=
  let cands := sortBy (fun a b => decide (a.leftAt ≤ b.leftAt))
    (s.insts.filter fun b => b.die == die && b.st == .unentered && !(b.part == part && hs.contains b.handle))
  s.evictFor part die (s.holderLaunch holder) hs cands

/-- A new instance in state Filling: lines that a live instance of the partition already holds there are placed at once
(R238, R241). -/
def State.newInst (s : State) (part die : Nat) (holder : Holder) (wave : Nat) (h : Word) : State :=
  match s.declOf part h with
  | none => s
  | some d =>
    let placed := (s.insts.filter fun b => b.part == part && b.die == die && b.live).flatMap (·.lines)
    let (id, s) := s.fresh
    let ls := (linesOf d.extents).map fun v => (v, (placed.find? fun p => p.1 == v && p.2.isSome).bind (·.2))
    { s with insts := s.insts ++ [{
        id := id, part := part, handle := h, die := die, st := if ls.all (·.2.isSome) then .entered else .filling,
        entries := [holder], lines := ls, leftAt := 0, failure := none, creator := holder, wave := wave, pageWait := none }] }

/-- Admission: every named bundle's live instance gains the holder's entry, or is created (R238, R245). -/
def State.grant (s : State) (part die : Nat) (holder : Holder) (wave : Nat) (hs : List Word) : State :=
  hs.foldl (fun s h =>
    if s.insts.any fun b => b.part == part && b.handle == h && b.die == die && b.live then
      { s with insts := s.insts.map fun b =>
          if b.part == part && b.handle == h && b.die == die && b.live then
            { b with entries := if b.entries.contains holder then b.entries else b.entries ++ [holder],
                     leaving := b.leaving.filter fun x => x.1 != holder, st := if b.st = .unentered then .entered else b.st }
          else b }
    else s.newInst part die holder wave h) s

/-- The frame records of an instance or ring (R378): KIND 1 when it is orphaned, KIND 2 when it lets go. They name its die, and the
bundle handle or the ring number (R372). -/
def State.frameRecord (s : State) (part die kind first frames : Nat) (aux : Word) : State :=
  let (id, s) := s.fresh
  s.addReport { Report.blank id (some part) kind 0 with
    die := die, aux := aux, flg := reportFlg false true false false false, addr := BitVec.ofNat 64 first, aux2 := BitVec.ofNat 64 frames }

/-- The first 64 KiB frame of physical lines, and their number of frames (R372, R378). -/
def framesOf (ls : List Nat) : Nat × Nat :=
  let fs := distinct (ls.map (· / 65536))
  ((fs.foldl Nat.min (fs.head?.getD 0)) * 65536, fs.length)

/-- Where the placed lines of an instance lie: local addresses, but for the lines of another device. -/
def State.linesAt (s : State) (b : BInst) : List Nat :=
  (b.lines.filterMap (·.2)).map fun g => if devOf g = s.ownDev then localOf g else g

/-- An instance after entries have been released (R245): without entries an Entered one becomes Unentered, a Failed one goes,
and an Orphaned one goes once its fill has finished, and the supervisor is told (R378). -/
def State.releaseInst (s : State) (b : BInst) : State :=
  if !b.entries.isEmpty then { s with insts := s.insts.map fun x => if x.id = b.id then b else x }
  else
    match b.st with
    | .filling => { s with insts := s.insts.map fun x => if x.id = b.id then { b with leftAt := s.time } else x }
    | .entered | .unentered =>
      { s with insts := s.insts.map fun x => if x.id = b.id then { b with st := .unentered, leftAt := s.time } else x }
    | .failed => s.dropInst b.id
    | .orphaned =>
      if b.failure.isSome || b.lines.all (·.2.isSome) then
        let (a, n) := framesOf (s.linesAt b)
        (s.dropInst b.id).frameRecord b.part b.die 2 a n b.handle
      else { s with insts := s.insts.map fun x => if x.id = b.id then b else x }

/-- A line of an instance's fill has failed (R241, R245). -/
def State.failInst (s : State) (b : BInst) (f : FaultCode × DWord) : State :=
  s.releaseInst { b with pageWait := none, failure := some (b.failure.getD f), st := if b.st = .orphaned then .orphaned else .failed }

/-- Release a holder's entries in the instances that satisfy `p` (R245). -/
def State.releaseHolder (s : State) (h : Holder) (p : BInst → Bool) : State :=
  (s.insts.filter fun b => b.entries.contains h && p b).foldl (fun s b =>
    s.releaseInst { b with entries := b.entries.filter (· != h), leaving := b.leaving.filter fun x => x.1 != h }) s

/-- Release the entries whose BLEAVE takes effect now: the wave's earlier bound writes have been performed (R303). -/
def State.settleLeaves (s : State) : State :=
  (s.insts.filter fun b => b.leaving.any fun x => s.performed x.2).foldl (fun s b =>
    let gone := (b.leaving.filter fun x => s.performed x.2).map (·.1)
    s.releaseInst { b with entries := b.entries.filter fun h => !gone.contains h, leaving := b.leaving.filter fun x => !gone.contains x.1 }) s

/-! ## Bound accesses (R243) -/

/-- A lane's bound access: the fabric-global address that the team's instance holds for its virtual address, or the fault. -/
def State.boundTarget (s : State) (t : Team) (r : BufRec) (va : Nat) : Except FaultCode Nat :=
  let part := s.partOf t
  match s.declOf part r.bhandle with
  | none => .error .illegal
  | some _ =>
    match s.heldInst t part r.bhandle with
    | none => .error .bundleEscape
    | some b =>
      match b.failure with
      | some f => .error f.1
      | none =>
        if !b.complete then .error .bundleEscape
        else
          match (b.lines.find? fun l => l.1 == va / 64).bind (·.2) with
          | none => .error .bundleEscape
          | some p => .ok (p + va % 64)

/-- The code of the Failed instance that a bound record names (R243). -/
def State.boundFailure (s : State) (t : Team) (r : BufRec) : Option FaultCode :=
  ((s.heldInst t (s.partOf t) r.bhandle).bind (·.failure)).map (·.1)

/-- Whether a bound record's handle is valid for a team, whatever the lanes do (R243). -/
def State.boundOk (s : State) (t : Team) (r : BufRec) : Bool := (s.declOf (s.partOf t) r.bhandle).isSome

/-! ## BDECL, BENTER, BWAIT, BLEAVE, BDROP -/

/-- BDECL (R300): the descriptor is read and checked, then recorded; D receives the handle, or FULL. -/
def execBdecl (d a : Reg) (s : State) : Host.Outcome State Fault Refusal :=
  memWaveOp (.bdecl d a) (fun c x s =>
    let va := (x.pair a).toNat
    if va % 16 ≠ 0 then (s, .error (.align, some va, 0))
    else
      match s.readVirtual c.team c.wave.idx va 16 with
      | (s, .error (f, b)) => (s, .error (f, some b, 0))
      | (s, .ok head) =>
        if !versionOk (head.getD 0 0) then (s, .error (.version, some va, 0))
        else
          let n := fieldLE head 1 1
          if n < 1 ∨ 16 < n then (s, .error (.illegal, some va, 0))
          else
            match s.readVirtual c.team c.wave.idx va (16 + 16 * n) with
            | (s, .error (f, b)) => (s, .error (f, some b, 0))
            | (s, .ok bs) =>
              match descriptorOf bs with
              | .error f => (s, .error (f, some va, 0))
              | .ok es =>
                let part := s.partOf c.team
                let most := (List.range 4).foldl (fun m i => Nat.max m (s.bundleBudget part i)) 0
                if most < lineCount es then (s, .error (.bundleTooBig, some va, 0))
                else
                  match freeDecl (s.part part).decls with
                  | none => (s.statusLoad c d 4, .ok ())
                  | some i =>
                    let gen := (((s.part part).decls.find? fun e => e.idx == i).map (·.gen)).getD 1
                    let e : Decl := { idx := i, gen := gen, live := true, extents := es }
                    let s := s.updPart part fun p => { p with decls := e :: p.decls.filter fun f => f.idx != i }
                    (s.statusLoad c d (e.handle part), .ok ())) s

/-- The bundles of a handle list: its distinct handles, none when the count or a handle is not valid (R299). -/
def State.handleList (s : State) (c : Issue) (x : LaneCtx) (a b : Reg) : Option (List Word) :=
  let n := (x.reg b).toNat
  if n < 1 ∨ 4 < n then none
  else
    let hs := distinct ((List.range n).map fun i => x.grp a i)
    if hs.all fun h => (s.declOf (s.partOf c.team) h).isSome then some hs else none

/-- Lines of a bundle, by its handle. -/
def State.bundleLines (s : State) (part : Nat) (h : Word) : List Nat := ((s.declOf part h).map fun d => linesOf d.extents).getD []

/-- Whether a bundle can never be admitted on a die (R237, R301). -/
def State.tooBig (s : State) (part die asid : Nat) (h : Word) : Bool :=
  let ls := s.bundleLines part h
  decide (s.bundleBudget part die < ls.length) ||
  (perSlice (ls.filterMap (s.lineTarget asid))).any fun n => decide (s.sliceRoom die < n)

/-- Effective rank of a waiting request: priority level (R239). -/
def State.holderPrio (s : State) (h : Holder) : Nat := ((s.holderLaunch h).map (·.region.prio)).getD 0

/-- Whether a request may be admitted at once beside the queue of its die (R240). -/
def State.atOnce (s : State) (part die : Nat) (h : Holder) : Bool :=
  !(s.admissions.any fun q => q.part == part && q.die == die && decide (s.holderPrio h ≤ q.level))

/-- Whether a team, itself or through its launch, holds an entry on any die (R240, R301). -/
def State.holdsAny (s : State) (t : Team) : Bool := s.insts.any (·.heldBy t)

/-- BENTER (R301). An entry that an earlier BLEAVE is about to release is kept: it is left and entered at once. -/
def execBenter (d a b : Reg) (s : State) : Host.Outcome State Fault Refusal :=
  memWaveOp (.benter d a b) (fun c x s =>
    let t := c.team
    let part := s.partOf t
    let die := dieOf t.core
    match s.handleList c x a b with
    | none => (s, .error (.illegal, none, 0))
    | some hs =>
      let stay := fun b : BInst => if b.part = part ∧ b.die = die ∧ hs.contains b.handle then
        { b with leaving := b.leaving.filter fun x => x.1 != Holder.team t.id } else b
      if hs.all fun h => (s.heldInst t part h).isSome then (({ s with insts := s.insts.map stay } : State).turnStatus c d 0, .ok ())
      else
        match hs.find? (s.tooBig part die (s.asidOf t)) with
        | some h => (s, .error (.bundleTooBig, none, h))
        | none =>
          if hs.any fun h => ((s.liveInst part die h).map fun i => i.st == .failed).getD false then (s.turnStatus c d 2, .ok ())
          else
            let holder := Holder.team t.id
            let hs' := hs.filter fun h => (s.heldInst t part h).isNone
            if s.holdsAny t || s.admissions.any fun q => q.die == die && q.holder == holder then
              match if s.atOnce part die holder then s.tryFit part die holder hs' else none with
              | some s' => ((s'.grant part die holder c.wave.idx hs').turnStatus c d 0, .ok ())
              | none => (s.turnStatus c d 1, .ok ())
            else
              let (seq, s) := s.addLoad c (c.phys d) false (fun _ => .admission) none
              let q : Admission := { die := die, part := part, holder := holder, handles := hs, level := s.holderPrio holder,
                                     atTop := 0, since := s.time, reply := some (t.id, c.wave.idx, seq) }
              ({ s with admissions := s.admissions ++ [q] }, .ok ())) s

/-- BWAIT (R302): the status arrives once every listed instance is complete. -/
def execBwait (d a b : Reg) (s : State) : Host.Outcome State Fault Refusal :=
  memWaveOp (.bwait d a b) (fun c x s =>
    let part := s.partOf c.team
    match s.handleList c x a b with
    | none => (s, .error (.illegal, none, 0))
    | some hs =>
      let is := hs.filterMap (s.heldInst c.team part)
      if is.length < hs.length then (s.turnStatus c d 3, .ok ())
      else
        match is.findSome? (·.failure) with
        | some f => (s, .error (f.1, some f.2.toNat, 0))
        | none => ((s.addLoad c (c.phys d) false (fun _ => .fill (is.map (·.id)))
            (some (c.redo (.bwait d a b) (c.cost (.bwait d a b) 1) [x.l]))).2, .ok ())) s

/-- The wave's bound writes that have not been performed; its bound reads have been, since they read at issue (log entry 16). -/
def State.boundPending (s : State) (t : Nat) (w : Nat) : List Nat :=
  (s.posted.filter fun p => p.team == t && p.wave == w && p.bound).map (·.id) ++
    (s.rmws.filter fun m => m.team == t && m.wave == w && m.bound).map (·.id)

/-- BLEAVE (R303): the team's own entries on the die are released, once the wave's earlier bound accesses have been performed. -/
def execBleave (a b : Reg) (s : State) : Host.Outcome State Fault Refusal :=
  memWaveOp (.bleave a b) (fun c x s =>
    match s.handleList c x a b with
    | none => (s, .error (.illegal, none, 0))
    | some hs =>
      let mine := fun i : BInst =>
        i.part == s.partOf c.team && i.die == dieOf c.team.core && hs.contains i.handle && i.entries.contains (.team c.team.id)
      let waits := s.boundPending c.team.id c.wave.idx
      ((({ s with insts := s.insts.map fun i => if mine i then { i with leaving := i.leaving ++ [(.team c.team.id, waits)] } else i } :
        State).settleLeaves), .ok ())) s

/-- BDROP (R304). An Orphaned instance without entries, whose fill goes on, is neither entered nor in state Filling: it stays until its fill
has finished (R245, log entry 82). -/
def execBdrop (d a : Reg) (s : State) : Host.Outcome State Fault Refusal :=
  memWaveOp (.bdrop d a) (fun c x s =>
    let part := s.partOf c.team
    let h := x.reg a
    match s.declOf part h with
    | none => (s, .error (.illegal, none, 0))
    | some e =>
      let mine := s.insts.filter fun i => i.part == part && i.handle == h
      if mine.any fun i => i.st == .filling || !i.entries.isEmpty then (s.statusLoad c d 1, .ok ())
      else
        let s := ({ s with insts := s.insts.filter fun i => !(i.part == part && i.handle == h && i.st != .orphaned) } : State).trimCopies
        let s := s.updPart part fun p =>
          { p with decls := p.decls.map fun f => if f.idx = e.idx then { f with live := false, gen := nextGen f.gen } else f }
        (s.statusLoad c d 0, .ok ())) s

/-- Answer a status that waits for an admission (R301). -/
def State.answerLoad (s : State) (team wave seq : Nat) (v : Word) : State :=
  let f := fun t : Team => if t.id = team then t.updWave wave fun w =>
    { w with loads := w.loads.map fun l => if l.seq = seq then
        { l with items := l.items.map fun i => { i with src := .status (zext64 v) } } else l } else t
  { s with teams := s.teams.map f, saved := s.saved.map f }

/-- The requests of a die's admission queue in rank order (R239). -/
def State.ranked (s : State) (die : Nat) : List Admission :=
  sortBy (fun a b => decide (b.level ≤ a.level)) (s.admissions.filter fun q => q.die == die)

/-- Whether a request is urgent (R239). -/
def Admission.urgent (q : Admission) : Bool := decide (3 ≤ q.level ∧ 4 ≤ q.atTop)

/-- The first request of a die that R239 lets in, with the state in which it fits: requests behind another of their
partition wait, and while one is urgent no other partition's is admitted. -/
def State.pickAdmission (s : State) (urgent : Option Nat) : List Nat → List Admission → Option (Admission × State)
  | _, [] => none
  | seen, q :: l =>
    if seen.contains q.part || (urgent.isSome && urgent != some q.part) then s.pickAdmission urgent (q.part :: seen) l
    else
      match s.tryFit q.part q.die q.holder q.handles with
      | some s' => some (q, s')
      | none => s.pickAdmission urgent (q.part :: seen) l

/-- BUNDLE_ADMISSION (R239): the die admits the first request in rank order that may be admitted and fits. -/
def execBundleAdmission (die : Nat) (s : State) : Host.Outcome State Fault Refusal :=
  let rs := s.ranked die
  match s.pickAdmission ((rs.find? Admission.urgent).map (·.part)) [] rs with
  | none => .next s
  | some (q, s) =>
    let s := { s with admissions := s.admissions.filter (· ≠ q) }
    let s := s.grant q.part q.die q.holder ((q.reply.map fun x => x.2.1).getD 0) q.handles
    let s := match q.reply with
      | some (t, w, l) => s.answerLoad t w l 0
      | none => s
    .next (match q.holder with
      | .launch l => s.updLaunch l fun l => { l with entryDies := die :: l.entryDies }
      | .team _ => s)

end Sys2Proof.Machine
end

