-- ==== Sys2Proof/Machine/Directory.lean ====
section
/-!
DEFINITION. Writes at their home and the directory (R414 to R423): requests, writes, invalidations, pushes, forwarded reads,
write-backs, splits and merges; echo monitors (R252, R253); and lost lines (R423).
-/

namespace Sys2Proof.Machine

/-! ## Entries -/

/-- Bytes of an entry's region (R415). -/
def DirEntry.bytes (e : DirEntry) : Nat := 64 * 2 ^ e.j

/-- Whether an entry covers a line. -/
def DirEntry.covers (e : DirEntry) (line : Nat) : Bool := decide (e.base ≤ line ∧ line < e.base + e.bytes)

/-- The entry that covers a line (R415). -/
def State.dirEntry (s : State) (line : Nat) : Option DirEntry := s.dir.find? (·.covers line)

/-- Replace an entry. -/
def State.setDir (s : State) (e : DirEntry) : State :=
  { s with dir := s.dir.map fun f => if f.base = e.base then e else f }

/-- Whether an entered instance on a die other than the home holds a line (R244, R419). -/
def State.pinned (s : State) (line : Nat) : Bool :=
  s.insts.any fun b => b.die != homeDie line && !b.entries.isEmpty && b.lines.any fun l => l.2 == some (s.ownDev * 2 ^ 43 + line)

/-- Whether writes to the line of an entry are pushed (R244, R418). -/
def State.pushes? (s : State) (e : DirEntry) (line : Nat) : Bool := e.update || s.pinned line

/-- The two halves of an entry (R416). -/
def DirEntry.halves (e : DirEntry) : List DirEntry :=
  if e.j = 0 then [e]
  else [{ e with j := e.j - 1, counter := 0, invalidated := [], readSince := false },
        { e with j := e.j - 1, base := e.base + e.bytes / 2, counter := 0, invalidated := [], readSince := false }]

/-- Split the entries that cover a line down to the line (R418). -/
def splitDown : Nat → Nat → List DirEntry → List DirEntry
  | 0, _, l => l
  | n + 1, line, l => splitDown n line (l.flatMap fun e => if e.covers line then e.halves else [e])

/-- The largest aligned region of at most 64 KiB around a line that overlaps no entry (R415). -/
def State.freeRegion (s : State) (line : Nat) : Nat :=
  let fits := fun j : Nat =>
    let n := 64 * 2 ^ j
    let b := line / n * n
    !(s.dir.any fun e => decide (e.base < b + n ∧ b < e.base + e.bytes))
  (((List.range 11).reverse.find? fits).getD 0)

/-- General entries of a die's home slices together (R419, log entry 17). -/
def generalEntries : Nat := 64 * 16384

/-- Drop the copies of an entry's lines in other dies' L2s (R419). -/
def State.dropRegion (s : State) (e : DirEntry) : State := { s with l2 := s.l2.filter fun c => !e.covers c.line }

/-- Whether a write of a line has been ordered at its home and awaits acknowledgements: until they have come the home makes no other write
of the line, and a request of it waits (R263, R416, R422). -/
def State.lineLocked (s : State) (line : Nat) : Bool := s.posted.any fun p => p.applied && !p.remote && lineOf p.pa == line

/-- Whether an entry covers such a line. -/
def State.entryLocked (s : State) (e : DirEntry) : Bool := s.posted.any fun p => p.applied && !p.remote && e.covers (lineOf p.pa)

/-- Room for one more general entry on a die: the least recently used one is evicted with its copies (R419). -/
def State.dirRoom (s : State) (die : Nat) : State :=
  let mine := s.dir.filter fun e => e.die == die && !s.pinned e.base
  if mine.length < generalEntries then s
  else
    match minBy (fun e : DirEntry => e.usedAt) (mine.filter fun e => !s.entryLocked e) with
    | none => s
    | some e => { s.dropRegion e with dir := s.dir.filter fun f => f.base != e.base }

/-! ## Requests (R415, R418) -/

/-- The entry after a request of a die: the die joins the mask, and a line entry's counter rises when the last write had
invalidated that die's copy (R418). -/
def DirEntry.request (e : DirEntry) (die now : Nat) : DirEntry :=
  let back := e.j == 0 && e.invalidated.contains die
  let n := if back then Nat.min 3 (e.counter + 1) else e.counter
  { e with sharers := unionIds e.sharers [die], counter := n, update := if e.j = 0 ∧ n = 3 then true else e.update,
           invalidated := e.invalidated.filter (· != die), readSince := true, usedAt := now }

/-- A die brings a line into its L2 (R415): from the home, or from the die that holds the modified copy, to which the home
forwards the read (R420). With `own` the copy is to become the line's modified one, and other copies are dropped; a line that an entered
bundle instance holds stays in update mode, so that none becomes modified (R244). The home die needs no copy, a line in fault is not
brought, and one whose last write is not performed waits (R422). -/
def State.request (s : State) (die line : Nat) (own : Bool) : State :=
  let own := own && !s.pinned line
  if !inHbm line || (s.lineFault line).isSome || s.lineLocked line then s
  else if s.heldAway line then
    if (s.modifiedCopy line).any (fun c => c.holder == die) || s.forwards.any fun f => f.1 == line && f.2.1 == die then s
    else { s with forwards := (line, die, ((s.modifiedCopy line).map (·.holder)).getD die, s.time) :: s.forwards }
  else if die = homeDie line then s
  else
    let s := match s.dirEntry line with
      | some e => s.setDir (e.request die s.time)
      | none =>
        let s := s.dirRoom (homeDie line)
        let j := s.freeRegion line
        let e : DirEntry := { die := homeDie line, base := line / (64 * 2 ^ j) * (64 * 2 ^ j), j := j, sharers := [die],
                              update := false, counter := 0, invalidated := [], readSince := true, usedAt := s.time }
        { s with dir := e :: s.dir }
    let c : LineCopy := { holder := die, line := line, data := Memory.readN s.mem line 64, modified := own }
    { s with l2 := c :: s.l2.filter fun x => !(x.line == line && (own || x.holder == die)) }

/-- DIRECTORY_REQUEST (R415). -/
def execDirectoryRequest (die line : Nat) (own : Bool) (s : State) : Host.Outcome State Fault Refusal :=
  .next (if line % 64 = 0 ∧ die < 4 then s.request die line own else s)

/-! ## Echo monitors (R252, R253) -/

/-- A WAITC condition (R60, R309) on extended values of `w` bits. -/
def wcondHolds (c : WCond) (w : Nat) (a b : DWord) : Bool :=
  let sa := (BitVec.ofNat w a.toNat).toInt
  let sb := (BitVec.ofNat w b.toNat).toInt
  match c with
  | .eq => a == b
  | .ne => a != b
  | .ge => decide (sb ≤ sa)
  | .lt => decide (sa < sb)
  | .geu => decide (b.toNat ≤ a.toNat)
  | .ltu => decide (a.toNat < b.toNat)

/-- Whether a lane's compare holds on an element, once the wave's earlier writes of it have been performed (R272, R309). -/
def State.waitSees (s : State) (a : CmpWait) (w : WaitLane) (x : DWord) : Bool :=
  s.performed w.after && wcondHolds a.cond (if Fmt.size a.fmt = 8 then 64 else 32) x w.val

/-- One lane's compare at the home of its line (R252, R309): whether it has been observed true by now, or the fault of its read. An
element of another device is read there (log entry 78). -/
def State.compareLane (s : State) (a : CmpWait) (w : WaitLane) : State × Except FaultCode Bool :=
  if w.seen then (s, .ok true)
  else match w.pa with
  | none => (s, .ok (s.waitSees a w 0))
  | some g =>
    if devOf g = s.ownDev then
      match s.lineFault (localOf g) with
      | some f => (s, .error f)
      | none => (s, .ok (s.waitSees a w (extendElem a.fmt (s.peek (localOf g) (Fmt.size a.fmt)))))
    else
      match s.farRead g (Fmt.size a.fmt) with
      | (s, .error f) => (s, .error f)
      | (s, .ok bs) => (s, .ok (s.waitSees a w (extendElem a.fmt bs)))

/-- The compares of a WAITC for the lanes that satisfy `p`, in ascending order (R252); the first fault decides. A polled lane's compare
is noted. -/
def State.compareLanes (a : CmpWait) (p : WaitLane → Bool) : List WaitLane → State → State × Except (FaultCode × WaitLane) (List WaitLane)
  | [], s => (s, .ok [])
  | w :: ws, s =>
    match if p w then s.compareLane a w else (s, .ok w.seen) with
    | (s, .error f) => (s, .error (f, w))
    | (s, .ok b) =>
      match State.compareLanes a p ws s with
      | (s, .error f) => (s, .error f)
      | (s, .ok ls) => (s, .ok ({ w with seen := b, poll := if p w then w.poll.map fun _ => s.time else w.poll } :: ls))

/-- Whether every lane of a WAITC has an observation (R252). -/
def BlockWhy.allSeen : BlockWhy → Bool
  | .waitc a => a.lanes.all (·.seen)
  | _ => false

/-- One wait of a wave put in the place of another. -/
def State.changeWhy (s : State) (t w : Nat) (y z : BlockWhy) : State :=
  let f := fun x : BlockWhy => if x = y then z else x
  s.updAny t w fun w => w.both fun w => { w with
    frontier := w.frontier.map (Entry.mapWhys f)
    run := w.run.map fun (r : Run) => { r with blocks := r.blocks.map f } }

/-- Elements that a wave's compares have now observed: its earlier loads of them have read, a copy in its core's L1 is no longer older, and the
wave has read them (R268, R272). -/
def State.observed (s : State) (t : Team) (w n : Nat) (gs : List Nat) : State :=
  gs.foldl (fun s g =>
    let s := if devOf g = s.ownDev then (s.readFirst t w (localOf g) n).l1Refresh t.core (localOf g) (s.peek (localOf g) n) else s
    s.noteRead t w [] g n) s

/-- A compare has completed a wait of a team that was saved while it waited, or has met a fault: the team returns to the front of its launch
queue (R254). -/
def State.wakeEcho (s : State) (team : Nat) : State :=
  match s.saved.find? fun u => u.id == team && u.echo with
  | none => s
  | some u =>
    let s := s.updReal team fun u => { u with echo := false }
    match u.launch with
    | some l => if (s.team? team).isSome then s else s.updLaunch l fun l => { l with savedTeams := u.logical :: l.savedTeams }
    | none => s

/-- A read that a Blocked wait makes has met a fault (R313, R367): its entry is parked, to repeat the instruction and then wait for what
else it waited for; on a supervisor core it traps. While the entry's run has not ended nothing happens. -/
def State.faultWait (s : State) (t : Team) (w : Wave) (y : BlockWhy) (r₀ : Redo) (f : FaultCode) (va : DWord) (lane : Nat) : State :=
  match w.frontier.find? fun e => e.whys.contains y with
  | none => s
  | some e =>
    match e.st with
    | .blocked whys =>
      let rest := whys.filter (· != y)
      if t.isSup then
        (s.updWave t.id w.idx fun v => { v with frontier := v.frontier.filter (· ≠ e) }).trapEntry t e.mask f.num e.pc va r₀.pc
      else
        let (id, s) := s.fresh
        let r := s.faultReport t w.idx { code := f, lane := lane, addr := some va, pc := r₀.pc } false false id
        let s := s.addReport r
        (s.updAny t.id w.idx fun v => { v with
          sel := none
          frontier := v.frontier.map fun x => if x = e then { x with st := .parked [⟨f, id, .whole r₀⟩], age := 0, after := rest ++ x.after } else x }).wakeEcho t.id
    | _ => s

/-- A WAITC of a wave compares for the lanes that satisfy `p`, and is released when all have been observed (R252). -/
def State.observeWait (s : State) (t : Team) (w : Wave) (p : WaitLane → Bool) (y : BlockWhy) : State :=
  match y with
  | .waitc a =>
    if w.gates a.seq || !a.lanes.any (fun l => p l && !l.seen) then s
    else
      match State.compareLanes a p a.lanes s with
      | (s, .error (f, l)) => s.faultWait t w y a.redo f l.va l.lane
      | (s, .ok ls) =>
        let new := (a.lanes.zip ls).filterMap fun x => if !x.1.seen && x.2.seen then x.2.pa else none
        let z := BlockWhy.waitc { a with armed := true, lanes := ls }
        let s := (s.observed t w.idx (Fmt.size a.fmt) new).changeWhy t.id w.idx y z
        if z.allSeen then (s.updAny t.id w.idx fun w => w.unblock (· == z)).wakeEcho t.id else s
  | _ => s

/-! ## Acquires (R264, R266) -/

/-- The physical pieces of a virtual range, page by page, of at most `fuel` pages: fabric-global address and length. -/
def State.rangePieces (s : State) (core asid : Nat) : Nat → Nat → Nat → List (Nat × Nat)
  | 0, _, _ => []
  | fuel + 1, va, n =>
    if n = 0 then []
    else
      let k := Nat.min n (65536 - va % 65536)
      let rest := State.rangePieces s core asid fuel (va + k) (n - k)
      match (s.lookup core asid va).2 with
      | .ok l => (l.pa + va % 2 ^ l.log, k) :: rest
      | .error _ => rest

/-- The shared ranges bound to an object of a team's launch (R264). -/
def State.boundRanges (s : State) (t : Team) (index : Nat) : List SharedRange :=
  ((s.launchOf t).map fun l => l.region.shr.filter fun r => r.so.toNat == index && r.len != 0).getD []

/-- The physical pieces of the ranges bound to an object (R264). -/
def State.boundPieces (s : State) (t : Team) (index : Nat) : List (Nat × Nat) :=
  (s.boundRanges t index).flatMap fun r =>
    s.rangePieces t.core (s.asidOf t) (r.len.toNat / 65536 + 2) r.base.toNat r.len.toNat

/-- Unperformed writes that a sync object carries (R269). -/
def State.carried (s : State) (obj : Nat) : List Nat := ((s.objects.find? fun o => o.1 == obj).map (·.2)).getD []

/-- A completed acquire: the copies of the object's ranges are dropped, and what was released precedes what follows (R266,
R269). -/
def State.acquire (s : State) (t : Team) (w obj level index : Nat) : State :=
  let ps := s.boundPieces t index
  let s := s.observed t w 8 [obj]
  let s := s.dropCopies t.core level fun line => ps.any fun p => decide (p.1 < line + 64 ∧ line < p.1 + p.2)
  s.updAny t.id w fun v => { v with before := unionIds v.before ((s.carried obj).filter s.unperformed) }

/-- The 64-bit word at an object's home, or the fault of its read; an object of another device is read there (R306, R424, log entry 78). -/
def State.objectValue (s : State) (obj : Nat) : State × Except FaultCode DWord :=
  if devOf obj = s.ownDev then
    match s.lineFault (localOf obj) with
    | some f => (s, .error f)
    | none => (s, .ok (field64 (s.peek (localOf obj) 8) 0))
  else
    match s.farRead obj 8 with
    | (s, .error f) => (s, .error f)
    | (s, .ok bs) => (s, .ok (field64 bs 0))

/-- Whether an ACQ may read its object: nothing of its wave holds the read back, and the wave's earlier writes of the object have been
performed (R267, R272). -/
def State.mayAcquire (s : State) (t : Team) (w : Wave) (a : AcqWait) : Bool :=
  !w.gates a.seq && (devOf a.obj != s.ownDev || (s.writesBefore t.id w a.seq (localOf a.obj) 8).isEmpty)

/-- An ACQ of a wave reads its object, and is complete when that has reached its value (R266). -/
def State.tryAcquire (s : State) (t : Team) (w : Wave) (y : BlockWhy) : State :=
  match y with
  | .acq a =>
    if !s.mayAcquire t w a then s
    else
      match s.objectValue a.obj with
      | (s, .error f) => s.faultWait t w y a.redo f a.va 0
      | (s, .ok v) =>
        if a.val.toNat ≤ v.toNat then
          (s.acquire t w.idx a.obj a.level a.index).updAny t.id w.idx fun x => x.unblock (· == y)
        else s.changeWhy t.id w.idx y (.acq { a with armed := true, poll := a.poll.map fun _ => s.time })
  | _ => s

/-- Every wait of the waves on cores and of the saved teams, whose monitors stay armed (R254), looked at in turn. -/
def State.eachWait (s : State) (f : State → Team → Wave → BlockWhy → State) : State :=
  (s.teams ++ s.saved).foldl (fun s t => t.waves.foldl (fun s w => w.blocks.foldl (fun s y => f s t w y) s) s) s

/-- After a write to a line: every monitor of the line compares (R252, R253, R266). -/
def State.observeLine (s : State) (line : Nat) : State :=
  let here := fun g : Nat => devOf g == s.ownDev && lineOf (localOf g) == line
  s.eachWait fun s t w y => match y with
    | .waitc a => if a.armed then s.observeWait t w (fun l => l.pa.any here) y else s
    | .acq a => if a.armed && here a.obj then s.tryAcquire t w y else s
    | _ => s

/-- The interval of a poll in ns (R253). -/
def pollInterval : Nat := 1000

/-- Whether a polled line is due for its next compare: an interval acts no earlier (R8, R253). -/
def pollDue (now : Nat) (poll : Option Nat) : Bool := poll.any fun n => decide (n + pollInterval ≤ now)

/-- MONITOR_POLL (R253): the lanes of a wave that have no monitor, and its ACQs that have none, compare again. -/
def execMonitorPoll (team wave : Nat) (s : State) : Host.Outcome State Fault Refusal :=
  match (s.teams ++ s.saved).find? fun t => t.id == team with
  | none => .next s
  | some t =>
    match t.waves[wave]? with
    | none => .next s
    | some w => .next (w.blocks.foldl (fun u y => match y with
        | .waitc a => if a.armed then u.observeWait t w (fun l => pollDue s.time l.poll) y else u
        | .acq a => if a.armed && pollDue s.time a.poll then u.tryAcquire t w y else u
        | _ => u) s)

/-! ## Asynchronous reports -/

/-- A fault reported asynchronously to the domain of a team: it parks nothing (R367, R440). -/
def State.asyncFault (s : State) (team wave : Nat) (f : FaultCode) (addr : DWord) (glob : Bool) : State :=
  match (s.teams ++ s.saved).find? fun t => t.id == team with
  | none => s
  | some t =>
    let (id, s) := s.fresh
    s.addReport { s.faultReport t wave { code := f, addr := some addr } false true id with
      flg := reportFlg false true glob false true }

/-! ## Writes at home (R416, R418, R421, R423) -/

/-- Whether a posted write may be applied: no earlier write or RMW of its core to one of its bytes is outstanding, and no earlier load of
its wave has still to read one (R101, R272); the writes that it depends on have been performed (R276); no other write of its line is under
way, and the line's bytes lie at its home or in the storing die's own modified copy (R416, R420). -/
def State.mayApply (s : State) (p : Posted) : Bool :=
  !p.applied && !p.remote && !s.gated p.team p.wave p.id && !s.readsFirst p.team p.wave p.id p.pa p.bytes.length && s.performed p.after &&
  !(s.posted.any fun q => decide (q.id < p.id) && q.core == p.core && !q.remote && overlap q.pa q.bytes.length p.pa p.bytes.length) &&
  !(s.rmws.any fun q => decide (q.id < p.id) && q.core == p.core && !q.remote &&
      overlap q.pa (Fmt.size q.fmt) p.pa p.bytes.length) &&
  !s.lineLocked (lineOf p.pa) &&
  (!s.heldAway (lineOf p.pa) || (s.modifiedCopy (lineOf p.pa)).any fun c => c.holder == dieOf p.core)

/-- The entry after a write to its line (R418): the counter falls when no other die has read the line since the last write. -/
def DirEntry.written (e : DirEntry) (now : Nat) : DirEntry :=
  let n := if e.j = 0 ∧ !e.readSince then e.counter - 1 else e.counter
  { e with counter := n, update := if e.j = 0 ∧ n = 0 then false else e.update, invalidated := [], readSince := false,
           usedAt := now }

/-- The next number of a line's pushes (R421). -/
def State.pushNum (s : State) (line : Nat) : Nat := (((s.pushNums.find? fun p => p.1 == line).map (·.2)).getD 0) + 1

/-- What a performed or ended access of some bytes leaves of the unperformed writes that it carried (R270). -/
def State.pastMark (s : State) (id core addr size : Nat) (carries : List Nat) : List PastWrite :=
  let ids := carries.filter fun i => i != id && s.unperformed i
  if ids.isEmpty then [] else [{ core := core, addr := addr, size := size, carries := ids }]

/-- The same for a posted write, and for the read-modify-writes whose result it is. -/
def State.pastOf (s : State) (p : Posted) : List PastWrite :=
  let mark := fun (core : Nat) (carries : List Nat) => s.pastMark p.id core (s.globalOf p) p.bytes.length carries
  mark p.core p.carries ++ (s.rmws.filter fun m => m.result == some p.id).flatMap fun m => mark m.core m.carries

/-- A posted write taken out, with its overlay bytes and the read-modify-writes whose result it is, which drop the copies in the L1s of their
cores (R226). -/
def State.dropPosted (s : State) (p : Posted) : State :=
  let new := s.pastOf p
  { s with
           posted := s.posted.filter fun q => q.id != p.id, overlays := s.overlays.filter fun o => o.posted != p.id,
           rmws := s.rmws.filter fun m => m.result != some p.id,
           l1 := s.l1.filter fun c => !(c.line == lineOf p.pa && s.rmws.any fun m => m.result == some p.id && m.core == c.holder),
           past := new ++ s.past.filter fun x => x.carries.any s.unperformed : State }.settleLeaves

/-- Whether a die leaves the mask of the half that holds a written line (R416): it has answered "none held", and it holds no other line of
the half, whose writes it must go on seeing (R271, log entry 38). -/
def State.leftHalf (s : State) (p : Posted) (h : DirEntry) (d : Nat) : Bool :=
  p.noneHeld.contains d && !(s.l2.any fun c => c.holder == d && h.covers c.line)

/-- A region entry that met a conflict splits at the end of the write (R416). -/
def State.splitFor (s : State) (p : Posted) : State :=
  match s.dirEntry (lineOf p.pa) with
  | none => s
  | some e =>
    if e.j = 0 || p.noneHeld.isEmpty then s
    else
      { s with dir := s.dir.flatMap fun f => if f.base = e.base then
          e.halves.map fun h => if h.covers (lineOf p.pa) then { h with sharers := h.sharers.filter fun d => !s.leftHalf p h d } else h
        else [f] }

/-- A write that its home has ordered is performed, once every acknowledgement has come (R263, R416): its bytes are in memory and in the copies
that stay, the storing core's L1 among them, for every reader at once; its overlay bytes are removed (R421). It clears a LOST mark, and that
of an uncorrectable error when it writes the whole line (R396, R423). Then the line's monitors compare (R252). -/
def State.writePerformed (s : State) (p : Posted) : State :=
  let line := lineOf p.pa
  let full := p.pa == line && p.bytes.length == 64 && p.bytes.all (·.isSome)
  let s := { s with
    mem := Memory.writeSome s.mem p.pa p.bytes
    l2 := s.l2.map fun (c : LineCopy) => if c.line = line then c.patch p.pa p.bytes else c
    l1 := s.l1.map fun (c : LineCopy) => if c.holder = p.core ∧ c.line = line then c.patch p.pa p.bytes else c
    lost := s.lost.filter (· != line)
    ecc := if full then s.ecc.filter (· != line) else s.ecc }
  ((s.dropPosted p).splitFor p).observeLine line

/-- Apply a posted write at its home (R416): copies on other dies are invalidated or pushed to, and it is performed when they have
acknowledged; without any, at once. On a LOST line only a full-line write is performed (R423). A line whose modified copy the storing die holds
is written there (R420). -/
def State.applyWrite (s : State) (p : Posted) : State :=
  let line := lineOf p.pa
  if s.lost.contains line && !(p.pa == line && p.bytes.length == 64 && p.bytes.all (·.isSome)) then
    (s.dropPosted p).asyncFault p.team p.wave .lineLost p.va false
  else if s.heldAway line then
    ({ s with l2 := s.l2.map fun (c : LineCopy) => if c.line = line ∧ c.modified then c.patch p.pa p.bytes else c
              writeBacks := s.writeBacks.map fun (c : LineCopy) => if c.line = line then c.patch p.pa p.bytes else c
              l1 := s.l1.map fun (c : LineCopy) => if c.holder = p.core ∧ c.line = line then c.patch p.pa p.bytes else c
              : State }.dropPosted p).observeLine line
  else
    match s.dirEntry line with
    | none => s.writePerformed p
    | some e =>
      let push := s.pushes? e line
      let s := s.setDir (e.written s.time)
      if e.sharers.isEmpty then s.writePerformed p
      else
        let s := { s with posted := s.posted.map fun (q : Posted) =>
          if q.id = p.id then { q with applied := true, appliedAt := s.time, acks := e.sharers } else q }
        if push then
          let n := s.pushNum line
          { s with pushNums := (line, n) :: s.pushNums.filter fun x => x.1 != line,
                   pushes := s.pushes ++ e.sharers.map fun d => ({ posted := p.id, die := d, pa := p.pa, bytes := p.bytes, num := n } : Push) }
        else s

/-- Whether an access of a core to bytes of another device has an earlier one of the core to one of them before it that has not been
sent, or, with `acked`, that has not been performed: only writes of one flow stay in order on their way (R272, R428). -/
def State.farEarlier (s : State) (core id pa n : Nat) (acked : Bool) : Bool :=
  (s.posted.any fun q => decide (q.id < id) && q.core == core && q.remote && (acked || !q.applied) && overlap q.pa q.bytes.length pa n) ||
  s.rmws.any fun q => decide (q.id < id) && q.core == core && q.remote && overlap q.pa (Fmt.size q.fmt) pa n

/-- Whether a wave has a load of bytes of another device, before an access with an identity, that its home has still to answer. -/
def State.farReadsFirst (s : State) (team wave id a n : Nat) : Bool :=
  match (s.teams ++ s.saved).find? fun t => t.id == team with
  | some t => t.waves.any fun w =>
      (w.loads.any fun l => readPrecedes (w.idx == wave) id l.seq l.upTo && l.items.any fun i =>
        match i.src with
        | .remote x f _ _ => overlap x.toNat (Fmt.size f) a n
        | _ => false) ||
      (w.recLoads.any fun r =>
        readPrecedes (w.idx == wave) id r.seq r.upTo && devOf r.pa != s.ownDev && r.data.isNone && overlap r.pa 32 a n) ||
      (w.idx == wave && w.waitcBefore a id n)
  | none => false

/-- A posted write of another device's memory is sent to its home, where it is performed, after the wave's earlier loads of its bytes (R272,
R424); the device's scoped copies of its line follow R425 then. -/
def State.sendWrite (s : State) (p : Posted) : State :=
  if p.applied || !s.hasRoute (devOf p.pa) || s.gated p.team p.wave p.id || !s.performed p.after ||
    s.farEarlier p.core p.id p.pa p.bytes.length false || s.farReadsFirst p.team p.wave p.id p.pa p.bytes.length then s
  else
    ({ s with posted := s.posted.map fun (q : Posted) => if q.id = p.id then { q with applied := true, appliedAt := s.time } else q
              scopedCopies := s.scopedStore (dieOf p.core) p.pa p.bytes
              bundleCopies := s.bundleCopies.map fun (c : LineCopy) => if c.holder = dieOf p.core then c.patch p.pa p.bytes else c : State }).send
      (devOf p.pa) (dieOf p.core) 2 (.access p.id (BitVec.ofNat 64 p.pa) (.store p.bytes))

/-- HOME_WRITE (R416): a posted write is applied at its home, or sent to a home on another device (R424). -/
def execHomeWrite (posted : Nat) (s : State) : Host.Outcome State Fault Refusal :=
  match s.posted.find? fun p => p.id == posted with
  | none => .next s
  | some p => .next (if p.remote then s.sendWrite p else if s.mayApply p then s.applyWrite p else s)

/-- Whether a posted write is being invalidated rather than pushed, at a die. -/
def State.invalidates (s : State) (p : Posted) (die : Nat) : Bool :=
  p.applied && p.acks.contains die && !(s.pushes.any fun q => q.posted == p.id && q.die == die)

/-- INVALIDATION (R416): the die drops its copy, or answers "none held". -/
def execInvalidation (posted die : Nat) (s : State) : Host.Outcome State Fault Refusal :=
  match s.posted.find? fun p => p.id == posted with
  | none => .next s
  | some p =>
    if !s.invalidates p die || p.dropped.contains die || p.noneHeld.contains die then .next s
    else
      let line := lineOf p.pa
      let held := (s.l2Copy die line).isSome
      let s := { s with
        l2 := s.l2.filter fun c => !(c.holder == die && c.line == line)
        posted := s.posted.map fun (q : Posted) => if q.id = posted then
          (if held then { q with dropped := die :: q.dropped } else { q with noneHeld := die :: q.noneHeld }) else q }
      .next (match s.dirEntry line with
        | some e => s.setDir { e with invalidated := if held then unionIds e.invalidated [die] else e.invalidated,
                                      sharers := if e.j = 0 then e.sharers.filter (· != die) else e.sharers }
        | none => s)

/-- An acknowledgement of a die for a write (R416, R418). -/
def State.acknowledge (s : State) (posted die : Nat) : State :=
  match s.posted.find? fun p => p.id == posted with
  | none => s
  | some p =>
    let p := { p with acks := p.acks.filter (· != die) }
    let s := { s with posted := s.posted.map fun q => if q.id = posted then p else q }
    if p.acks.isEmpty then s.writePerformed p else s

/-- INVALIDATION_ACK (R416): the last one performs the write. -/
def execInvalidationAck (posted die : Nat) (s : State) : Host.Outcome State Fault Refusal :=
  match s.posted.find? fun p => p.id == posted with
  | none => .next s
  | some p =>
    .next (if s.invalidates p die && (p.dropped.contains die || p.noneHeld.contains die) then s.acknowledge posted die else s)

/-- UPDATE_PUSH (R421): the push with the lowest number of a line reaches a die, which acknowledges it. Its bytes are in that copy from the
moment at which every copy has acknowledged, like everywhere else (R263, log entry 81). -/
def execUpdatePush (line die : Nat) (s : State) : Host.Outcome State Fault Refusal :=
  match minBy (fun q : Push => q.num) (s.pushes.filter fun q => q.die == die && lineOf q.pa == line) with
  | none => .next s
  | some q => .next (({ s with pushes := s.pushes.filter (· ≠ q) } : State).acknowledge q.posted die)

/-! ## Forwarded reads and write-backs (R420) -/

/-- Serve the reads that the home has kept for a line. -/
def State.serveForwards (s : State) (line : Nat) : State :=
  let fs := s.forwards.filter fun f => f.1 == line
  fs.foldl (fun s f => s.request f.2.1 line false) { s with forwards := s.forwards.filter fun f => f.1 != line }

/-- FORWARDED_READ (R420): the die that holds the modified copy answers, and the home has its bytes; while the copy is on its
way back the home keeps the read. -/
def execForwardedRead (line die : Nat) (s : State) : Host.Outcome State Fault Refusal :=
  match s.forwards.find? (fun f => f.1 == line && f.2.1 == die), s.modifiedCopy line with
  | some f, some c =>
    let s := { s with mem := Memory.writeN s.mem line c.data, forwards := s.forwards.filter (· ≠ f),
                      l2 := s.l2.map fun (x : LineCopy) => if x.line = line ∧ x.modified then { x with modified := false } else x }
    .next ((s.request die line false).observeLine line)
  | _, _ => .next s

/-- WRITE_BACK (R420): a die sends its modified copy back; the data then arrive at the home, which serves the reads that wait. -/
def execWriteBack (line die : Nat) (s : State) : Host.Outcome State Fault Refusal :=
  match s.writeBacks.find? fun c => c.line == line && c.holder == die with
  | some c =>
    let s := { s with mem := Memory.writeN s.mem line c.data, writeBacks := s.writeBacks.filter (· ≠ c) }
    .next ((s.serveForwards line).observeLine line)
  | none =>
    match s.l2.find? fun c => c.line == line && c.holder == die && c.modified with
    | none => .next s
    | some c => .next { s with l2 := s.l2.filter (· ≠ c), writeBacks := { c with modified := false } :: s.writeBacks }

/-! ## Merges (R417) -/

/-- 65,536 cc in nanoseconds, rounded up, at the core clock of R2. -/
def mergeIdle : Nat := 46812

/-- DIRECTORY_MERGE (R417): two idle sibling entries in invalidate mode become one. -/
def execDirectoryMerge (die base : Nat) (s : State) : Host.Outcome State Fault Refusal :=
  match s.dir.find? fun e => e.die == die && e.base == base with
  | none => .next s
  | some e =>
    match s.dir.find? fun f => f.base == base + e.bytes && f.j == e.j with
    | none => .next s
    | some f =>
      let idle := fun x : DirEntry => !x.update && decide (x.usedAt + mergeIdle ≤ s.time) &&
        !s.entryLocked x
      if e.j < 10 && base % (2 * e.bytes) == 0 && idle e && idle f && !s.pinned base && !s.pinned f.base then
        .next { s with dir := { e with j := e.j + 1, sharers := unionIds e.sharers f.sharers, counter := 0, invalidated := [],
                                       readSince := e.readSince || f.readSince, usedAt := s.time } ::
                  s.dir.filter fun x => x.base != e.base && x.base != f.base }
      else .next s

/-- A bundle fill places a line of another die: the region entry splits down to the line, which is kept in update mode (R244,
R418), and the die's copy holds the line as it is at its home (R422). -/
def State.bindLine (s : State) (die line : Nat) : State :=
  if die = homeDie line then s
  else
    let s := s.request die line false
    let s := { s with dir := splitDown 10 line s.dir }
    match s.dirEntry line with
    | some e => s.setDir { e with sharers := unionIds e.sharers [die], update := true, counter := 3 }
    | none => s

end Sys2Proof.Machine
end

