-- ==== Sys2Proof/Machine/Scratchpad.lean ====
section
/-!
DEFINITION. Scratchpad access (R222, R223, R227, R228): SLD, SST, SLDM and SSTM (R294 to R297).
-/

namespace Sys2Proof.Machine

/-! ## Addresses and the port -/

/-- The offset of an access of `z` bytes in a scratchpad of `size` bytes, from a base and a signed offset (R222). -/
def spadOffset (size base : Nat) (o : BitVec 7) (z : Nat) : Except FaultCode Nat :=
  let a : Int := (base : Int) + o.toInt * (z : Int)
  if a < 0 ∨ (size : Int) < a + (z : Int) then .error .bounds
  else if a.toNat % z ≠ 0 then .error .align
  else .ok a.toNat

/-- Lane results in lane order, or the fault of the lowest-numbered faulting lane (R52). -/
def eachLane {α : Type} : List (Nat × Except FaultCode α) → Except (FaultCode × Nat) (List (Nat × α))
  | [] => .ok []
  | (l, .error f) :: _ => .error (f, l)
  | (l, .ok a) :: r =>
    match eachLane r with
    | .error e => .error e
    | .ok as => .ok ((l, a) :: as)

/-- A slice's cost: the largest number of its distinct words that lie in one of the 64 banks, at least 1 (R227). -/
def bankCost (offs : List Nat) (z : Nat) : Nat :=
  let words := distinct (offs.flatMap fun a => (List.range ((z + 3) / 4)).map fun i => a / 4 + i)
  (List.range 64).foldl (fun m b => Nat.max m (words.countP fun w => w % 64 == b)) 1

/-- The first free cycle of a port after slices with their issue cycles and costs (R228). -/
def portPass (free : Nat) (slices : List (Nat × Nat)) : Nat := slices.foldl (fun f x => Nat.max x.1 f + x.2) free

/-- Issue cycle and bank cost of each slice of a scratchpad access (R227, R228). -/
def Issue.bankSlices (c : Issue) (cost z : Nat) (offs : List (Nat × Nat)) : List (Nat × Nat) :=
  (List.range c.slices).map fun k =>
    (c.run.cycle + k * cost, bankCost ((offs.filter fun p => p.1 / 16 == k).map (·.2)) z)

/-- Active lanes whose address register is valid; outside runahead mode, all of them (R292). -/
def Issue.validLanes (c : Issue) (cost : Nat) (a : Reg) : List Nat :=
  if c.wave.runahead.isSome then c.lanes.filter fun l => !(c.ctx cost l).invalid (a, 1) else c.lanes

/-- Store into a team's scratchpad; the 1 KiB regions written are recorded for a save (R386), and errors of the bytes are gone (log entry 94). -/
def Team.spadStore (t : Team) (a : Nat) (bs : List Byte) : Team :=
  { t with spad := Memory.writeN t.spad a bs, spadRegions := unionIds t.spadRegions [a / 1024],
           spadBad := t.spadBad.filter fun b => !decide (a ≤ b ∧ b < a + bs.length) }

/-- Bytes of a team's scratchpad. -/
def Team.spadRead (t : Team) (a n : Nat) : List Byte := Memory.readN t.spad a n

/-- The fault of a scratchpad read in error: ADDR not valid, AUX 2 (R396). -/
def spadEcc (l : Nat) : FaultInfo := { code := .eccUncorr, lane := l, aux := 2 }

/-- Low `z` bytes of a store's data in a lane: of D, or of the pair for .d (R294). -/
def LaneCtx.data (x : LaneCtx) (d : Reg) (z : Size) : List Byte :=
  bytesLE (Size.bytes z) (if z = .d then (x.pair d).toNat else (x.reg d).toNat)

/-! ## SLD and SST -/

/-- SLD (R294, R295): the data are written 24 cycles after the last port cycle of the last slice (R228). -/
def execSld (n : Bool) (d a : Reg) (o : BitVec 7) (z : Size) (s : State) : Host.Outcome State Fault Refusal :=
  lanesOp (.sld n d a o z) (fun c cost s =>
    let zb := Size.bytes z
    match eachLane ((c.validLanes cost a).map fun l =>
        (l, spadOffset c.team.spadSize ((c.ctx cost l).reg a).toNat o zb)) with
    | .error (f, l) => .error { code := f, lane := l }
    | .ok offs =>
      match offs.find? fun p => c.team.spadError p.2 zb with
      | some p => .error (spadEcc p.1)
      | none =>
      let free := portPass c.run.spadPort (c.bankSlices cost zb offs)
      let out := fun l : Nat =>
        let v := ((offs.find? fun p => p.1 == l).map fun p => natLE (c.team.spadRead p.2 zb)).getD 0
        let x := c.ctx cost l
        if z = .d then outPair x d (BitVec.ofNat 64 v) else outReg x n d (BitVec.ofNat 32 v)
      .ok ((s.updRun fun r => { r with spadPort := free }).updCur fun w =>
        w.mapActive c.run.mask fun l ln => Lane.issued c (.sld n d a o z) cost (free - 1 + 24) (out l) l ln)) s

/-- SST (R294, R295): lanes store in ascending order; in runahead mode nothing is stored (R292). -/
def execSst (d a : Reg) (o : BitVec 7) (z : Size) (s : State) : Host.Outcome State Fault Refusal :=
  lanesOp (.sst d a o z) (fun c cost s =>
    if c.wave.runahead.isSome then .ok s
    else
      let zb := Size.bytes z
      match eachLane (c.lanes.map fun l => (l, spadOffset c.team.spadSize ((c.ctx cost l).reg a).toNat o zb)) with
      | .error (f, l) => .error { code := f, lane := l }
      | .ok offs =>
        let free := portPass c.run.spadPort (c.bankSlices cost zb offs)
        .ok ((s.updRun fun r => { r with spadPort := free }).updCurTeam fun t =>
          offs.foldl (fun t p => t.spadStore p.2 ((c.ctx cost p.1).data d z)) t)) s

/-! ## Members of a gang (R223) -/

/-- A member access: the member's logical index and the offset (R223). -/
def Team.memberOffset (t : Team) (a : Word) (o : BitVec 7) (z : Nat) : Except FaultCode (Nat × Nat) :=
  let p := bitsOf a.toNat 20 4
  if bitsOf a.toNat 24 8 ≠ 0 ∨ t.gangSize ≤ p then .error .bounds
  else
    match spadOffset t.spadSize (bitsOf a.toNat 0 20) o z with
    | .error f => .error f
    | .ok k => .ok (t.gangBase + p, k)

/-- Whether a member has exited (R179, R223). -/
def Team.hasExited (t : Team) : Bool := t.gone || t.waves.all Wave.exited

/-- SLDM (R296, R297): variable latency; a lane whose member has not started stalls its entry. In runahead mode the data are read
at once, and a lane that cannot be served becomes runahead-invalid. -/
def execSldm (d a : Reg) (o : BitVec 7) (z : Size) (s : State) : Host.Outcome State Fault Refusal :=
  lanesOp (.sldm d a o z) (fun c cost s =>
    let zb := Size.bytes z
    match eachLane ((c.validLanes cost a).map fun l => (l, c.team.memberOffset ((c.ctx cost l).reg a) o zb)) with
    | .error (f, l) => .error { code := f, lane := l }
    | .ok offs =>
      if c.wave.runahead.isSome then
        .ok (s.updCur fun w => w.mapActive c.run.mask fun l ln =>
          match (offs.find? fun p => p.1 == l).bind fun p =>
            ((s.member? c.team p.2.1).filter fun t => !t.spadError p.2.2 zb).map fun t => natLE (t.spadRead p.2.2 zb) with
          | some v =>
            let x := c.ctx cost l
            let out := if z = .d then outPair x d (BitVec.ofNat 64 v) else outReg x false d (BitVec.ofNat 32 v)
            (ln.put c.run.idx (c.lastOf cost l + 1) { out with latch := none }).markInvalid c.run.winb c.run.idx false false
              [(d, Size.regs z)] none
          | none => ln.markInvalid c.run.winb c.run.idx true false [(d, Size.regs z)] none)
      else
        let (seq, s) := s.fresh
        let items := offs.map fun p =>
          ({ lane := p.1, dst := c.phys d, pair := z = .d, src := .member p.2.1 p.2.2 zb, va := 0 } : LoadItem)
        let s := s.updCur fun w => { w with loads := w.loads ++ [{ seq := seq, items := items, pc := c.pc, whole := none }] }
        let absent := distinct ((offs.filter fun p => (s.member? c.team p.2.1).isNone).map (·.2.1))
        .ok (s.updRun fun r => absent.foldl (fun r m => { r with blocks := r.blocks ++ [.member m 0 []] }) r)) s

/-- A store to a gang member's scratchpad, or the wait for the member to start (R179, R223). -/
def State.memberStore (c : Issue) (s : State) (logical off : Nat) (bs : List Byte) : State :=
  match s.member? c.team logical with
  | some t => s.updTeam t.id fun t => t.spadStore off bs
  | none => s.updRun fun r => { r with blocks := r.blocks ++ [.member logical off bs] }

/-- SSTM (R296, R297): stores are made at once, in ascending lane order; a member that has exited is GANG_GONE. -/
def execSstm (d a : Reg) (o : BitVec 7) (z : Size) (s : State) : Host.Outcome State Fault Refusal :=
  lanesOp (.sstm d a o z) (fun c cost s =>
    if c.wave.runahead.isSome then .ok s
    else
      let zb := Size.bytes z
      match eachLane (c.lanes.map fun l =>
          (l, match c.team.memberOffset ((c.ctx cost l).reg a) o zb with
            | .error f => .error f
            | .ok m => if ((s.member? c.team m.1).map Team.hasExited).getD false then .error .gangGone else .ok m)) with
      | .error (f, l) => .error { code := f, lane := l }
      | .ok offs => .ok (offs.foldl (fun s p => State.memberStore c s p.2.1 p.2.2 ((c.ctx cost p.1).data d z)) s)) s

end Sys2Proof.Machine
end

