-- ==== Sys2Proof/Machine/LoadStore.lean ====
section
/-!
DEFINITION. Lane accesses through record registers: RECLD and RECSET (R97, R98), LD and ST (R99 to R102), PREF (R298), WAITC
(R309), ATOM, RED and CAS (R310 to R312).
-/

namespace Sys2Proof.Machine

/-! ## RECLD and RECSET -/

/-- The fault of an address that an instruction names as one record of `n` aligned bytes (R97, R366). -/
def recordAddr (va n : Nat) : Option FaultCode :=
  if 2 ^ 56 ≤ va then some .prot else if va % n ≠ 0 then some .align else none

/-- RECLD (R97, R98): the record is read when its data arrive; a translation fault is found at once. -/
def execRecld (d : RecReg) (a : Reg) (s : State) : Host.Outcome State Fault Refusal :=
  memWaveOp (.recld d a) (fun c x s =>
    let va := (x.pair a).toNat
    match recordAddr va 32 with
    | some f => (s, .error (f, some va, 0))
    | none =>
      match s.translateFor c.team va .read with
      | (s, .error f) => (s, .error (f, some va, 0))
      | (s, .ok g) =>
        let (seq, s) := s.fresh
        let r : RecLoad := { seq := seq, reg := d, pa := g, pc := c.pc, va := BitVec.ofNat 64 va, mask := c.run.mask,
                             redo := c.redo (.recld d a) (c.cost (.recld d a) 1) [x.l] }
        (s.updCur fun w => { w with recLoads := w.recLoads ++ [r] }, .ok ())) s

/-- RECSET (R97, R98): eight registers make a record, which the next run finds. -/
def execRecset (d : RecReg) (a : Reg) (s : State) : Host.Outcome State Fault Refusal :=
  waveOp (.recset d a) (fun _ x s =>
    let r := BufRec.ofBytes ((List.range 8).flatMap fun i => bytesLE 4 (x.grp a i).toNat)
    match r.check with
    | some f => .error { code := f, lane := x.l }
    | none => .ok (s.updCur fun w => { w with recNext := w.recNext ++ [(d.toNat, r)] })) s

/-! ## Lane addresses -/

/-- The record register of a Q field (R48). -/
def Issue.record (c : Issue) (q : RecReg) : BufRec := c.recs.getD q.toNat BufRec.zero

/-- The virtual address that a record gives an index, before any check (R51). -/
def BufRec.va (r : BufRec) (idx : Word) : DWord := BitVec.ofNat 64 (r.base.toNat + swizzle r.swz.toNat (idx.toNat * r.stride.toNat))

/-- The virtual address of each lane's element, none when it is out of bounds and clamped; or the fault of the
lowest-numbered lane that has one (R51, R52). -/
def Issue.laneAddrs (c : Issue) (cost : Nat) (r : BufRec) (x : Reg) (size : Nat) (lanes : List Nat) :
    Except FaultInfo (List (Nat × Option Nat)) :=
  match eachLane (lanes.map fun l => (l, r.addr ((c.ctx cost l).reg x) size)) with
  | .error (f, l) => .error { code := f, lane := l, addr := some (r.va ((c.ctx cost l).reg x)) }
  | .ok as => .ok as

/-- The slot of a ring that holds a stalagmite address (R247, R340). -/
def Ring.slotAt (r : Ring) (pa : Nat) : Option Nat := r.pas.findIdx? fun b => decide (b ≤ pa ∧ pa < b + 8192)

/-- The ring whose slots hold a stalagmite line, the slot, and the offset in it (R247, R340). -/
def State.ringAt (s : State) (pa : Nat) : Option (Ring × Nat × Nat) :=
  s.rings.findSome? fun r => (r.slotAt pa).map fun j => (r, j, pa - r.pas.getD j 0)

/-- The same among the rings that are saved, whose lines are restored before they are used again (R251, R388). -/
def State.savedRingAt (s : State) (pa : Nat) : Option (Ring × Nat × Nat) :=
  s.savedRings.findSome? fun r => (r.slotAt pa).map fun j => (r, j, pa - r.pas.getD j 0)

/-- The ring of a stalagmite line, in the L2 or saved. -/
def State.anyRingAt (s : State) (pa : Nat) : Option (Ring × Nat × Nat) := s.ringAt pa <|> s.savedRingAt pa

/-- Where a lane's element lies: its virtual address, and its fabric-global address or the fault of its translation. -/
structure LaneTarget where
  lane : Nat
  va : Nat
  pa : Except FaultCode Nat

/-- The target of one lane: through the bundle instance for a bound record, which translates nothing (R233, R243), else through
translation (R377). -/
def State.laneTarget (s : State) (t : Team) (r : BufRec) (k : Access) (va : Nat) : State × Except FaultCode Nat :=
  if r.bound then (s, s.boundTarget t r va) else s.translateFor t va k

/-- The targets of the in-bounds lanes, in lane order. -/
def State.laneTargets (t : Team) (r : BufRec) (k : Access) : List (Nat × Option Nat) → State → State × List LaneTarget
  | [], s => (s, [])
  | (_, none) :: l, s => State.laneTargets t r k l s
  | (n, some va) :: l, s =>
    let (s, p) := s.laneTarget t r k va
    let (s, ts) := State.laneTargets t r k l s
    (s, { lane := n, va := va, pa := p } :: ts)

/-- A fault that stops the instruction before any lane's access: the handle of a bound record or its Failed instance (R243), a fault of a lane that
`stops` names, or a stalagmite line that `takes` does not allow (R249). -/
def State.stopsAccess (s : State) (c : Issue) (r : BufRec) (ts : List LaneTarget) (stops : FaultCode → Bool) (takes : Nat → Bool) :
    Option FaultInfo :=
  if !ts.isEmpty && r.bound && !s.boundOk c.team r then
    some { code := .illegal, lane := (ts.head?.map (·.lane)).getD 0, aux := r.bhandle }
  else
    ts.findSome? fun t =>
      let info := fun f : FaultCode => ({ code := f, lane := t.lane, addr := some (BitVec.ofNat 64 t.va),
                                          aux := if r.bound then r.bhandle else 0 } : FaultInfo)
      match t.pa with
      | .error f => if stops f || c.team.isSup || (r.bound && s.boundFailure c.team r == some f) then some (info f) else none
      | .ok g =>
        if devOf g = s.ownDev ∧ s.inWindow (localOf g) ∧ !takes (localOf g) then some (info .accState) else none

/-- Park lanes whose access has failed, at the trailer, until the access is made again (R182, R475): one report for all of
them. A PAGE is for the supervisor to resolve first (R376). -/
def State.parkAccess (s : State) (c : Issue) (seq : Nat) (f : FaultCode) (lanes : List LaneTarget) : State :=
  match lanes with
  | [] => s
  | t :: _ =>
    let (id, s) := s.fresh
    let va := BitVec.ofNat 64 t.va
    let r := s.faultReport c.team c.wave.idx { code := f, lane := t.lane, addr := some va, pc := c.pc } (f == .page) false id
    let s := s.addReport r
    let s := if f = .eccUncorr then s.deviceCopy r (t.pa.toOption.map fun g => BitVec.ofNat 64 (localOf g)) else s
    let m := maskOf (lanes.map (·.lane))
    s.updRun fun r => { r with parkedMask := r.parkedMask ||| m, parks := r.parks ++ [(m, ⟨f, id, .access seq⟩)] }

/-- Whether a lane's translation has failed with a code. -/
def LaneTarget.failed (f : FaultCode) (t : LaneTarget) : Bool :=
  match t.pa with
  | .error g => g == f
  | .ok _ => false

/-- Where a lane's element lies, by its number. -/
def targetOf (ts : List LaneTarget) (l : Nat) : Option (Except FaultCode Nat) := (ts.find? fun t => t.lane == l).map (·.pa)

/-- The registers that the trailer of the issuing run names (R37). -/
def Issue.named (c : Issue) : List Nat := (c.run.words.getLast?.map (trailerRegs c.run.winb)).getD []

/-- Add a variable-latency result to the current wave, unless it has no items. -/
def State.pushLoad (s : State) (c : Issue) (seq : Nat) (items : List LoadItem) : State :=
  if items.isEmpty then s
  else s.updCur fun w => { w with loads := w.loads ++ [{ seq := seq, items := items, pc := c.pc, whole := none, named := c.named }] }

/-! ## LD -/

/-- The element of an LD whose address translates: from memory of this device, or of another one. -/
def State.loadSrc (s : State) (f : Fmt) (h : Hint) (g : Nat) : LoadSrc :=
  if devOf g = s.ownDev then .memory (localOf g) f h else .remote (BitVec.ofNat 64 g) f h none

/-- LD in runahead mode through an unbound record: lines are prefetched, the destination becomes runahead-invalid (R380). -/
def State.prefetchLoad (s : State) (c : Issue) (d : Reg) (z : Size) (ts : List LaneTarget) : State :=
  let s := ts.foldl (fun s t => match t.pa with
    | .ok g => if devOf g = s.ownDev then s.request (dieOf c.team.core) (lineOf (localOf g)) false else s
    | .error _ => s) s
  s.updCur fun w => w.mapActive c.run.mask fun _ ln => ln.markInvalid c.run.winb c.run.idx true false [(d, Size.regs z)] none

/-- Cycles that a slice of a bound load occupies its quadrant's bundle port: 2m - 1, where m is the largest number of its
distinct lines in one L2 slice (R231). -/
def bundleCost (lines : List Nat) : Nat :=
  let ls := distinct lines
  2 * (List.range 64).foldl (fun m j => Nat.max m (ls.countP fun x => sliceOf x == j)) 1 - 1

/-- The bytes that a bound load of a core reads at a fabric-global address: those of the resident line (R243). -/
def State.boundBytes (s : State) (t : Team) (g n : Nat) : List Byte :=
  t.dualView g (if devOf g = s.ownDev then s.dieView t.core (localOf g) n true else s.residentView t.core g n)

/-- The lines of lanes that are in fault with a code (R475). -/
def State.badLanes (s : State) (ts : List LaneTarget) (k : FaultCode) : List LaneTarget :=
  ts.filter fun t => match t.pa with
    | .ok g => devOf g == s.ownDev && s.lineFault (localOf g) == some k
    | .error _ => false

/-- A bound LD (R100, R231): every lane's element is read, and written 72 cycles after the last port cycle of the last slice.
Lanes whose line is in fault are parked (R475). -/
def State.boundLoad (s : State) (c : Issue) (cost : Nat) (i : Instr) (d : Reg) (f : Fmt) (ts : List LaneTarget) : State :=
  let n := Fmt.size f
  let slices := (List.range c.slices).map fun k =>
    (c.run.cycle + k * cost, bundleCost ((ts.filter fun t => t.lane / 16 == k).filterMap fun t => t.pa.toOption.map fun g => lineOf (localOf g)))
  let free := portPass c.run.bundlePort slices
  let lost := s.badLanes ts .lineLost
  let ecc := s.badLanes ts .eccUncorr
  let parked := (lost ++ ecc).map (·.lane)
  let good := ts.filterMap fun t => if parked.contains t.lane then none else t.pa.toOption.map fun g => (t.lane, g)
  let regs := ((c.phys d).map fun p => (List.range (Fmt.regs f)).map (p + ·)).getD []
  let s := good.foldl (fun s p => if devOf p.2 = s.ownDev then s.readFirst c.team c.wave.idx (localOf p.2) n else s) s
  let vals := good.map fun p => (p.1, p.2, s.boundBytes c.team p.2 n)
  let s := vals.foldl (fun s v =>
    (if devOf v.2.1 = s.ownDev then s.l1Refresh c.team.core (localOf v.2.1) v.2.2 else s).noteRead c.team c.wave.idx regs v.2.1 n none true) s
  let s := s.updRun fun r => { r with bundlePort := free }
  let s := s.updCur fun w => w.mapActive (c.run.mask &&& ~~~maskOf parked) fun l ln =>
    let x := c.ctx cost l
    let v := ((vals.find? fun v => v.1 == l).map fun v => extendElem f v.2.2).getD 0
    let o := if n = 8 then outPair x d v else outReg x false d (lo32 v)
    Lane.issued c i cost (free - 1 + 72) { o with latch := none } l ln
  if parked.isEmpty then s
  else
    let (seq, s) := s.fresh
    let items := (lost ++ ecc).map fun t => ({ lane := t.lane, dst := c.phys d, pair := n = 8,
                                               src := .parked (.load f .dflt t.pa.toOption), va := BitVec.ofNat 64 t.va } : LoadItem)
    ((s.pushLoad c seq items).parkAccess c seq .lineLost lost).parkAccess c seq .eccUncorr ecc

/-- Whether a bound load waits where it stands: a read-modify-write of the wave, or one before it, to the bytes of a lane has still to be
performed, or an earlier WAITC of its run to observe one (R101, R272). Those of earlier runs have been awaited at the start of the run; its
latency does not count the wait (R41, log entry 39). -/
def State.boundHolds (s : State) (c : Issue) (f : Fmt) (ts : List LaneTarget) : Bool :=
  c.wave.runahead.isNone && ts.any fun t =>
    match t.pa.toOption with
    | some g => c.wave.waitcBefore g s.nextId (Fmt.size f) || (if devOf g = s.ownDev then
        (s.lineFault (localOf g)).isNone && !(s.rmwsBefore c.team.id c.wave s.nextId (localOf g) (Fmt.size f)).isEmpty
      else s.rmws.any fun m => m.remote && m.team == c.team.id && m.wave == c.wave.idx && overlap m.pa (Fmt.size m.fmt) g (Fmt.size f))
    | none => false

/-- The codes that stop an LD or ST before any lane's access; a lane that meets PAGE is parked instead (R102, R475). -/
def FaultCode.stopsLoad (f : FaultCode) : Bool := f != .page

/-- LD (R99 to R102). -/
def execLd (d : Reg) (q : RecReg) (x : Reg) (h : Hint) (z : Size) (s₀ : State) : Host.Outcome State Fault Refusal :=
  let i := Instr.ld d q x h z
  lanesOp i (fun c cost s =>
    let r := c.record q
    let f := r.format
    if Fmt.size f ≠ Size.bytes z then .error { code := .illegal, lane := c.lowest.getD 0 }
    else
      match c.laneAddrs cost r x (Size.bytes z) (c.validLanes cost x) with
      | .error e => .error e
      | .ok as =>
        let (s, ts) := State.laneTargets c.team r .read as s
        match s.stopsAccess c r ts FaultCode.stopsLoad fun pa => (s.anyRingAt pa).isSome with
        | some e => .error e
        | none =>
          if r.bound then
            if s.boundHolds c f ts then .ok s₀.stall
            else
              match if c.wave.runahead.isSome then (s.badLanes ts .lineLost ++ s.badLanes ts .eccUncorr).head? else none with
              | some t => .error { code := .lineLost, lane := t.lane }
              | none => .ok (s.boundLoad c cost i d f ts)
          else if c.wave.runahead.isSome then .ok (s.prefetchLoad c d z ts)
          else
            let (seq, s) := s.fresh
            let item := fun (l va : Nat) (src : LoadSrc) =>
              ({ lane := l, dst := c.phys d, pair := Fmt.size f = 8, src := src, va := BitVec.ofNat 64 va } : LoadItem)
            let items := as.map fun (l, va) =>
              match va, targetOf ts l with
              | some a, some (.error _) => item l a (.parked (.load f h none))
              | some a, some (.ok g) => item l a (s.loadSrc f h g)
              | _, _ => item l 0 (.value 0)
            .ok ((s.pushLoad c seq items).parkAccess c seq .page (ts.filter (·.failed .page)))) s₀

/-! ## ST -/

/-- A lane's store: lane, virtual and fabric-global address, bytes. -/
structure LaneStore where
  lane : Nat
  va : Nat
  pa : Nat
  bytes : List Byte
  deriving DecidableEq, Repr

/-- Whether a lane's store writes a byte. -/
def LaneStore.hits (w : LaneStore) (a : Nat) : Bool := decide (w.pa ≤ a ∧ a < w.pa + w.bytes.length)

/-- One request for the stores of the lanes of one slice to one line (R54): its first address, and its bytes up to its last one, the
highest-numbered lane winning on a byte (R101); none where no lane writes. -/
def lineRequest (ws : List LaneStore) : Nat × List (Option Byte) :=
  let lo := (ws.map (·.pa)).foldl Nat.min ((ws.map (·.pa)).headD 0)
  let hi := (ws.map fun w => w.pa + w.bytes.length).foldl Nat.max 0
  (lo, (List.range (hi - lo)).map fun i => ((ws.filter (·.hits (lo + i))).getLast?).map fun w => w.bytes.getD (lo + i - w.pa) 0)

/-- The requests of an ST, slice by slice, one for each distinct line of a slice (R54), each with its lanes' stores. An aligned element lies
in one line. -/
def coalesce (ws : List LaneStore) : List (List LaneStore) :=
  (List.range 4).flatMap fun k =>
    let mine := ws.filter fun w => w.lane / 16 == k
    (distinct (mine.map fun w => lineOf w.pa)).map fun line => mine.filter fun w => lineOf w.pa == line

/-- The stores of lanes of a team are sent out (R54, R226, R393). -/
def State.sendStores (s : State) (t : Team) (w : Nat) (bound : Bool) (ws : List LaneStore) : State :=
  (coalesce ws).foldl (fun s q =>
    let (pa, bs) := lineRequest q
    let va := ((q.find? fun x => x.pa == pa).map (·.va)).getD 0
    let s := if t.dual.isSome && devOf pa = s.ownDev then s.readFirst t w (localOf pa) bs.length else s
    s.storeOut t w pa bs (BitVec.ofNat 64 va) bound (q.any fun x => s.sharedAccess t x.va)) s

/-- ST (R99 to R102, R475). In runahead mode nothing is stored (R380). A store allocates nothing in the L1, so that its hint chooses nothing
(R60, R226). -/
def execSt (k : Pred) (d : Reg) (q : RecReg) (x : Reg) (h : Hint) (z : Size) (s : State) : Host.Outcome State Fault Refusal :=
  lanesOp (.st k d q x h z) (fun c cost s =>
    if c.wave.runahead.isSome then .ok s
    else
      let r := c.record q
      if Fmt.size r.format ≠ Size.bytes z then .error { code := .illegal, lane := c.lowest.getD 0 }
      else
        match c.laneAddrs cost r x (Size.bytes z) (c.lanes.filter fun l => (c.ctx cost l).guard k false) with
        | .error e => .error e
        | .ok as =>
          let (s, ts) := State.laneTargets c.team r .write as s
          match s.stopsAccess c r ts FaultCode.stopsLoad fun _ => false with
          | some e => .error e
          | none =>
            let ws := ts.filterMap fun t => t.pa.toOption.map fun g =>
              ({ lane := t.lane, va := t.va, pa := g, bytes := (c.ctx cost t.lane).data d z } : LaneStore)
            let s := s.sendStores c.team c.wave.idx r.bound ws
            let bad := ts.filter (·.failed .page)
            if bad.isEmpty then .ok s
            else
              let (seq, s) := s.fresh
              let items := bad.map fun t =>
                ({ lane := t.lane, dst := none, pair := false,
                   src := .parked (.store ((c.ctx cost t.lane).data d z)), va := BitVec.ofNat 64 t.va } : LoadItem)
              .ok ((s.pushLoad c seq items).parkAccess c seq .page bad)) s

/-! ## PREF -/

/-- Bring a line into the L2 of a core's die, and into the core's L1 at the hint's priority, unless that is .byp (R60, R298). -/
def State.prefetch (s : State) (core : Nat) (h : Hint) (pa : Nat) : State :=
  if s.inWindow pa || (s.lineFault pa).isSome then s
  else
    let s := s.request (dieOf core) (lineOf pa) false
    if h = .byp || s.heldAway (lineOf pa) then s else s.l1Fill core pa h

/-- The pieces in single lines of one lane's element or block (R298). -/
def BufRec.prefPieces (r : BufRec) (idx : Word) : List (Nat × Nat) :=
  let block := Fmt.blockBytes r.format
  if block ≠ 0 then
    let va := (r.va idx).toNat
    if r.extent.toNat ≤ idx.toNat ∨ 2 ^ 56 < va + block then [] else linePieces 3 va block
  else
    match r.addr idx (Fmt.size r.format) with
    | .ok (some va) => [(va, Fmt.size r.format)]
    | _ => []

/-- PREF (R298): lanes that would fault are dropped. -/
def execPref (q : RecReg) (x : Reg) (h : Hint) (z : Size) (s : State) : Host.Outcome State Fault Refusal :=
  lanesOp (.pref q x h z) (fun c cost s =>
    let r := c.record q
    let block := Fmt.blockBytes r.format != 0
    if (if block then z != .b else decide (Fmt.size r.format ≠ Size.bytes z)) then
      .error { code := .illegal, lane := c.lowest.getD 0 }
    else if r.bound then .ok s
    else
      .ok ((c.validLanes cost x).foldl (fun s l =>
        (r.prefPieces ((c.ctx cost l).reg x)).foldl (fun s p =>
          match s.translateFor c.team p.1 .read with
          | (s, .ok g) => if devOf g = s.ownDev then s.prefetch c.team.core h (localOf g) else s
          | (s, .error _) => s) s) s)) s

/-! ## WAITC -/

/-- The integer formats that WAITC accepts (R309). -/
def Fmt.isInt : Fmt → Bool
  | .s8 | .z8 | .s16 | .z16 | .s32 | .z32 | .s64 | .z64 => true
  | _ => false

/-- The lines of a device that a wait has armed monitors for: each line of a WAITC once, the line of an ACQ's object (R253, R266). -/
def BlockWhy.monitors (dev : Nat) : BlockWhy → List Nat
  | .waitc a => distinct (a.lanes.filterMap fun w => if w.poll.isSome then none else w.pa.bind fun g => if devOf g = dev then some (lineOf (localOf g)) else none)
  | .acq a => if a.poll.isSome || devOf a.obj != dev then [] else [lineOf (localOf a.obj)]
  | _ => []

/-- Monitors armed in the slice of a line's home (R253). -/
def State.monitorsAt (s : State) (line : Nat) : Nat :=
  ((s.teams ++ s.saved).flatMap fun t => t.waves.flatMap fun w => w.blocks.flatMap (BlockWhy.monitors s.ownDev)).countP fun l =>
    homeDie l == homeDie line && sliceOf l == sliceOf line

/-- Lines of a list for which no monitor is free, each line taking one (R253): 256 for each slice. -/
def State.unmonitored (s : State) : List Nat → List Nat → List Nat
  | _, [] => []
  | taken, line :: ls =>
    let used := s.monitorsAt line + taken.countP fun l => homeDie l == homeDie line && sliceOf l == sliceOf line
    if used < 256 then State.unmonitored s (line :: taken) ls else line :: State.unmonitored s taken ls

/-- Whether the registers that an element's format makes of D lie in the wave's allocation: at the fetch the format is not known (R16, R310, log
entry 89). -/
def Issue.dFits (c : Issue) (d : Reg) (k : Nat) : Bool := decide (120 ≤ d.toNat ∨ c.run.winb + d.toNat + k ≤ c.wave.nregs)

/-- WAITC (R252, R253, R309): the entry is Blocked from the trailer until each lane's compare has been observed true, which the
compare at arming may already do. While a FENCE, an ACQ or a tag of the wave holds it back it is not armed (R266, R267, R281). -/
def execWaitc (d : Reg) (q : RecReg) (x : Reg) (cnd : WCond) (s : State) : Host.Outcome State Fault Refusal :=
  let i := Instr.waitc d q x cnd
  lanesOp i (fun c cost s =>
    if c.wave.runahead.isSome then .ok s
    else
      let r := c.record q
      let f := r.format
      if !Fmt.isInt f || (Fmt.size f = 8 && d.toNat < 120 && d.toNat % 2 = 1) || !c.dFits d (Fmt.regs f) then
        .error { code := .illegal, lane := c.lowest.getD 0 }
      else
        match c.laneAddrs cost r x (Fmt.size f) c.lanes with
        | .error e => .error e
        | .ok as =>
          let (s, ts) := State.laneTargets c.team r .read as s
          match s.stopsAccess c r ts (fun f => f != .page && f != .prot) fun _ => false with
          | some e => .error e
          | none =>
            let faults := ts.filterMap fun t => match t.pa with
              | .error f => some (t, f)
              | .ok g => if devOf g = s.ownDev then (s.lineFault (localOf g)).map fun f => (t, f) else none
            match faults with
            | (t, f) :: _ => .ok (s.parkAtTrailer c (c.redo i cost c.lanes) f t.lane t.va (f == .page))
            | [] =>
              let own := fun g : Nat => if devOf g = s.ownDev then some (localOf g) else none
              let polled := s.unmonitored [] (distinct (ts.filterMap fun t => (t.pa.toOption.bind own).map lineOf))
              let (seq, s) := s.fresh
              let lanes := as.map fun (l, _) =>
                let t := ts.find? fun t => t.lane == l
                let g := t.bind fun t => t.pa.toOption
                let y := c.ctx cost l
                ({ lane := l, pa := g, va := BitVec.ofNat 64 ((t.map (·.va)).getD 0),
                   val := if Fmt.size f = 8 then y.pair d else zext64 (y.reg d), seen := false,
                   poll := match g.map own with
                     | none => none
                     | some none => some s.time
                     | some (some a) => if polled.contains (lineOf a) then some s.time else none,
                   after := ((g.bind own).map fun a => s.writesBefore c.team.id c.wave seq a (Fmt.size f)).getD [] } : WaitLane)
              let a : CmpWait := { seq := seq, armed := false, fmt := f, cond := cnd, lanes := lanes, redo := c.redo i cost c.lanes }
              let wait := fun (s : State) (a : CmpWait) => s.updRun fun r => { r with blocks := r.blocks ++ [.waitc a] }
              if c.wave.gates seq then .ok (wait s a)
              else
                match State.compareLanes a (fun _ => true) lanes s with
                | (s, .error (e, l)) => .ok (s.parkAtTrailer c a.redo e l.lane l.va.toNat false)
                | (s, .ok ls) =>
                  let s := s.observed c.team c.wave.idx (Fmt.size f) ((ls.filter (·.seen)).filterMap (·.pa))
                  .ok (if ls.all (·.seen) then s else wait s { a with armed := true, lanes := ls })) s

/-! ## ATOM, RED and CAS -/

/-- Whether an operation accepts an element type (R310). -/
def RmwOp.takes (op : RmwOp) (f : Fmt) : Bool :=
  op != .join && (Fmt.isInt f || match op, f with
    | .add, .f32 | .add, .f16 | .add, .bf16 | .min, .f32 | .min, .f16 | .min, .bf16 | .max, .f32 | .max, .f16
    | .max, .bf16 => true
    | .xchg, g | .cas, g => decide (Fmt.size g ≠ 0)
    | _, _ => false)

/-- Whether D may hold the operands of an atomic (R310). -/
def RmwOp.dataOk (op : RmwOp) (f : Fmt) (d : Reg) : Bool :=
  if op = .cas then
    (if Fmt.size f = 8 then d.toNat % 4 == 0 && decide (d.toNat ≤ 116) else d.toNat % 2 == 0 || decide (120 < d.toNat))
  else decide (Fmt.size f ≠ 8) || decide (120 ≤ d.toNat) || d.toNat % 2 == 0

/-- The operand, and for CAS the comparand, of a lane (R310). -/
def RmwOp.operands (op : RmwOp) (f : Fmt) (x : LaneCtx) (d : Reg) : DWord × DWord :=
  if op = .cas then
    (if Fmt.size f = 8 then (mkPair (x.grp d 2) (x.grp d 3), x.pair d) else (zext64 (x.grp d 1), zext64 (x.grp d 0)))
  else (if Fmt.size f = 8 then x.pair d else zext64 (x.reg d), 0)

/-- Whether a stalagmite line takes an atomic: RED.add of its ring's element type (R249, R312). -/
def State.takesRed (s : State) (op : RmwOp) (f : Fmt) (returns : Bool) (pa : Nat) : Bool :=
  op == .add && !returns && ((s.anyRingAt pa).map fun r => f == if r.1.int then Fmt.s32 else Fmt.f32).getD false

/-- The requests of lanes whose targets are known: lanes that address one element share a request (R255). -/
def State.sendRmws (s : State) (t : Team) (w : Nat) (pc : Word) (op : RmwOp) (f : Fmt) (level : Nat) (load : Option Nat) (bound : Bool)
    (xs : List (Nat × Nat × Nat × DWord × DWord)) : State :=
  let req := s.nextId
  let elems := distinct (xs.map fun x => x.2.2.1)
  let ordered := s.ordered t
  let (carries, after) := s.writeDeps t.id w
  let prior := (((s.wave? t.id w).map (·.before)).getD []).filter s.unperformed
  let s := { s with nextId := s.nextId + elems.length }
  xs.foldl (fun s (l, va, g, a, b) =>
    let (id, s) := s.fresh
    let far := devOf g != s.ownDev
    let pa := if far then g else localOf g
    let m : Rmw :=
      { id := id, req := req + elems.idxOf g, team := t.id, wave := w, lane := l, core := t.core, pa := pa, op := op,
        fmt := f, operand := a, comparand := b, load := load, level := level, ordered := ordered, remote := far,
        sentAt := none, va := BitVec.ofNat 64 va, pc := pc, carries := carries, after := after, prior := prior, bound := bound }
    let s := { s with rmws := s.rmws ++ [m] }
    if far then s else s.l1Drop t.core (lineOf pa)) s

/-- ATOM, RED and CAS (R310 to R313): the lanes' operations are sent to their homes. Lanes that meet PAGE or PROT are parked.
In runahead mode nothing is sent, and the destination becomes runahead-invalid (R292). -/
def atomicOp (i : Instr) (op : RmwOp) (returns : Bool) (k : Pred) (d : Reg) (q : RecReg) (x : Reg) (sc : BitVec 3) (s : State) :
    Host.Outcome State Fault Refusal :=
  lanesOp i (fun c cost s =>
    let r := c.record q
    let f := r.format
    if c.wave.runahead.isSome then
      .ok (if returns then
          s.updCur fun w => w.mapActive c.run.mask fun _ ln => ln.markInvalid c.run.winb c.run.idx true false [(d, Fmt.regs f)] none
        else s)
    else if !RmwOp.takes op f || !RmwOp.dataOk op f d || !c.dFits d (Fmt.regs f * if op = .cas then 2 else 1) then .error { code := .illegal, lane := c.lowest.getD 0 }
    else
      match c.laneAddrs cost r x (Fmt.size f) (c.lanes.filter fun l => (c.ctx cost l).guard k false) with
      | .error e => .error e
      | .ok as =>
        let (s, ts) := State.laneTargets c.team r .rmw as s
        match s.stopsAccess c r ts (fun f => f != .page && f != .prot) fun pa => s.takesRed op f returns pa with
        | some e => .error e
        | none =>
          let (new, s) := s.fresh
          let seq := ((c.team.dual.bind (·.shares)).getD new)
          let xs := ts.filterMap fun t => t.pa.toOption.map fun g => (t.lane, t.va, g, RmwOp.operands op f (c.ctx cost t.lane) d)
          let s := if c.team.performs then
              s.sendRmws c.team c.wave.idx c.pc op f sc.toNat (if returns then some seq else none) r.bound xs
            else s
          let items := as.filterMap fun (l, va) =>
            let item := fun (a : Nat) (src : LoadSrc) =>
              some ({ lane := l, dst := if returns then c.phys d else none, pair := Fmt.size f = 8, src := src,
                      va := BitVec.ofNat 64 a } : LoadItem)
            match va, targetOf ts l with
            | some a, some (.error _) =>
              let (o, m) := RmwOp.operands op f (c.ctx cost l) d
              item a (.parked (.rmw op f o m sc.toNat returns none))
            | some a, some (.ok _) => if returns then item a .rmw else none
            | _, _ => if returns then item 0 (.value 0) else none
          .ok (((s.pushLoad c seq items).parkAccess c seq .page (ts.filter (·.failed .page))).parkAccess c seq .prot
            (ts.filter (·.failed .prot)))) s

/-- ATOM.add (R310, R311). -/
def execAtomAdd (k : Pred) (d : Reg) (q : RecReg) (x : Reg) (sc : BitVec 3) (s : State) : Host.Outcome State Fault Refusal :=
  atomicOp (.atomAdd k d q x sc) .add true k d q x sc s

/-- RED.add (R310, R311). -/
def execRedAdd (k : Pred) (d : Reg) (q : RecReg) (x : Reg) (sc : BitVec 3) (s : State) : Host.Outcome State Fault Refusal :=
  atomicOp (.redAdd k d q x sc) .add false k d q x sc s

/-- ATOM.min (R310, R311). -/
def execAtomMin (k : Pred) (d : Reg) (q : RecReg) (x : Reg) (sc : BitVec 3) (s : State) : Host.Outcome State Fault Refusal :=
  atomicOp (.atomMin k d q x sc) .min true k d q x sc s

/-- RED.min (R310, R311). -/
def execRedMin (k : Pred) (d : Reg) (q : RecReg) (x : Reg) (sc : BitVec 3) (s : State) : Host.Outcome State Fault Refusal :=
  atomicOp (.redMin k d q x sc) .min false k d q x sc s

/-- ATOM.max (R310, R311). -/
def execAtomMax (k : Pred) (d : Reg) (q : RecReg) (x : Reg) (sc : BitVec 3) (s : State) : Host.Outcome State Fault Refusal :=
  atomicOp (.atomMax k d q x sc) .max true k d q x sc s

/-- RED.max (R310, R311). -/
def execRedMax (k : Pred) (d : Reg) (q : RecReg) (x : Reg) (sc : BitVec 3) (s : State) : Host.Outcome State Fault Refusal :=
  atomicOp (.redMax k d q x sc) .max false k d q x sc s

/-- ATOM.and (R310, R311). -/
def execAtomAnd (k : Pred) (d : Reg) (q : RecReg) (x : Reg) (sc : BitVec 3) (s : State) : Host.Outcome State Fault Refusal :=
  atomicOp (.atomAnd k d q x sc) .and true k d q x sc s

/-- RED.and (R310, R311). -/
def execRedAnd (k : Pred) (d : Reg) (q : RecReg) (x : Reg) (sc : BitVec 3) (s : State) : Host.Outcome State Fault Refusal :=
  atomicOp (.redAnd k d q x sc) .and false k d q x sc s

/-- ATOM.or (R310, R311). -/
def execAtomOr (k : Pred) (d : Reg) (q : RecReg) (x : Reg) (sc : BitVec 3) (s : State) : Host.Outcome State Fault Refusal :=
  atomicOp (.atomOr k d q x sc) .or true k d q x sc s

/-- RED.or (R310, R311). -/
def execRedOr (k : Pred) (d : Reg) (q : RecReg) (x : Reg) (sc : BitVec 3) (s : State) : Host.Outcome State Fault Refusal :=
  atomicOp (.redOr k d q x sc) .or false k d q x sc s

/-- ATOM.xor (R310, R311). -/
def execAtomXor (k : Pred) (d : Reg) (q : RecReg) (x : Reg) (sc : BitVec 3) (s : State) : Host.Outcome State Fault Refusal :=
  atomicOp (.atomXor k d q x sc) .xor true k d q x sc s

/-- RED.xor (R310, R311). -/
def execRedXor (k : Pred) (d : Reg) (q : RecReg) (x : Reg) (sc : BitVec 3) (s : State) : Host.Outcome State Fault Refusal :=
  atomicOp (.redXor k d q x sc) .xor false k d q x sc s

/-- ATOM.xchg (R310, R311). -/
def execAtomXchg (k : Pred) (d : Reg) (q : RecReg) (x : Reg) (sc : BitVec 3) (s : State) : Host.Outcome State Fault Refusal :=
  atomicOp (.atomXchg k d q x sc) .xchg true k d q x sc s

/-- CAS (R310, R311). -/
def execCas (k : Pred) (d : Reg) (q : RecReg) (x : Reg) (sc : BitVec 3) (s : State) : Host.Outcome State Fault Refusal :=
  atomicOp (.cas k d q x sc) .cas true k d q x sc s

end Sys2Proof.Machine
end

