-- ==== Sys2Proof/Machine/RingCore.lean ====
section
/-!
DEFINITION. Stalagmite slots (R247 to R250, R340 to R343): the dripstone adds (R132, R134, R135), the arrivals of a slot in free and
in ordered mode (R287, R288), completion, and reads of a slot's lines (R249, R289).
-/

namespace Sys2Proof.Machine

/-! ## Adds -/

/-- The dripstone add of one element: FP32 or saturating INT32; of the flags only NV and OF are recorded (R132, R134, R135). -/
def dripAdd (int : Bool) (a p : Word) : Word × Word :=
  if int then
    let (v, c) := saturate (intRange true 32) (a.toInt + p.toInt)
    (BitVec.ofInt 32 v, flIf c flOF)
  else
    let r := (f32 a).add false (f32 p)
    let (c, fl) := FpFmt.f32.encode .rne r
    (codeW c, (fl ||| nvOf [f32 a, f32 p] r) &&& (flNV ||| flOF))

/-- Sorted element lists added together, at most `fuel` elements of both: the sums that are not zero, and the flags. -/
def mergeAdds (int : Bool) : Nat → List (Nat × Word) → List (Nat × Word) → List (Nat × Word) × Word
  | 0, d, _ => (d, 0)
  | _ + 1, d, [] => (d, 0)
  | n + 1, [], (i, p) :: as =>
    let (v, fl) := dripAdd int 0 p
    let (r, g) := mergeAdds int n [] as
    (if v = 0 then r else (i, v) :: r, fl ||| g)
  | n + 1, (j, x) :: d, (i, p) :: as =>
    if j < i then let (r, g) := mergeAdds int n d ((i, p) :: as); ((j, x) :: r, g)
    else
      let (v, fl) := dripAdd int (if i = j then x else 0) p
      let (r, g) := mergeAdds int n (if i = j then d else (j, x) :: d) as
      (if v = 0 then r else (i, v) :: r, fl ||| g)

/-- Adds applied to a slot; an error bit stops them (R250). -/
def Slot.add (int : Bool) (x : Slot) (adds : List (Nat × Word)) : Slot :=
  if x.err.isSome then x
  else
    let (d, fl) := mergeAdds int (x.data.length + adds.length) x.data adds
    { x with data := d, flags := x.flags ||| fl }

/-- A free slot, Armed again (R248). -/
def Slot.fresh : Slot := { st := .armed, count := 0, vr := 0, flags := 0, err := none, data := [], tags := [] }

/-! ## Arrivals (R248, R287, R288) -/

/-- What an arrival meets at an Armed slot. -/
inductive Meets where
  | apply | discard | hold
  deriving DecidableEq, Repr

/-- Whether a partial or a lane RED is applied, discarded as a tag error, or held (R249, R287, R288). -/
def Slot.meets (target : Nat) (x : Slot) (a : Arrival) : Meets :=
  if x.st ≠ .armed then .hold
  else if a.cmd.isNone then (if a.ordered then .hold else .apply)
  else if !a.ordered then .apply
  else if target ≤ a.ktag || x.tags.contains a.ktag then .discard
  else if a.ktag = x.tags.length then .apply
  else .hold

/-- The slot after an arrival that it takes (R248, R287); `first` is the address of its first line, for a tag error. -/
def Slot.take (int : Bool) (target : Nat) (first : DWord) (x : Slot) (a : Arrival) : Slot :=
  match x.meets target a with
  | .hold => x
  | .discard => { x with err := some (x.err.getD (.illegal, first)) }
  | .apply =>
    let y := x.add int a.adds
    if a.cmd.isNone then y
    else { y with count := y.count + 1, vr := Nat.max y.vr a.rows, tags := if a.ordered then y.tags ++ [a.ktag] else y.tags }

/-- The lane REDs of an ordered launch that a slot holds are applied after its last partial (R288). -/
def Slot.complete (int : Bool) (reds : List Arrival) (x : Slot) : Slot :=
  { reds.foldl (fun x a => x.add int a.adds) x with st := .complete }

/-- Whether an arrival is for a slot. -/
def Arrival.isFor (a : Arrival) (r : Ring) (j : Nat) : Bool := a.die == r.die && a.ring == r.num && a.slot == j

/-- Replace a slot of a ring. -/
def State.updSlot (s : State) (r : Ring) (j : Nat) (f : Slot → Slot) : State :=
  { s with rings := s.rings.map fun q => if q.die = r.die ∧ q.num = r.num then { q with slots := q.slots.modify j f } else q }

/-- The ring with a home die and a number. -/
def State.ring? (s : State) (die num : Nat) : Option Ring := s.rings.find? fun r => r.die == die && r.num == num

/-- The same, whether the ring stands in the L2 or is saved (R388). -/
def State.liveRing? (s : State) (die num : Nat) : Option Ring :=
  s.ring? die num <|> s.savedRings.find? fun r => r.die == die && r.num == num

/-- The first line of a slot, by its virtual address (R340). -/
def Ring.slotBase (r : Ring) (j : Nat) : DWord := r.base + BitVec.ofNat 64 (8192 * j)

/-- What a slot holds is applied as far as it can be, and a slot that has reached its target completes (R248, R288). -/
def State.settleSlot (die num j : Nat) : Nat → State → State
  | 0, s => s
  | n + 1, s =>
    match s.ring? die num with
    | none => s
    | some r =>
      match r.slots[j]? with
      | none => s
      | some x =>
        if x.st = .armed ∧ r.target ≤ x.count then
          let reds := s.arrivals.filter fun a => a.isFor r j && a.held && a.cmd.isNone && a.ordered
          { s.updSlot r j (Slot.complete r.int reds) with
            arrivals := s.arrivals.filter fun a => !(a.isFor r j && a.held && a.cmd.isNone && a.ordered) }
        else
          match s.arrivals.find? fun a => a.isFor r j && a.held && x.meets r.target a != .hold with
          | none => s
          | some a =>
            State.settleSlot die num j n
              { s.updSlot r j fun x => x.take r.int r.target (r.slotBase j) a with arrivals := s.arrivals.filter fun b => b.id != a.id }

/-- An arrival reaches its slot: it is held there, and applied when the slot takes it (R249, R287). -/
def State.arrive (s : State) (id : Nat) : State :=
  match s.arrivals.find? fun a => a.id == id with
  | none => s
  | some a =>
    let s := { s with arrivals := s.arrivals.map fun b => if b.id = id then { b with held := true } else b }
    State.settleSlot a.die a.ring a.slot (s.arrivals.length + 2) s

/-- The L2 slice of the line that holds an element of a slot (R230, R340). -/
def Ring.sliceOfElem (r : Ring) (j i : Nat) : Nat := sliceOf (r.pas.getD j 0 + 4 * i)

/-- A partial of a free launch reaches the slices of a set first, and is added to the lines there; what it adds elsewhere is still on its way
(R287). It is counted with the last of its adds. -/
def State.arriveAt (s : State) (a : Arrival) (slices : BitVec 64) : State :=
  match s.ring? a.die a.ring with
  | none => s
  | some r =>
    let here := fun p : Nat × Word => laneIn slices (r.sliceOfElem a.slot p.1)
    if a.ordered || a.held || a.adds.all here || (r.slots[a.slot]?).any (fun x => x.st != .armed) then s.arrive a.id
    else
      { s.updSlot r a.slot fun x => x.add r.int (a.adds.filter here) with
        arrivals := s.arrivals.map fun b => if b.id = a.id then { b with adds := b.adds.filter fun p => !here p } else b }

/-- A slot passes through Free (R248), and what is held for it is applied to its new use. -/
def State.freeSlot (s : State) (r : Ring) (j : Nat) : State :=
  State.settleSlot r.die r.num j (s.arrivals.length + 2) (s.updSlot r j fun _ => Slot.fresh)

/-- A lane RED.add at a stalagmite line (R249, R288): an arrival that counts for nothing. -/
def State.ringRed (s : State) (m : Rmw) (r : Ring) (slot off : Nat) : State :=
  let (id, s) := s.fresh
  let a : Arrival :=
    { id := id, die := r.die, ring := r.num, slot := slot, rows := 0, adds := [(off / 4, lo32 m.operand)], ktag := 0,
      ordered := m.ordered, cmd := none, held := false }
  ({ s with arrivals := s.arrivals ++ [a] }).arrive id

/-! ## Reads (R249, R250) -/

/-- The value of an element of a slot. -/
def Slot.elem (x : Slot) (i : Nat) : Word := ((x.data.find? fun p => p.1 == i).map (·.2)).getD 0

/-- Bytes of a slot from an offset (R340). -/
def Slot.bytes (x : Slot) (off n : Nat) : List Byte :=
  (List.range n).map fun i => BitVec.ofNat 8 ((x.elem ((off + i) / 4)).toNat / 256 ^ ((off + i) % 4))

/-- A read of stalagmite bytes: none while the slot is Armed or its ring saved; the completed bytes, or the code that the slot's error recorded;
ACC_STATE where no ring is (R247, R249, R250, R343). -/
def State.readSlot (s : State) (pa n : Nat) : Option (Except FaultCode (List Byte)) :=
  match s.ringAt pa with
  | none => if (s.savedRingAt pa).isSome then none else some (.error .accState)
  | some (r, j, off) =>
    match r.slots[j]? with
    | none => some (.error .accState)
    | some x =>
      if x.st = .armed then none
      else
        match x.err with
        | some e => some (.error e.1)
        | none => some (.ok (x.bytes off n))

end Sys2Proof.Machine
end

