-- ==== Sys2Proof/Machine/Barriers.lean ====
section
/-!
DEFINITION. RCB, YIELD, EXIT, LPASS, BAR, BARA, BARW and GBAR (R207 to R215). What blocks, passes or exits does so at the
trailer (R87, R199, R210).
-/

namespace Sys2Proof.Machine

/-- The entries formed at the trailer will be Blocked on `y` (R87). -/
def Run.blockOn (r : Run) (y : BlockWhy) : Run := { r with blocks := r.blocks ++ [y] }

/-- RCB: the entry is Blocked from the trailer until all lanes stand here (R186, R207). -/
def execRcb (s : State) : Host.Outcome State Fault Refusal :=
  waveOp .rcb (fun c _ s => .ok (s.updRun fun r => r.blockOn (.rcb c.pc))) s

/-- YIELD: the next selection skips the entry; the lantern passes and the turn ends (R184, R208). -/
def execYield (s : State) : Host.Outcome State Fault Refusal :=
  waveOp .yield (fun _ _ s => .ok (s.updRun fun r => { r with yields := true })) s

/-- EXIT: the active lanes end at the trailer (R209). -/
def execExit (s : State) : Host.Outcome State Fault Refusal :=
  waveOp .exit (fun _ _ s => .ok (s.updRun fun r => { r with exits := true })) s

/-- LPASS: the lantern passes at the trailer (R210). -/
def execLpass (s : State) : Host.Outcome State Fault Refusal :=
  waveOp .lpass (fun _ _ s => .ok (s.updRun fun r => { r with lpass := true })) s

/-- An arrival passes the lantern and ends the turn at the trailer (R214). -/
def Run.arrives (r : Run) : Run := { r with lpass := true, turnEnds := true }

/-- WAVES of the issuing team, 1 on a supervisor core. -/
def State.wavesOf (s : State) (t : Team) : Nat := ((s.launchOf t).map (·.region.waves)).getD 1

/-- BAR and BARA: an expected count above WAVES is ILLEGAL and no arrival is recorded; else the wave arrives (R211, R212). -/
def barAct (waits : Bool) (a : Reg) (b : BitVec 4) (c : Issue) (x : LaneCtx) (s : State) : Acted :=
  let e := (x.reg a).toNat
  if s.wavesOf c.team < e then .error { code := .illegal, lane := x.l }
  else
    let ph := ((c.team.barriers[b.toNat]?).map (·.phase)).getD false
    let s := s.updRun fun r => if waits then r.arrives.blockOn (.barrier b.toNat ph) else r.arrives
    .ok (s.arriveBarrier c.team.id c.wave.idx b.toNat e)

/-- BAR (R211, R212). -/
def execBar (a : Reg) (b : BitVec 4) (s : State) : Host.Outcome State Fault Refusal := waveOp (.bar a b) (barAct true a b) s

/-- BARA: arrives and does not wait (R211, R212). -/
def execBara (a : Reg) (b : BitVec 4) (s : State) : Host.Outcome State Fault Refusal := waveOp (.bara a b) (barAct false a b) s

/-- BARW: waits for the phase at which the wave arrived, if it has one (R211, R212). -/
def execBarw (b : BitVec 4) (s : State) : Host.Outcome State Fault Refusal :=
  waveOp (.barw b) (fun c _ s =>
    match (c.wave.armed[b.toNat]?).join with
    | none => .ok s
    | some ph =>
      if (c.team.barriers[b.toNat]?).map (·.phase) = some ph then .ok (s.updRun fun r => r.blockOn (.barrier b.toNat ph))
      else .ok (s.updCur fun w => { w with armed := w.armed.set b.toNat none })) s

/-- GBAR: the wave joins its team's arrival; the entry is Blocked until the phase is released (R215). -/
def execGbar (a : Reg) (s : State) : Host.Outcome State Fault Refusal :=
  waveOp (.gbar a) (fun c x s =>
    let e := (x.reg a).toNat
    if c.team.gangSize < e then .error { code := .illegal, lane := x.l }
    else
      match s.launchOf c.team with
      | none => .ok s
      | some l =>
        let g := l.gangOf c.team
        let s := s.updLaunch l.id fun l => l.setGang { g with expected := some (g.expected.getD e) }
        let s := s.updCur fun w => { w with gbarDone := true }
        let s := s.updRun fun r => r.arrives.blockOn (.gangBarrier (g.phases % 2 == 1))
        let s := s.checkGang c.team
        .ok (s.releaseGang c.team)) s

end Sys2Proof.Machine
end

