-- ==== Sys2Proof/Machine/Sync.lean ====
section
/-!
DEFINITION. ACQ, REL and FENCE (R264 to R267, R305 to R308).
-/

namespace Sys2Proof.Machine

/-- The address of a sync object of a team's launch, when its index names one (R264, R305). -/
def State.syncObject (s : State) (t : Team) (index : Nat) : Option Nat :=
  match (s.launchOf t).bind fun l => l.region.syn[index]? with
  | none => none
  | some a => if a = 0 then none else some a.toNat

/-- The fabric-global address of a sync object for an access, or the fault that an access of it meets (R306, R307, R313). -/
def State.objectFor (s : State) (t : Team) (index : Nat) (k : Access) : State × Except (FaultCode × Option Nat × Word) Nat :=
  match s.syncObject t index with
  | none => (s, .error (.illegal, none, 0))
  | some va =>
    if va % 8 ≠ 0 then (s, .error (.align, some va, 0))
    else
      match s.translateFor t va k with
      | (s, .error f) => (s, .error (f, some va, 0))
      | (s, .ok g) =>
        if devOf g ≠ s.ownDev then (s, .ok g)
        else if s.inWindow (localOf g) then (s, .error (.accState, some va, 0))
        else if k = .read then (s, .ok g)
        else
          match s.lineFault (localOf g) with
          | some f => (s, .error (f, some va, 0))
          | none => (s, .ok g)

/-- ACQ (R266, R306): the acquire read is made at once, unless something of the wave holds it back (R267, R272); when it does not satisfy the
test the entry is Blocked on it. Without a free monitor in its slice, or on another device, the object is polled (R253). -/
def execAcq (sc : BitVec 3) (a b : Reg) (s : State) : Host.Outcome State Fault Refusal :=
  memWaveOp (.acq sc a b) (fun c x s =>
    let index := (x.reg a).toNat
    match s.objectFor c.team index .read with
    | (s, .error e) => (s, .error e)
    | (s, .ok obj) =>
      let (seq, s) := s.fresh
      let va := (s.syncObject c.team index).getD 0
      let polled := devOf obj != s.ownDev || !(s.unmonitored [] [lineOf (localOf obj)]).isEmpty
      let q : AcqWait :=
        { seq := seq, armed := false, obj := obj, va := BitVec.ofNat 64 va, val := zext64 (x.reg b), level := sc.toNat, index := index,
          poll := if polled then some s.time else none, redo := c.redo (.acq sc a b) (c.cost (.acq sc a b) 1) [x.l] }
      let wait := fun (s : State) (q : AcqWait) => s.updRun fun r => { r with blocks := r.blocks ++ [.acq q] }
      if !s.mayAcquire c.team c.wave q then (wait s q, .ok ())
      else
        match s.objectValue obj with
        | (s, .error f) => (s, .error (f, some va, 0))
        | (s, .ok v) =>
          if q.val.toNat ≤ v.toNat then (s.acquire c.team c.wave.idx obj sc.toNat index, .ok ())
          else (wait s { q with armed := true }, .ok ())) s

/-- Whether a write with an identity lies in a list of pieces (R265). -/
def State.writeIn (s : State) (ps : List (Nat × Nat)) (id : Nat) : Bool :=
  let hit := fun (remote : Bool) (pa n : Nat) =>
    let g := if remote then pa else s.ownDev * 2 ^ 43 + pa
    ps.any fun p => overlap p.1 p.2 g n
  (s.posted.any fun p => p.id == id && hit p.remote p.pa p.bytes.length) ||
    s.rmws.any fun r => r.id == id && hit r.remote r.pa (Fmt.size r.fmt)

/-- The increment of a release: one RMW, which carries what precedes it to the object (R265, R269). -/
def State.increment (s : State) (t : Team) (w : Nat) (obj level : Nat) : Nat × State :=
  let pending := ((s.wave? t.id w).map fun v => s.wavePending t.id v).getD []
  let (carries, after) := s.writeDeps t.id w
  let (req, s) := s.fresh
  let (id, s) := s.fresh
  let far := devOf obj != s.ownDev
  let m : Rmw :=
    { id := id, req := req, team := t.id, wave := w, lane := 0, core := t.core, pa := if far then obj else localOf obj,
      op := .add, fmt := .z64, operand := 1, comparand := 0, load := none, level := level, ordered := s.ordered t,
      remote := far, sentAt := none, va := 0, pc := 0, carries := carries, after := after, prior := pending }
  let ids := unionIds (s.carried obj) pending
  let s := { s with rmws := s.rmws ++ [m], objects := (obj, ids) :: s.objects.filter fun o => o.1 != obj }
  (id, if far then s else s.l1Drop t.core (lineOf (localOf obj)))

/-- The unperformed writes that hb-precede an access of a wave with an identity: the wave's own that were issued before it, and those that
have reached the wave (R265, R267). -/
def State.precede (s : State) (t : Nat) (w : Wave) (seq : Nat) : List Nat :=
  (s.wavePending t w).filter fun i => decide (i < seq) || w.before.contains i

/-- The writes that a release at a scope level still waits for: those in its object's ranges that precede it (R265). -/
def State.relWaits (s : State) (t : Team) (w : Wave) (seq level index : Nat) : List Nat :=
  (s.scopeWaits level (s.precede t.id w seq)).filter (s.writeIn (s.boundPieces t index))

/-- REL (R265, R307): the entry is Blocked until the writes in the object's ranges that precede it are performed and the
increment is. The secondary of a DUAL pair performs none (R393). -/
def execRel (sc : BitVec 3) (a : Reg) (s : State) : Host.Outcome State Fault Refusal :=
  memWaveOp (.rel sc a) (fun c x s =>
    let index := (x.reg a).toNat
    match s.objectFor c.team index .rmw with
    | (s, .error e) => (s, .error e)
    | (s, .ok obj) =>
      if !c.team.performs then (s, .ok ())
      else
        let (seq, s) := s.fresh
        let ids := s.relWaits c.team c.wave seq sc.toNat index
        let wait := fun (s : State) (inc : Option Nat) => s.updRun fun r => { r with blocks := r.blocks ++ [.rel seq obj sc.toNat index ids inc] }
        if ids.isEmpty && !c.wave.gates seq then
          let (id, s) := s.increment c.team c.wave.idx obj sc.toNat
          (wait s (some id), .ok ())
        else (wait s none, .ok ())) s

/-- A release looked at again: the increment follows once what precedes it is performed (R265). -/
def State.tryRelInc (s : State) (t : Team) (w : Wave) (y : BlockWhy) : State :=
  match y with
  | .rel seq obj level index ids none =>
    if w.gates seq || !(s.relWaits t w seq level index).isEmpty then s
    else
      let (id, s) := s.increment t w.idx obj level
      s.changeWhy t.id w.idx y (.rel seq obj level index ids (some id))
  | .rel _ _ _ _ _ (some id) => if s.performed [id] then s.updWave t.id w.idx fun w => w.unblock (· == y) else s
  | _ => s

/-- Whether a result still waits for a read of memory to be made (R267, R280). -/
def Load.reads (l : Load) : Bool :=
  l.items.any fun i => match i.src with
    | .memory _ _ _ | .remote _ _ _ _ | .reissue _ _ | .rmw | .member _ _ _ | .parked _ => true
    | _ => false

/-- Whether a read of the wave that was issued before an identity has still to return: a load, a record load, or the read of a WAITC, an ACQ
or a tag (R267, R280). -/
def Wave.readsOut (w : Wave) (seq : Nat) : Bool :=
  (w.loads.any fun l => decide (l.seq < seq) && l.reads) || (w.recLoads.any fun r => decide (r.seq < seq)) ||
  w.blocks.any fun y => y.seq?.any fun q => decide (q < seq)

/-- The unperformed writes that hb-precede a FENCE: those of `precede`, what the wave has read from, and what was fenced before the writes
that it has read (R267, R270, R275). -/
def State.fencePending (s : State) (t : Nat) (w : Wave) (seq : Nat) : List Nat :=
  unionIds (unionIds (s.precede t w seq) w.deps.readFrom) w.deps.carried

/-- Whether a FENCE must wait (R267, R308). -/
def State.fenceHolds (s : State) (t : Nat) (w : Wave) (seq level : Nat) : Bool :=
  w.readsOut seq || !(s.scopeWaits level (s.fencePending t w seq)).isEmpty

/-- A FENCE completes (R267, R270): the copies of R263 are dropped, what was fenced before the writes that the wave has read precedes what
follows, and what is unperformed is carried by the wave's later writes. -/
def State.completeFence (s : State) (t : Team) (w : Wave) (seq level : Nat) : State :=
  let ids := (s.fencePending t.id w seq).filter s.unperformed
  let carried := w.deps.carried.filter s.unperformed
  (s.dropCopies t.core level fun _ => true).updWave t.id w.idx fun v =>
    { v with before := unionIds v.before carried
             deps := { v.deps with fenced := ids, carried := v.deps.carried.filter fun i => !carried.contains i } }

/-- FENCE (R267, R308): the entry is Blocked until the wave's earlier reads have returned and the writes that precede it are
performed; then the copies of R263 are dropped. -/
def execFence (sc : BitVec 3) (s : State) : Host.Outcome State Fault Refusal :=
  memWaveOp (.fence sc) (fun c _ s =>
    let (seq, s) := s.fresh
    if s.fenceHolds c.team.id c.wave seq sc.toNat then
      (s.updRun fun r => { r with blocks := r.blocks ++ [.fence seq sc.toNat (s.fencePending c.team.id c.wave seq)] }, .ok ())
    else (s.completeFence c.team c.wave seq sc.toNat, .ok ())) s

end Sys2Proof.Machine
end

