-- ==== Sys2Proof/Machine/Tasks.lean ====
section
/-!
DEFINITION. Tasks and launches by a wave: deques, spill and stealing (R189 to R193), FORK, TAKE, JOIN and LAUNCH (R216 to
R220), and the steal unit's probe.
-/

namespace Sys2Proof.Machine

/-! ## Records and deques -/

/-- A task record, or the fault of its check (R12, R189, R217). -/
def Task.ofBytes (b : List Byte) (after : List Nat) : Except FaultCode Task :=
  if !versionOk (b.getD 0 0) then .error .version
  else if minorZero (b.getD 0 0) && !zeroBytes b 1 7 then .error .illegal
  else .ok { entry := field64 b 8, joinc := field64 b 16, args := (List.range 10).map fun i => field32 b (24 + 4 * i),
             after := after }

/-- The bytes of a task record (R189). -/
def Task.bytes (t : Task) : List Byte :=
  0x10 :: List.replicate 7 0 ++ bytesLE 8 t.entry.toNat ++ bytesLE 8 t.joinc.toNat ++ t.args.flatMap fun a => bytesLE 4 a.toNat

/-- The number of a core among the cores of its partition, in ascending order (R191). -/
def State.coreRank (s : State) (core : Nat) : Nat :=
  match s.core? core with
  | none => 0
  | some c => s.cores.countP fun d => d.part == c.part && decide (d.id < core)

/-- Write a spilled block into its place in the core's spill segment, where it can be written (R191). -/
def State.spillImage (s : State) (t : Team) (r : Region) (index : Nat) (block : List Task) : State :=
  let base := r.spill.toNat + (s.coreRank t.core * r.spilln + index * 256) * 64
  (block.zipIdx.foldl fun s (x, i) =>
    match s.translateFor t (base + 64 * i) .write with
    | (s, .ok g) => if devOf g = s.ownDev ∧ !s.inWindow (localOf g) then s.storeNow (localOf g) x.bytes else s
    | (s, .error _) => s) s

/-- Push a record onto a team's core: the status of FORK, and the state (R191, R217). -/
def State.pushTask (s : State) (t : Team) (x : Task) : Nat × State :=
  match s.core? t.core, s.launchOf t with
  | some c, some l =>
    if c.deque.length < 512 then (0, s.updCore c.id fun c => { c with deque := x :: c.deque })
    else
      let held := (c.spill.map List.length).sum
      if l.region.spilln < held + 256 then (2, s)
      else
        let block := c.deque.drop (c.deque.length - 256)
        let s := s.spillImage t l.region c.spill.length block
        (1, s.updCore c.id fun c => { c with deque := x :: c.deque.take (c.deque.length - 256), spill := block :: c.spill })
  | _, _ => (2, s)

/-- Pop the youngest record of a core; an empty deque first takes back the youngest spilled block (R190, R191). -/
def State.popTask (s : State) (core : Nat) : Option (Task × State) :=
  match s.core? core with
  | none => none
  | some c =>
    match c.deque, c.spill with
    | x :: d, _ => some (x, s.updCore core fun c => { c with deque := d })
    | [], (x :: b) :: bs => some (x, s.updCore core fun c => { c with deque := b, spill := bs })
    | [], _ => none

/-- Whether a team's launch is of a task region: elsewhere FORK, JOIN and TAKE are ILLEGAL at execution (R190, R217). -/
def State.inTask (s : State) (t : Team) : Bool := ((s.launchOf t).map (·.region.task)).getD false

/-- FORK (R193, R217): the record is ordered after what a FENCE.dev would wait for. -/
def execFork (d a : Reg) (s : State) : Host.Outcome State Fault Refusal :=
  memWaveOp (.fork d a) (fun c x s =>
    let va := (x.pair a).toNat
    if !s.inTask c.team then (s, .error (.illegal, none, 0))
    else if va % 64 ≠ 0 then (s, .error (.align, some va, 0))
    else
      match s.readVirtual c.team c.wave.idx va 64 with
      | (s, .error (f, b)) => (s, .error (f, some b, 0))
      | (s, .ok bs) =>
        match Task.ofBytes bs (s.fencePending c.team.id c.wave s.nextId) with
        | .error f => (s, .error (f, some va, 0))
        | .ok t =>
          let (st, s) := s.pushTask c.team t
          (s.statusLoad c d (BitVec.ofNat 32 st), .ok ())) s

/-! ## TAKE -/

/-- What a taking wave reads follows what the forking wave wrote: nothing of it is performed before those writes are, and the
core's copies are dropped (R193). -/
def State.takeOrder (s : State) (t : Team) (after : List Nat) : State × List BlockWhy :=
  let ids := s.scopeWaits 2 after
  if ids.isEmpty then (s.dropCopies t.core 2 fun _ => true, [])
  else
    let (seq, s) := s.fresh
    (s, [.taken seq ids])

/-- The registers that a taken record writes in one lane, from physical register `p` on (R218). -/
def takeRegs (p : Nat) (status : Option Nat) (st : Word) (t : Option Task) : List (Nat × Word) :=
  (match t with | some t => t.args.mapIdx fun i v => (p + i, v) | none => []) ++
    (match status with | some q => [(q, st)] | none => [])

/-- The other cores that hold teams of a team's launch, in the order of a thief's probes without its first choice (R190,
R192). -/
def State.stealSet (s : State) (t : Team) : List Nat :=
  let mine := s.teams.filter fun u => u.launch == t.launch && u.launch.isSome && !u.gone
  let cores := distinct (mine.map (·.core))
  if s.ordered t then
    let low := fun c => ((mine.filter fun u => u.core == c).map (·.logical)).foldl Nat.min 0xFFFFFFFF
    let order := sortBy (fun a b => decide (low a ≤ low b)) cores
    (order.dropWhile (· != t.core)).drop 1 ++ order.takeWhile (· != t.core)
  else (sortBy (fun a b => decide (a ≤ b)) cores).filter (· != t.core)

/-- TAKE (R216, R218). -/
def execTake (d a : Reg) (s : State) : Host.Outcome State Fault Refusal :=
  memWaveOp (.take d a) (fun c _ s =>
    let put := fun (st : Word) (t : Option Task) (s : State) => s.updCur fun w => w.mapActive c.run.mask fun _ ln =>
      ln.put c.run.idx (c.lastCycle 1 + 1) { regs := takeRegs (c.run.winb + d.toNat) (c.phys a) st t }
    if !s.inTask c.team then (s, .error (.illegal, none, 0))
    else match s.popTask c.team.core with
    | some (t, s) =>
      let (s, ys) := s.takeOrder c.team t.after
      let s := (put 0 (some t) s).updCur fun w => { w with joinCell := t.joinc, before := unionIds w.before t.after }
      (s.updRun fun r => { r with jump := some (lo32 t.entry, .here), blocks := r.blocks ++ ys }, .ok ())
    | none =>
      if (s.stealSet c.team).isEmpty then (put 2 none s, .ok ())
      else (s.updRun fun r => r.blockOn (.steal (c.run.winb + d.toNat) (c.phys a)), .ok ())) s

/-! ## The steal unit (R192) -/

/-- One step of the steal LFSR (R192). -/
def lfsrStep (x : BitVec 16) : BitVec 16 := if x.getLsbD 0 then (x >>> 1) ^^^ 0xB400 else x >>> 1

/-- The next victim: in ordered mode the members from the one that follows the thief on; in free mode the LFSR's choice first,
then the others in ascending order, wrapping. None when each has been probed. -/
def State.victim (s : State) (t : Team) (c : Core) : Option Nat :=
  let others := s.stealSet t
  match c.probed with
  | [] => if s.ordered t then others.head? else others[c.lfsr.toNat % others.length]?
  | last :: _ =>
    let after := if s.ordered t then (others.dropWhile (· != last)).drop 1 ++ others.takeWhile (· != last)
      else (others.filter fun v => decide (last < v)) ++ others.filter fun v => decide (v < last)
    after.find? fun v => !c.probed.contains v

/-- Records of a core, the youngest first, spill included. -/
def Core.records (c : Core) : List Task := c.deque ++ c.spill.flatten

/-- A list of spilled blocks without its `k` oldest records. -/
def dropOldest (k : Nat) : List (List Task) → List (List Task)
  | [] => []
  | b :: bs =>
    let older := bs.flatten.length
    if k < older then b :: dropOldest k bs
    else
      match b.take (b.length - (k - older)) with
      | [] => []
      | b' => [b']

/-- A core without its `k` oldest records. -/
def Core.dropOldest (k : Nat) (c : Core) : Core :=
  let n := c.spill.flatten.length
  if k < n then { c with spill := Machine.dropOldest k c.spill }
  else { c with spill := [], deque := c.deque.take (c.deque.length - (k - n)) }

/-- Blocks of 256 records cut from the old end of a list, the youngest block first, until at most 512 are left. -/
def spillDown : Nat → List Task → List (List Task) → List Task × List (List Task)
  | 0, d, bs => (d, bs)
  | n + 1, d, bs => if d.length ≤ 512 then (d, bs) else spillDown n (d.take (d.length - 256)) (d.drop (d.length - 256) :: bs)

/-- The waiting TAKE of a wave: its entry, registers and status register. -/
def Wave.stealWait (w : Wave) : Option (Entry × Nat × Option Nat) :=
  w.frontier.findSome? fun e => match e.st with
    | .blocked l => l.findSome? fun y => match y with
      | .steal d st => some (e, d, st)
      | _ => none
    | _ => none

/-- A waiting TAKE is answered: with a record its lanes go to the record's entry (R218). -/
def State.answerTake (s : State) (t : Team) (w : Wave) (e : Entry) (d : Nat) (st : Option Nat) (v : Word) (x : Option Task) :
    State :=
  let (s, ys) := match x with
    | some x => s.takeOrder t x.after
    | none => (s, [])
  s.updWave t.id w.idx fun w => w.both fun w =>
    let w := w.mapActive e.mask fun _ ln => (takeRegs d st v x).foldl (fun (r : Lane) p => r.write p.1 p.2) ln
    let e' : Entry := match x with
      | some x => { e with pc := lo32 x.entry, land := .here, st := if ys.isEmpty then .runnable else .blocked ys }
      | none => e.unblock w.loops fun y => match y with | .steal _ _ => true | _ => false
    { w with
      joinCell := (x.map fun (x : Task) => x.joinc).getD w.joinCell
      before := unionIds w.before ((x.map fun (x : Task) => x.after).getD [])
      frontier := addEntries (w.frontier.map fun f => if f = e then e' else f) [] }

/-- Answer the TAKEs that wait on a core, in the order of its teams and waves. When no victim had records they report empty; else they take
the youngest record while there is one: `own` of them were put here by a FORK meanwhile, and the others are stolen (R192, R218). -/
def State.serveTakes (s : State) (core : Nat) (last : Bool) (own : Nat) : List (Nat × Nat) → State
  | [] => s
  | (i, k) :: l =>
    match s.team? i, s.wave? i k with
    | some t, some w =>
      match w.stealWait with
      | none => s.serveTakes core last own l
      | some (e, d, st) =>
        if last then (s.answerTake t w e d st 2 none).serveTakes core last own l
        else
          match s.popTask core with
          | some (x, s') => (s'.answerTake t w e d st (if own = 0 then 1 else 0) (some x)).serveTakes core last (own - 1) l
          | none => s.serveTakes core last own l
    | _, _ => s.serveTakes core last own l

/-- STEAL (R192): one probe of a core's steal unit. It takes the older half of the victim's records; the unit stops there, or
when each member has been probed, and answers the TAKEs that wait. -/
def execSteal (core : Nat) (s : State) : Host.Outcome State Fault Refusal :=
  let waiting := s.teams.flatMap fun t => if t.core = core then
    (t.waves.filter fun w => w.stealWait.isSome).map fun w => (t.id, w.idx) else []
  match s.core? core, waiting.head?.bind fun p => s.team? p.1 with
  | some c, some t =>
    match s.victim t c with
    | none => .next ((s.updCore core fun c => { c with probed := [] }).serveTakes core true 0 waiting)
    | some v =>
      let s := s.updCore core fun c => { c with lfsr := lfsrStep c.lfsr }
      let rs := ((s.core? v).map Core.records).getD []
      if rs.isEmpty then
        let s := s.updCore core fun c => { c with probed := v :: c.probed }
        let done := (s.core? core).bind fun c => s.victim t c
        .next (if done.isSome then s
          else (s.updCore core fun c => { c with probed := [] }).serveTakes core true 0 waiting)
      else
        let k := (rs.length + 1) / 2
        let s := s.updCore v (Core.dropOldest k)
        let s := s.updCore core fun c =>
          let (d, bs) := spillDown (k / 256 + 1) (c.deque ++ rs.drop (rs.length - k)) []
          { c with deque := d, spill := c.spill ++ bs, probed := [] }
        .next (s.serveTakes core false c.records.length waiting)
  | _, _ => .next s

/-! ## JOIN -/

/-- JOIN (R193, R216, R219): the decrement is sent to the cell's home, which answers the status. -/
def execJoin (d : Reg) (s : State) : Host.Outcome State Fault Refusal :=
  memWaveOp (.join d) (fun c _ s =>
    let va := c.wave.joinCell.toNat
    if !s.inTask c.team then (s, .error (.illegal, none, 0))
    else if va = 0 then (s.statusLoad c d 2, .ok ())
    else if va % 8 ≠ 0 then (s, .error (.align, some va, 0))
    else
      match s.translateFor c.team va .rmw with
      | (s, .error f) => (s, .error (f, some va, 0))
      | (s, .ok g) =>
        let here := devOf g == s.ownDev
        if here && s.inWindow (localOf g) then (s, .error (.accState, some va, 0))
        else
          match if here then s.lineFault (localOf g) else none with
          | some f => (s, .error (f, some va, 0))
          | none =>
            let (new, s) := s.addLoad c (c.phys d) false (fun _ => .rmw) (some (c.redo (.join d) (c.cost (.join d) 1) []))
            let seq := (c.team.dual.bind (·.shares)).getD new
            let s := s.updCur fun w => { w with loads := w.loads.map fun l => if l.seq = new then { l with seq := seq } else l }
            if c.team.performs then
              (s.sendRmws c.team c.wave.idx c.pc .join .s64 2 (some seq) false [(c.lowest.getD 0, va, g, 0, 0)], .ok ())
            else (s, .ok ())) s

/-! ## LAUNCH -/

/-- The tag that a selector names: none for bit 31; a selector that may not be used is refused (R220, R329, R352). -/
def Team.tagOf (t : Team) (b : Word) : Except FaultCode (Option Nat) :=
  if b.getLsbD 31 then .ok none
  else if bitsOf b.toNat 6 25 ≠ 0 then .error .illegal
  else
    match t.tags[bitsOf b.toNat 0 6]? with
    | none => .error .illegal
    | some g => if g.owner.isSome then .error .illegal else .ok (some (bitsOf b.toNat 0 6))

/-- A command takes a tag: its bit is cleared (R329). -/
def State.ownTag (s : State) (team : Nat) (tag : Option Nat) (owner : Nat) : State :=
  match tag with
  | none => s
  | some k => s.updTeam team fun t => { t with tags := t.tags.modify k fun g => { g with ready := false, owner := some owner } }

/-- LAUNCH (R220): the launch is offered to the distributor. -/
def execLaunch (a b : Reg) (s : State) : Host.Outcome State Fault Refusal :=
  waveOp (.launch a b) (fun c x s =>
    match c.team.tagOf (x.reg b) with
    | .error f => .error { code := f, lane := x.l, aux := x.reg b }
    | .ok tag =>
      let (id, s) := s.fresh
      let o : Offer := { id := id, part := s.partOf c.team, template := x.pair a, source := .instr c.team.id tag,
                         after := s.wavePending c.team.id c.wave, args := none, prio := none }
      let s := if c.team.performs then { s with offers := s.offers ++ [o] } else s
      .ok (s.ownTag c.team.id tag id)) s

end Sys2Proof.Machine
end

