-- ==== Sys2Proof/Machine/Arrive.lean ====
section
/-!
DEFINITION. The arrival of data: LOAD_DATA_ARRIVAL (R37 to R39, R98, R475), and read-modify-writes at their home,
ATOMIC_AT_HOME (R255, R256, R273, R311). Faults that are found then (R182, R367, R475).
-/

namespace Sys2Proof.Machine

/-! ## Faults found after the issue -/

/-- Whether lanes can be parked now: each stands in an entry that may run, or in the current run. Lanes that are Blocked, Held or Parked are
parked once they are not (log entry 20). -/
def Wave.parkable (w : Wave) (m : BitVec 64) : Bool :=
  (m &&& w.frontier.foldl (fun b e => if e.st = .runnable then b else b ||| e.mask) 0) == 0

/-- Park lanes of a wave: those of its current run at the trailer, the others at once (R182). -/
def Wave.park (w : Wave) (m : BitVec 64) (p : Parking) : Wave :=
  let es := w.frontier.flatMap fun e =>
    if e.mask &&& m = 0 then [e]
    else [{ e with mask := e.mask &&& ~~~m }, { e with mask := e.mask &&& m, st := .parked [p], age := 0 }]
  { w with
    sel := none
    frontier := addEntries es []
    run := w.run.map fun r =>
      if r.mask &&& m = 0 then r
      else { r with parkedMask := r.parkedMask ||| (r.mask &&& m), parks := r.parks ++ [(r.mask &&& m, p)] } }

/-- A fault of lanes of a wave that is found after the issue: the lanes are parked and it is reported; on a supervisor core it is
a trap between runs (R182, R367, R374, R475). None while the lanes cannot be parked. -/
def State.lateFault (s : State) (team wave : Nat) (f : FaultInfo) (lanes : List Nat) (pa : Option Nat) (retry : Retry) :
    Option State :=
  match s.team? team with
  | none => none
  | some t =>
    match t.waves[wave]?.map Wave.restore with
    | none => none
    | some w =>
      let m := maskOf lanes &&& w.liveMask
      if m = 0 then some s
      else if !w.parkable m then none
      else
        let s := s.updWave team wave fun _ => w
        if t.isSup then
          if w.run.isSome then none
          else
            let pc := (w.frontier.head?.map (·.pc)).getD 0
            some (s.trapEntry t m f.code.num pc (f.addr.getD 0) f.pc)
        else
          let (id, s) := s.fresh
          let r := s.faultReport t wave f (f.code == .page && !f.ofInst) false id
          let s := s.addReport r
          let s := if f.code = .eccUncorr then s.deviceCopy r (pa.map (BitVec.ofNat 64)) else s
          some (s.updWave team wave fun w => w.park m ⟨f.code, id, retry⟩)

/-! ## Results -/

/-- What an item of a load comes to: nothing yet, a value, or a fault with its physical address. -/
inductive Resolved where
  | wait
  | value (v : DWord)
  | fault (f : FaultCode) (pa : Option Nat)
  deriving DecidableEq, Repr

/-- The first unperformed write to some bytes, at a fabric-global address, that a read of a wave must not return: the wave's own issued after it,
or one of its team that follows a barrier after it (R101, R213). It reads what precedes that write. -/
def State.laterWrite (s : State) (t : Nat) (w seq : Nat) (upTo : Option Nat) (g n : Nat) : Option Nat :=
  minBy id ((s.posted.filter fun p => p.team == t && ((p.wave == w && decide (seq < p.id)) || upTo.any fun k => decide (k ≤ p.id)) &&
    overlap (s.globalOf p) p.bytes.length g n).map (·.id))

/-- Bytes as they were before a store of the core with an identity: at their home or in the L2, without the L1 (R101). -/
def State.viewBefore (s : State) (core lim pa n : Nat) : List Byte :=
  ({ s with posted := s.posted.filter fun p => p.id < lim } : State).dieView core pa n

/-- Whether a read of a wave waits for what goes before it (R266, R267, R272, R281): a FENCE, an ACQ or a tag, a WAITC of its bytes, or a
read-modify-write of them. -/
def State.readHeld (s : State) (t : Team) (w : Wave) (seq g n : Nat) : Bool :=
  w.gates seq || w.waitcBefore g seq n ||
  if devOf g = s.ownDev then !(s.rmwsBefore t.id w seq (localOf g) n).isEmpty else s.farEarlier t.core seq g n false

/-- A lane load of memory of this device (R99, R226, R415): the line comes to the L2 of the core's die, and into the L1 at its hint's priority
unless that is .byp. It reads after the wave's earlier accesses to its bytes and before its later ones (R101, R272). A stalagmite line
answers once its slot is Complete (R249). -/
def State.resolveMemory (s : State) (t : Team) (w : Wave) (l : Load) (i : LoadItem) (pa : Nat) (f : Fmt) (h : Hint) : State × Resolved :=
  let n := Fmt.size f
  let g := s.ownDev * 2 ^ 43 + pa
  if s.inWindow pa then
    if w.gates l.seq then (s, .wait)
    else match s.readSlot pa n with
    | none => (s, .wait)
    | some (.error e) => (s, .fault e (some pa))
    | some (.ok bs) => (s, .value (extendElem f bs))
  else
    match if w.gates l.seq then none else s.lineFault pa with
    | some e => (s, .fault e (some pa))
    | none =>
      let s := if (s.l2Copy (dieOf t.core) (lineOf pa)).isSome then s else s.request (dieOf t.core) (lineOf pa) false
      if s.heldAway (lineOf pa) && !(s.modifiedCopy (lineOf pa)).any fun c => c.holder == dieOf t.core then (s, .wait)
      else if s.readHeld t w l.seq g n then (s, .wait)
      else
        let lim := s.laterWrite t.id w.idx l.seq l.upTo g n
        let (s, bs) := match lim with
          | some k => (s, s.viewBefore t.core k pa n)
          | none =>
            let bs := s.laneView t.core (h == Hint.byp) pa n
            (if h = Hint.byp then s.l1Refresh t.core pa bs else s.l1Fill t.core pa h, t.dualView g bs)
        (s.noteRead t w.idx i.regs g n lim, .value (extendElem f bs))

/-- The scoped copy of a line of another device in a die's L2 (R425). -/
def State.scopedCopy (s : State) (die line : Nat) : Option LineCopy := s.scopedCopies.find? fun c => c.holder == die && c.line == line

/-- Bytes of another device's memory as a core reads them, at a fabric-global address: with the writes of the core that are on their way to it,
below identity `lim` (R263, R272). -/
def State.farView (s : State) (core : Nat) (lim : Option Nat) (a : Nat) (bs : List Byte) : List Byte :=
  overlaid (s.posted.filter fun p => p.remote && p.core == core && !s.gated p.team p.wave p.id && (lim.map fun k => decide (p.id < k)).getD true) a bs

/-- A lane load of another device's memory (R425): from the scoped copy of the die's L2 when it has one, unless the hint is .byp. -/
def State.resolveRemote (s : State) (t : Team) (w : Wave) (l : Load) (i : LoadItem) (a : Nat) (f : Fmt) (h : Hint) : State × Resolved :=
  let n := Fmt.size f
  match if h = .byp || s.readHeld t w l.seq a n then none else s.scopedCopy (dieOf t.core) (lineOf a) with
  | some c =>
    let lim := s.laterWrite t.id w.idx l.seq l.upTo a n
    (s.noteRead t w.idx i.regs a n lim,
      .value (extendElem f (t.dualView a (s.farView t.core lim a (sliceBytes c.data (a - lineOf a) n)))))
  | none => (s, .wait)

/-- What one item of a load comes to now. -/
def State.resolve (s : State) (t : Team) (w : Wave) (l : Load) (i : LoadItem) : State × Resolved :=
  match i.src with
  | .value v | .status v => (s, .value v)
  | .memory pa f h => s.resolveMemory t w l i pa f h
  | .remote a f h _ => s.resolveRemote t w l i a.toNat f h
  | .remoteData bs f => (s, .value (extendElem f bs))
  | .performed ids v => (s, if s.performed ids then .value v else .wait)
  | .failed f => (s, .fault f none)
  | .spoiled => (s, .fault .eccUncorr none)
  | .member logical off size =>
    match if w.gates l.seq then none else s.member? t logical with
    | some u => (s, if u.spadError off size then .fault .eccUncorr none else .value (BitVec.ofNat 64 (natLE (u.spadRead off size))))
    | none => (s, .wait)
  | .fill insts =>
    let bs := s.insts.filter fun b => insts.contains b.id
    match bs.findSome? (·.failure) with
    | some f => (s, .fault f.1 none)
    | none => if bs.all BInst.complete then (s, .value 0) else (s, .wait)
  | _ => (s, .wait)

/-- The items of a load, each resolved in lane order. -/
def State.resolveAll (t : Team) (w : Wave) (l : Load) : List LoadItem → State → State × List (LoadItem × Resolved)
  | [], s => (s, [])
  | i :: is, s =>
    let (s, r) := s.resolve t w l i
    let (s, rs) := State.resolveAll t w l is s
    (s, (i, r) :: rs)

/-- Replace a load of a wave; a load without items is gone. -/
def Wave.mapLoad (w : Wave) (seq : Nat) (f : Load → Load) : Wave :=
  let ls := w.loads.map fun l => if l.seq = seq then f l else l
  { w with loads := ls.filter fun l => !l.items.isEmpty }

/-- Write a variable-latency result into a lane's registers (R37). -/
def Lane.receive (ln : Lane) (i : LoadItem) (v : DWord) : Lane :=
  match i.dst with
  | none => ln
  | some p => if i.pair then (ln.write p (lo32 v)).write (p + 1) (hi32 v) else ln.write p (lo32 v)

/-- Results written to the lanes that have not exited; in runahead mode to the checkpoint, to which the wave returns (R37,
R380). Registers that nothing is awaited for any more are unmarked. -/
def Wave.receive (w : Wave) (seq : Nat) (done : List (LoadItem × DWord)) : Wave :=
  let put := fun (ls : List Lane) => done.foldl (fun ls d =>
    if laneIn w.liveMask d.1.lane then ls.modify d.1.lane fun ln => ln.receive d.1 d.2 else ls) ls
  let w := match w.runahead with
    | some k => { w with runahead := some { k with lanes := put k.lanes } }
    | none => { w with lanes := put w.lanes }
  let w := w.mapLoad seq fun l => { l with items := l.items.filter fun i => !done.any fun d => d.1 == i }
  w.unmark (done.flatMap fun d => d.1.regs)

/-- How a load's access is repeated: a lane access lane by lane, a wave-scoped instruction whole (R367, R475). -/
def Load.retry (l : Load) (f : FaultCode) : Retry :=
  match l.whole with
  | some r => if FaultCode.ofAccess f then .whole r else .goOn
  | none => if FaultCode.ofAccess f then .access l.seq else .goOn

/-- An item whose access is to be repeated (R475): only the access of a lane is. -/
def LoadItem.parkedAs (i : LoadItem) : Option LoadItem :=
  match i.src with
  | .memory _ f h => some { i with src := .parked (.load f h none) }
  | .remote _ f h _ | .reissue f h => some { i with src := .parked (.load f h none) }
  | _ => none

/-- Items of a load that have met a fault: the lanes are parked, their items wait for the access's repetition or are dropped
(R475). Nothing happens while the lanes cannot be parked. -/
def State.faultItems (s : State) (team wave : Nat) (l : Load) (f : FaultCode) (pa : Option Nat) (is : List LoadItem) : State :=
  match is with
  | [] => s
  | i :: _ =>
    let told : Option DWord × Word × Bool := match i.src with
      | .fill insts => (((s.insts.filter fun (b : BInst) => insts.contains b.id).findSome? (·.failure)).map (·.2), 0, true)
      | .member _ _ _ | .spoiled => (none, 2, false)
      | _ => (some i.va, 0, false)
    let info : FaultInfo := { code := f, lane := i.lane, addr := told.1, aux := told.2.1, pc := l.pc, ofInst := told.2.2 }
    match s.lateFault team wave info (is.map (·.lane)) pa (l.retry f) with
    | none => s
    | some s =>
      let keep := if (s.team? team).any Team.isSup then fun _ : LoadItem => none
        else if FaultCode.ofAccess f then LoadItem.parkedAs else fun _ => none
      s.updWave team wave fun w =>
        let w := w.mapLoad l.seq fun x =>
          { x with items := x.items.flatMap fun j => if is.contains j then (keep j).toList else [j] }
        w.unmark (is.flatMap (·.regs))

/-- The bytes of a record load, once they can be had: none while what goes before it, or another device, has still to answer; or its fault
(R101, R102). -/
def State.recordBytes (s : State) (t : Team) (w : Wave) (r : RecLoad) : Option (Except FaultCode (List Byte)) :=
  match r.fault, r.data with
  | some f, _ => some (.error f)
  | none, some bs => some (.ok bs)
  | none, none =>
    let pa := localOf r.pa
    if devOf r.pa ≠ s.ownDev || s.readHeld t w r.seq r.pa 32 then none
    else if s.inWindow pa then some (.error .accState)
    else
      match s.lineFault pa with
      | some f => some (.error f)
      | none => some (.ok (match s.laterWrite t.id w.idx r.seq r.upTo r.pa 32 with
          | some lim => s.viewBefore t.core lim pa 32
          | none => s.dieView t.core pa 32))

/-- The read of a record of another device is sent, once nothing holds it back (R424). -/
def State.sendRecord (s : State) (t : Team) (w : Wave) (r : RecLoad) : State :=
  if devOf r.pa = s.ownDev || r.sent.isSome || s.readHeld t w r.seq r.pa 32 then s
  else
    let s := s.updWave t.id w.idx fun w => { w with recLoads := w.recLoads.map fun x => if x.seq = r.seq then { x with sent := some s.time } else x }
    if s.hasRoute (devOf r.pa) then s.send (devOf r.pa) (dieOf t.core) 0 (.access r.seq (BitVec.ofNat 64 r.pa) (.load 32)) else s

/-- A fault of a record load parks the entry, which repeats the instruction (R367, R475); nothing happens while it cannot be parked. -/
def State.failRecord (s : State) (t : Team) (w : Wave) (r : RecLoad) (pa : Option Nat) (f : FaultCode) : State :=
  let info : FaultInfo := { code := f, lane := (lanesOf w.width r.mask).head?.getD 0, addr := some r.va, pc := r.pc }
  let retry : Retry := if FaultCode.ofAccess f then .whole r.redo else .goOn
  match s.lateFault t.id w.idx info (lanesOf w.width r.mask) pa retry with
  | none => s
  | some s => s.updWave t.id w.idx fun w => { w with recLoads := w.recLoads.filter fun x => x.seq != r.seq }

/-- The record load of a team that has come back is issued again, its address translated anew (R383). -/
def State.reissueRecord (s : State) (t : Team) (w : Wave) (r : RecLoad) : State :=
  match s.translateFor t r.va.toNat .read with
  | (s, .error f) => s.failRecord t w r none f
  | (s, .ok g) => s.updWave t.id w.idx fun w => { w with recLoads := w.recLoads.map fun x =>
      if x.seq = r.seq then { x with pa := g, sent := none, reissue := false } else x }

/-- The data of a record load arrive (R97, R98): the record is checked, and is in force from the wave's next run on. A fault of the read parks
the entry, which repeats the instruction (R367, R475); nothing happens while it cannot be parked. -/
def State.arriveRecord (s : State) (t : Team) (w : Wave) (r : RecLoad) : State :=
  let drop := fun s : State => s.updWave t.id w.idx fun w => { w with recLoads := w.recLoads.filter fun x => x.seq != r.seq }
  let fail := s.failRecord t w r (if devOf r.pa = s.ownDev then some (localOf r.pa) else none)
  match s.recordBytes t w r with
  | none => s.sendRecord t w r
  | some (.error f) => fail f
  | some (.ok bs) =>
    let b := BufRec.ofBytes bs
    match b.check with
    | some f => fail f
    | none => drop ((s.noteRead t w.idx [] r.pa 32 (s.laterWrite t.id w.idx r.seq r.upTo r.pa 32)).updWave t.id w.idx fun w =>
        { w with recs := w.recs.set r.reg.toNat b })

/-- Whether an item is a read of another device that has not been sent. -/
def LoadItem.unsent (i : LoadItem) : Option Nat :=
  match i.src with
  | .remote a _ _ none => some a.toNat
  | _ => none

/-- The reads of a load from other devices are sent, one for each line, once no FENCE or ACQ and no earlier access of the core to
those bytes holds them back, and unless the die's L2 has the line (R272, R424, R425). -/
def State.sendReads (s : State) (t : Team) (w : Wave) (l : Load) : State :=
  let ready := fun i : LoadItem => match i.src with
    | .remote a f h none => (h == .byp || (s.scopedCopy (dieOf t.core) (lineOf a.toNat)).isNone) && !s.readHeld t w l.seq a.toNat (Fmt.size f)
    | _ => false
  let lines := distinct ((l.items.filter ready).filterMap fun i => i.unsent.map lineOf)
  let mark := fun i : LoadItem =>
    if ready i then { i with src := match i.src with | .remote a f h _ => LoadSrc.remote a f h (some s.time) | x => x } else i
  let s := s.updWave t.id w.idx fun w => w.mapLoad l.seq fun (l : Load) => { l with items := l.items.map mark }
  let put := fun (s : State) (line : Nat) =>
    if s.hasRoute (devOf line) then s.send (devOf line) (dieOf t.core) 0 (.access l.seq (BitVec.ofNat 64 line) (.load 64)) else s
  lines.foldl put s

/-- The lane loads of a team that has come back are issued again, each translated anew (R383): an item's new source, or its fault. -/
def State.reissueItem (s : State) (t : Team) (i : LoadItem) : State × Except FaultCode LoadItem :=
  match i.src with
  | .reissue f h =>
    match s.translateFor t i.va.toNat .read with
    | (s, .error e) => (s, .error e)
    | (s, .ok g) => (s, .ok { i with src := s.loadSrc f h g })
  | _ => (s, .ok i)

/-- The items of a load issued again: the load with their new sources, and the items that meet a fault. -/
def State.reissueItems (t : Team) : List LoadItem → State → State × List LoadItem × List (LoadItem × FaultCode)
  | [], s => (s, [], [])
  | i :: is, s =>
    let (s, r) := s.reissueItem t i
    let (s, js, bad) := State.reissueItems t is s
    match r with
    | .ok j => (s, j :: js, bad)
    | .error e => (s, i :: js, (i, e) :: bad)

/-- LOAD_DATA_ARRIVAL: the data of an outstanding result arrive for those of a set of lanes whose data are there (R37 to R39). -/
def execLoadDataArrival (team wave : Nat) (part : LoadPart) (s : State) : Host.Outcome State Fault Refusal :=
  match s.team? team, s.wave? team wave with
  | some t, some w =>
    match w.recLoads.find? fun r => r.seq == part.seq with
    | some r => .next (if r.reissue then s.reissueRecord t w r else s.arriveRecord t w r)
    | none =>
      match if s.secondaryLags team then none else w.loads.find? fun l => l.seq == part.seq with
      | none => .next s
      | some l =>
        let (s, items, lost) := State.reissueItems t l.items s
        let l := { l with items := items }
        let s := s.updWave team wave fun w => w.mapLoad part.seq fun x => { x with items := items }
        let (s, rs) := State.resolveAll t w l (l.items.filter fun i => laneIn part.lanes i.lane) s
        let done := rs.filterMap fun (i, r) => match r with | .value v => some (i, v) | _ => none
        let s := s.updWave team wave fun w => w.receive part.seq done
        let s := s.sendReads t w l
        let bad := lost.map (fun (i, f) => (i, f, none)) ++ rs.filterMap fun (i, r) => match r with | .fault f pa => some (i, f, pa) | _ => none
        .next ((distinct (bad.map (·.2.1))).foldl (fun s f =>
          let mine := bad.filter fun b => b.2.1 == f
          s.faultItems team wave l f (mine.head?.bind (·.2.2)) (mine.map (·.1))) s)
  | _, _ => .next s

/-! ## Read-modify-writes at home (R255, R256, R273, R310, R311) -/

/-- The floating-point format of an element type (R310). -/
def Fmt.fp : Fmt → Option FpFmt
  | .f32 => some .f32
  | .f16 => some .f16
  | .bf16 => some .bf16
  | _ => none

/-- Whether an integer element type is signed (R310). -/
def Fmt.signed : Fmt → Bool
  | .s8 | .s16 | .s32 | .s64 => true
  | _ => false

/-- A floating-point add with RNE, whatever %rmode holds (R310). -/
def fpAdd (f : FpFmt) (a b : Nat) : Nat × Word := finish f .rne (opAdd false [f.decode a, f.decode b])

/-- The new value of an element of `n` bits, with the flags it raises (R310, R311). -/
def rmwValue (op : RmwOp) (f : Fmt) (old d cmp : Nat) : Nat × Word :=
  let n := 8 * Fmt.size f
  match op, Fmt.fp f with
  | .add, some g => fpAdd g old d
  | .min, some g => fminmax g false false old d
  | .max, some g => fminmax g true false old d
  | .add, none => ((old + d) % 2 ^ n, 0)
  | .min, none => (if intOf (Fmt.signed f) n old ≤ intOf (Fmt.signed f) n d then old else d, 0)
  | .max, none => (if intOf (Fmt.signed f) n old ≤ intOf (Fmt.signed f) n d then d else old, 0)
  | .and, _ => (Nat.land old d, 0)
  | .or, _ => (Nat.lor old d, 0)
  | .xor, _ => (Nat.xor old d, 0)
  | .xchg, _ => (d, 0)
  | .cas, _ => (if old = cmp then d else old, 0)
  | .join, _ => ((old + 2 ^ n - 1) % 2 ^ n, 0)

/-- Members of a group applied one after another: the final value, each member's old value, the flags of all. -/
def rmwRun (f : Fmt) : Nat → List Rmw → Nat × List (Rmw × Nat) × Word
  | v, [] => (v, [], 0)
  | v, m :: ms =>
    let n := 2 ^ (8 * Fmt.size f)
    let (v', fl) := rmwValue m.op f v (m.operand.toNat % n) (m.comparand.toNat % n)
    let (r, os, g) := rmwRun f v' ms
    (r, (m, v) :: os, fl ||| g)

/-- The final value of a merged floating-point add: the members' operands are added first (R256). -/
def mergedAdd (g : FpFmt) (n v : Nat) : List Rmw → Nat × Word
  | [] => (v, 0)
  | m :: ms =>
    let (d, fl) := ms.foldl (fun a x => let (r, f) := fpAdd g a.1 (x.operand.toNat % n); (r, a.2 ||| f)) (m.operand.toNat % n, 0)
    let (r, f2) := fpAdd g v d
    (r, fl ||| f2)

/-- Raise flags in a lane when an operation is performed, after any SETS of the run that is in effect by then (R96, R311). -/
def Wave.raiseFlags (w : Wave) (l : Nat) (fl : Word) : Wave :=
  if fl = 0 || !laneIn w.liveMask l then w
  else
    match w.runahead, w.run with
    | some k, _ => { w with runahead := some { k with lanes := k.lanes.modify l fun ln => { ln with flags := ln.flags ||| fl } } }
    | none, some r => { w with lanes := w.lanes.modify l fun ln =>
        { ln with pend := ln.pend ++ [{ due := r.cycle, dst := .orFlags, val := fl }] } }
    | none, none => { w with lanes := w.lanes.modify l fun ln => { ln with flags := ln.flags ||| fl } }

/-- Answer a lane of a result that an RMW returns; the copies of a DUAL pair share it (R311, R393). -/
def State.answerRmw (s : State) (m : Rmw) (v : DWord) (fl : Word) : State :=
  let teams := m.team :: ((((s.teams ++ s.saved).find? fun t => t.id == m.team).bind (·.dual)).map (·.peer)).toList
  let answer := fun i : LoadItem => if (i.lane = m.lane ∨ m.op = .join) ∧ i.src = .rmw then { i with src := .value v } else i
  teams.foldl (fun s t => s.updAny t m.wave fun w =>
    (match m.load with
      | none => w
      | some q => w.mapLoad q fun l => { l with items := l.items.map answer }).raiseFlags m.lane fl) s

/-- Whether a read-modify-write may be performed at its home: nothing of its core that precedes it on its bytes is outstanding, nor a
load of its wave (R272), nor a write of them that precedes it by hb (R284); no FENCE, ACQ or tag of its wave holds it back (R267), what it
depends on has been performed (R276), and no other write of its line is under way (R416). -/
def State.mayPerform (s : State) (m : Rmw) : Bool :=
  !m.remote && m.result.isNone && !s.gated m.team m.wave m.id && !s.secondaryLags m.team &&
  !s.readsFirst m.team m.wave m.id m.pa (Fmt.size m.fmt) && s.performed m.after && !s.lineLocked (lineOf m.pa) &&
  !(s.posted.any fun q => ((decide (q.id < m.id) && q.core == m.core) || m.prior.contains q.id) && !q.remote &&
      overlap q.pa q.bytes.length m.pa (Fmt.size m.fmt)) &&
  !(s.rmws.any fun q => ((decide (q.id < m.id) && q.core == m.core) || m.prior.contains q.id) && !q.remote && q.req != m.req &&
      overlap q.pa (Fmt.size q.fmt) m.pa (Fmt.size m.fmt))

/-- Whether requests may merge (R255): one operation, type, scope and element; no exchange; a floating-point one only of free
launches. -/
def mergeOk (ms : List Rmw) : Bool :=
  match ms with
  | [] => false
  | m :: rest =>
    rest.all fun x =>
      x.op == m.op && x.fmt == m.fmt && x.level == m.level && x.pa == m.pa &&
      (x.req == m.req || (m.op != .xchg && m.op != .cas && ((Fmt.fp m.fmt).isNone || (!m.ordered && !x.ordered))))

/-- The read-modify-writes that one fault refuses together: a request's (R255), or an instruction's on one line (R475). -/
def Rmw.together (m x : Rmw) : Bool :=
  x.id == m.id || (x.req == m.req && (!m.remote || m.op != .cas)) || (m.load.isSome && x.load == m.load && x.team == m.team && x.wave == m.wave && !m.remote && !x.remote &&
    lineOf x.pa == lineOf m.pa)

/-- A read-modify-write that a line in fault refuses, with those that the fault refuses together with it (R396, R423, R475): reported
once for a RED's request, else found by the instruction for all of their lanes. -/
def State.refuseRmw (f : FaultCode) (s : State) (m : Rmw) : State :=
  let ms := s.rmws.filter m.together
  let gone := ({ s with rmws := s.rmws.filter fun x => !m.together x } : State).settleLeaves
  if ms.isEmpty then s
  else match m.load with
  | none => gone.asyncFault m.team m.wave f (if m.remote then BitVec.ofNat 64 m.pa else m.va) m.remote
  | some q =>
    match (s.wave? m.team m.wave).bind fun w => w.loads.find? fun l => l.seq == q with
    | none => gone
    | some l =>
      let h := (minBy (fun x : Rmw => x.lane) ms).getD m
      let info : FaultInfo := { code := f, lane := h.lane, addr := some h.va, pc := m.pc }
      let lanes := if l.whole.isSome then l.items.map (·.lane) else ms.map (·.lane)
      match s.lateFault m.team m.wave info lanes (some h.pa) (l.retry f) with
      | none => s
      | some s =>
        let s := ({ s with rmws := s.rmws.filter fun x => !m.together x } : State).settleLeaves
        let park := fun i : LoadItem => match ms.find? fun x => x.lane == i.lane with
          | some x =>
            let at_ := if x.bound then some (if x.remote then x.pa else s.ownDev * 2 ^ 43 + x.pa) else none
            { i with src := .parked (.rmw x.op x.fmt x.operand x.comparand x.level true at_) }
          | none => i
        s.updWave m.team m.wave fun w =>
          let w := w.mapLoad q fun x => { x with items := if l.whole.isSome then [] else x.items.map park }
          w.unmark (l.items.flatMap fun (i : LoadItem) => i.regs)

/-- What a join cell's decrement answers (R193, R219): a decrement from 1 to 0 pushes the successor record. -/
def State.joined (s : State) (m : Rmw) (old : Nat) : State × Option (Except (FaultCode × Nat) Nat) :=
  match (s.teams ++ s.saved).find? fun t => t.id == m.team with
  | none => (s, none)
  | some t =>
    let v := intOf true 64 old
    if v ≤ 0 then (s, some (.ok 3))
    else if v ≠ 1 then (s, some (.ok 0))
    else
      let after := ((t.waves[m.wave]?).map fun w => (s.fencePending t.id w m.id).filter fun i => i != m.id).getD []
      match s.readVirtual t m.wave (m.va.toNat + 64) 64 with
      | (s, .error (f, a)) => (s, some (.error (f, a)))
      | (s, .ok bs) =>
        match Task.ofBytes bs after with
        | .error f => (s, some (.error (f, m.va.toNat + 64)))
        | .ok x =>
          let (st, s) := s.pushTask t x
          (s, some (.ok (if st = 2 then 4 else 1)))

/-- The answer of one member of a group that has been applied. A successor record that cannot be read is found with the JOIN's result
(R219), after the decrement has been performed (log entry 84). -/
def State.answerMember (s : State) (m : Rmw) (old : Nat) (fl : Word) : State :=
  if m.op ≠ .join then s.answerRmw m (extendElem m.fmt (bytesLE (Fmt.size m.fmt) old)) fl
  else
    match s.joined m old with
    | (s, none) => s
    | (s, some (.ok st)) => s.answerRmw m (BitVec.ofNat 64 st) 0
    | (s, some (.error (f, a))) =>
      match m.load with
      | none => s
      | some q => s.updAny m.team m.wave fun w =>
          w.mapLoad q fun l => { l with items := l.items.map fun i => { i with src := .failed f, va := BitVec.ofNat 64 a } }

/-- The old value of each member of a group that a home applies to an element, and the flags that it raises in that member: its own operation's, or,
where a floating-point add has been merged, those of the whole group (R256). -/
def memberAnswers (m : Rmw) (old : Nat) (ms : List Rmw) (merged : Bool) : List (Rmw × Nat × Word) :=
  let n := 2 ^ (8 * Fmt.size m.fmt)
  (rmwRun m.fmt old ms).2.1.map fun (x, v) =>
    (x, v, match merged, m.op, Fmt.fp m.fmt with
      | true, .add, some g => (mergedAdd g n old ms).2
      | _, _, _ => (rmwValue x.op x.fmt v (x.operand.toNat % n) (x.comparand.toNat % n)).2)

/-- The posted write that carries the result of read-modify-writes belongs to no core: no lane reads it before it is performed. -/
def noCore : Nat := 0xFFFFFFFF

/-- A group of read-modify-writes applied at its home (R256, R273): the new value is a write of the line like any other
(R416), with whose performance the members' operations are performed, and each member is answered. A group that writes nothing is
performed at once. -/
def State.performGroup (s : State) (ms : List Rmw) : State :=
  match ms with
  | [] => s
  | m :: _ =>
    let n := Fmt.size m.fmt
    let old := natLE (s.peek m.pa n)
    let merged := decide (1 < (distinct (ms.map (·.req))).length)
    let new := match merged, m.op, Fmt.fp m.fmt with
      | true, .add, some g => (mergedAdd g (2 ^ (8 * n)) old ms).1
      | _, _, _ => (rmwRun m.fmt old ms).1
    let wrote := m.op != RmwOp.cas || new != old || ms.any fun x => x.comparand.toNat % 2 ^ (8 * n) == old
    let mine := fun x : Rmw => ms.any fun y => y.id == x.id
    let s := if wrote then
        let (id, s) := s.fresh
        let p : Posted :=
          { id := id, team := m.team, wave := m.wave, core := noCore, pa := m.pa, bytes := whole (bytesLE n new), remote := false,
            bound := false, applied := false, acks := [], noneHeld := [], dropped := [], shared := m.ordered, va := m.va }
        ({ s with posted := s.posted ++ [p]
                  rmws := s.rmws.map fun (x : Rmw) => if mine x then { x with result := some id } else x : State }).applyWrite p
      else ({ s with rmws := s.rmws.filter fun x => !mine x } : State).settleLeaves
    (memberAnswers m old ms merged).foldl (fun s (x, v, fl) => s.answerMember x v fl) s

/-- The operand of one request for several lanes of an instruction (R255, R256): theirs combined in ascending lane order. -/
def combined (m : Rmw) (ms : List Rmw) : DWord :=
  let n := 8 * Fmt.size m.fmt
  BitVec.ofNat 64 (ms.foldl (fun a x => (rmwValue m.op m.fmt a (x.operand.toNat % 2 ^ n) 0).1) (m.operand.toNat % 2 ^ n))

/-- The requests that leave for another device: one for each element of an instruction (R255), but for CAS one for each lane, which no
operand combines (log entry 58). -/
def farGroups (ms : List Rmw) : List (List Rmw) :=
  match ms with
  | [] => []
  | m :: _ => if m.op = .cas then ms.map fun x => [x] else [ms]

/-- The copies of a line of another device that a die holds or has under way are dropped (R272, R425). -/
def State.dropScoped (s : State) (die line : Nat) : State :=
  { s with teams := s.teams.map (Team.noCopy die fun l => l == line), saved := s.saved.map (Team.noCopy die fun l => l == line),
           scopedCopies := s.scopedCopies.filter fun c => !(c.holder == die && c.line == line) }

/-- A request of one element of another device is sent to its home (R424, R425): the copies of its line in the device are bypassed, and none
stays that would be older than its result (R272). -/
def State.sendRmw (s : State) (ms : List Rmw) : State :=
  match ms with
  | [] => s
  | m :: rest =>
    if m.sentAt.isSome || s.gated m.team m.wave m.id || !s.performed m.after ||
      s.farEarlier m.core m.id m.pa (Fmt.size m.fmt) m.load.isSome || s.farReadsFirst m.team m.wave m.id m.pa (Fmt.size m.fmt) ||
      (s.posted.any fun q => m.prior.contains q.id && q.remote && overlap q.pa q.bytes.length m.pa (Fmt.size m.fmt)) ||
      (s.rmws.any fun q => m.prior.contains q.id && q.remote && overlap q.pa (Fmt.size q.fmt) m.pa (Fmt.size m.fmt)) then s
    else
      let s := ({ s with rmws := s.rmws.map fun (x : Rmw) => if ms.any (·.id == x.id) then { x with sentAt := some s.time } else x } :
        State).dropScoped (dieOf m.core) (lineOf m.pa)
      if !s.hasRoute (devOf m.pa) then s
      else
        let op := InboundOp.rmw m.op m.fmt (combined m rest) m.comparand m.load.isSome
        s.send (devOf m.pa) (dieOf m.core) (if m.load.isSome then 0 else 2) (.access m.id (BitVec.ofNat 64 m.pa) op)

/-- ATOMIC_AT_HOME (R255, R256, R273): the requests that the list names, merged in its order, are performed; the lanes of one
request in ascending order. A request for another device is sent to it (R424). -/
def execAtomicAtHome (rmws : List Nat) (s : State) : Host.Outcome State Fault Refusal :=
  let reqs := distinct (rmws.filterMap fun i => (s.rmws.find? fun m => m.id == i).map (·.req))
  let ms := reqs.flatMap fun q => s.rmws.filter fun m => m.req == q
  match ms with
  | [] => .next s
  | m :: _ =>
    if m.remote then .next (reqs.foldl (fun s q => (farGroups (s.rmws.filter fun m => m.req == q)).foldl State.sendRmw s) s)
    else if !mergeOk ms || !ms.all s.mayPerform then .next s
    else if s.inWindow m.pa then
      match s.ringAt m.pa with
      | none => if (s.savedRingAt m.pa).isSome then .next s else .next (ms.foldl (fun s m =>
          ({ s with rmws := s.rmws.filter fun x => x.id != m.id }).asyncFault m.team m.wave .accState m.va false) s)
      | some _ => .next (ms.foldl (fun s m =>
          let s := { s with rmws := s.rmws.filter fun x => x.id != m.id }
          match s.ringAt m.pa with
          | some (r, j, off) => s.ringRed m r j off
          | none => s) s)
    else
      match s.lineFault m.pa with
      | some f => .next (ms.foldl (State.refuseRmw f) s)
      | none => .next (if s.heldAway (lineOf m.pa) then s.request (homeDie m.pa) (lineOf m.pa) false else s.performGroup ms)

end Sys2Proof.Machine
end

