-- ==== Sys2Proof/Machine/Matrix.lean ====
section
/-!
DEFINITION. The arithmetic of the matrix path: elements of A and B (R104 to R117), alignment groups (R130), group products (R131,
R133), the vault and chain sums (R132) and integer accumulation (R134).
-/

namespace Sys2Proof.Machine

/-! ## Formats of A and B -/

/-- Bytes of 32 consecutive elements of a format, an alignment group (R109, R114, R130). -/
def Fmt.groupBytes : Fmt → Nat
  | .mxf4 => 17 | .mxf8 => 33 | .kd7 => 32 | .kd3 => 16
  | .f32 => 128
  | .f16 | .bf16 => 64
  | _ => 32

/-- The classes of B (R129). -/
inductive BClass where
  | four | eight | sixteen
  deriving DecidableEq, Repr

/-- The class of a B format (R129). -/
def Fmt.bclass : Fmt → BClass
  | .mxf4 | .kd3 => .four
  | .f16 | .bf16 => .sixteen
  | _ => .eight

/-- Magnitude bits of B (R129). -/
def BClass.bits : BClass → Nat
  | .four => 3 | .eight => 7 | .sixteen => 15

/-- w: output columns of a vault (R334). -/
def BClass.columns : BClass → Nat
  | .four => 256 | .eight => 128 | .sixteen => 64

/-- P: bytes of a 128-element column (R336). -/
def Fmt.columnBytes (f : Fmt) : Nat := 4 * Fmt.groupBytes f

/-- Z: bytes of a vault's B (R336). -/
def Fmt.vaultBytes (f : Fmt) : Nat := (Fmt.bclass f).columns * Fmt.columnBytes f

/-- G: slots of a step (R337). -/
def slotsPerStep (c : BClass) (groups : Nat) : Nat :=
  match c with
  | .four => 2 * groups | .eight => groups | .sixteen => groups / 2

/-! ## Reading a group -/

/-- A group as it is read: its 32 values, the flags raised, and whether it is or holds an ill-formed KD block (R112, R117, R118). -/
structure GroupRead where
  vals : List FV
  flags : Word
  bad : Bool

/-- The values of 32 elements of an element format. -/
def plainGroup (f : FpFmt) (n : Nat) (bs : List Byte) : List FV := (List.range 32).map fun i => f.decode (fieldLE bs (n * i) n)

/-- A group of a format, with the flags of reading it: NV for a signalling NaN, a reserved element or an MX scale of 0xFF, and IB for what is
ill-formed (R104 to R118, R124). -/
def readGroup (f : Fmt) (bs : List Byte) : GroupRead :=
  let plain := fun (g : FpFmt) (n : Nat) =>
    let vs := plainGroup g n bs
    ({ vals := vs, flags := flIf (vs.any FV.isSig) flNV, bad := false } : GroupRead)
  let mx := fun four : Bool =>
    let es := (List.range 32).map (mxElem four bs)
    ({ vals := es.map (·.1), flags := es.foldl (fun g e => g ||| e.2) 0, bad := false } : GroupRead)
  let kd := fun seven : Bool =>
    let es := (List.range 32).map fun i => (kdElem seven bs i).read
    ({ vals := es.map (·.1), flags := es.foldl (fun g e => g ||| e.2.1) 0, bad := es.any (·.2.2) } : GroupRead)
  match f with
  | .f32 => plain .f32 4
  | .f16 => plain .f16 2
  | .bf16 => plain .bf16 2
  | .e5m2 => plain .e5m2 1
  | .mxf4 => mx true
  | .mxf8 => mx false
  | .kd7 => kd true
  | .kd3 => kd false
  | _ => plain .e4m3 1

/-! ## Alignment (R130) -/

/-- An aligned element: a signed magnitude, an infinity, or NaN (R130, R133). -/
inductive AElem where
  | num (q : Int)
  | inf (neg : Bool)
  | nan
  deriving DecidableEq, Repr

/-- m x 2^e in units of 2^q, to the nearest, ties to even (R130). -/
def nearestUnits (m : Nat) (e q : Int) : Nat :=
  let (k, rem, s) := splitAt m e q
  if roundsUp .rne false k rem s then k + 1 else k

/-- The magnitudes of a group at an exponent; NaN and infinite elements count as 0. -/
def groupUnits (q : Int) (xs : List FV) : List Nat :=
  xs.map fun x => match x with
    | .fin _ m e => nearestUnits m e q
    | _ => 0

/-- floor(log2) of the largest nonzero finite element of a group. -/
def groupTop (xs : List FV) : Option Int :=
  xs.foldl (fun t x => match x with
    | .fin _ m e => if m = 0 then t else
      let k : Int := Nat.log2 m + e
      some (match t with | none => k | some j => max j k)
    | _ => t) none

/-- A group aligned to `b` magnitude bits: its exponent E and its elements (R130). -/
def alignGroup (b : Nat) (xs : List FV) : Int × List AElem :=
  let at_ := fun (e : Int) (qs : List Nat) => (e, (xs.zip qs).map fun (x, q) => match x with
    | .nan _ => AElem.nan
    | .inf n => .inf n
    | .fin n _ _ => .num (if n then -(q : Int) else q))
  match groupTop xs with
  | none => at_ 0 (xs.map fun _ => 0)
  | some t =>
    let e := t - ((b : Int) - 1)
    let qs := groupUnits e xs
    if qs.all fun q => decide (q < 2 ^ b) then at_ e qs else at_ (e + 1) (groupUnits (e + 1) xs)

/-! ## Products and sums (R131 to R133) -/

/-- The product of one pair of aligned elements: none is a number that adds to the exact sum. -/
def pairInf : AElem → AElem → Option (Option Bool)
  | .inf a, .inf b => some (some (a != b))
  | .inf a, .num q => if q = 0 then some none else some (some (a != decide (q < 0)))
  | .num q, .inf b => if q = 0 then some none else some (some (decide (q < 0) != b))
  | _, _ => none

/-- The group product in FPX, with NV (R131, R133). -/
def groupProduct (a b : Int × List AElem) : FV × Word :=
  let ps := a.2.zip b.2
  let zero := ps.any fun p => pairInf p.1 p.2 == some none
  let nan := ps.any fun p => p.1 == .nan || p.2 == .nan
  let neg := ps.any fun p => pairInf p.1 p.2 == some (some true)
  let pos := ps.any fun p => pairInf p.1 p.2 == some (some false)
  if nan || zero then (.nan false, flIf zero flNV)
  else if neg && pos then (.nan false, flNV)
  else if neg || pos then (.inf neg, 0)
  else
    let s := (ps.map fun p => match p.1, p.2 with | .num x, .num y => x * y | _, _ => 0).sum
    (dyadic s (a.1 + b.1) false, 0)

/-- RoundFPX of a sum, with NV (R132, R133). -/
def fpxAdd (x y : FV × Word) : FV × Word :=
  let v := x.1.add false y.1
  (roundFPX v, x.2 ||| y.2 ||| flIf (v.isNan && !x.1.isNan && !y.1.isNan) flNV)

/-- The value of a vault: the tree of its four groups (R132). -/
def vaultValue (a b : List (Int × List AElem)) : FV × Word :=
  let g := fun i : Nat => groupProduct (a.getD i (0, [])) (b.getD i (0, []))
  fpxAdd (fpxAdd (g 0) (g 1)) (fpxAdd (g 2) (g 3))

/-- The value of a chain, its vaults in index order (R132). -/
def chainValue : List (FV × Word) → FV × Word
  | [] => (.fin false 0 0, 0)
  | v :: vs => vs.foldl fpxAdd v

/-- P: the value shipped, in FP32; the matrix path raises only NV, OF and IB (R132, R135). -/
def shipped (c : FV × Word) : Word × Word :=
  let (p, fl) := FpFmt.f32.encode .rne c.1
  (codeW p, c.2 ||| (fl &&& flOF))

/-! ## Integer accumulation (R134) -/

/-- Element `i` of a KD7 block under integer accumulation: its value, flags, and whether it is ill-formed (R134). -/
def intElem (bs : List Byte) (i : Nat) : Int × Word × Bool :=
  match kdHead true bs with
  | .bad => (0, flNV ||| flIB, true)
  | .zero => (0, 0, false)
  | .code c p s =>
    let (sel, v) := kdBits true bs i
    let e := if sel = 0 then p else s
    if c ≠ 0x73 ∨ e < 127 ∨ 142 < e then (0, flNV ||| flIB, true)
    else if v = 0x20 then (0, flNV, false)
    else (intOf true 6 v * 2 ^ (e - 127), 0, false)

/-- A KD7 block under integer accumulation. -/
structure IntRead where
  vals : List Int
  flags : Word
  bad : Bool

/-- The 32 elements of a KD7 block (R134). -/
def readInts (bs : List Byte) : IntRead :=
  let es := (List.range 32).map (intElem bs)
  { vals := es.map (·.1), flags := es.foldl (fun g e => g ||| e.2.1) 0, bad := es.any (·.2.2) }

/-- Whether a KD7 block is ill-formed only under R134, so that VFILL has raised nothing for it (R135). One that is ill-formed for VFILL too, and
has elements that are so only under R134, has been raised and counted by the VFILL: an integer MLOOP does not do it again (DESIGN CHOICE, log
entry 95). -/
def onlyIntBad (bs : List Byte) : Bool := (readInts bs).bad && !(readGroup .kd7 bs).bad

/-- The exact integer sum of products of two lists. -/
def dotInts (a b : List Int) : Int := ((a.zip b).map fun p => p.1 * p.2).sum

/-- The chain value saturated to INT32, with OF (R134). -/
def shippedInt (v : Int) : Word × Word :=
  let (x, c) := saturate (intRange true 32) v
  (BitVec.ofInt 32 x, flIf c flOF)

end Sys2Proof.Machine
end

