-- ==== Sys2Proof/WellFormed.lean ====
section
/-!
DEFINITION. Well-formed instruction words: the field rules of R16 to R19, R35, R37 and R58 to R63 that a word alone
decides. `Instr.wf` is the conjunction of named checks; a word whose fields break one decodes to nothing (R63).
-/

namespace Sys2Proof

open Sys2Proof.Machine in
/-- A destination field names a window register or gz; a pair is even; a longer group lies inside g0 to g119
(R17, R18, R58). -/
def destOk : RegUse → Bool
  | (f, 1) => f.toNat ≤ 120
  | (f, 2) => f.toNat ≤ 120 && f.toNat % 2 == 0
  | (f, n) => f.toNat + n ≤ 120

open Sys2Proof.Machine in
/-- A pair source is even, or gz or a latch; a longer group lies inside g0 to g119 (R17, R97, R152, R353). -/
def sourceOk : RegUse → Bool
  | (_, 1) => true
  | (f, 2) => f.toNat % 2 == 0 || 120 ≤ f.toNat
  | (f, n) => f.toNat + n ≤ 120

/-- Every register field obeys R17 and R18. Widths that follow a record are checked at execution (R69). -/
def Instr.fieldsOk (i : Instr) : Bool :=
  (Machine.Instr.dests (fun _ => 1) i).all destOk &&
  match i with
  | .cas .. | .waitc .. => true
  | _ => (Machine.Instr.sources (fun _ => 1) i).all sourceOk

/-- NW = 1 needs a D field of 0 and a result in one general register (R35, R58). -/
def Instr.noWriteOk (i : Instr) : Bool :=
  !Machine.Instr.noWrite i || (Machine.Instr.dests (fun _ => 1) i).all fun (f, n) => f == 0 && n == 1

/-- A trailer's ranges (R37, R59). -/
def trailOk (b : Reg) (c : BitVec 3) (e : Reg) (f : BitVec 3) (p2 p1 : Bool) : Bool :=
  (if p1 then b.toNat + c.toNat < 120 else b == 0 && c == 0 && !p2) &&
  (if p2 then e.toNat + f.toNat < 120 else e == 0 && f == 0)

/-- The checks of single instructions: sub-fields out of range, registers that must be window registers, and
register numbers that are not listed (R59 to R61, R80 to R96, R141 to R153, R204, R218). -/
def Instr.specialOk : Instr → Bool
  | .br k s _ | .brl k s _ _ | .jr k s _ _ => !(k == 0 && s)
  | .loop _ e => e != 0
  | .loopi e _ => e != 0
  | .winb i => i.toNat ≤ 504 && i.toNat % 8 == 0
  | .gets _ _ i => (Machine.specialWidth i.toNat).isSome
  | .sets _ i => (Machine.specialWidth i.toNat).isSome && !Machine.specialRO i.toNat
  | .trail b c e f _ u v => trailOk b c e f u v
  | .fcvt _ _ _ s t => s != t
  | .pack _ _ a c => Machine.PackFn.group c == 2 || a.toNat % 4 == 0
  | .unpk d _ c => d.toNat < 120 && (Machine.PackFn.group c == 2 || d.toNat % 4 == 0)
  | .topki _ d _ _ => d.toNat % 2 == 0 && d.toNat < 120
  | .vote f d _ => f == .ballot || d.toNat < 8
  | _ => true

/-- A well-formed instruction word. -/
def Instr.wf (i : Instr) : Bool :=
  Machine.Instr.hasWord i && i.fieldsOk && i.noWriteOk && i.specialOk

end Sys2Proof
end

