-- ==== Sys2Proof/Decode.lean ====
section
/-!
DEFINITION. The decoder: total on any word and on any bytes, answering nothing for every word that R63 makes ILLEGAL;
and after it the encoder, from the same tables (R57 to R65). A word is stored little-endian (R57).
-/

namespace Sys2Proof

/-! ## Fields of the six formats (R57) -/

/-- Major opcode, bits [31:25]. -/
def fMajor (w : Word) : BitVec 7 := w.extractLsb' 25 7
/-- NW, bit [24] of the R and I formats. -/
def fNW (w : Word) : Bool := w.getLsbD 24
/-- F, bits [23:21] of the R format. -/
def fF (w : Word) : BitVec 3 := w.extractLsb' 21 3
/-- D of the R format, and A of the B format: bits [20:14]. -/
def fDR (w : Word) : BitVec 7 := w.extractLsb' 14 7
/-- A of the R format, bits [13:7]. -/
def fAR (w : Word) : BitVec 7 := w.extractLsb' 7 7
/-- B of the R format, bits [6:0]. -/
def fBR (w : Word) : BitVec 7 := w.extractLsb' 0 7
/-- D of the I format, bits [23:17]. -/
def fDI (w : Word) : BitVec 7 := w.extractLsb' 17 7
/-- A of the I format, bits [16:10]. -/
def fAI (w : Word) : BitVec 7 := w.extractLsb' 10 7
/-- imm10, bits [9:0]. -/
def fImm10 (w : Word) : BitVec 10 := w.extractLsb' 0 10
/-- D of the L format and base1 of the T format, bits [24:18]. -/
def fDL (w : Word) : BitVec 7 := w.extractLsb' 18 7
/-- imm18, bits [17:0]. -/
def fImm18 (w : Word) : BitVec 18 := w.extractLsb' 0 18
/-- K of the B and M formats, bits [24:22]. -/
def fK (w : Word) : BitVec 3 := w.extractLsb' 22 3
/-- S of the B format, bit [21]. -/
def fS (w : Word) : Bool := w.getLsbD 21
/-- off14, bits [13:0]. -/
def fOff14 (w : Word) : BitVec 14 := w.extractLsb' 0 14
/-- D of the M format, bits [21:15]. -/
def fDM (w : Word) : BitVec 7 := w.extractLsb' 15 7
/-- Q of the M format, bits [14:11]. -/
def fQ (w : Word) : BitVec 4 := w.extractLsb' 11 4
/-- X of the M format, bits [10:4]. -/
def fX (w : Word) : BitVec 7 := w.extractLsb' 4 7
/-- sub of the M format, bits [3:0]. -/
def fSub (w : Word) : BitVec 4 := w.extractLsb' 0 4
/-- cnt1 of the T format, bits [17:15]. -/
def fCnt1 (w : Word) : BitVec 3 := w.extractLsb' 15 3
/-- base2 of the T format, bits [14:8]. -/
def fBase2 (w : Word) : BitVec 7 := w.extractLsb' 8 7
/-- cnt2 of the T format, bits [7:5]. -/
def fCnt2 (w : Word) : BitVec 3 := w.extractLsb' 5 3
/-- flags of the T format, bits [4:0]. -/
def fFlags (w : Word) : BitVec 5 := w.extractLsb' 0 5

/-! ## Code tables (R60, R61, R65) -/

/-- CMP and CMPI conditions (R84). -/
def condOf : BitVec 3 → Option Cond
  | 0 => some .eq | 1 => some .ne | 2 => some .lt | 3 => some .le | 4 => some .ltu | 5 => some .leu | _ => none
/-- Code of a CMP condition. -/
def condCode : Cond → BitVec 3
  | .eq => 0 | .ne => 1 | .lt => 2 | .le => 3 | .ltu => 4 | .leu => 5
/-- KOP functions (R85). -/
def kfnOf : BitVec 3 → Option KFn
  | 0 => some .and | 1 => some .or | 2 => some .xor | 3 => some .andn | 4 => some .not | _ => none
/-- Code of a KOP function. -/
def kfnCode : KFn → BitVec 3
  | .and => 0 | .or => 1 | .xor => 2 | .andn => 3 | .not => 4
/-- FADD formats (R138). -/
def ffmtOf : BitVec 3 → Option FFmt
  | 0 => some .f32 | 1 => some .bf16x2 | 2 => some .f16x2 | _ => none
/-- Code of an FADD format. -/
def ffmtCode : FFmt → BitVec 3
  | .f32 => 0 | .bf16x2 => 1 | .f16x2 => 2
/-- FMIN and FMAX formats, with whether NaNs propagate (R139). -/
def fminOf : BitVec 3 → Option (Bool × FFmt)
  | 0 => some (false, .f32) | 1 => some (false, .bf16x2) | 2 => some (false, .f16x2)
  | 4 => some (true, .f32) | 5 => some (true, .bf16x2) | 6 => some (true, .f16x2) | _ => none
/-- Code of an FMIN format. -/
def fminCode : Bool → FFmt → BitVec 3
  | false, .f32 => 0 | false, .bf16x2 => 1 | false, .f16x2 => 2
  | true, .f32 => 4 | true, .bf16x2 => 5 | true, .f16x2 => 6
/-- FSGN functions (R140). -/
def sgnOf : BitVec 3 → Option SgnFn
  | 0 => some .j | 1 => some .jn | 2 => some .jx | _ => none
/-- Code of an FSGN function. -/
def sgnCode : SgnFn → BitVec 3
  | .j => 0 | .jn => 1 | .jx => 2
/-- FCMP conditions (R141). -/
def fcondOf : BitVec 3 → Option FCond
  | 0 => some .eq | 1 => some .lt | 2 => some .le | 3 => some .un | _ => none
/-- Code of an FCMP condition. -/
def fcondCode : FCond → BitVec 3
  | .eq => 0 | .lt => 1 | .le => 2 | .un => 3
/-- FCVT formats (R61). -/
def cvtOf : BitVec 4 → Option CvtTy
  | 0 => some .s32 | 1 => some .z32 | 2 => some .s64 | 3 => some .z64 | 4 => some .f32 | 5 => some .f16
  | 6 => some .bf16 | 7 => some .e4m3 | 8 => some .e5m2 | 9 => some .s8 | 10 => some .z8 | 11 => some .s16
  | 12 => some .z16 | _ => none
/-- Code of an FCVT format. -/
def cvtCode : CvtTy → BitVec 4
  | .s32 => 0 | .z32 => 1 | .s64 => 2 | .z64 => 3 | .f32 => 4 | .f16 => 5 | .bf16 => 6 | .e4m3 => 7 | .e5m2 => 8
  | .s8 => 9 | .z8 => 10 | .s16 => 11 | .z16 => 12
/-- FRND modes (R61). -/
def rndOf : BitVec 3 → Option RndSel
  | 0 => some .rne | 1 => some .rtz | 2 => some .rup | 3 => some .rdn | 4 => some .dyn | _ => none
/-- Code of an FRND mode. -/
def rndCode : RndSel → BitVec 3
  | .rne => 0 | .rtz => 1 | .rup => 2 | .rdn => 3 | .dyn => 4
/-- Special functions (R145). -/
def sfnOf : BitVec 3 → SfnFn
  | 0 => .exp2 | 1 => .log2 | 2 => .rcp | 3 => .rsq | 4 => .sin | 5 => .cos | 6 => .tanh | 7 => .sigm
/-- Code of a special function. -/
def sfnCode : SfnFn → BitVec 3
  | .exp2 => 0 | .log2 => 1 | .rcp => 2 | .rsq => 3 | .sin => 4 | .cos => 5 | .tanh => 6 | .sigm => 7
/-- DOT4 types (R151). -/
def dotOf : BitVec 3 → Option DotTy
  | 0 => some .s8 | 1 => some .z8 | 2 => some .e4m3 | 3 => some .e5m2 | _ => none
/-- Code of a DOT4 type. -/
def dotCode : DotTy → BitVec 3
  | .s8 => 0 | .z8 => 1 | .e4m3 => 2 | .e5m2 => 3
/-- PACK and UNPK forms (R152). -/
def packOf : BitVec 4 → Option PackFn
  | 0 => some .bf16x2 | 1 => some .f16x2 | 2 => some .e4m3 | 3 => some .e5m2 | 4 => some .h | 5 => some .b | _ => none
/-- Code of a PACK form. -/
def packCode : PackFn → BitVec 4
  | .bf16x2 => 0 | .f16x2 => 1 | .e4m3 => 2 | .e5m2 => 3 | .h => 4 | .b => 5
/-- RAND forms (R156). -/
def randOf : BitVec 3 → Option RandFn
  | 0 => some .z32 | 1 => some .f32 | _ => none
/-- Code of a RAND form. -/
def randCode : RandFn → BitVec 3
  | .z32 => 0 | .f32 => 1
/-- SHFL modes (R203). -/
def shflOf : BitVec 3 → Option ShflFn
  | 0 => some .idx | 1 => some .up | 2 => some .down | 3 => some .xor | _ => none
/-- Code of a SHFL mode. -/
def shflCode : ShflFn → BitVec 3
  | .idx => 0 | .up => 1 | .down => 2 | .xor => 3
/-- VOTE forms (R204). -/
def voteOf : BitVec 3 → Option VoteFn
  | 0 => some .all | 1 => some .any | 2 => some .ballot | _ => none
/-- Code of a VOTE form. -/
def voteCode : VoteFn → BitVec 3
  | .all => 0 | .any => 1 | .ballot => 2
/-- LRED operations (R205). -/
def lredOf : BitVec 3 → LredFn
  | 0 => .add | 1 => .min | 2 => .max | 3 => .minu | 4 => .maxu | 5 => .and | 6 => .or | 7 => .xor
/-- Code of an LRED operation. -/
def lredCode : LredFn → BitVec 3
  | .add => 0 | .min => 1 | .max => 2 | .minu => 3 | .maxu => 4 | .and => 5 | .or => 6 | .xor => 7
/-- SCAN operations (R206). -/
def scanOf : BitVec 3 → Option ScanFn
  | 0 => some .add | 1 => some .addx | 2 => some .max | 3 => some .min | _ => none
/-- Code of a SCAN operation. -/
def scanCode : ScanFn → BitVec 3
  | .add => 0 | .addx => 1 | .max => 2 | .min => 3
/-- Access sizes (R60). -/
def sizeOf2 : BitVec 2 → Size
  | 0 => .b | 1 => .h | 2 => .w | 3 => .d
/-- Code of an access size. -/
def sizeCode : Size → BitVec 2
  | .b => 0 | .h => 1 | .w => 2 | .d => 3
/-- Cache hints (R60). -/
def hintOf : BitVec 2 → Hint
  | 0 => .dflt | 1 => .strm | 2 => .keep | 3 => .byp
/-- Code of a cache hint. -/
def hintCode : Hint → BitVec 2
  | .dflt => 0 | .strm => 1 | .keep => 2 | .byp => 3
/-- WAITC conditions (R60); code 6 and up, and sub[3] = 1, are ILLEGAL. -/
def wcondOf : BitVec 4 → Option WCond
  | 0 => some .eq | 1 => some .ne | 2 => some .ge | 3 => some .lt | 4 => some .geu | 5 => some .ltu | _ => none
/-- Code of a WAITC condition. -/
def wcondCode : WCond → BitVec 4
  | .eq => 0 | .ne => 1 | .ge => 2 | .lt => 3 | .geu => 4 | .ltu => 5

/-- A predicate field: the field's value when it is 0 to 7 (R58). -/
def predOf (f : BitVec 7) : Option Pred := if f.toNat < 8 then some (f.truncate 3) else none

/-- A record register field: the field's value when it is 0 to 15 (R58). -/
def recOf (f : BitVec 7) : Option RecReg := if f.toNat < 16 then some (f.truncate 4) else none

/-- The instruction when a condition on the word's unused fields holds (R63). -/
def only (c : Bool) (i : Instr) : Option Instr := if c then some i else none

/-! ## The opcode map (R65), major by major -/

/-- Majors 0x01 to 0x08: integer register operations. -/
def decInt (op : Nat) (n : Bool) (f : BitVec 3) (d a b : Reg) : Option Instr :=
  match op with
  | 0x01 => match f with
    | 0 => some (.add n d a b) | 1 => some (.sub n d a b) | 2 => some (.and n d a b) | 3 => some (.or n d a b)
    | 4 => some (.xor n d a b) | _ => none
  | 0x02 => match f with
    | 0 => some (.min n d a b) | 1 => some (.max n d a b) | 2 => some (.minu n d a b) | 3 => some (.maxu n d a b)
    | _ => none
  | 0x03 => match f with
    | 0 => some (.shl n d a b) | 1 => some (.shr n d a b) | 2 => some (.sra n d a b) | 3 => some (.rot n d a b)
    | _ => none
  | 0x04 => match f with
    | 0 => only (b == 0) (.clz n d a) | 1 => only (b == 0) (.popc n d a) | 2 => only (b == 0) (.brev n d a)
    | 3 => only (b == 0) (.mov n d a) | _ => none
  | 0x05 => match f with
    | 0 => some (.mul n d a b) | 1 => some (.mulh n d a b) | 2 => some (.mulhu n d a b) | _ => none
  | 0x06 => match f with
    | 0 => some (.mad n d a b) | _ => none
  | 0x07 => match f with
    | 0 => some (.div n d a b) | 1 => some (.divu n d a b) | 2 => some (.rem n d a b) | 3 => some (.remu n d a b)
    | _ => none
  | 0x08 => match f with
    | 0 => only (!n) (.addw d a b) | 1 => only (!n) (.subw d a b) | 2 => only (!n) (.mulw d a b) | _ => none
  | _ => none

/-- Majors 0x09 to 0x0E and 0x21: immediates. -/
def decImm (op : Nat) (n : Bool) (d a : Reg) (i : BitVec 10) : Option Instr :=
  match op with
  | 0x09 => some (.bfx n d a (i.extractLsb' 5 5) (i.extractLsb' 0 5))
  | 0x0A => some (.bfi n d a (i.extractLsb' 5 5) (i.extractLsb' 0 5))
  | 0x0B => some (.addi n d a i)
  | 0x0C => some (.andi n d a i)
  | 0x0D => some (.ori n d a i)
  | 0x0E => some (.xori n d a i)
  | 0x21 => if n || d.getLsbD 6 then none
            else (condOf (d.extractLsb' 3 3)).map fun c => .cmpi c (d.extractLsb' 0 3) a i
  | _ => none

/-- Majors 0x20, 0x22 and 0x23: predicates and selection. -/
def decPred (op : Nat) (n : Bool) (f : BitVec 3) (d a b : Reg) : Option Instr :=
  match op with
  | 0x20 => if n then none else
    match condOf f, predOf d with
    | some c, some k => some (.cmp c k a b)
    | _, _ => none
  | 0x22 => if n then none else
    match kfnOf f, predOf d, predOf a, predOf b with
    | some g, some k, some x, some y => only (g != .not || y == 0) (.kop g k x y)
    | _, _, _, _ => none
  | 0x23 => some (.sel n f d a b)
  | _ => none

/-- Majors 0x30 to 0x32: branches. -/
def decBranch (op : Nat) (k : Pred) (s : Bool) (a : Reg) (o : BitVec 14) : Option Instr :=
  match op with
  | 0x30 => only (a == 0) (.br k s o)
  | 0x31 => some (.brl k s a o)
  | 0x32 => some (.jr k s a o)
  | _ => none

/-- Majors 0x33 and 0x37 to 0x39: loops, window and special registers, in the I format. -/
def decCtl (op : Nat) (n : Bool) (d a : Reg) (i : BitVec 10) : Option Instr :=
  match op with
  | 0x33 => only (!n && d == 0) (.loop a i)
  | 0x37 => only (!n && d == 0 && a == 0) (.winb i)
  | 0x38 => only (a == 0) (.gets n d i)
  | 0x39 => only (!n && d == 0) (.sets a i)
  | _ => none

/-- Majors 0x40 to 0x48: floating point in the R format. -/
def decFp (op : Nat) (n : Bool) (f : BitVec 3) (d a b : Reg) : Option Instr :=
  match op with
  | 0x40 => (ffmtOf f).map fun t => .fadd n t d a b
  | 0x41 => (ffmtOf f).map fun t => .fsub n t d a b
  | 0x42 => (ffmtOf f).map fun t => .fmul n t d a b
  | 0x43 => (ffmtOf f).map fun t => .ffma n t d a b
  | 0x44 => (fminOf f).map fun t => .fmin n t.1 t.2 d a b
  | 0x45 => (fminOf f).map fun t => .fmax n t.1 t.2 d a b
  | 0x46 => (sgnOf f).map fun t => .fsgn n t d a b
  | 0x47 => if n then none else
    match fcondOf f, predOf d with
    | some c, some k => some (.fcmp c k a b)
    | _, _ => none
  | 0x48 => only (f == 0 && b == 0) (.fclass n d a)
  | _ => none

/-- Majors 0x49, 0x4A, 0x53 and 0x54: conversions in the I format. -/
def decCvt (op : Nat) (n : Bool) (d a : Reg) (i : BitVec 10) : Option Instr :=
  match op with
  | 0x49 => if i.extractLsb' 8 2 != 0 then none else
    match cvtOf (i.extractLsb' 4 4), cvtOf (i.extractLsb' 0 4) with
    | some s, some t => some (.fcvt n d a s t)
    | _, _ => none
  | 0x4A => if i.extractLsb' 3 7 != 0 then none else (rndOf (i.extractLsb' 0 3)).map fun m => .frnd n d a m
  | 0x53 => if i.extractLsb' 4 6 != 0 then none else (packOf (i.extractLsb' 0 4)).map fun c => .pack n d a c
  | 0x54 => if n || i.extractLsb' 4 6 != 0 then none else (packOf (i.extractLsb' 0 4)).map fun c => .unpk d a c
  | _ => none

/-- Majors 0x50 to 0x52, 0x55, 0x56 and 0x58 to 0x5B: special functions and cross-lane operations. -/
def decLane (op : Nat) (n : Bool) (f : BitVec 3) (d a b : Reg) : Option Instr :=
  match op with
  | 0x50 => only (b == 0) (.sfn n (sfnOf f) d a)
  | 0x51 => match f with
    | 0 => some (.maxex n d a b) | 1 => some (.scalb n d a b) | 2 => some (.exp2m n d a b) | _ => none
  | 0x52 => (dotOf f).map fun t => .dot4 n t d a b
  | 0x55 => only (!n) (.topki f d a b)
  | 0x56 => if a == 0 && b == 0 then (randOf f).map fun t => .rand n t d else none
  | 0x58 => (shflOf f).map fun t => .shfl n t d a b
  | 0x59 => if n || b != 0 then none else
    match voteOf f, predOf a with
    | some t, some k => some (.vote t d k)
    | _, _ => none
  | 0x5A => only (b == 0) (.lred n (lredOf f) d a)
  | 0x5B => if b == 0 then (scanOf f).map fun t => .scan n t d a else none
  | _ => none

/-- Major 0x5C: team barriers. -/
def decBar (n : Bool) (d a : Reg) (i : BitVec 10) : Option Instr :=
  if n || d != 0 || i.extractLsb' 4 4 != 0 then none
  else match (i.extractLsb' 8 2 : BitVec 2) with
    | 0 => some (.bar a (i.extractLsb' 0 4))
    | 1 => some (.bara a (i.extractLsb' 0 4))
    | 2 => only (a == 0) (.barw (i.extractLsb' 0 4))
    | 3 => none

/-- Majors 0x35, 0x36 and 0x5D to 0x5F: control and work creation in the R format. -/
def decWork (op : Nat) (n : Bool) (f : BitVec 3) (d a b : Reg) : Option Instr :=
  if n then none else
  match op with
  | 0x35 => only (f == 0 && d == 0 && a == 0 && b == 0) .leave
  | 0x36 => only (f == 0 && d == 0 && a == 0 && b == 0) .nop
  | 0x5D => if d != 0 || a != 0 || b != 0 then none else
    match f with
    | 0 => some .rcb | 1 => some .yield | 2 => some .exit | 3 => some .lpass | _ => none
  | 0x5E => match f with
    | 0 => only (b == 0) (.fork d a) | 1 => only (a == 0 && b == 0) (.join d) | 2 => only (b == 0) (.take d a)
    | _ => none
  | 0x5F => match f with
    | 0 => only (d == 0) (.launch a b) | 1 => only (d == 0 && b == 0) (.gbar a) | _ => none
  | _ => none

/-- Majors 0x62, 0x66 and 0x67: records, bundles and synchronisation in the R format. -/
def decSync (op : Nat) (n : Bool) (f : BitVec 3) (d a b : Reg) : Option Instr :=
  if n then none else
  match op with
  | 0x62 => match f, recOf d with
    | 0, some r => only (b == 0) (.recld r a)
    | 1, some r => only (b == 0) (.recset r a)
    | _, _ => none
  | 0x66 => match f with
    | 0 => only (b == 0) (.bdecl d a) | 1 => some (.benter d a b) | 2 => some (.bwait d a b)
    | 3 => only (d == 0) (.bleave a b) | 4 => only (b == 0) (.bdrop d a) | _ => none
  | 0x67 => if d.extractLsb' 3 4 != 0 then none else
    match f with
    | 0 => some (.acq (d.extractLsb' 0 3) a b)
    | 1 => only (b == 0) (.rel (d.extractLsb' 0 3) a)
    | 2 => only (a == 0 && b == 0) (.fence (d.extractLsb' 0 3))
    | _ => none
  | _ => none

/-- Majors 0x63 and 0x64: scratchpad. -/
def decSpad (op : Nat) (n : Bool) (d a : Reg) (i : BitVec 10) : Option Instr :=
  let o : BitVec 7 := i.extractLsb' 3 7
  let z := sizeOf2 (i.extractLsb' 1 2)
  match op with
  | 0x63 => if i.getLsbD 0 then only (!n) (.sldm d a o z) else some (.sld n d a o z)
  | 0x64 => if n then none else if i.getLsbD 0 then some (.sstm d a o z) else some (.sst d a o z)
  | _ => none

/-- Majors 0x60, 0x61, 0x65 and 0x68 to 0x6F: accesses through a record, in the M format. -/
def decMem (op : Nat) (k : Pred) (d : Reg) (q : RecReg) (x : Reg) (sub : BitVec 4) : Option Instr :=
  let h := hintOf (sub.extractLsb' 2 2)
  let z := sizeOf2 (sub.extractLsb' 0 2)
  let s : BitVec 3 := sub.extractLsb' 0 3
  let r := sub.getLsbD 3
  match op with
  | 0x60 => only (k == 0) (.ld d q x h z)
  | 0x61 => some (.st k d q x h z)
  | 0x65 => only (k == 0 && d == 0) (.pref q x h z)
  | 0x68 => if k == 0 then (wcondOf sub).map fun c => .waitc d q x c else none
  | 0x69 => some (if r then .atomAdd k d q x s else .redAdd k d q x s)
  | 0x6A => some (if r then .atomMin k d q x s else .redMin k d q x s)
  | 0x6B => some (if r then .atomMax k d q x s else .redMax k d q x s)
  | 0x6C => some (if r then .atomAnd k d q x s else .redAnd k d q x s)
  | 0x6D => some (if r then .atomOr k d q x s else .redOr k d q x s)
  | 0x6E => some (if r then .atomXor k d q x s else .redXor k d q x s)
  | 0x6F => some (if r then .atomXchg k d q x s else .cas k d q x s)
  | _ => none

/-- Majors 0x70 to 0x76: engine commands. -/
def decEngine (op : Nat) (n : Bool) (f : BitVec 3) (d a b : Reg) : Option Instr :=
  if n then none else
  match op with
  | 0x70 => only (d == 0 && !f.getLsbD 2) (.copy (f.extractLsb' 0 2) a b)
  | 0x71 => if b != 0 then none else
    match f with
    | 0 => some (.wtag d a) | 1 => some (.wtany d a) | 2 => some (.tfirst d a) | _ => none
  | 0x72 => only (f == 0) (.vfill d a b)
  | 0x73 => only (f == 0) (.mloop d a b)
  | 0x74 => match f with
    | 0 => some (.aring d a b) | 1 => some (.epi d a b) | _ => none
  | 0x75 => match f with
    | 0 => only (d == 0 && b == 0) (.qfence a) | 1 => only (b == 0) (.qseq d a) | _ => none
  | 0x76 => match f with
    | 0 => some (.sumpw d a b) | 1 => some (.sumpx d a b) | _ => none
  | _ => none

/-- Majors 0x79 to 0x7B: system, invocation and frames. -/
def decSys (op : Nat) (n : Bool) (f : BitVec 3) (d a b : Reg) : Option Instr :=
  if n then none else
  match op with
  | 0x79 => match f with
    | 0 => only (d == 0 && a == 0 && b == 0) .eret
    | 1 => only (d == 0 && a == 0 && b == 0) .wfi
    | 2 => only (d == 0) (.tlbi a b)
    | 3 => some (.partEnq d a b)
    | 4 => only (d == 0 && a == 0 && b == 0) .halt
    | 5 => only (b == 0) (.lostclr d a)
    | _ => none
  | 0x7A => only (f == 0 && d == 0) (.invoke a b)
  | 0x7B => match f with
    | 0 => some (.frame d a b)
    | 1 => match predOf d with
      | some k => only (b == 0) (.fchk k a)
      | none => none
    | _ => none
  | _ => none

/-- Majors 0x78 and 0x7C: TRAP and EVT. -/
def decTrace (op : Nat) (n : Bool) (d a : Reg) (i : BitVec 10) : Option Instr :=
  match op with
  | 0x78 => only (!n && d == 0 && a == 0) (.trap i)
  | 0x7C => only (!n && d == 0) (.evt a i)
  | _ => none

/-- The format in which a major opcode is read (R65). -/
inductive Family where
  | int | imm | const | pred | branch | ctl | loopi | work | fp | cvt | lane | bar | sync | spad | mem | engine | sys
  | trace | trail | reserved
  deriving DecidableEq, Repr

/-- The opcode map's assignment of each major opcode (R65). -/
def familyOf (op : Nat) : Family :=
  if op = 0 then .reserved
  else if op ≤ 0x08 then .int
  else if op ≤ 0x0E then .imm
  else if op = 0x10 ∨ op = 0x11 then .const
  else if op = 0x21 then .imm
  else if op = 0x20 ∨ op = 0x22 ∨ op = 0x23 then .pred
  else if 0x30 ≤ op ∧ op ≤ 0x32 then .branch
  else if op = 0x33 ∨ 0x37 ≤ op ∧ op ≤ 0x39 then .ctl
  else if op = 0x34 then .loopi
  else if op = 0x35 ∨ op = 0x36 ∨ 0x5D ≤ op ∧ op ≤ 0x5F then .work
  else if 0x40 ≤ op ∧ op ≤ 0x48 then .fp
  else if op = 0x49 ∨ op = 0x4A ∨ op = 0x53 ∨ op = 0x54 then .cvt
  else if 0x50 ≤ op ∧ op ≤ 0x52 ∨ op = 0x55 ∨ op = 0x56 ∨ 0x58 ≤ op ∧ op ≤ 0x5B then .lane
  else if op = 0x5C then .bar
  else if op = 0x62 ∨ op = 0x66 ∨ op = 0x67 then .sync
  else if op = 0x63 ∨ op = 0x64 then .spad
  else if op = 0x60 ∨ op = 0x61 ∨ op = 0x65 ∨ 0x68 ≤ op ∧ op ≤ 0x6F then .mem
  else if 0x70 ≤ op ∧ op ≤ 0x76 then .engine
  else if 0x79 ≤ op ∧ op ≤ 0x7B then .sys
  else if op = 0x78 ∨ op = 0x7C then .trace
  else if op = 0x7F then .trail
  else .reserved

/-- The instruction that a word names by the opcode map alone (R65), before the field rules of R58 to R61. -/
def candidate (w : Word) : Option Instr :=
  let op := (fMajor w).toNat
  match familyOf op with
  | .int => decInt op (fNW w) (fF w) (fDR w) (fAR w) (fBR w)
  | .imm => decImm op (fNW w) (fDI w) (fAI w) (fImm10 w)
  | .const => some (if op = 0x10 then .movi (fDL w) (fImm18 w) else .movhi (fDL w) (fImm18 w))
  | .pred => decPred op (fNW w) (fF w) (fDR w) (fAR w) (fBR w)
  | .branch => decBranch op (fK w) (fS w) (fDR w) (fOff14 w)
  | .ctl => decCtl op (fNW w) (fDI w) (fAI w) (fImm10 w)
  | .loopi => only (fDL w == 0) (.loopi ((fImm18 w).extractLsb' 8 10) ((fImm18 w).extractLsb' 0 8))
  | .work => decWork op (fNW w) (fF w) (fDR w) (fAR w) (fBR w)
  | .fp => decFp op (fNW w) (fF w) (fDR w) (fAR w) (fBR w)
  | .cvt => decCvt op (fNW w) (fDI w) (fAI w) (fImm10 w)
  | .lane => decLane op (fNW w) (fF w) (fDR w) (fAR w) (fBR w)
  | .bar => decBar (fNW w) (fDI w) (fAI w) (fImm10 w)
  | .sync => decSync op (fNW w) (fF w) (fDR w) (fAR w) (fBR w)
  | .spad => decSpad op (fNW w) (fDI w) (fAI w) (fImm10 w)
  | .mem => decMem op (fK w) (fDM w) (fQ w) (fX w) (fSub w)
  | .engine => decEngine op (fNW w) (fF w) (fDR w) (fAR w) (fBR w)
  | .sys => decSys op (fNW w) (fF w) (fDR w) (fAR w) (fBR w)
  | .trace => decTrace op (fNW w) (fDI w) (fAI w) (fImm10 w)
  | .trail => only ((fFlags w).extractLsb' 3 2 == 0)
      (.trail (fDL w) (fCnt1 w) (fBase2 w) (fCnt2 w) ((fFlags w).getLsbD 2) ((fFlags w).getLsbD 1)
        ((fFlags w).getLsbD 0))
  | .reserved => none

/-- The instruction that a word decodes to, none when R63 makes it ILLEGAL. -/
def decode (w : Word) : Option Instr :=
  match candidate w with
  | some i => if i.wf then some i else none
  | none => none

/-- The word at the head of a byte list, little-endian (R57). -/
def wordOfBytes : List Byte → Option (Word × List Byte)
  | b0 :: b1 :: b2 :: b3 :: rest => some ((b3 ++ b2 ++ b1 ++ b0 : BitVec 32), rest)
  | _ => none

/-- The instruction at the head of a byte list, with the rest of the list. -/
def decodeBytes (bs : List Byte) : Option (Instr × List Byte) :=
  match wordOfBytes bs with
  | some (w, rest) => (decode w).map fun i => (i, rest)
  | none => none

/-- The bytes of a word as memory stores them, lowest address first (R57). -/
def wordBytes (w : Word) : List Byte :=
  [w.extractLsb' 0 8, w.extractLsb' 8 8, w.extractLsb' 16 8, w.extractLsb' 24 8]

/-- The instruction the decoder reads from an instruction whose bits are `w`; every bit from `nbits` up is 0. -/
def decodeTableWord (nbits w : Nat) : Option Instr :=
  (decodeBytes (wordBytes (BitVec.ofNat 32 (w % 2 ^ nbits)))).map Prod.fst

/-! ## The encoder -/

/-- A word of the R format. -/
def encR (op : BitVec 7) (n : Bool) (f : BitVec 3) (d a b : BitVec 7) : Word :=
  (op ++ BitVec.ofBool n ++ f ++ d ++ a ++ b : BitVec 32)
/-- A word of the I format. -/
def encI (op : BitVec 7) (n : Bool) (d a : BitVec 7) (i : BitVec 10) : Word :=
  (op ++ BitVec.ofBool n ++ d ++ a ++ i : BitVec 32)
/-- A word of the L format. -/
def encL (op : BitVec 7) (d : BitVec 7) (i : BitVec 18) : Word := (op ++ d ++ i : BitVec 32)
/-- A word of the B format. -/
def encB (op : BitVec 7) (k : BitVec 3) (s : Bool) (a : BitVec 7) (o : BitVec 14) : Word :=
  (op ++ k ++ BitVec.ofBool s ++ a ++ o : BitVec 32)
/-- A word of the M format. -/
def encM (op : BitVec 7) (k : BitVec 3) (d : BitVec 7) (q : BitVec 4) (x : BitVec 7) (sub : BitVec 4) : Word :=
  (op ++ k ++ d ++ q ++ x ++ sub : BitVec 32)
/-- A word of the T format. -/
def encT (b : BitVec 7) (c : BitVec 3) (e : BitVec 7) (f : BitVec 3) (y u v : Bool) : Word :=
  ((0x7F : BitVec 7) ++ b ++ c ++ e ++ f ++ (0 : BitVec 2) ++ BitVec.ofBool y ++ BitVec.ofBool u ++ BitVec.ofBool v :
    BitVec 32)

/-- A predicate in a 7-bit field. -/
def predField (k : Pred) : BitVec 7 := (0 : BitVec 4) ++ k
/-- A record register in a 7-bit field. -/
def recField (r : RecReg) : BitVec 7 := (0 : BitVec 3) ++ r
/-- Hint and size in sub. -/
def subHZ (h : Hint) (z : Size) : BitVec 4 := hintCode h ++ sizeCode z
/-- Return bit and scope in sub. -/
def subRS (r : Bool) (s : BitVec 3) : BitVec 4 := (BitVec.ofBool r ++ s : BitVec 4)
/-- Offset, size and member bit of a scratchpad access (R61). -/
def spadImm (o : BitVec 7) (z : Size) (m : Bool) : BitVec 10 := (o ++ sizeCode z ++ BitVec.ofBool m : BitVec 10)

/-- The word of an instruction; 0, an ILLEGAL word, for the device's own steps. -/
def encode : Instr → Word
  | .add n d a b => encR 0x01 n 0 d a b
  | .sub n d a b => encR 0x01 n 1 d a b
  | .and n d a b => encR 0x01 n 2 d a b
  | .or n d a b => encR 0x01 n 3 d a b
  | .xor n d a b => encR 0x01 n 4 d a b
  | .min n d a b => encR 0x02 n 0 d a b
  | .max n d a b => encR 0x02 n 1 d a b
  | .minu n d a b => encR 0x02 n 2 d a b
  | .maxu n d a b => encR 0x02 n 3 d a b
  | .shl n d a b => encR 0x03 n 0 d a b
  | .shr n d a b => encR 0x03 n 1 d a b
  | .sra n d a b => encR 0x03 n 2 d a b
  | .rot n d a b => encR 0x03 n 3 d a b
  | .clz n d a => encR 0x04 n 0 d a 0
  | .popc n d a => encR 0x04 n 1 d a 0
  | .brev n d a => encR 0x04 n 2 d a 0
  | .mov n d a => encR 0x04 n 3 d a 0
  | .mul n d a b => encR 0x05 n 0 d a b
  | .mulh n d a b => encR 0x05 n 1 d a b
  | .mulhu n d a b => encR 0x05 n 2 d a b
  | .mad n d a b => encR 0x06 n 0 d a b
  | .div n d a b => encR 0x07 n 0 d a b
  | .divu n d a b => encR 0x07 n 1 d a b
  | .rem n d a b => encR 0x07 n 2 d a b
  | .remu n d a b => encR 0x07 n 3 d a b
  | .addw d a b => encR 0x08 false 0 d a b
  | .subw d a b => encR 0x08 false 1 d a b
  | .mulw d a b => encR 0x08 false 2 d a b
  | .bfx n d a w p => encI 0x09 n d a (w ++ p : BitVec 10)
  | .bfi n d a w p => encI 0x0A n d a (w ++ p : BitVec 10)
  | .addi n d a i => encI 0x0B n d a i
  | .andi n d a i => encI 0x0C n d a i
  | .ori n d a i => encI 0x0D n d a i
  | .xori n d a i => encI 0x0E n d a i
  | .movi d i => encL 0x10 d i
  | .movhi d i => encL 0x11 d i
  | .cmp c k a b => encR 0x20 false (condCode c) (predField k) a b
  | .cmpi c k a i => encI 0x21 false ((0 : BitVec 1) ++ condCode c ++ k : BitVec 7) a i
  | .kop f k a b => encR 0x22 false (kfnCode f) (predField k) (predField a) (predField b)
  | .sel n g d a b => encR 0x23 n g d a b
  | .br k s o => encB 0x30 k s 0 o
  | .brl k s a o => encB 0x31 k s a o
  | .jr k s a o => encB 0x32 k s a o
  | .loop a e => encI 0x33 false 0 a e
  | .loopi e c => encL 0x34 0 (e ++ c : BitVec 18)
  | .leave => encR 0x35 false 0 0 0 0
  | .nop => encR 0x36 false 0 0 0 0
  | .winb i => encI 0x37 false 0 0 i
  | .gets n d i => encI 0x38 n d 0 i
  | .sets a i => encI 0x39 false 0 a i
  | .recld r a => encR 0x62 false 0 (recField r) a 0
  | .recset r a => encR 0x62 false 1 (recField r) a 0
  | .ld d q x h z => encM 0x60 0 d q x (subHZ h z)
  | .st k d q x h z => encM 0x61 k d q x (subHZ h z)
  | .trail b c e f y u v => encT b c e f y u v
  | .fadd n f d a b => encR 0x40 n (ffmtCode f) d a b
  | .fsub n f d a b => encR 0x41 n (ffmtCode f) d a b
  | .fmul n f d a b => encR 0x42 n (ffmtCode f) d a b
  | .ffma n f d a b => encR 0x43 n (ffmtCode f) d a b
  | .fmin n p f d a b => encR 0x44 n (fminCode p f) d a b
  | .fmax n p f d a b => encR 0x45 n (fminCode p f) d a b
  | .fsgn n f d a b => encR 0x46 n (sgnCode f) d a b
  | .fcmp c k a b => encR 0x47 false (fcondCode c) (predField k) a b
  | .fclass n d a => encR 0x48 n 0 d a 0
  | .fcvt n d a s t => encI 0x49 n d a ((0 : BitVec 2) ++ cvtCode s ++ cvtCode t : BitVec 10)
  | .frnd n d a m => encI 0x4A n d a ((0 : BitVec 7) ++ rndCode m : BitVec 10)
  | .sfn n f d a => encR 0x50 n (sfnCode f) d a 0
  | .maxex n d a b => encR 0x51 n 0 d a b
  | .scalb n d a b => encR 0x51 n 1 d a b
  | .exp2m n d a b => encR 0x51 n 2 d a b
  | .dot4 n f d a b => encR 0x52 n (dotCode f) d a b
  | .pack n d a c => encI 0x53 n d a ((0 : BitVec 6) ++ packCode c : BitVec 10)
  | .unpk d a c => encI 0x54 false d a ((0 : BitVec 6) ++ packCode c : BitVec 10)
  | .topki k d a b => encR 0x55 false k d a b
  | .rand n f d => encR 0x56 n (randCode f) d 0 0
  | .shfl n f d a b => encR 0x58 n (shflCode f) d a b
  | .vote f d a => encR 0x59 false (voteCode f) d (predField a) 0
  | .lred n f d a => encR 0x5A n (lredCode f) d a 0
  | .scan n f d a => encR 0x5B n (scanCode f) d a 0
  | .bar a b => encI 0x5C false 0 a ((0 : BitVec 2) ++ (0 : BitVec 4) ++ b : BitVec 10)
  | .bara a b => encI 0x5C false 0 a ((1 : BitVec 2) ++ (0 : BitVec 4) ++ b : BitVec 10)
  | .barw b => encI 0x5C false 0 0 ((2 : BitVec 2) ++ (0 : BitVec 4) ++ b : BitVec 10)
  | .rcb => encR 0x5D false 0 0 0 0
  | .yield => encR 0x5D false 1 0 0 0
  | .exit => encR 0x5D false 2 0 0 0
  | .lpass => encR 0x5D false 3 0 0 0
  | .fork d a => encR 0x5E false 0 d a 0
  | .join d => encR 0x5E false 1 d 0 0
  | .take d a => encR 0x5E false 2 d a 0
  | .launch a b => encR 0x5F false 0 0 a b
  | .gbar a => encR 0x5F false 1 0 a 0
  | .sld n d a o z => encI 0x63 n d a (spadImm o z false)
  | .sldm d a o z => encI 0x63 false d a (spadImm o z true)
  | .sst d a o z => encI 0x64 false d a (spadImm o z false)
  | .sstm d a o z => encI 0x64 false d a (spadImm o z true)
  | .pref q x h z => encM 0x65 0 0 q x (subHZ h z)
  | .bdecl d a => encR 0x66 false 0 d a 0
  | .benter d a b => encR 0x66 false 1 d a b
  | .bwait d a b => encR 0x66 false 2 d a b
  | .bleave a b => encR 0x66 false 3 0 a b
  | .bdrop d a => encR 0x66 false 4 d a 0
  | .acq s a b => encR 0x67 false 0 (predField s) a b
  | .rel s a => encR 0x67 false 1 (predField s) a 0
  | .fence s => encR 0x67 false 2 (predField s) 0 0
  | .waitc d q x c => encM 0x68 0 d q x (wcondCode c)
  | .atomAdd k d q x s => encM 0x69 k d q x (subRS true s)
  | .redAdd k d q x s => encM 0x69 k d q x (subRS false s)
  | .atomMin k d q x s => encM 0x6A k d q x (subRS true s)
  | .redMin k d q x s => encM 0x6A k d q x (subRS false s)
  | .atomMax k d q x s => encM 0x6B k d q x (subRS true s)
  | .redMax k d q x s => encM 0x6B k d q x (subRS false s)
  | .atomAnd k d q x s => encM 0x6C k d q x (subRS true s)
  | .redAnd k d q x s => encM 0x6C k d q x (subRS false s)
  | .atomOr k d q x s => encM 0x6D k d q x (subRS true s)
  | .redOr k d q x s => encM 0x6D k d q x (subRS false s)
  | .atomXor k d q x s => encM 0x6E k d q x (subRS true s)
  | .redXor k d q x s => encM 0x6E k d q x (subRS false s)
  | .atomXchg k d q x s => encM 0x6F k d q x (subRS true s)
  | .cas k d q x s => encM 0x6F k d q x (subRS false s)
  | .copy f a b => encR 0x70 false ((0 : BitVec 1) ++ f : BitVec 3) 0 a b
  | .wtag d a => encR 0x71 false 0 d a 0
  | .wtany d a => encR 0x71 false 1 d a 0
  | .tfirst d a => encR 0x71 false 2 d a 0
  | .vfill d a b => encR 0x72 false 0 d a b
  | .mloop d a b => encR 0x73 false 0 d a b
  | .aring d a b | .aringRelease d a b => encR 0x74 false 0 d a b
  | .epi d a b => encR 0x74 false 1 d a b
  | .qfence a => encR 0x75 false 0 0 a 0
  | .qseq d a => encR 0x75 false 1 d a 0
  | .sumpw d a b => encR 0x76 false 0 d a b
  | .sumpx d a b => encR 0x76 false 1 d a b
  | .trap i => encI 0x78 false 0 0 i
  | .eret => encR 0x79 false 0 0 0 0
  | .wfi => encR 0x79 false 1 0 0 0
  | .tlbi a b => encR 0x79 false 2 0 a b
  | .partEnq d a b | .partAdd d a b | .partRemove d a b | .partReset d a b => encR 0x79 false 3 d a b
  | .halt => encR 0x79 false 4 0 0 0
  | .lostclr d a => encR 0x79 false 5 d a 0
  | .invoke a b => encR 0x7A false 0 0 a b
  | .frame d a b => encR 0x7B false 0 d a b
  | .fchk k a => encR 0x7B false 1 (predField k) a 0
  | .evt a i => encI 0x7C false 0 a i
  | _ => 0

end Sys2Proof
end

