-- ==== Sys2Proof/Machine/Retire.lean ====
section
/-!
DEFINITION. The trailer: the end of a run (R28, R37, R40), the entries that it forms (R87, R182), the loop stack and its held
entries (R45, R46, R90), and what takes effect there (R199, R208 to R210, R398).
-/

namespace Sys2Proof.Machine

/-! ## Held entries (R45, R46, R90) -/

/-- Whether an entry is Held. -/
def Entry.isHeld (e : Entry) : Bool :=
  match e.st with
  | .held _ => true
  | _ => false

/-- Whether an entry is Parked. -/
def Entry.isParked (e : Entry) : Bool :=
  match e.st with
  | .parked _ => true
  | _ => false

/-- Whether an entry is Held at the end of a loop. -/
def Entry.heldEnd (e : Entry) : Bool := e.st == .held none

/-- Pop while the top entry's range does not contain a target (R46). -/
def popsFor (pc : Word) : List LoopEntry → List LoopEntry
  | [] => []
  | t :: l => if t.start.toNat ≤ pc.toNat ∧ pc.toNat ≤ t.stop.toNat then t :: l else popsFor pc l

/-- One change that the rules of R90 make to a wave between runs, none when they make no more. DEDUCED (log entry 85): an entry whose PC is the
loop's end and that is not yet Held, because it is Blocked, is Parked or branched there, is waited for like one in [start, end), although rule 1
names only that range: its next run is the trailer at the end, whose loop-back it shares. -/
def Wave.settleStep (w : Wave) : Option Wave :=
  let past := fun e : Entry => { e with pc := if e.heldEnd then e.pc + 1 else e.pc, st := .runnable }
  match w.loops with
  | [] =>
    if w.frontier.any Entry.isHeld then
      some { w with frontier := addEntries (w.frontier.map fun e => if e.isHeld then past e else e) [] }
    else none
  | t :: rest =>
    if w.frontier.any fun e => e.heldEnd && e.pc != t.stop then
      let f := w.frontier.map fun e => if e.heldEnd && e.pc != t.stop then past e else e
      some { w with frontier := addEntries f [] }
    else if w.frontier.any Entry.heldEnd &&
        !(w.frontier.any fun e => t.before e.pc || (e.pc == t.stop && !e.heldEnd)) then
      if t.count.toNat > 1 then
        some { w with
          loops := { t with count := t.count - 1 } :: rest
          frontier := addEntries (w.frontier.map fun e =>
            if e.heldEnd then { e with pc := t.start, st := .runnable } else e) [] }
      else
        some { w with loops := rest
                      frontier := addEntries (w.frontier.map fun e => if e.heldEnd then past e else e) [] }
    else
      match w.frontier.find? fun e => e.isHeld && !e.heldEnd with
      | none => none
      | some h =>
        if w.frontier.any fun e => inTop [t] e.pc then none
        else
          some { w with
            loops := popsFor h.pc w.loops
            frontier := addEntries (w.frontier.map fun e => if e = h then { e with st := .runnable } else e) [] }

/-- The changes of R90, at most `n` of them. -/
def Wave.settleN : Nat → Wave → Wave
  | 0, w => w
  | n + 1, w =>
    match w.settleStep with
    | none => w
    | some w' => Wave.settleN n w'

/-- A wave between runs, with the rules of R90 applied: each change frees a held entry. -/
def Wave.settle (w : Wave) : Wave := if w.run.isSome then w else Wave.settleN (2 * w.frontier.length + 2) w

/-! ## The entries that a trailer forms -/

/-- Where a lane continues after the trailer (R44, R45, R87, R218). DESIGN CHOICE (log entry 86): in a run whose trailer is the top entry's end,
a LOOP's push, or its skip for a count of 0, goes before that entry's loop-back, of which R45 excepts only a taken branch. -/
def Run.nextOf (r : Run) (loops : List LoopEntry) (trailer : Word) (l : Nat) : Word × Land :=
  match r.taken.find? fun p => p.1 == l with
  | some p => (p.2, .jumped)
  | none =>
    match r.jump, r.skipTo, r.push with
    | some j, _, _ => j
    | none, some k, _ => (k, .here)
    | none, none, some _ => (trailer + 1, .here)
    | none, none, none => fallThrough loops trailer

/-- The entries that a run's lanes form at its trailer: one for each next PC, with the parked lanes apart (R87, R182). -/
def Run.entries (r : Run) (width : Nat) (loops : List LoopEntry) (trailer : Word) : List Entry :=
  let lanes := lanesOf width r.mask
  let next := r.nextOf loops trailer
  (distinct (lanes.map next)).flatMap fun t => r.entriesAt loops t.1 t.2 (maskOf (lanes.filter fun l => next l = t))

/-- A result of a lane that exits is discarded on arrival; a load that waits under a report is not made (R209). -/
def LoadItem.discard (m : BitVec 64) (i : LoadItem) : Option LoadItem :=
  if !laneIn m i.lane then some i
  else match i.src with
    | .parked (.load _ _ _) => none
    | _ => some { i with dst := none }

/-- Whether a wave keeps a store or a read-modify-write of some lanes that waits under a report. -/
def Wave.keepsAccess (w : Wave) (m : BitVec 64) (p : Parking) : Bool :=
  match p.retry with
  | .access seq => w.loads.any fun l => l.seq == seq && l.items.any fun i => laneIn m i.lane && i.isParked
  | _ => false

/-- The lanes of a run that exits: their results are discarded, and their stores and read-modify-writes that wait under a report are
made once it is resolved (R209). -/
def Wave.leave (w : Wave) (r : Run) : Wave :=
  let v := { w with loads := w.loads.map fun (l : Load) => { l with items := l.items.filterMap (LoadItem.discard r.mask) } }
  let v := v.unmark (w.loads.flatMap fun l => l.items.flatMap LoadItem.regs)
  { v with ghosts := v.ghosts ++ r.parks.filter fun p => v.keepsAccess p.1 p.2 }

/-- A run that ends in a JR or a LOOP makes the wave's later writes depend on what its operand rests on (R276). -/
def Wave.branched (w : Wave) (keep : Nat → Bool) (r : Run) : Wave :=
  let ids := match r.words.dropLast.getLast? with
    | some (.jr k n a o) => w.deps.ofRegs (w.readRegs r.winb [.jr k n a o])
    | some (.loop a e) => w.deps.ofRegs (w.readRegs r.winb [.loop a e])
    | _ => []
  { w with deps := { w.deps with ctrl := unionIds (w.deps.ctrl.filter keep) ids } }

/-- The wave after its trailer. DESIGN CHOICE (log entry 87): when the entry that has issued YIELD, or whose trailer has the Y bit, splits at that
trailer, the skip entry of R40 and R184 is the one that is formed, and is not Parked, with the lowest PC. -/
def Wave.retire (w : Wave) (r : Run) (trailer : Word) (yields : Bool) : Wave :=
  let w := w.endRun r
  let es := if r.exits then [] else r.entries w.width w.loops trailer
  let w := if r.exits then w.leave r else w
  let w := { w with loops := match r.push with | some t => t :: w.loops | none => w.loops
                    frontier := addEntries es w.frontier }
  let w := w.settle.checkRcb
  let free := es.filter fun e => !e.isParked && e.mask != 0
  if yields then w.skipOver (((minBy (fun e => e.pc.toNat) free).map (·.mask)).getD 0) else w

/-! ## The supervisor core's part (R401 to R403) -/

/-- Whether a wave's issued accesses have been performed (R403). -/
def State.quiet (s : State) (t : Nat) (w : Wave) : Bool :=
  (s.wavePending t { w with before := [] }).isEmpty && w.loads.isEmpty && w.recLoads.isEmpty && w.ghosts.isEmpty

/-- HALT takes effect once the wave's issued accesses have been performed (R403). -/
def State.tryHalt (s : State) (t : Team) : State :=
  match s.wave? t.id 0 with
  | none => s
  | some w =>
    if w.frontier.any (·.waitsOn (· == .halt)) && s.quiet t.id w && !(s.sup t.supIdx).halted then s.haltSup t.supIdx else s

/-- Whether a supervisor core has an enabled pending interrupt source (R402, R407). -/
def Sup.wakes (u : Sup) : Bool := (u.sip &&& u.sie &&& 0x1F) != 0

/-- Whether a supervisor core takes an interrupt at its next run boundary: %sie.GIE is set and an enabled source is pending (R407). -/
def Sup.interrupts (u : Sup) : Bool := u.sie.getLsbD 31 && u.wakes

/-- WFI ends once an enabled source is pending (R402). -/
def State.tryWake (s : State) (t : Team) : State :=
  if (s.sup t.supIdx).wakes then s.updWave t.id 0 fun w => w.unblock (· == .wfi) else s

/-! ## TRAIL -/

/-- The trailer of the current run (R28, R37, R40, R92). -/
def State.retire (s : State) (c : Issue) (y : Bool) : State :=
  let r := c.run
  let yields := r.yields || y
  let t := c.team
  let w := c.wave.idx
  let plain := c.wave.runahead.isNone && c.wave.priv != .trap
  -- an exit of the whole wave ends its turn while it still has one (R194)
  let s := if plain && r.exits && c.wave.frontier.isEmpty then s.endTurn t w else s
  let s := if plain then s.runEnds t w r r.lpass yields else s
  let s := (s.drains c).updCur fun v => (v.branched s.unperformed r).retire r c.trailerPc yields
  if c.wave.runahead.isSome then s
  else if c.wave.priv = .trap then
    -- ERET leaves the restore entry: the wave goes on from its saved state once the whole team has (R386, R387)
    if r.returns then s.updCur fun w => { w with frontier := [], priv := .user } else s
  else
    let s := if r.exits then s.afterExit t.id w else s
    if r.returns && t.isSup then s.trapReturn t (s.frameBytes t)
    else if t.isSup then (s.tryHalt t).tryWake t
    else s

/-- TRAIL: the run ends, its lanes form the wave's next entries, and its named registers with no write outstanding are
unmarked (R37, R92). It occupies no issue cycle (R29). -/
def execTrail (b : Reg) (c : BitVec 3) (e : Reg) (f : BitVec 3) (y u v : Bool) (s : State) :
    Host.Outcome State Fault Refusal :=
  issue (.trail b c e f y u v) s fun i => s.retire i y

end Sys2Proof.Machine
end

