-- ==== Sys2Proof/Machine/Runs.lean ====
section
/-!
DEFINITION. The fetch of a run and its checks (R25, R26, R62 to R64), the frontier's selection (R183), the start of a run
(R27, R37, R188, R195) and entry to runahead mode (R379, R380).
-/

namespace Sys2Proof.Machine

/-! ## Fetch -/

/-- The word that a fetch reads at a local address, or the fault of its line (R247, R396, R423). -/
def State.wordAt (s : State) (pa : Nat) : Except FaultCode Word :=
  if s.inWindow pa then .error .accState
  else match s.lineFault pa with
    | some f => .error f
    | none => .ok (field32 (s.peek pa 4) 0)

/-- The word at a word address, through a team's translation (R57). A supervisor core fetches from the device's own memory: its addresses are
physical, and a PC reaches no other device (log entry 8). What another device's memory holds is free (log entry 15). -/
def State.fetchWord (s : State) (t : Team) (pc : Word) : State × Except FaultCode Word :=
  if t.isSup then (s, if inHbm (4 * pc.toNat) then s.wordAt (4 * pc.toNat) else .error .prot)
  else match s.translateFor t (4 * pc.toNat) .fetch with
  | (s, .error f) => (s, .error f)
  | (s, .ok a) =>
    if devOf a = s.ownDev then (s, s.wordAt (localOf a))
    else
      let (v, s) := s.free
      (s, .ok (lo32 v))

/-- A word that may stand in a run at a privilege level (R63, R64, R397). -/
def checkWord (p : Priv) (w : Word) : Except FaultCode Instr :=
  match decode w with
  | none => .error .illegal
  | some i =>
    if Instr.supervisorOnly i && p != .supervisor then .error .priv
    else if i == .eret && p == .user then .error .priv
    else if Instr.supervisorReg i && p != .supervisor then .error .illegal
    else .ok i

/-- Whether every register that a word names lies inside the wave's allocation (R16, R19, R37); what the format of a record makes of a field
is known at execution only (R310). -/
def inAllocation (winb n : Nat) (i : Instr) : Bool :=
  ((Instr.sources (fun _ => 1) i ++ Instr.dests (fun _ => 1) i).all fun (f, k) => 120 ≤ f.toNat || decide (winb + f.toNat + k ≤ n)) &&
  (trailerRegs winb i).all fun p => decide (p < n)

/-- Whether a word's latch sources name earlier instructions of the run that have a fixed-latency result (R34). -/
def latchesOk (before : List Instr) (i : Instr) : Bool :=
  (Instr.sources (fun _ => 1) i).all fun (f, _) =>
    f.toNat ≤ 120 || match before.reverse[f.toNat - 121]? with
      | none => false
      | some j => Instr.latches j

/-- Whether a word's record registers obey R98 after the words before it. -/
def recsOk (before : List Instr) (i : Instr) : Bool :=
  let defs := before.filterMap Instr.recDef
  (match Instr.recUse i with | some q => !defs.contains q | none => true) &&
  (match Instr.recDef i with | some q => !defs.contains q | none => true)

/-- The checks of a word in its place: `before` are the words before it in the run (R16, R25, R34, R37, R98). -/
def placeOk (winb n : Nat) (before : List Instr) (i : Instr) : Bool :=
  inAllocation winb n i && latchesOk before i && recsOk before i && (Instr.isTrail i || decide (before.length < 24))

/-- Whether the last of some words must stand before the trailer and a word that is none follows it (R26, R88). -/
def misplaced (before : List Instr) (next : Word) : Bool :=
  (before.getLast?.map Instr.mustBeLast).getD false && next >>> 25 != 0x7F

/-- What the fetch of a run comes to: a fault at a word address, or its words, the trailer last. -/
abbrev Fetched := Except (FaultCode × Word) (List Instr)

/-- The fetch of a run from `pc` on, of at most `fuel` words (R25, R62): the word at the lowest address that fails a check decides. `top` is
the end of the top loop entry, where the word must be a trailer (R45). DESIGN CHOICE (log entry 88): of two checks that one word fails,
R62 gives no order; what the word is (R63, R64: ILLEGAL or PRIV) is checked before its place and its registers (R16, R25, R34: ILLEGAL). -/
def State.fetchFrom (t : Team) (w : Wave) (top : Option Word) :
    Nat → State → Word → List Instr → State × Fetched
  | 0, s, pc, _ => (s, .error (.illegal, pc))
  | fuel + 1, s, pc, before =>
    match s.fetchWord t pc with
    | (s, .error f) => (s, .error (f, pc))
    | (s, .ok x) =>
      if misplaced before x then (s, .error (.illegal, pc - 1))
      else match checkWord w.priv x with
      | .error f => (s, .error (f, pc))
      | .ok i =>
        if !placeOk w.winb w.nregs before i || (top == some pc && !Instr.isTrail i) then (s, .error (.illegal, pc))
        else if Instr.isTrail i then (s, .ok (before ++ [i]))
        else State.fetchFrom t w top fuel s (pc + 1) (before ++ [i])

/-- A wave as it stands for the run of an entry: an instruction that is performed again keeps its window base (R367). -/
def Wave.under (w : Wave) (e : Entry) : Wave :=
  match e.redo with
  | some r => { w with winb := r.winb }
  | none => w

/-- The trailer of the run that repeats an instruction: it names the instruction's destination (R37, R369). -/
def redoTrailer (esz : RecReg → Nat) (i : Instr) : Instr :=
  match Instr.dests esz i with
  | (d, k) :: _ => if d.toNat < 120 then .trail d (BitVec.ofNat 3 (k - 1)) 0 0 false false true else .trail 0 0 0 0 false false false
  | [] => .trail 0 0 0 0 false false false

/-- The run at an address, for a wave. -/
def State.fetchRun (s : State) (t : Team) (w : Wave) (pc : Word) : State × Fetched :=
  State.fetchFrom t w (w.loops.head?.map (·.stop)) 25 s pc []

/-- The run of an entry: the one at its PC, or the instruction that it performs again (R369). -/
def State.runOf (s : State) (t : Team) (w : Wave) (e : Entry) : State × Fetched :=
  match e.redo with
  | some r => (s, .ok [r.instr, redoTrailer w.esz r.instr])
  | none => s.fetchRun t w e.pc

/-! ## Waiting (R27, R98) -/

/-- The physical registers that a run reads, writes or names in its trailer (R27). -/
def runRegs (esz : RecReg → Nat) (winb : Nat) (ws : List Instr) : List Nat :=
  ws.flatMap fun i => trailerRegs winb i ++
    (Instr.sources esz i ++ Instr.dests esz i).flatMap fun (f, k) =>
      if f.toNat < 120 then (List.range k).map (winb + f.toNat + ·) else []

/-- The registers of a run that are pending. -/
def Wave.waitRegs (w : Wave) (ws : List Instr) : List Nat := (runRegs w.esz w.winb ws).filter w.marks.contains

/-- Whether the run that starts waits: a register or a record register that it names is pending (R27, R98). -/
def Wave.waits (w : Wave) (ws : List Instr) : Bool :=
  !(w.waitRegs ws).isEmpty || ws.any fun i =>
    w.recLoads.any fun r => Instr.recUse i == some r.reg || Instr.recDef i == some r.reg

/-- The engine queue that a word's command enters, by the wave's quadrant: copy 0 to 3, matrix 4 to 7, flowstone 8 (R325). -/
def Instr.queueOf (q : Nat) : Instr → Option Nat
  | .copy f _ _ => some f.toNat
  | .vfill .. | .mloop .. => some (4 + q)
  | .aring .. | .aringRelease .. | .epi .. => some 8
  | _ => none

/-- Depth of an engine queue (R325). -/
def queueDepth (i : Nat) : Nat := if i < 4 then 16 else 8

/-- The engine queues that the commands of some words enter. -/
def Wave.queues (w : Wave) (ws : List Instr) : List Nat := ws.filterMap (Instr.queueOf (w.idx % 4))

/-- The queues that the runs which a core's other waves have started have still to put commands into (R326). -/
def State.queuesTaken (s : State) (t : Team) (w : Wave) : List Nat :=
  s.teams.flatMap fun u => if u.core ≠ t.core then [] else u.waves.flatMap fun v =>
    if u.id = t.id ∧ v.idx = w.idx then [] else ((v.run.map fun r => v.queues (r.words.drop r.idx)).getD [])

/-- Whether each engine queue that a run names has room for the run's commands, beside those of the runs already started (R326). -/
def State.queueRoom (s : State) (t : Team) (w : Wave) (ws : List Instr) : Bool :=
  let mine := w.queues ws
  mine.isEmpty || let taken := s.queuesTaken t w
  mine.all fun i => decide ((((s.core? t.core).bind fun c => c.queues[i]?).map fun q => q.cmds.length).getD 0 +
    taken.count i + mine.count i ≤ queueDepth i)

/-- Whether a run that makes accesses when it issues waits at its start: a FENCE, an ACQ or a tag of an earlier run is not over, or a
read-modify-write or a WAITC that a bundle-bound load or a record read of the run may have to follow (R266, R267, R272, R281). Nothing of an
earlier run holds it once it has started (R42). -/
def State.accessHolds (s : State) (t : Team) (w : Wave) (ws : List Instr) : Bool :=
  (w.gates s.nextId && ws.any (Instr.accesses w.recs)) ||
  (ws.any (fun i => Instr.readsWhole i || ((match i with | .ld .. => true | _ => false) && Instr.accesses w.recs i)) &&
    ((s.rmws.any fun m => m.team == t.id && m.wave == w.idx) || w.blocks.any fun y => match y with | .waitc _ => true | _ => false))

/-! ## Selection (R183, R184) -/

/-- The entry that a wave selects (R183); `f` is the fairness interval, none under NOFAIR. -/
def Wave.select (w : Wave) (f : Option Nat) : Option Entry :=
  let c : List Entry := w.frontier.filter fun e => e.st == .runnable && !w.passesOver e
  let c : List Entry := match w.skip with
    | some k => if c.any (fun e => e.pc == k) && c.any (fun e => e.pc != k) then c.filter fun e => e.pc != k else c
    | none => c
  let old : List Entry := match f with
    | some n => c.filter fun e => decide (n ≤ e.age)
    | none => []
  if old.isEmpty then minBy (fun e : Entry => e.pc.toNat) c
  else
    let top := old.foldl (fun m (e : Entry) => Nat.max m e.age) 0
    minBy (fun e : Entry => e.pc.toNat) (old.filter fun e : Entry => e.age == top)

/-- The fairness interval of a team's launch (R183). -/
def State.fairness (s : State) (t : Team) : Option Nat :=
  match s.launchOf t with
  | none => some 4096
  | some l => if l.region.nofair then none else some l.region.fair

/-- Whether a wave may start runs at all: its team is not being ended or pre-empted, and its supervisor core runs
(R371, R382, R403), and it is not waiting for the rest of its team to be restored (R387). -/
def State.mayRun (s : State) (t : Team) (w : Wave) : Bool :=
  !t.ending && w.holds == 0 &&
  (w.priv == .trap || !t.restoring && (!t.preempt || t.runsOn w)) &&
  (if t.isSup then !(s.sup t.supIdx).halted && !(s.sup t.supIdx).interrupts
   else ((s.core? t.core).map fun c => c.started && !c.halted).getD false)

/-- The selected entry of a wave: the standing selection, or the one that it would make now. -/
def State.selected (s : State) (t : Team) (w : Wave) : Option Entry :=
  match w.sel with
  | some pc => w.frontier.find? fun e => e.pc == pc && e.st == .runnable
  | none => w.select (s.fairness t)

/-! ## The lantern at the start of a run (R195) -/

/-- Physical registers that some words write. -/
def runDests (esz : RecReg → Nat) (winb : Nat) (ws : List Instr) : List Nat :=
  ws.flatMap fun i => (Instr.dests esz i).flatMap fun (f, k) => if f.toNat < 120 then (List.range k).map (winb + f.toNat + ·) else []

/-- Whether a COPY after some words of its run has a global destination: its direction is the low bits of gA in the lowest lane (R356). Where the
run writes gA before, or A is a latch, it may (log entry 13). -/
def Wave.copyGlobal (w : Wave) (lane : Nat) (before : List Instr) (a : Reg) : Bool :=
  let p := w.winb + a.toNat
  if a.toNat = 120 then false
  else if 120 < a.toNat || (runDests w.esz w.winb before).contains p then true
  else ((((w.lanes[lane]?).bind fun l => l.regs[p]?).getD 0) &&& 3) != 0

/-- Whether a word holds its run back until the wave holds the lantern; `shared` says that the region has a shared range, `global` that a COPY
with its register A has a global destination. An EPI always has. -/
def Instr.needsLantern (shared : Bool) (global : Reg → Bool) : Instr → Bool
  | .atomAdd .. | .redAdd .. | .atomMin .. | .redMin .. | .atomMax .. | .redMax .. | .atomAnd .. | .redAnd ..
  | .atomOr .. | .redOr .. | .atomXor .. | .redXor .. | .atomXchg .. | .cas .. | .join .. | .rel .. | .sumpw ..
  | .invoke .. => true
  | .st .. | .epi .. => shared
  | .copy _ a _ => shared && global a
  | _ => false

/-- Whether a region has a shared range (R168). -/
def Region.hasShared (r : Region) : Bool := r.shr.any fun x => x.len != 0

/-- Whether a run of an entry must wait for the lantern (R195). -/
def State.lanternHolds (s : State) (t : Team) (w : Wave) (e : Entry) (ws : List Instr) : Bool :=
  match s.launchOf t with
  | none => false
  | some l =>
    let lane := (lanesOf w.width e.mask).head?.getD 0
    l.region.ord && !s.holdsLantern t w.idx &&
    (List.range ws.length).any fun k => (ws[k]?).any (Instr.needsLantern l.region.hasShared (w.copyGlobal lane (ws.take k)))

/-! ## The choice of a quadrant (R188, R194) -/

/-- The priority of a team (R188). -/
def State.prioOf (s : State) (t : Team) : Nat := ((s.launchOf t).map (·.region.prio)).getD 0

/-- Whether a wave's next run can start, once its last one has drained: an entry is selected, nothing it names is pending, and it needs no lantern that
the wave lacks. A run that a fault at fetch would stop counts as ready, so that the fault is taken. -/
def State.ready (s : State) (t : Team) (w : Wave) : Bool :=
  s.mayRun t w && w.run.isNone && w.runahead.isNone &&
  match s.selected t w with
  | none => false
  | some e =>
    match (s.runOf t w e).2 with
    | .error _ => true
    | .ok ws => !(w.under e).waits ws && s.queueRoom t w ws && !s.accessHolds t w ws && !s.lanternHolds t w e ws

/-- Whether a wave is a candidate of its quadrant: of the ordered waves only the one whose turn it is (R194). -/
def State.candidate (s : State) (t : Team) (w : Wave) : Bool :=
  !s.ordered t || s.turnOf t.core (w.idx % 4) == some (t.id, w.idx)

/-- Whether wave `a` goes before wave `b`: by priority, by the start of its team (the order of `teams`), by progress count, by
index (R188). -/
def State.goesBefore (s : State) (ta : Team) (a : Wave) (tb : Team) (b : Wave) : Bool :=
  if ta.id = tb.id then decide (a.progress < b.progress ∨ a.progress = b.progress ∧ a.idx < b.idx)
  else if s.prioOf ta = s.prioOf tb then
    match s.teams.find? fun t => t.id == ta.id || t.id == tb.id with
    | some t => t.id == ta.id
    | none => false
  else decide (s.prioOf tb < s.prioOf ta)

/-- Whether a wave of the quadrant other than this one satisfies a test. -/
def State.beside (s : State) (t : Team) (w : Wave) (p : Team → Wave → Bool) : Bool :=
  s.teams.any fun u => u.core == t.core && u.waves.any fun v => v.idx % 4 == w.idx % 4 && !(u.id == t.id && v.idx == w.idx) && p u v

/-- Whether no other wave of the quadrant issues a run; one that waits within its run issues none (R27, R267). -/
def State.idle (s : State) (t : Team) (w : Wave) : Bool := !s.beside t w fun _ v => v.run.any fun r => !r.stalled

/-- Whether the quadrant would start this wave rather than any other ready one, and issues no other run (R188). A wave that still drains starts
after those that have drained (R28). A wave in runahead mode starts a run only when no other wave is ready (R379). -/
def State.chosen (s : State) (t : Team) (w : Wave) : Bool :=
  s.candidate t w && s.idle t w && !s.beside t w fun u v =>
    s.ready u v && s.candidate u v &&
    (decide (v.drain < w.drain) || (decide (v.drain = w.drain) && (w.runahead.isSome || !s.goesBefore t w u v)))

/-! ## Faults at fetch (R367, R374) -/

/-- A fault at fetch: the entry is parked at the run's first word, or a supervisor core traps (R367, R374). A PAGE is for the
supervisor to resolve first (R376); an uncorrectable error is told the supervisor too (R396). In runahead mode nothing is raised (R381). -/
def State.fetchFault (s : State) (t : Team) (w : Wave) (e : Entry) (f : FaultCode × Word) : State :=
  if w.runahead.isSome then s.updWave t.id w.idx Wave.restore
  else if t.isSup then
    s.trapEntry t e.mask f.1.num e.pc (zext64 f.2 <<< 2) f.2
  else
    let (id, s) := s.fresh
    let info : FaultInfo :=
      { code := f.1, lane := (lanesOf w.width e.mask).head?.getD 0, addr := some (zext64 f.2 <<< 2), pc := e.pc }
    let r := s.faultReport t w.idx info (f.1 == .page) false id
    let s := s.addReport r
    let s := if f.1 = .eccUncorr then
        s.deviceCopy r (s.lineAt t (4 * f.2.toNat) .fetch)
      else s
    let st : EntryState := .parked [⟨f.1, id, if f.1 = .illegal ∨ f.1 = .priv then .none else .refetch⟩]
    s.updWave t.id w.idx fun v =>
      { v with sel := none, frontier := v.frontier.map fun x => if x = e then { x with st := st, age := 0 } else x }

/-! ## The start of a run -/

/-- A run at its start (R27, R29). -/
def Run.begin (start : Word) (ws : List Instr) (mask : BitVec 64) (winb : Nat) : Run :=
  { start := start, words := ws, idx := 0, cycle := 0, mask := mask, parkedMask := 0, parks := [], winb := winb,
    newWinb := none, taken := [], push := none, skipTo := none, leaves := 0, yields := false, exits := false, lpass := false,
    turnEnds := false, blocks := [], spadPort := 0, bundlePort := 0, returns := false, jump := none }

/-- The wave with the run of an entry started: the entry leaves the frontier while it issues, its age becomes 0 (R183), and
the registers that the trailer names are marked (R37), except in runahead mode, whose writes mark nothing. -/
def Wave.start (w : Wave) (e : Entry) (ws : List Instr) : Wave :=
  let b := (w.under e).winb
  let named := if w.runahead.isSome then [] else (ws.getLast?.map (trailerRegs b)).getD []
  let run := match e.redo with
    | some r => { Run.begin r.pc ws e.mask b with jump := some (e.pc, e.land), blocks := e.after, again := some r }
    | none => Run.begin e.pc ws e.mask b
  { w with run := some run, sel := none, skip := none, drain := 0,
           frontier := w.frontier.filter (· ≠ e), marks := unionIds w.marks named }

/-- Registers that a run writes, by physical index (R380). -/
def runWrites (winb : Nat) (ws : List Instr) : List Nat :=
  ws.flatMap fun i => if Instr.noWrite i then [] else
    (Instr.dests (fun _ => 1) i).flatMap fun (f, k) =>
      if f.toNat < 120 then (List.range k).map (winb + f.toNat + ·) else []

/-- Whether a run would write a 65th distinct register in runahead mode, or 256 instructions have issued (R380, R381). -/
def Checkpoint.spent (k : Checkpoint) (winb : Nat) (ws : List Instr) : Bool :=
  decide (64 < (unionIds k.written (distinct (runWrites winb ws))).length) || decide (256 ≤ k.issued)

/-- RUN_START (R27): the run of the selected entry starts when nothing that it names is pending, the quadrant chooses the
wave, and the wave holds the lantern if the run needs it; the wave then issues. A wave that stands in a run goes on issuing
it. -/
def State.startRun (s : State) (t w : Nat) : State :=
  match s.team? t, s.wave? t w with
  | some tm, some wv =>
    if wv.run.isSome then
      (if wv.holds = 0 && s.idle tm wv then
        { s.updWave t w (fun v => { v with run := v.run.map fun r => { r with stalled := false } }) with cur := (t, w) }
      else s)
    else
      match s.selected tm wv with
      | none => s
      | some e =>
        if !s.mayRun tm wv || !s.chosen tm wv then s
        else
          match s.runOf tm wv e with
          | (s, .error f) => s.fetchFault tm wv e f
          | (s, .ok ws) =>
            let begun := fun s : State => (s.takeTurn tm w).passCycles tm.core (w % 4) wv.drain none
            match wv.runahead with
            | some k =>
              if k.spent wv.winb ws then s.updWave t w Wave.restore
              else
                { (begun s).updWave t w fun v => { v.start e ws with
                    runahead := v.runahead.map fun k =>
                      { k with written := unionIds k.written (distinct (runWrites wv.winb ws)) } } with cur := (t, w) }
            | none =>
              if (wv.under e).waits ws || !s.queueRoom tm wv ws || s.accessHolds tm wv ws then s
              else if s.lanternHolds tm wv e ws then
                -- the entry is Blocked until the wave holds the lantern, and the wave's turn ends (R194, R195)
                (s.endTurn tm w).updWave t w fun v =>
                  { v with sel := none
                           frontier := v.frontier.map fun x => if x = e then { x with st := .blocked [.lantern] } else x }
              else { (begun s).updWave t w fun v => v.start e ws with cur := (t, w) }
  | _, _ => s

/-- RUN_START (R27). -/
def execRunStart (team wave : Nat) (s : State) : Host.Outcome State Fault Refusal := .next (s.startRun team wave)

/-! ## Runahead (R379) -/

/-- Whether a wave of the quadrant is in runahead mode. -/
def State.quadrantRunsAhead (s : State) (core q : Nat) : Bool :=
  s.teams.any fun u => u.core == core && u.waves.any fun v => v.idx % 4 == q && v.runahead.isSome

/-- Whether a load has missed the L2 of its core's die. A line of the die's own HBM may be in that L2 or not: `far` says (R379, log entry 90). -/
def State.missedItem (s : State) (core : Nat) (far : Bool) (i : LoadItem) : Bool :=
  match i.src with
  | .memory pa _ h =>
    if h != .byp && s.l1.any fun c => c.holder == core && c.line == lineOf pa then false
    else if homeDie pa = dieOf core then far && !s.inWindow pa
    else (s.l2Copy (dieOf core) (lineOf pa)).isNone
  | .remote a _ _ _ => !s.scopedCopies.any fun c => c.holder == dieOf core && c.line == lineOf a.toNat
  | _ => false

/-- Whether a pending register waits for a load that has missed the L2 of its core's die (R379). -/
def State.missed (s : State) (core : Nat) (far : Bool) (w : Wave) (regs : List Nat) : Bool :=
  w.loads.any fun l => l.items.any fun i => i.regs.any regs.contains && s.missedItem core far i

/-- The wave in runahead mode: a checkpoint is kept and every pending register is invalid (R380). -/
def Wave.enterRunahead (w : Wave) (regs : List Nat) : Wave :=
  { w with
    runahead := some { lanes := w.lanes, loops := w.loops, winb := w.winb, rmode := w.rmode, frontier := w.frontier,
                       progress := w.progress, waitsOn := regs, written := [], issued := 0 }
    lanes := w.lanes.map fun l => { l with invRegs := unionIds l.invRegs w.marks } }

/-- Whether the next run of a wave waits on the status of a BENTER, BWAIT, SUMPW or SUMPX, which ends an ordered wave's turn (R293, R355). -/
def Wave.statusWait (w : Wave) (regs : List Nat) : Bool :=
  w.loads.any fun l => l.items.any fun i => i.regs.any regs.contains &&
    match i.src with
    | .admission | .fill _ | .sump _ | .status _ => true
    | _ => false

/-- After a selection: a selected entry that waits on a long miss takes the wave into runahead mode (R379), and one that waits
on a bundle or sump status ends the wave's turn (R293, R355). -/
def State.afterSelect (s : State) (t : Team) (w : Wave) (e : Entry) : State :=
  match s.runOf t w e with
  | (_, .error _) => s
  | (s, .ok ws) =>
    let regs := distinct ((w.under e).waitRegs ws)
    let s := if w.statusWait regs then s.endTurn t w.idx else s
    if regs.isEmpty then s else
    let (far, s) := s.free
    if e.redo.isNone && w.runahead.isNone && !t.preempt && s.missed t.core (far.getLsbD 0) w regs &&
        !s.quadrantRunsAhead t.core (w.idx % 4) then
      s.updWave t.id w.idx fun v => v.enterRunahead regs
    else s

/-- RUNAHEAD_END (R381): the checkpoint is restored once the awaited registers have arrived, 256 instructions have issued, or
the team is to be pre-empted. -/
def execRunaheadEnd (team wave : Nat) (s : State) : Host.Outcome State Fault Refusal :=
  match s.team? team, s.wave? team wave with
  | some t, some w =>
    match w.runahead with
    | none => .next s
    | some k =>
      if !(k.waitsOn.any w.marks.contains) || decide (256 ≤ k.issued) || t.preempt then
        .next (s.updWave team wave Wave.restore)
      else .next s
  | _, _ => .next s

/-! ## Holds (R41) -/

/-- HOLD: one more cause freezes the wave (R41, R395). -/
def execHold (team wave : Nat) (s : State) : Host.Outcome State Fault Refusal :=
  .next (s.updWave team wave fun w => { w with holds := w.holds + 1 })

/-- HOLD_CLEAR: one cause clears; at the last one the wave goes on issuing (R41). -/
def execHoldClear (team wave : Nat) (s : State) : Host.Outcome State Fault Refusal :=
  .next (s.updWave team wave fun w => { w with holds := w.holds - 1 })

end Sys2Proof.Machine
end

