-- ==== Sys2Proof/Machine/EngineCore.lean ====
section
/-!
DEFINITION. Engine queues (R278 to R281, R325 to R330): issue of a command, its start and its end; tags and the waits on them (R329,
R352, R357): WTAG, WTANY and TFIRST; QFENCE and QSEQ (R363).
-/

namespace Sys2Proof.Machine

/-! ## Tags (R329, R357) -/

/-- A tag report (R357). -/
def tagReport (t : Nat) (g : Tag) : Word := BitVec.ofNat 32 (g.status.toNat * 256 + t)

/-- The report "none" (R357). -/
def reportNone : Word := 0x80000000

/-- The tags of a mask with their numbers, the lowest first. -/
def Team.masked (t : Team) (mask : DWord) : List (Nat × Tag) :=
  (t.tags.mapIdx fun i g => (i, g)).filter fun p => mask.getLsbD p.1

/-- Whether a wait on tags is satisfied: WTAG on every tag of the mask, WTANY on any (R357). -/
def Team.tagsReady (t : Team) (all : Bool) (mask : DWord) : Bool :=
  if all then (t.masked mask).all (·.2.ready) else (t.masked mask).any (·.2.ready)

/-- The report of WTAG, and of WTANY and TFIRST (R357). -/
def Team.tagReportOf (t : Team) (all : Bool) (mask : DWord) : Word :=
  match (t.masked mask).find? fun p => if all then p.2.status != 0 else p.2.ready with
  | some p => tagReport p.1 p.2
  | none => reportNone

/-- A wait on tags that is now satisfied keeps the report read at that moment (R357). -/
def Team.readTags (t : Team) : BlockWhy → BlockWhy
  | .tags seq all mask dst none =>
    if t.tagsReady all mask then .tags seq all mask dst (some (t.tagReportOf all mask)) else .tags seq all mask dst none
  | y => y

/-- Whether a wait on tags has its report. -/
def BlockWhy.reported : BlockWhy → Bool
  | .tags _ _ _ _ (some _) => true
  | _ => false

/-- The reports of an entry's satisfied waits on tags are written to its lanes, and the waits end (R351). -/
def Wave.writeReports (w : Wave) : Wave :=
  let put := fun (ls : List Lane) (e : Entry) => e.whys.foldl (fun ls y => match y with
      | .tags _ _ _ (some d) (some v) => ls.mapIdx fun i (ln : Lane) =>
          if laneIn e.mask i then ln.write d v else ln
      | _ => ls) ls
  let w := w.both fun w => { w with lanes := w.frontier.foldl put w.lanes }
  w.both fun w => { w with frontier := addEntries (w.frontier.map (Entry.unblock w.loops BlockWhy.reported)) [] }

/-- Whether a wait of a wave is satisfied now and covers a tag that a LAUNCH or an INVOKE has set (R282). -/
def Team.sawFar (t : Team) (w : Wave) : Bool :=
  w.blocks.any fun y => match y with
    | .tags _ all mask _ none => t.tagsReady all mask && (t.masked mask).any fun p => p.2.far && p.2.ready
    | _ => false

/-- The tags of a team are read by the waits of its waves (R357). An observation of launched work drops the copies of the core's
L1, as what follows it sees that work's writes (R271, R282). -/
def State.checkTags (s : State) (team : Nat) : State :=
  match s.team? team with
  | none => s
  | some t =>
    let far := t.waves.any t.sawFar
    let f := fun w : Wave => (w.both fun w => { w with
      frontier := w.frontier.map (Entry.mapWhys t.readTags)
      run := w.run.map fun (r : Run) => { r with blocks := r.blocks.map t.readTags } }).writeReports
    let s := s.updTeam team fun t => { t with waves := t.waves.map f }
    if far then s.dropCopies t.core 2 fun _ => true else s

/-- A tag receives its status at the end of what owns it (R329, R354), on a core or saved. -/
def State.setTag (s : State) (team : Nat) (tag : Option Nat) (status : Nat) (far : Bool) : State :=
  match tag with
  | none => s
  | some k =>
    let f := fun t : Team => if t.id = team then
      { t with tags := t.tags.modify k fun _ => { ready := true, status := BitVec.ofNat 8 status, owner := none, far := far } } else t
    ({ s with teams := s.teams.map f, saved := s.saved.map f }).checkTags team

/-! ## Issue (R278 to R280, R327) -/

/-- Replace an engine queue of a core. -/
def State.updQueue (s : State) (core q : Nat) (f : Queue → Queue) : State :=
  s.updCore core fun c => { c with queues := c.queues.modify q f }

/-- An engine queue of a core. -/
def State.queue? (s : State) (core q : Nat) : Option Queue := (s.core? core).bind fun c => c.queues[q]?

/-- The head of an engine queue. -/
def State.headCmd (s : State) (core q : Nat) : Option Command := (s.queue? core q).bind fun x => x.cmds.head?

/-- Replace the head of an engine queue. -/
def State.updHead (s : State) (core q : Nat) (f : Command → Command) : State :=
  s.updQueue core q fun x => { x with cmds := match x.cmds with | c :: l => f c :: l | [] => [] }

/-- A command enters a queue: it owns its tag, and starts only after what R279 and R280 name. The secondary of a DUAL pair only
takes the tag (R393). -/
def State.enqueue (s : State) (c : Issue) (lane q : Nat) (tag : Option Nat) (kind : CmdKind) (shared : Bool) : State :=
  let (id, s) := s.fresh
  let s := s.ownTag c.team.id tag id
  if !c.team.performs then s
  else
    let w := (s.wave? c.team.id c.wave.idx).getD c.wave
    let cmd : Command :=
      { id := id, team := c.team.id, wave := c.wave.idx, lane := lane, tag := tag, pc := c.pc, kind := kind,
        waits := s.wavePending c.team.id w ++ w.loads.map (·.seq) ++ w.recLoads.map (·.seq) ++ w.blocks.filterMap BlockWhy.seq?,
        after := ((s.queue? c.team.core q).map (·.fence)).getD [], started := false, flags := 0, fault := none, page := none,
        writes := [], fetches := [], shared := shared }
    s.updQueue c.team.core q fun x => { x with cmds := x.cmds ++ [cmd] }

/-- An engine command's issue (R327, R352): `f` checks the operands and gives the queue, the tag, the command and whether it is a
lantern operation. A supervisor core has no engine queues: there the word is ILLEGAL (log entry 21). -/
def engineOp (i : Instr) (f : Issue → LaneCtx → State → State × Except (FaultCode × Option Nat × Word) (Nat × Option Nat × CmdKind × Bool))
    (s : State) : Host.Outcome State Fault Refusal :=
  memWaveOp i (fun c x s =>
    if c.team.isSup then (s, .error (.illegal, none, 0))
    else
      match f c x s with
      | (s, .error e) => (s, .error e)
      | (s, .ok (q, tag, kind, shared)) => (s.enqueue c x.l q tag kind shared, .ok ())) s

/-- The tag of a selector, or the fault of R352. -/
def Issue.selector (c : Issue) (b : Word) : Except (FaultCode × Option Nat × Word) (Option Nat) :=
  match c.team.tagOf b with
  | .error f => .error (f, none, b)
  | .ok t => .ok t

/-- The die whose rings a team's commands use: the issuing core's, for a DUAL secondary the primary's (R341, R393). -/
def State.engineDie (s : State) (t : Team) : Nat :=
  match t.dual with
  | some d => if d.primary then dieOf t.core else ((s.team? d.peer).map fun p => dieOf p.core).getD (dieOf t.core)
  | none => dieOf t.core

/-! ## Start and end (R279, R280, R328, R330) -/

/-- Whether the reads of a wave with these identities have returned, its waits having made theirs (R280). -/
def State.returned (s : State) (team wave : Nat) (ids : List Nat) : Bool :=
  match s.wave? team wave with
  | none => true
  | some w => ids.all fun i =>
    !(w.loads.any fun l => l.seq == i) && !(w.recLoads.any fun r => r.seq == i) && !(w.blocks.any fun y => y.seq? == some i)

/-- The commands that have not completed: those in queues, and those of saved teams. -/
def State.liveCommands (s : State) : List Nat :=
  (s.cores.flatMap fun c => c.queues.flatMap fun q => q.cmds.map (·.id)) ++ s.saved.flatMap fun t => t.held.map (·.2.id)

/-- Whether a command may start: what its wave did before it is done, and so are the commands that a QFENCE has put before it, those of
saved teams among them (R279, R280, log entry 92). -/
def State.mayStart (s : State) (c : Command) : Bool :=
  s.performed c.waits && s.returned c.team c.wave c.waits && c.after.all fun i => !s.liveCommands.contains i

/-- The report of a command's fault (R330, R372): asynchronous, with the tag's number. -/
def State.commandReport (s : State) (c : Command) (f : FaultCode) (addr : Option DWord) (sup : Bool) : Nat × State :=
  match (s.teams ++ s.saved).find? fun t => t.id == c.team with
  | none => (0, s)
  | some t =>
    let (id, s) := s.fresh
    let info : FaultInfo := { code := f, lane := c.lane, addr := addr, pc := c.pc, aux := BitVec.ofNat 32 (c.tag.getD 0) }
    let r := { s.faultReport t c.wave info sup true id with flg := reportFlg true addr.isSome false sup true }
    let s := s.addReport r
    (id, if f = .eccUncorr then s.deviceCopy r (addr.bind fun a => s.lineAt t a.toNat .read) else s)

/-- The copies of a team that a command's result goes to (R393). -/
def State.copiesOf (s : State) (team : Nat) : List Nat :=
  team :: ((((s.teams ++ s.saved).find? fun t => t.id == team).bind (·.dual)).map (·.peer)).toList

/-- The head of a queue ends with a status: the tag is set, the counter rises, and its flags are raised (R328 to R330). -/
def State.endCommand (s : State) (core q status : Nat) : State :=
  match s.headCmd core q with
  | none => s
  | some c =>
    let s := s.updQueue core q fun x => { x with cmds := x.cmds.drop 1, counter := x.counter + 1 }
    (s.copiesOf c.team).foldl (fun s t =>
      let s := if t = c.team then s else
        match s.team? t with
        | some u => s.updQueue u.core q fun x => { x with counter := x.counter + 1 }
        | none => s
      (s.updAny t c.wave fun w => w.raiseFlags c.lane c.flags).setTag t c.tag status false) s

/-- The head of a queue ends with a fault: it is reported, and its status is the fault's (R330, R354). -/
def State.failCommand (s : State) (core q : Nat) (f : FaultCode) (addr : Option DWord) : State :=
  match s.headCmd core q with
  | none => s
  | some c => ((s.commandReport c f addr false).2).endCommand core q f.status

/-! ## What an engine's access comes to -/

/-- Why an engine's access does not go on: its data are not there, a page is missing, it has met a fault, or it has read an error in the
scratchpad (R396). -/
inductive Halt where
  | wait
  | page (va : Nat)
  | fault (f : FaultCode) (va : Nat)
  | spoiled
  deriving DecidableEq, Repr

/-- A command that has met a halt: it waits, waits for its page, or is to end (R330, R376). -/
def State.haltCommand (s : State) (core q : Nat) (h : Halt) : State :=
  match h, s.headCmd core q with
  | .wait, _ | _, none => s
  | .page va, some c =>
    let (id, s) := s.commandReport c .page (some (BitVec.ofNat 64 va)) true
    s.updHead core q fun c => { c with page := some id }
  | .fault f va, some _ => s.updHead core q fun c => { c with fault := some (f, some (BitVec.ofNat 64 va)) }
  | .spoiled, some _ => s.updHead core q fun c => { c with fault := some (.eccUncorr, none) }

/-- A read of another device by the head of a queue: its data when they have come, else the read is sent (R424). -/
def State.fetchRemote (s : State) (core q g n : Nat) : State × Except Halt (List Byte) :=
  match s.headCmd core q with
  | none => (s, .error .wait)
  | some c =>
    match c.fetches.find? fun f => f.addr == g && f.size == n with
    | some f =>
      match f.data with
      | some bs => (s, .ok bs)
      | none => (s, .error .wait)
    | none =>
      let (id, s) := s.fresh
      let s := s.updHead core q fun c => { c with fetches := { id := id, addr := g, size := n, sentAt := s.time, data := none } :: c.fetches }
      (if s.hasRoute (devOf g) then s.send (devOf g) (dieOf core) 0 (.access id (BitVec.ofNat 64 g) (.load n)) else s, .error .wait)

/-- An engine read of bytes of one line at a fabric-global address (R249, R257, R415, R423). -/
def State.engineRead (s : State) (core q g va n : Nat) (bound : Bool) : State × Except Halt (List Byte) :=
  let pa := localOf g
  if devOf g != s.ownDev then s.fetchRemote core q g n
  else if s.inWindow pa then
    match s.readSlot pa n with
    | none => (s, .error .wait)
    | some (.error f) => (s, .error (.fault f va))
    | some (.ok bs) => (s, .ok bs)
  else
    match s.lineFault pa with
    | some f => (s, .error (.fault f va))
    | none =>
      let s := if (s.l2Copy (dieOf core) (lineOf pa)).isSome then s else s.request (dieOf core) (lineOf pa) false
      if s.heldAway (lineOf pa) && !(s.modifiedCopy (lineOf pa)).any fun c => c.holder == dieOf core then (s, .error .wait)
      else (s, .ok (s.dieView core pa n bound))

/-- An engine read of virtual pieces for a team, each of one line; the first halt decides. -/
def State.engineReads (core q : Nat) (t : Team) (tr : State → Nat → State × Except FaultCode Nat) (bound : Bool) :
    List (Nat × Nat) → State → State × Except Halt (List Byte)
  | [], s => (s, .ok [])
  | (a, n) :: l, s =>
    match tr s a with
    | (s, .error .page) => (s, .error (.page a))
    | (s, .error f) => (s, .error (.fault f a))
    | (s, .ok g) =>
      match s.engineRead core q g a n bound with
      | (s, .error h) => (s, .error h)
      | (s, .ok b) =>
        match State.engineReads core q t tr bound l s with
        | (s, .error h) => (s, .error h)
        | (s, .ok bs) => (s, .ok (b ++ bs))

/-- Where an engine write of bytes of one line goes: a stalagmite line takes none (R249, R332), a LOST line only a whole line
(R423). -/
def State.engineTarget (s : State) (tr : State → Nat → State × Except FaultCode Nat) (va n : Nat) : State × Except Halt Nat :=
  match tr s va with
  | (s, .error .page) => (s, .error (.page va))
  | (s, .error f) => (s, .error (.fault f va))
  | (s, .ok g) =>
    let pa := localOf g
    if devOf g != s.ownDev then (s, .ok g)
    else if s.inWindow pa then (s, .error (.fault .accState va))
    else if s.lost.contains (lineOf pa) && n != 64 then (s, .error (.fault .lineLost va))
    else (s, .ok g)

/-- The wave number under which an engine's writes are posted: they belong to no wave. -/
def engineWave : Nat := 0xFF

/-- Writes of the head of a queue are sent out: the core's L1 drops its copies of their lines (R281), and the command completes
after they are performed. -/
def State.engineWrites (s : State) (core q : Nat) (t : Team) (bound shared : Bool) (ws : List LaneStore) : State :=
  (coalesce ws).foldl (fun s q' =>
    let (pa, bs) := lineRequest q'
    let va := ((q'.find? fun x => x.pa == pa).map (·.va)).getD 0
    let id := s.nextId
    let s := s.post t engineWave pa bs (BitVec.ofNat 64 va) bound shared
    let s := if devOf pa = s.ownDev then s.l1Drop core (lineOf (localOf pa)) else s
    s.updHead core q fun c => { c with writes := c.writes ++ [id] }) s

/-! ## WTAG, WTANY and TFIRST (R351, R357) -/

/-- The fault of a tag mask: a bit at or above TAGS, or a tag that is clear and has no owner (R357). -/
def Team.badMask (t : Team) (mask : DWord) : Bool :=
  decide (2 ^ t.tags.length ≤ mask.toNat) || (t.masked mask).any fun p => !p.2.ready && p.2.owner.isNone

/-- WTAG and WTANY: the entry is Blocked from the trailer until the tags are set; D is written before the next run (R351, R357). -/
def tagWait (i : Instr) (all : Bool) (d a : Reg) (s : State) : Host.Outcome State Fault Refusal :=
  waveOp i (fun c x s =>
    let mask := x.pair a
    if c.team.badMask mask || (!all && mask == 0) then .error { code := .illegal, lane := x.l }
    else
      let (seq, s) := s.fresh
      let y := c.team.readTags (.tags seq all mask (c.phys d) none)
      let s := s.updRun fun r => r.blockOn y
      let far := y.reported && (c.team.masked mask).any fun p => p.2.far && p.2.ready
      .ok (if far then s.dropCopies c.team.core 2 fun _ => true else s)) s

/-- WTAG (R357). -/
def execWtag (d a : Reg) (s : State) : Host.Outcome State Fault Refusal := tagWait (.wtag d a) true d a s

/-- WTANY (R357). -/
def execWtany (d a : Reg) (s : State) : Host.Outcome State Fault Refusal := tagWait (.wtany d a) false d a s

/-- A word that every active lane receives after a fixed latency (R31, R351). -/
def State.putAll (s : State) (c : Issue) (i : Instr) (lat : Nat) (d : Reg) (v : Word) : State :=
  let cost := c.cost i 1
  s.updCur fun w => w.mapActive c.run.mask fun l ln => Lane.issued c i cost (c.dueOf cost lat l) (outReg (c.ctx cost l) false d v) l ln

/-- TFIRST: reads the tags at once; latency 4 (R351, R357). -/
def execTfirst (d a : Reg) (s : State) : Host.Outcome State Fault Refusal :=
  waveOp (.tfirst d a) (fun c x s =>
    let mask := x.pair a
    if c.team.badMask mask then .error { code := .illegal, lane := x.l }
    else
      let s := s.putAll c (.tfirst d a) 4 d (c.team.tagReportOf false mask)
      let far := (((c.team.masked mask).find? fun p => p.2.ready).map (·.2.far)).getD false
      .ok (if far then s.dropCopies c.team.core 2 fun _ => true else s)) s

/-! ## QFENCE and QSEQ (R363) -/

/-- The queues that a QFENCE mask names (R363). -/
def fenceQueues (m : Word) : List Nat := (List.range 9).filter m.getLsbD

/-- QFENCE: what enters a named queue later starts after what stands in any named queue now (R279, R363). -/
def execQfence (a : Reg) (s : State) : Host.Outcome State Fault Refusal :=
  waveOp (.qfence a) (fun c x s =>
    let m := x.reg a
    if m.toNat / 2 ^ 9 ≠ 0 ∨ (c.team.isSup ∧ m ≠ 0) then .error { code := .illegal, lane := x.l }
    else
      match s.core? c.team.core with
      | none => .ok s
      | some k =>
        let qs := fenceQueues m
        let ids := qs.flatMap fun i => ((k.queues[i]?).map fun (q : Queue) => q.fence.filter s.liveCommands.contains ++ q.cmds.map (·.id)).getD []
        .ok (qs.foldl (fun s i => s.updQueue c.team.core i fun q => { q with fence := distinct ids }) s)) s

/-- QSEQ: the completion counter of a queue; latency 4 (R351, R363). -/
def execQseq (d a : Reg) (s : State) : Host.Outcome State Fault Refusal :=
  waveOp (.qseq d a) (fun c x s =>
    match s.queue? c.team.core (x.reg a).toNat with
    | none => .error { code := .illegal, lane := x.l }
    | some q => .ok (s.putAll c (.qseq d a) 4 d q.counter)) s

end Sys2Proof.Machine
end

