-- ==== Sys2Proof/Machine/Copies.lean ====
section
/-!
DEFINITION. COPY (R257, R331 to R333, R356): its checks at issue, and the copying of 64-byte chunks.
-/

namespace Sys2Proof.Machine

/-! ## Shape of a copy -/

/-- Bytes of an element or block of a format (R49, R356). -/
def Fmt.copyBytes (f : Fmt) : Nat := if Fmt.blockBytes f ≠ 0 then Fmt.blockBytes f else Fmt.size f

/-- The record whose FMT gives the element size (R356). -/
def CopyArgs.side (a : CopyArgs) : BufRec := if a.dir = 1 then a.dst else a.src

/-- e: bytes of an element of the record side (R356). -/
def CopyArgs.elem (a : CopyArgs) : Nat := Fmt.copyBytes a.side.format

/-- Bytes of an output element: e, or 2 or 4 under DQ (R356). -/
def CopyArgs.out (a : CopyArgs) : Nat := if a.dq then (if a.dqf32 then 4 else 2) else a.elem

/-- Output elements (R257, R356). -/
def CopyArgs.count (a : CopyArgs) : Nat := if a.dq then 32 * a.cnt else a.cnt

/-- Bytes that the copy writes. -/
def CopyArgs.total (a : CopyArgs) : Nat := a.count * a.out

/-- The scratchpad offset of output byte `k`: the element's offset is swizzled relative to the first one (R333). -/
def CopyArgs.spadAt (a : CopyArgs) (base k : Nat) : Nat := base + swizzle a.swz (k / a.out * a.out) + k % a.out

/-- The address of an element of a record, before any check (R51); unswizzled when `flat`. -/
def BufRec.elemVa (r : BufRec) (flat : Bool) (idx : Nat) : Nat :=
  r.base.toNat + (if flat then idx * r.stride.toNat else swizzle r.swz.toNat (idx * r.stride.toNat))

/-- The unswizzled offset of an output element of the destination. -/
def CopyArgs.destOff (a : CopyArgs) (j : Nat) : Nat := if a.dir = 0 then j * a.out else (a.dpos + j) * a.dst.stride.toNat

/-- The address of an output element of the destination: in global memory, or in the scratchpad. -/
def CopyArgs.destAt (a : CopyArgs) (j : Nat) : Nat := if a.dir = 0 then a.spadAt a.dpos (j * a.out) else a.dst.elemVa false (a.dpos + j)

/-- The output element that comes at a place of the ascending destination order (R331): a swizzle changes the order within 1 KiB only (R53). -/
def CopyArgs.at (a : CopyArgs) (p : Nat) : Nat :=
  if (if a.dir = 0 then a.swz else a.dst.swz.toNat) = 0 then p
  else
    let mine := fun j => a.destOff j / 1024 == a.destOff p / 1024
    let lo := p - ((List.range (Nat.min p 1024)).countP fun d => mine (p - 1 - d))
    let js := ((List.range (Nat.min 1024 (a.count - lo))).map (lo + ·)).filter mine
    (sortBy (fun x y => decide (a.destAt x ≤ a.destAt y)) js).getD (p - lo) p

/-- The destination of the output byte that comes at a place of the order of the chunks (R331). -/
def CopyArgs.key (a : CopyArgs) (k : Nat) : Nat := a.destAt (a.at (k / a.out)) + k % a.out

/-- Length of the chunk that starts at output byte `k`: bytes in ascending destination order in one aligned 64-byte block (R331). -/
def CopyArgs.chunkFrom (a : CopyArgs) : Nat → Nat → Nat
  | 0, _ => 0
  | n + 1, k =>
    if a.total ≤ k then 0
    else if k + 1 < a.total ∧ a.key k < a.key (k + 1) ∧ a.key k / 64 = a.key (k + 1) / 64 then 1 + a.chunkFrom n (k + 1)
    else 1

/-- An element of a record: its address, none when it is out of bounds and clamped, or a fault with the address (R51, R331). An MX block has no
alignment beyond the byte (R109). -/
def BufRec.elemAt (r : BufRec) (idx e : Nat) : Except Halt (Option Nat) :=
  let va := r.elemVa false idx
  if r.extent.toNat ≤ idx ∨ 2 ^ 56 < va + e then (if r.oobFault then .error (.fault .bounds va) else .ok none)
  else if r.format ≠ .mxf4 ∧ r.format ≠ .mxf8 ∧ va % e ≠ 0 then .error (.fault .align va)
  else .ok (some va)

/-! ## Sources -/

/-- Source elements, in order: each element's index and bytes; the first halt decides. Under clamp-to-zero an element out of bounds
reads as zero (R331). -/
def State.copyReads (core q : Nat) (t : Team) (a : CopyArgs) : List Nat → State → State × Except Halt (List (Nat × List Byte))
  | [], s => (s, .ok [])
  | i :: l, s =>
    let (s, r) : State × Except Halt (List Byte) :=
      if a.dir = 1 then
        if (List.range a.elem).any fun b => t.spadError (a.spadAt a.spos (i * a.out + b)) 1 then (s, .error .spoiled)
        else (s, .ok ((List.range a.elem).map fun b => (t.spadRead (a.spadAt a.spos (i * a.out + b)) 1).getD 0 0))
      else
        match a.src.elemAt (a.spos + i) a.elem with
        | .error h => (s, .error h)
        | .ok none => (s, .ok (List.replicate a.elem 0))
        | .ok (some va) =>
          State.engineReads core q t (fun s v => s.laneTarget t a.src .read v) a.src.bound (linePieces 3 va a.elem) s
    match r with
    | .error h => (s, .error h)
    | .ok bs =>
      match State.copyReads core q t a l s with
      | (s, .error h) => (s, .error h)
      | (s, .ok rest) => (s, .ok ((i, bs) :: rest))

/-- Element `j` of a block, dequantised: its bytes, flags, and whether it is ill-formed (R257). -/
def dequant (f : Fmt) (f32 : Bool) (bs : List Byte) (j : Nat) : List Byte × Word × Bool :=
  let (v, fl, bad) : FV × Word × Bool := match f with
    | .mxf4 => let (v, w) := mxElem true bs j; (v, w, false)
    | .mxf8 => let (v, w) := mxElem false bs j; (v, w, false)
    | .kd7 => (kdElem true bs j).read
    | _ => (kdElem false bs j).read
  let (c, g) := (if f32 then FpFmt.f32 else FpFmt.bf16).encode .rne v
  (bytesLE (if f32 then 4 else 2) c, fl ||| g, bad)

/-- The bytes of output element `j` of a copy, from the source elements read. -/
def CopyArgs.value (a : CopyArgs) (src : List (Nat × List Byte)) (j : Nat) : List Byte × Word × Bool :=
  let bs := ((src.find? fun p => p.1 == (if a.dq then j / 32 else j)).map (·.2)).getD []
  if a.dq then dequant a.src.format a.dqf32 bs (j % 32) else (bs, 0, false)

/-! ## Destinations -/

/-- The parts of one chunk, in destination order: output element, first byte in it, number of bytes. -/
def CopyArgs.parts (a : CopyArgs) (k n : Nat) : List (Nat × Nat × Nat) :=
  (List.range ((k + n - 1) / a.out - k / a.out + 1)).map fun d =>
    let j := k / a.out + d
    let lo := Nat.max k (j * a.out)
    let hi := Nat.min (k + n) ((j + 1) * a.out)
    (a.at j, lo - j * a.out, hi - lo)

/-- The writes of a chunk to global memory; the first halt decides. An element out of bounds under clamp-to-zero is not written. -/
def State.copyTargets (t : Team) (a : CopyArgs) : List (Nat × Nat × List Byte) → State → State × Except Halt (List LaneStore)
  | [], s => (s, .ok [])
  | (j, off, bs) :: l, s =>
    match a.dst.elemAt (a.dpos + j) a.out with
    | .error h => (s, .error h)
    | .ok none => State.copyTargets t a l s
    | .ok (some va) =>
      let (s, r) := (linePieces 3 (va + off) bs.length).foldl (fun (p : State × Except Halt (List LaneStore)) x =>
        match p.2 with
        | .error _ => p
        | .ok ws =>
          match p.1.laneTarget t a.dst .write x.1 with
          | (s, .error .page) => (s, .error (.page x.1))
          | (s, .error f) => (s, .error (.fault f x.1))
          | (s, .ok g) =>
            if devOf g = s.ownDev ∧ s.inWindow (localOf g) then (s, .error (.fault .accState x.1))
            else (s, .ok (ws ++ [{ lane := 0, va := x.1, pa := g, bytes := (bs.drop (x.1 - (va + off))).take x.2 }]))) (s, .ok [])
      match r with
      | .error h => (s, .error h)
      | .ok ws =>
        match State.copyTargets t a l s with
        | (s, .error h) => (s, .error h)
        | (s, .ok rest) => (s, .ok (ws ++ rest))

/-- The first request of a chunk that covers only a part of a LOST line (R423). -/
def State.lostPart (s : State) (ws : List LaneStore) : Option Nat :=
  (coalesce ws).findSome? fun x =>
    
    let (pa, bs) := lineRequest x
    if devOf pa = s.ownDev ∧ s.lost.contains (lineOf (localOf pa)) ∧ !(bs.length == 64 && bs.all Option.isSome) then (x.head?).map (·.va) else none

/-- The destination of a copy, looked at before its first chunk: a stalagmite line faults before any chunk is written, and a page that is
missing is resolved first, as it may prove to be one (R332). What else an element may meet stops the copy at its chunk. -/
def State.copyGuard (t : Team) (a : CopyArgs) : Nat → State → State × Except Halt Unit
  | 0, s => (s, .ok ())
  | n + 1, s =>
    match a.dst.elemAt (a.dpos + (a.cnt - (n + 1))) a.out with
    | .ok (some va) =>
      match s.laneTarget t a.dst .write va with
      | (s, .ok g) => if devOf g = s.ownDev ∧ s.inWindow (localOf g) then (s, .error (.fault .accState va)) else State.copyGuard t a n s
      | (s, .error .page) => (s, .error (.page va))
      | (s, .error _) => State.copyGuard t a n s
    | _ => State.copyGuard t a n s

/-- Whether a copy's global destination meets a shared range of its ordered launch, which makes it a lantern operation (R195, R355). -/
def CopyArgs.shared (a : CopyArgs) (r : Region) : Bool :=
  a.dir != 0 && r.hasShared && (List.range a.cnt).any fun i =>
    match a.dst.elemAt (a.dpos + i) a.out with
    | .ok (some va) => r.meetsShared va a.out
    | _ => false

/-! ## Chunks -/

/-- The parts of a chunk written into the scratchpads of the team's copies (R229, R333, R393). -/
def State.copyToSpad (s : State) (team : Nat) (a : CopyArgs) (out : List (Nat × Nat × List Byte)) : State :=
  (s.copiesOf team).foldl (fun s i => s.updTeam i fun t =>
    out.foldl (fun t (j, lo, bs) =>
      bs.zipIdx.foldl (fun t (b, o) =>
        let off := a.spadAt a.dpos (j * a.out + lo + o)
        if off < t.spadSize then t.spadStore off [b] else t) t) t) s

/-- One chunk of the COPY at the head of a queue: nothing of it is written unless all of it can be (R331). The number of output
bytes reached, or the halt. -/
def State.copyChunk (s : State) (core q : Nat) (t : Team) (a : CopyArgs) (shared : Bool) (k : Nat) : State × Except Halt Nat :=
  let n := a.chunkFrom 64 k
  let ps := a.parts k n
  match State.copyReads core q t a (distinct (ps.map fun p => if a.dq then p.1 / 32 else p.1)) s with
  | (s, .error h) => (s, .error h)
  | (s, .ok src) =>
    let vals := ps.map fun p => (p, a.value src p.1)
    let out := vals.map fun v => (v.1.1, v.1.2.1, (v.2.1.drop v.1.2.1).take v.1.2.2)
    let flags := vals.foldl (fun g v => g ||| v.2.2.1) 0
    -- a block is counted where its first output byte lies
    let bad := (ps.filter fun (p : Nat × Nat × Nat) => a.dq && p.1 % 32 == 0 && p.2.1 == 0).countP fun (p : Nat × Nat × Nat) =>
      (List.range 32).any fun e => (a.value src (p.1 + e)).2.2
    let (s, r) : State × Except Halt (Option (List LaneStore)) :=
      if a.dir = 0 then (s, .ok none)
      else match State.copyTargets t a out s with
        | (s, .error h) => (s, .error h)
        | (s, .ok ws) =>
          match s.lostPart ws with
          | some va => (s, .error (.fault .lineLost va))
          | none => (s, .ok (some ws))
    match r with
    | .error h => (s, .error h)
    | .ok w =>
      let s := match w with
        | none => s.copyToSpad t.id a out
        | some ws => s.engineWrites core q t a.dst.bound shared ws
      let s := s.updPart (s.partOf t) fun p => { p with pibc := satInc p.pibc bad }
      (s.updHead core q fun c => { c with flags := c.flags ||| flags, fetches := [], kind := .copy a (k + n) }, .ok (k + n))

/-- Up to `n` chunks of the COPY at the head of a queue; it stops where it halts. A page that has proved not to be resolved ends it at the chunk
that needs the page (R331). -/
def State.copyRun (core q : Nat) : Nat → State → State
  | 0, s => s
  | n + 1, s =>
    match s.headCmd core q with
    | some c =>
      match c.kind, s.team? c.team with
      | .copy a k, some t =>
        let dead := (c.fault.map fun f => f.1 == .page) == some true
        if (c.fault.isSome && !dead) || c.page.isSome || decide (a.total ≤ k) then s
        else
          match if k = 0 ∧ a.dir ≠ 0 ∧ !dead then State.copyGuard t a a.cnt s else (s, .ok ()) with
          | (s, .error h) => s.haltCommand core q h
          | (s, .ok ()) =>
            match s.copyChunk core q t a c.shared k with
            | (s, .error h) => if dead then s else s.haltCommand core q h
            | (s, .ok _) => State.copyRun core q n s
      | _, _ => s
    | none => s

/-! ## COPY (R353, R356) -/

/-- The fault of a copy's checks at execution, in their order (R356). -/
def CopyArgs.check (a : CopyArgs) (spadSize : Nat) : Option FaultCode :=
  let block := Fmt.blockBytes a.side.format != 0
  let off := if a.dir = 0 then a.dpos else a.spos
  if (a.dir != 1 && a.src.format == .none) || (a.dir != 0 && a.dst.format == .none) || (a.dq && (a.dir != 0 || !block)) ||
      (!a.dq && a.dqf32) || (a.swz != 0 && a.dir == 2) ||
      (a.dir == 2 && Fmt.copyBytes a.src.format != Fmt.copyBytes a.dst.format) then some .illegal
  else if a.dir = 2 then none
  else if ((a.dq || [1, 2, 4, 8, 16, 32].contains a.elem) && off % a.out != 0) || (a.swz != 0 && off % 1024 != 0) then some .align
  else if a.cnt ≠ 0 ∧ spadSize < off + a.total then some .bounds
  else none

/-- The operands of a COPY, none when a reserved bit or value stands in them (R353, R356). -/
def copyArgs (w : Wave) (g0 g1 g2 g3 : Word) : Option CopyArgs :=
  let f := g0.toNat
  if f / 2 ^ 16 ≠ 0 ∨ bitsOf f 13 3 > 3 ∨ bitsOf f 11 2 > 1 ∨ f % 4 = 3 then none
  else some { dir := f % 4, src := w.recs.getD (bitsOf f 2 4) BufRec.zero, dst := w.recs.getD (bitsOf f 6 4) BufRec.zero,
              spos := g1.toNat, dpos := g2.toNat, cnt := g3.toNat, dq := bitsOf f 10 1 == 1, dqf32 := bitsOf f 11 2 == 1,
              swz := bitsOf f 13 3 }

/-- COPY (R356). -/
def execCopy (f : BitVec 2) (a b : Reg) (s : State) : Host.Outcome State Fault Refusal :=
  engineOp (.copy f a b) (fun c x s =>
    match copyArgs c.wave (x.grp a 0) (x.grp a 1) (x.grp a 2) (x.grp a 3), c.selector (x.reg b) with
    | none, _ => (s, .error (.illegal, none, 0))
    | _, .error e => (s, .error e)
    | some k, .ok tag =>
      match k.check c.team.spadSize with
      | some e => (s, .error (e, none, 0))
      | none =>
        let shared := ((s.launchOf c.team).map fun l => l.region.ord && k.shared l.region).getD false
        (s, .ok (f.toNat, tag, .copy k 0, shared))) s

end Sys2Proof.Machine
end

