-- ==== Sys2Proof/Machine/MatrixUnit.lean ====
section
/-!
DEFINITION. The matrix sequencers (R334 to R342): VFILL and MLOOP (R358 to R360), a step and its arrivals, and the retention of vaults
(R455, R456).
-/

namespace Sys2Proof.Machine

/-! ## Vault sets (R335, R358) -/

/-- A B format that a set word may name (R358). -/
def bFormat (n : Nat) : Option Fmt := if [0x05, 0x06, 0x0C, 0x0D, 0x10, 0x11, 0x12, 0x13].contains n then fmtOf n else none

/-- An A format (R360). -/
def aFormat (n : Nat) : Option Fmt := if n = 0x09 then some .f32 else bFormat n

/-- The set that a set word names, when it keeps the rules (R335, R358). -/
def vaultSet (w : Word) : Option VaultSet :=
  let x := w.toNat
  match bFormat (bitsOf x 13 5) with
  | none => none
  | some bf =>
    let v : VaultSet := { v0 := bitsOf x 0 5, chain := 2 ^ bitsOf x 5 2, groups := bitsOf x 7 6, bf := bf }
    if x / 2 ^ 18 ≠ 0 ∨ v.groups = 0 ∨ 32 < v.groups ∨ 32 < v.v0 + v.chain * v.groups ∨
        (Fmt.bclass bf = .sixteen ∧ v.groups % 2 = 1) then none
    else some v

/-- The vaults of a set (R335). -/
def VaultSet.vaults (v : VaultSet) : List Nat := (List.range (v.chain * v.groups)).map (v.v0 + ·)

/-- Replace a vault of a core. -/
def State.updVault (s : State) (core v : Nat) (f : Vault → Vault) : State :=
  s.updCore core fun c => { c with vaults := c.vaults.modify v f }

/-- Whether a vault of a set is in retention: a command that reaches it waits for the wake (R456). -/
def Core.asleep (c : Core) (v : VaultSet) : Bool := v.vaults.any fun i => ((c.vaults[i]?).map (·.retained)).getD false

/-- Bytes of the scratchpad as an engine reads them; what lies past the team's allocation is free (log entry 22). -/
def State.spadBytes (s : State) (t : Team) (off n : Nat) : List Byte :=
  if off + n ≤ t.spadSize then t.spadRead off n
  else (List.range n).map fun i =>
    if off + i < t.spadSize then (t.spadRead (off + i) 1).getD 0 0 else (Config.freeWord (s.ticks + off + i)).truncate 8

/-! ## VFILL (R336, R359) -/

/-- VFILL (R353, R359). -/
def execVfill (d a b : Reg) (s : State) : Host.Outcome State Fault Refusal :=
  engineOp (.vfill d a b) (fun c x s =>
    match vaultSet (x.reg d), c.selector (x.reg b) with
    | none, _ => (s, .error (.illegal, none, 0))
    | _, .error e => (s, .error e)
    | some v, .ok tag =>
      let off := (x.reg a).toNat
      if off % 64 ≠ 0 then (s, .error (.align, none, 0))
      else if c.team.spadSize < off + v.chain * v.groups * Fmt.vaultBytes v.bf then (s, .error (.bounds, none, 0))
      else (s, .ok (4 + c.wave.idx % 4, tag, .vfill v off, false))) s

/-- One vault filled from the scratchpad (R336): its B, the fill log's entry, the flags and ill-formed blocks of its reading (R118,
R135). -/
def State.fillVault (core q : Nat) (t : Team) (v : VaultSet) (off : Nat) (s : State) (i : Nat) : State :=
  let z := Fmt.vaultBytes v.bf
  let base := off + (i - v.v0) * z
  let bs := s.spadBytes t base z
  let gb := Fmt.groupBytes v.bf
  let reads := (List.range (z / gb)).map fun g => readGroup v.bf (sliceBytes bs (g * gb) gb)
  let s := s.updVault core i fun x =>
    { x with b := bs, bf := some v.bf, counted := [], usedAt := s.time, bad := false }
  let s := s.updTeam t.id fun t => { t with fillLog := (t.fillLog.filter fun e => e.1 != i) ++ [(i, v.bf, base)] }
  let s := s.updPart (s.partOf t) fun p => { p with pibc := satInc p.pibc (reads.countP (·.bad)) }
  s.updHead core q fun c => { c with flags := reads.foldl (fun f r => f ||| r.flags) c.flags }

/-- The same vault of a DUAL peer's core, filled from the peer's own scratchpad: the result of a VFILL, which the primary performs, goes to
both copies (R393). -/
def State.mirrorVault (core : Nat) (t : Team) (v : VaultSet) (off : Nat) (s : State) (i : Nat) : State :=
  let z := Fmt.vaultBytes v.bf
  let base := off + (i - v.v0) * z
  let s := s.updVault core i fun x => { x with b := s.spadBytes t base z, bf := some v.bf, counted := [], usedAt := s.time, bad := false }
  s.updTeam t.id fun t => { t with fillLog := (t.fillLog.filter fun e => e.1 != i) ++ [(i, v.bf, base)] }

/-- The set of a VFILL filled on its own core and on a DUAL peer's (R336, R393). -/
def State.fillSet (s : State) (core q : Nat) (t : Team) (v : VaultSet) (off : Nat) : State :=
  let s := v.vaults.foldl (State.fillVault core q t v off) s
  (s.copiesOf t.id).foldl (fun s p =>
    match s.team? p with
    | some u => if p = t.id then s else v.vaults.foldl (State.mirrorVault u.core u v off) s
    | none => s) s

/-! ## MLOOP (R337, R360) -/

/-- RB: bytes of a row of A (R337, R360). -/
def MloopArgs.rowBytes (a : MloopArgs) : Nat := 4 * a.set.chain * Fmt.groupBytes a.af

/-- S: steps (R337). -/
def MloopArgs.steps (a : MloopArgs) : Nat := (a.rows + 15) / 16

/-- G: slots of a step (R337). -/
def MloopArgs.perStep (a : MloopArgs) : Nat := slotsPerStep (Fmt.bclass a.set.bf) a.set.groups

/-- n: rows of a step (R337). -/
def MloopArgs.rowsOf (a : MloopArgs) (step : Nat) : Nat := Nat.min 16 (a.rows - 16 * step)

/-- The operands of an MLOOP, none when a reserved bit or value stands in them (R353, R358, R360). -/
def mloopArgs (d g0 g1 g2 g3 : Word) : Option MloopArgs :=
  match vaultSet d, aFormat (bitsOf g2.toNat 20 5) with
  | some v, some af =>
    let rows := bitsOf g2.toNat 0 20
    if bitsOf g2.toNat 26 6 ≠ 0 ∨ bitsOf g3.toNat 30 2 ≠ 0 ∨ rows = 0 then none
    else some { set := v, abase := g0.toNat, ainc := g1.toNat, int := bitsOf g2.toNat 25 1 == 1, af := af, rows := rows,
                ktag := bitsOf g3.toNat 18 12, ring := bitsOf g3.toNat 12 6, first := bitsOf g3.toNat 0 12 }
  | _, _ => none

/-- The fault of an MLOOP's checks, given its ring (R341, R360). -/
def MloopArgs.check (a : MloopArgs) (ring : Option Ring) (part spadSize : Nat) : Option FaultCode :=
  match ring with
  | none => some .illegal
  | some r =>
    if r.part ≠ part ∨ r.slots.length ≤ a.first ∨ r.slots.length < a.perStep ∨
        (a.int ∧ ¬(a.af = .kd7 ∧ a.set.bf = .kd7 ∧ r.int)) ∨ (!a.int ∧ r.int) then some .illegal
    else if a.abase % 4 ≠ 0 ∨ a.ainc % 4 ≠ 0 then some .align
    else if spadSize < a.abase + (a.steps - 1) * a.ainc + a.rowsOf (a.steps - 1) * a.rowBytes then some .bounds
    else none

/-- MLOOP (R353, R360). -/
def execMloop (d a b : Reg) (s : State) : Host.Outcome State Fault Refusal :=
  engineOp (.mloop d a b) (fun c x s =>
    match mloopArgs (x.reg d) (x.grp a 0) (x.grp a 1) (x.grp a 2) (x.grp a 3), c.selector (x.reg b) with
    | none, _ => (s, .error (.illegal, none, 0))
    | _, .error e => (s, .error e)
    | some k, .ok tag =>
      match k.check (s.liveRing? (s.engineDie c.team) k.ring) (s.partOf c.team) c.team.spadSize with
      | some e => (s, .error (e, none, 0))
      | none => (s, .ok (4 + c.wave.idx % 4, tag, .mloop k 0, false))) s

/-! ## A step (R337) -/

/-- A cell of the output under floating-point accumulation: the chain over the row's groups and the column's vaults (R132). -/
def floatCell (row : List (Int × List AElem)) (col : List (List (Int × List AElem))) : Word × Word :=
  shipped (chainValue (col.mapIdx fun j b => vaultValue ((row.drop (4 * j)).take 4) b))

/-- A cell of the output under integer accumulation (R134). -/
def intCell (row : List (List Int)) (col : List (List (List Int))) : Word × Word :=
  shippedInt ((row.zip col.flatten).map fun p => dotInts p.1 p.2).sum

/-- The adds of one slot: element index and value of each cell that is not zero, and the flags of all (R135, R337, R340). -/
def slotAdds {α β : Type} (cell : α → β → Word × Word) (rows : List α) (cols : List β) : List (Nat × Word) × Word :=
  let cells := (rows.mapIdx fun r row => cols.mapIdx fun c col => (r * 128 + c, cell row col)).flatten
  ((cells.filter fun x => x.2.1 != 0).map fun x => (x.1, x.2.1), cells.foldl (fun f x => f ||| x.2.2) 0)

/-- Groups of bytes of a list. -/
def groupsOf (f : Fmt) (n : Nat) (bs : List Byte) : List (List Byte) :=
  (List.range n).map fun g => sliceBytes bs (g * Fmt.groupBytes f) (Fmt.groupBytes f)

/-- Bytes of the four groups of output column `n` at each vault of its chain (R335, R336). -/
def Core.columnOf (k : Core) (v : VaultSet) (n : Nat) : List (List (List Byte)) :=
  let w := (Fmt.bclass v.bf).columns
  (List.range v.chain).map fun j =>
    let b := ((k.vaults[v.v0 + n / w * v.chain + j]?).map (·.b)).getD []
    groupsOf v.bf 4 (sliceBytes b (n % w * Fmt.columnBytes v.bf) (Fmt.columnBytes v.bf))

/-- What a step of an MLOOP yields: the adds of each slot, the flags, and the ill-formed blocks of A. -/
def Core.step (k : Core) (a : MloopArgs) (rows : List (List Byte)) : List (List (Nat × Word)) × Word × Nat :=
  let gs := rows.map (groupsOf a.af (4 * a.set.chain))
  let cols := fun g : Nat => (List.range 128).map fun c => k.columnOf a.set (128 * g + c)
  if a.int then
    let rs := gs.map (·.map readInts)
    let out := (List.range a.perStep).map fun g =>
      slotAdds intCell (rs.map (·.map (·.vals))) ((cols g).map (·.map (·.map fun b => (readInts b).vals)))
    (out.map (·.1), (rs.flatten.foldl (fun f r => f ||| r.flags) 0) ||| out.foldl (fun f x => f ||| x.2) 0,
      rs.flatten.countP (·.bad))
  else
    let rs := gs.map (·.map (readGroup a.af))
    let bits := (Fmt.bclass a.set.bf).bits
    let out := (List.range a.perStep).map fun g =>
      slotAdds floatCell (rs.map (·.map fun r => alignGroup 8 r.vals))
        ((cols g).map (·.map (·.map fun b => alignGroup bits (readGroup a.set.bf b).vals)))
    (out.map (·.1), (rs.flatten.foldl (fun f r => f ||| r.flags) 0) ||| out.foldl (fun f x => f ||| x.2) 0,
      rs.flatten.countP (·.bad))

/-- Blocks of a vault's B that only integer accumulation finds ill-formed (R135). -/
def Vault.intBad (v : Vault) : Nat := (groupsOf .kd7 (Fmt.vaultBytes .kd7 / 32) v.b).countP onlyIntBad

/-- The ill-formed blocks that an MLOOP with integer accumulation counts in the vaults of its set, once for each vault (R135). -/
def State.countInts (s : State) (core q : Nat) (t : Team) (id : Nat) (v : VaultSet) : State :=
  v.vaults.foldl (fun s i =>
    match (s.core? core).bind fun k => k.vaults[i]? with
    | none => s
    | some x =>
      if x.counted.contains id then s
      else
        let s := s.updVault core i fun x => { x with counted := id :: x.counted }
        let s := s.updPart (s.partOf t) fun p => { p with pibc := satInc p.pibc x.intBad }
        if x.intBad = 0 then s else s.updHead core q fun c => { c with flags := c.flags ||| flNV ||| flIB }) s

/-- Whether the MLOOP at the head of a quadrant's queue has a step to make: its last arrivals have found room (R342) and its vaults are awake
(R456). -/
def State.stepDue (s : State) (k : Core) (quadrant : Nat) (c : Command) (a : MloopArgs) (step : Nat) : Bool :=
  decide (quadrant < 4) && c.started && c.fault.isNone && decide (step < a.steps) && !k.asleep a.set &&
  !s.arrivals.any fun x => x.cmd == some c.id && !x.held

/-- The MLOOPs at the heads of a core's matrix queues with a step due, by quadrant, with their sets and whether the step is in progress. -/
def State.stepsDue (s : State) (k : Core) : List (Nat × VaultSet × Bool) :=
  (List.range 4).filterMap fun i =>
    match (k.queues[4 + i]?).bind fun q => q.cmds.head? with
    | some c =>
      match c.kind with
      | .mloop a step => if s.stepDue k i c a step then some (i, a.set, c.stepping) else none
      | _ => none
    | none => none

/-- Whether two sets share a vault. -/
def VaultSet.meets (v w : VaultSet) : Bool := v.vaults.any w.vaults.contains

/-- Whether a step of a quadrant must wait: a vault of its set serves another step, or is reserved by a waiting step of a lower-numbered
quadrant (R338). -/
def State.stepWaits (s : State) (k : Core) (quadrant : Nat) (v : VaultSet) : Bool :=
  let due := s.stepsDue k
  let busy := fun (i : Nat) (w : VaultSet) => due.any fun (j, x, b) => b && j != i && w.meets x
  busy quadrant v || due.any fun (i, w, b) => !b && decide (i < quadrant) && w.meets v && busy i w

/-- Whether a step in progress uses a vault of a set: a VFILL of it waits (R338). -/
def State.vaultsBusy (s : State) (k : Core) (v : VaultSet) : Bool := (s.stepsDue k).any fun (_, w, b) => b && v.meets w

/-- MATRIX_STEP (R337, R338): the MLOOP at the head of a quadrant's queue starts its next step, when its vaults are free for it, or ends the
step in progress, whose reads it makes. A vault of another recorded format, or in error, ends it, and so do rows in error (R360, R396). -/
def execMatrixStep (core quadrant : Nat) (s : State) : Host.Outcome State Fault Refusal :=
  let q := 4 + quadrant
  match s.core? core, s.headCmd core q with
  | some k, some c =>
    match c.kind, s.team? c.team with
    | .mloop a step, some t =>
      if !s.stepDue k quadrant c a step then .next s
      else
        let vs := a.set.vaults.filterMap fun i => k.vaults[i]?
        if vs.any fun v => v.bf.isSome && v.bf != some a.set.bf then .next (s.failCommand core q .illegal none)
        else if vs.any (·.bad) then .next (s.failCommand core q .eccUncorr none)
        else if !c.stepping then
          .next (if t.ending || s.stepWaits k quadrant a.set then s else s.updHead core q fun c => { c with stepping := true })
        else
          let n := a.rowsOf step
          let base := a.abase + step * a.ainc
          if t.spadError base (n * a.rowBytes) then .next (s.failCommand core q .eccUncorr none)
          else
          let rows := (List.range n).map fun r => s.spadBytes t (base + r * a.rowBytes) a.rowBytes
          let (adds, flags, bad) := k.step a rows
          let s := a.set.vaults.foldl (fun s i => s.updVault core i fun v => { v with usedAt := s.time }) s
          let s := if a.int then s.countInts core q t c.id a.set else s
          let s := s.updPart (s.partOf t) fun p => { p with pibc := satInc p.pibc bad }
          let s := s.updHead core q fun c => { c with flags := c.flags ||| flags, kind := .mloop a (step + 1), stepping := false }
          let die := dieOf core
          .next (match s.ring? die a.ring with
            | none => s
            | some r =>
              adds.zipIdx.foldl (fun s (x, g) =>
                let (id, s) := s.fresh
                { s with arrivals := s.arrivals ++ [{
                    id := id, die := die, ring := a.ring, slot := (a.first + step * a.perStep + g) % r.slots.length, rows := n,
                    adds := x, ktag := a.ktag, ordered := s.ordered t, cmd := some c.id, held := false }] }) s)
    | _, _ => .next s
  | _, _ => .next s

/-! ## Arrivals (R248, R249, R342) -/

/-- The lines of one slice that arrivals held for a slot take, and those that a further one of `rows` rows would (R342). -/
def State.heldLines (s : State) (r : Ring) (j rows slice : Nat) : Nat :=
  let base := r.pas.getD j 0
  let lines := fun n : Nat => (List.range (8 * n)).countP fun i => sliceOf (base + 64 * i) == slice
  ((s.arrivals.filter fun a => a.isFor r j && a.held && a.cmd.isSome).map fun a => lines a.rows).sum + lines rows

/-- MATRIX_PARTIAL: an arrival reaches its slot. One for a slot that is not Armed needs room in every slice, else it stalls its
sequencer (R342); one for a released ring is discarded (R361), one for a saved ring waits for it (R388). -/
def execMatrixPartial (part : PartialPart) (s : State) : Host.Outcome State Fault Refusal :=
  match s.arrivals.find? fun a => a.id == part.arrival with
  | none => .next s
  | some a =>
    if a.held then .next s
    else
      match s.ring? a.die a.ring with
      | none => .next (if s.savedRings.any fun r => r.die == a.die && r.num == a.ring then s
          else { s with arrivals := s.arrivals.filter fun b => b.id != part.arrival })
      | some r =>
        let armed := ((r.slots[a.slot]?).map fun x => x.st == .armed).getD false
        let room := (List.range 64).all fun i => decide (s.heldLines r a.slot a.rows i ≤ 16)
        .next (if armed || room then s.arriveAt a part.slices else s)

/-! ## Retention (R455, R456) -/

/-- 100 µs in nanoseconds (R455). -/
def retentionTime : Nat := 100000

/-- VAULT_RETENTION (R455): a vault that has served nothing for 100 µs enters retention; it keeps its B. -/
def execVaultRetention (core vault : Nat) (s : State) : Host.Outcome State Fault Refusal :=
  match (s.core? core).bind fun c => c.vaults[vault]? with
  | none => .next s
  | some v => .next (if v.usedAt + retentionTime ≤ s.time then s.updVault core vault fun v => { v with retained := true } else s)

/-- The vault groups of a core that started commands wait for (R456). -/
def Core.wanted (c : Core) : List Nat :=
  (List.range 8).filter fun g => c.queues.any fun q =>
    match q.cmds.head? with
    | some x =>
      x.started && match x.kind with
        | .vfill v _ => v.vaults.any fun i => i / 4 == g && ((c.vaults[i]?).map (·.retained)).getD false
        | .mloop a _ => a.set.vaults.any fun i => i / 4 == g && ((c.vaults[i]?).map (·.retained)).getD false
        | _ => false
    | none => false

/-- VAULT_WAKE (R456): the lowest group that a command needs wakes. -/
def execVaultWake (core group : Nat) (s : State) : Host.Outcome State Fault Refusal :=
  match s.core? core with
  | none => .next s
  | some c =>
    if c.wanted.head? = some group then
      .next (s.updCore core fun c => { c with vaults := c.vaults.mapIdx fun i v => if i / 4 = group then { v with retained := false, usedAt := s.time } else v })
    else .next s

end Sys2Proof.Machine
end

