-- ==== Sys2Proof/Machine/Flowstone.lean ====
section
/-!
DEFINITION. The flowstone engine (R340 to R346): ARING and EPI (R361, R362), the drain of a slot; and the start and completion of every
engine command (R327, R328, R330).
-/

namespace Sys2Proof.Machine

/-! ## ARING (R340, R343, R361) -/

/-- ARING, setting up, resetting or releasing by its D word. -/
def aringOp (i : Instr) (d a b : Reg) (s : State) : Host.Outcome State Fault Refusal :=
  engineOp i (fun c x s =>
    let w := (x.reg d).toNat
    match c.selector (x.reg b) with
    | .error e => (s, .error e)
    | .ok tag =>
      (s, .ok (8, tag, .aring (bitsOf w 31 1 == 1) (bitsOf w 30 1 == 1) (bitsOf w 24 6) (bitsOf w 12 12 + 1) (bitsOf w 0 12 + 1)
        (x.pair a), false))) s

/-- ARING (R361). -/
def execAring (d a b : Reg) (s : State) : Host.Outcome State Fault Refusal := aringOp (.aring d a b) d a b s

/-- ARING with REL: one word with ARING, the D word selecting the release (R361). -/
def execAringRelease (d a b : Reg) (s : State) : Host.Outcome State Fault Refusal := aringOp (.aringRelease d a b) d a b s

/-- The physical addresses of a ring's slots, or what stops the ARING: a page that is missing, which is resolved first (R330), or a range
that does not lie wholly in one die's window (R340). Reads and writes must be allowed (log entry 23). -/
def State.ringRange (t : Team) (base : Nat) : Nat → Nat → State → State × Except Halt (List Nat)
  | 0, _, s => (s, .ok [])
  | n + 1, j, s =>
    match s.translateFor t (base + 8192 * j) .rmw with
    | (s, .error .page) => (s, .error (.page (base + 8192 * j)))
    | (s, .error _) => (s, .error (.fault .prot base))
    | (s, .ok g) =>
      if devOf g ≠ s.ownDev ∨ !s.inWindow (localOf g) then (s, .error (.fault .prot base))
      else
        match State.ringRange t base n (j + 1) s with
        | (s, .ok l) => (s, .ok (localOf g :: l))
        | (s, .error h) => (s, .error h)

/-- Slots that the launches counting against a block hold (R170). -/
def State.slotsHeld (s : State) (block : DWord) : Nat :=
  ((s.rings.filter fun r => ((s.launch? r.launch).map fun l => l.region.budgets.any fun g => g.block == block).getD false).map
    fun r => r.slots.length).sum

/-- Whether a launch may hold `n` more ring slots (R170, R361). -/
def State.slotsFit (s : State) (l : Launch) (n : Nat) : Bool :=
  l.region.budgets.all fun g => decide (s.slotsHeld g.block + n ≤ g.rslots)

/-- Replace a ring. -/
def State.updRing (s : State) (r : Ring) (f : Ring → Ring) : State :=
  { s with rings := s.rings.map fun q => if q.die = r.die ∧ q.num = r.num then f q else q }

/-- The epilogue of a ring is disarmed; an EPI of a core that is draining it ends with ILLEGAL (R343). -/
def State.disarm (s : State) (r : Ring) : State :=
  let s := s.updRing r fun r => { r with epi := none }
  match r.epi with
  | none => s
  | some e =>
    match e.cmd, s.headCmd e.core 8 with
    | some id, some c => if c.id = id then s.failCommand e.core 8 .illegal none else s
    | _, _ => s

/-- A ring is reset (R343): every slot passes through Free, the tail is slot 0; what is held is applied to the new uses. -/
def State.resetRing (s : State) (r : Ring) (target : Nat) (int : Bool) : State :=
  let s := (s.disarm r).updRing r fun r => { r with target := target, int := int, tail := 0, slots := r.slots.map fun _ => Slot.fresh }
  (List.range r.slots.length).foldl (fun s j => State.settleSlot r.die r.num j (s.arrivals.length + 2) s) s

/-- The frames of a ring whose translation was removed are let go (R378). -/
def State.ringFrames (s : State) (r : Ring) : State :=
  if r.frameHeld then
    let (a, n) := framesOf r.pas
    s.frameRecord r.part r.die 2 a n (BitVec.ofNat 32 r.num)
  else s

/-- Whether a physical address lies in an Armed slot of a ring, where a read waits (R249). -/
def Ring.armedAt (r : Ring) (pa : Nat) : Bool :=
  (r.pas.zip r.slots).any fun (a, x) => x.st == .armed && decide (a ≤ pa ∧ pa < a + 8192)

/-- What the release of a ring makes of a load of one of its lines: a read that waits completes with ACC_STATE (R343), any other has the
completed line (R249). -/
def State.ringGone (s : State) (r : Ring) (i : LoadItem) : LoadItem :=
  match i.src with
  | .memory pa f _ =>
    if !r.pas.any fun a => decide (a ≤ pa ∧ pa < a + 8192) then i
    else if r.armedAt pa then { i with src := .failed .accState }
    else match s.readSlot pa (Fmt.size f) with
      | some (.ok bs) => { i with src := .value (extendElem f bs) }
      | some (.error e) => { i with src := .failed e }
      | none => i
  | _ => i

/-- Whether the COPY at the head of a queue waits for an Armed slot of a ring (R249). -/
def State.copyWaits (s : State) (core q : Nat) (r : Ring) : Option Nat :=
  match s.headCmd core q with
  | none => none
  | some c =>
    match c.kind, s.team? c.team with
    | .copy a k, some t =>
      if !c.started || c.fault.isSome || c.page.isSome || a.dir = 1 || decide (a.total ≤ k) then none
      else ((a.parts k (a.chunkFrom 64 k)).map fun p => if a.dq then p.1 / 32 else p.1).findSome? fun i =>
        match a.src.elemAt (a.spos + i) a.elem with
        | .ok (some va) => match (s.laneTarget t a.src .read va).2 with
          | .ok g => if devOf g = s.ownDev ∧ r.armedAt (localOf g) then some va else none
          | .error _ => none
        | _ => none
    | _, _ => none

/-- The loads and copies that wait on a ring which is released complete with ACC_STATE (R343). -/
def State.ringWaiters (s : State) (r : Ring) : State :=
  let g := fun t : Team => { t with waves := t.waves.map fun (w : Wave) =>
    { w with loads := w.loads.map fun (l : Load) => { l with items := l.items.map (s.ringGone r) } } }
  let s := (s.cores.flatMap fun c => (List.range 4).map fun q => (c.id, q)).foldl (fun s (core, q) =>
    match s.copyWaits core q r with
    | some va => s.haltCommand core q (.fault .accState va)
    | none => s) s
  { s with teams := s.teams.map g, saved := s.saved.map g }

/-- A ring is released (R343, R361): its slots and what is held for them are discarded. -/
def State.releaseRing (s : State) (r : Ring) : State :=
  let s := ((s.ringWaiters r).disarm r).ringFrames r
  { s with rings := s.rings.filter fun q => !(q.die == r.die && q.num == r.num),
           arrivals := s.arrivals.filter fun a => !(a.held && a.die == r.die && a.ring == r.num) }

/-- Whether a ring has a slot that is being drained (R343). -/
def Ring.draining (r : Ring) : Bool := r.slots.any fun x => x.st == .draining

/-! ## Saved rings (R251, R388) -/

/-- Whether a command of a core is one on a ring. -/
def Command.onRing (c : Command) (core : Nat) (r : Ring) : Bool :=
  match c.kind with
  | .mloop a _ => dieOf core == r.die && a.ring == r.num
  | .epi d n _ _ => d == r.die && n == r.num
  | .aring _ _ n _ _ b => n == r.num && b == r.base
  | _ => false

/-- The ring that a command of a core adds to or drains: its die and number. -/
def Command.ringOf (c : Command) (core : Nat) : Option (Nat × Nat) :=
  match c.kind with
  | .mloop a _ => some (dieOf core, a.ring)
  | .epi d n _ _ => some (d, n)
  | _ => none

/-- Whether a ring may be saved: it has commands, all of them of saved teams, and no slot is being drained. -/
def State.ringSavable (s : State) (r : Ring) : Bool :=
  !r.draining && !(s.cores.any fun c => c.queues.any fun q => q.cmds.any fun x => x.onRing c.id r) &&
  s.saved.any fun t => t.held.any fun x => x.2.onRing t.core r

/-- A ring is saved with each slot's state, count, VR, flags and error; its lines leave the L2. -/
def State.saveRing (s : State) (r : Ring) : State :=
  { s with rings := s.rings.filter fun q => !(q.die == r.die && q.num == r.num), savedRings := s.savedRings ++ [r] }

/-- Rings are saved, in order, until a launch may hold `n` more slots: none if that does not make room (log entry 54). -/
def State.roomFor (s : State) (l : Launch) (n : Nat) : List Ring → Option State
  | [] => if s.slotsFit l n then some s else none
  | r :: rs => if s.slotsFit l n then some s else (if s.ringSavable r then s.saveRing r else s).roomFor l n rs

/-- A saved ring comes back into the L2 once its launch may hold its slots again and its number and lines are free. -/
def State.restoreRing (s : State) (die num : Nat) : State :=
  match s.savedRings.find? fun r => r.die == die && r.num == num with
  | none => s
  | some r =>
    let free := (s.ring? die num).isNone && !(s.rings.any fun q => q.pas.any fun a => r.pas.contains a)
    if !free || !((s.launch? r.launch).all fun l => s.slotsFit l r.slots.length) then s
    else { s with rings := s.rings ++ [r], savedRings := s.savedRings.filter fun q => !(q.die == die && q.num == num) }

/-- Whether a ring is saved. -/
def State.isSaved (s : State) (die num : Nat) : Bool := s.savedRings.any fun r => r.die == die && r.num == num

/-- The saved rings that a saved team has commands on. -/
def State.savedRingsOf (s : State) (t : Team) : List Ring := s.savedRings.filter fun r => t.held.any fun x => x.2.onRing t.core r

/-- The saved rings of a team come back, before it resumes (R388): none if one finds no room. -/
def State.restoreRings (s : State) (t : Team) : Option State :=
  (s.savedRingsOf t).foldl (fun o r => o.bind fun s =>
    let s := s.restoreRing r.die r.num
    if s.isSaved r.die r.num then none else some s) (some s)

/-- The ARING at the head of a core's flowstone queue acts, or waits for a slot that is being drained (R343, R361). -/
def State.runAring (s : State) (core : Nat) (t : Team) (rel int : Bool) (num target n : Nat) (base : DWord) : State :=
  let fail := fun f : FaultCode => s.failCommand core 8 f (some base)
  if base.toNat % 8192 ≠ 0 then fail .align
  else
    match State.ringRange t base.toNat n 0 s, s.launchOf t with
    | (s, .error (.page va)), _ => s.haltCommand core 8 (.page va)
    | (_, .error _), _ | _, none => fail .prot
    | (s, .ok pas), some l =>
      let die := homeDie (pas.headD 0)
      if pas.any fun p => homeDie p != die then fail .prot
      else
        let s := s.restoreRing die num
        if s.isSaved die num then s
        else match s.ring? die num with
        | none =>
          if rel then s.endCommand core 8 0
          else match s.roomFor l n s.rings with
          | none => s.endCommand core 8 1
          | some s =>
            let r : Ring := { die := die, num := num, part := l.part, launch := l.id, base := base, pas := pas,
                              slots := List.replicate n Slot.fresh, target := target, int := int, tail := 0, epi := none,
                              frameHeld := false }
            ({ s with rings := s.rings ++ [r] } : State).endCommand core 8 0
        | some r =>
          if r.part ≠ l.part then fail .prot
          else if !rel && (r.base != base || r.slots.length != n) then fail .illegal
          else if r.draining then s
          else if rel then (s.releaseRing r).endCommand core 8 0
          else (s.resetRing r target int).endCommand core 8 0

/-! ## EPI (R344, R345, R362) -/

/-- An output format (R344). -/
def outFormat (n : Nat) : Option Fmt := if [0x05, 0x06, 0x07, 0x09, 0x0C, 0x0D].contains n then fmtOf n else none

/-- The floating-point format of an output, none for .s32. -/
def outFp : Fmt → Option FpFmt
  | .f32 => some .f32 | .f16 => some .f16 | .bf16 => some .bf16 | .e4m3 => some .e4m3 | .e5m2 => some .e5m2
  | _ => none

/-- An epilogue descriptor, or the fault of its check (R12, R344). -/
def epilogueOf (addr : DWord) (b : List Byte) (int : Bool) : Except FaultCode Epilogue :=
  let v := b.getD 0 0
  let m0 := minorZero v
  if !versionOk v then .error .version
  else
    match outFormat (fieldLE b 1 1) with
    | none => .error .illegal
    | some f =>
      let e : Epilogue :=
        { addr := addr, ofmt := f, act := fieldLE b 2 1, bias := bitsOf (fieldLE b 3 1) 0 1 == 1, svec := bitsOf (fieldLE b 3 1) 1 1 == 1,
          rtz := bitsOf (fieldLE b 3 1) 2 1 == 1, ct := fieldLE b 4 2, obase := field64 b 8, ostride := field32 b 16,
          scale := field32 b 20, biasv := field64 b 24, scalev := field64 b 32 }
      let z := Fmt.size f
      if 4 < e.act || (m0 && (fieldLE b 3 1 / 8 != 0 || !zeroBytes b 6 2 || !zeroBytes b 40 24)) || e.ct == 0 || decide (4096 < e.ct) ||
          e.obase.toNat % z != 0 || e.ostride.toNat % z != 0 || (!e.bias && e.biasv != 0) || (!e.svec && e.scalev != 0) ||
          (f == .s32 && !(int && e.act == 0 && !e.bias && !e.svec && e.scale == 0x3F800000)) then .error .illegal
      else .ok e

/-- Whether the output rows of an EPI's slots meet a shared range of its ordered launch, which makes it a lantern operation (R355). Which slots
they are, and how many rows each has, is known at the drain only: every row of as many slots counts, from the count on that the ring's drain count
and the EPIs that stand before it with the same descriptor give (log entry 13). -/
def State.epiShared (s : State) (t : Team) (num m : Nat) (r : Ring) (e : Epilogue) : Bool :=
  match s.launchOf t with
  | none => false
  | some l =>
    let before := ((s.queue? t.core 8).map (·.cmds)).getD []
    let queued := (before.map fun c => match c.kind with
      | .epi _ n left x => if n = num ∧ x.addr = e.addr then left else 0
      | _ => 0).sum
    let d := queued + match r.epi with | some x => if x.addr = e.addr then x.drained else 0 | none => 0
    l.region.ord && l.region.hasShared && (List.range m).any fun k =>
      let rb := (d + k) / e.ct
      let cb := (d + k) % e.ct
      (List.range 16).any fun i =>
        l.region.meetsShared (e.obase.toNat + (rb * 16 + i) * e.ostride.toNat + cb * 128 * Fmt.size e.ofmt) (128 * Fmt.size e.ofmt)

/-- EPI (R353, R362): the descriptor is read, checked and copied at issue; the wave's turn ends (R355). -/
def execEpi (d a b : Reg) (s : State) : Host.Outcome State Fault Refusal :=
  engineOp (.epi d a b) (fun c x s =>
    let va := (x.pair a).toNat
    let w := (x.reg d).toNat
    let die := s.engineDie c.team
    match c.selector (x.reg b), s.liveRing? die (bitsOf w 16 6) with
    | .error e, _ => (s, .error e)
    | _, none => (s, .error (.illegal, none, 0))
    | .ok tag, some r =>
      if w / 2 ^ 22 ≠ 0 ∨ bitsOf w 0 16 = 0 then (s, .error (.illegal, none, 0))
      else if va % 64 ≠ 0 then (s, .error (.align, some va, 0))
      else
        match s.readVirtual c.team c.wave.idx va 64 with
        | (s, .error (f, p)) => (s, .error (f, some p, 0))
        | (s, .ok bs) =>
          match epilogueOf (x.pair a) bs r.int with
          | .error f => (s, .error (f, some va, 0))
          | .ok e =>
            let shared := s.epiShared c.team (bitsOf w 16 6) (bitsOf w 0 16) r e
            (s.updRun fun r => { r with turnEnds := true }, .ok (8, tag, .epi die (bitsOf w 16 6) (bitsOf w 0 16) e, shared))) s

/-- The EPI at the head of a flowstone queue starts (R345, R362): it arms its descriptor, keeping d when the ring's last armed
descriptor has the same address. It waits while another core's EPI drains the ring; against a released ring it ends with ILLEGAL. -/
def State.startEpi (s : State) (core : Nat) (c : Command) (die num : Nat) (e : Epilogue) : State :=
  match s.ring? die num with
  | none => s.failCommand core 8 .illegal none
  | some r =>
    if ((r.epi.bind (·.cmd)).map fun i => i != c.id).getD false then s
    else
      let d := match r.epi with | some x => if x.addr = e.addr then x.drained else 0 | none => 0
      (s.updRing r fun r => { r with epi := some { addr := e.addr, drained := d, core := core, cmd := some c.id } }).updHead core 8
        fun c => { c with started := true }

/-! ## The epilogue's arithmetic (R345) -/

/-- Round(a x b + c, f32, RNE), with its flags (R345). -/
def fma32 (a b c : Word) : Word × Word :=
  let (r, f) := finish .f32 .rne (opFma false [f32 a, f32 b, f32 c])
  (codeW r, f)

/-- The activation (R344, R345). -/
def activation (act : Nat) (v : Word) : Word × Word :=
  match act with
  | 1 => let (r, f) := fminmax .f32 true false v.toNat 0; (codeW r, f)
  | 2 =>
    let (g, f) := sfnFn .sigm v
    let (r, h) := finish .f32 .rne (opMul false [f32 v, f32 g])
    (codeW r, f ||| h)
  | 3 => sfnFn .tanh v
  | 4 => sfnFn .sigm v
  | _ => (v, 0)

/-- One output element: its bytes and flags (R345). -/
def Epilogue.out (e : Epilogue) (int : Bool) (x sc b : Word) : List Byte × Word :=
  match outFp e.ofmt with
  | none => (bytesLE 4 x.toNat, 0)
  | some f =>
    let (x, f0) : Word × Word := if int then
        let (r, g) := FpFmt.f32.encode .rne (dyadic x.toInt 0 false)
        (codeW r, g)
      else (x, 0)
    let (v, f1) := fma32 x sc b
    let (v, f2) := activation e.act v
    let m := if e.rtz then RMode.rtz else .rne
    let r := f.encode m (f32 v)
    (bytesLE (Fmt.size e.ofmt) r.1, f0 ||| f1 ||| f2 ||| r.2 ||| nvOf [f32 v] (f32 v))

/-- Words of a list of bytes. -/
def wordsOf (n : Nat) (bs : List Byte) : List Word := (List.range n).map fun i => field32 bs (4 * i)

/-! ## The drain (R345, R346) -/

/-- The rows of a drained slot: address and bytes of each, with the flags of all (R345). -/
def Epilogue.rows (e : Epilogue) (r : Ring) (x : Slot) (d : Nat) (scale bias : List Word) : List (Nat × List Byte) × Word :=
  let rb := d / e.ct
  let cb := d % e.ct
  let rows := (List.range x.vr).map fun i =>
    let cells := (List.range 128).map fun c => e.out r.int (x.elem (i * 128 + c)) (scale.getD c e.scale) (bias.getD c 0)
    (e.obase.toNat + (rb * 16 + i) * e.ostride.toNat + cb * 128 * Fmt.size e.ofmt, cells)
  (rows.map fun p => (p.1, p.2.flatMap (·.1)), rows.foldl (fun f p => p.2.foldl (fun f c => f ||| c.2) f) 0)

/-- Targets of the rows of a slot, piece by piece; the first halt decides. -/
def State.drainTargets (t : Team) : List (Nat × List Byte) → State → State × Except Halt (List LaneStore)
  | [], s => (s, .ok [])
  | (va, bs) :: l, s =>
    let (s, r) := (linePieces 10 va bs.length).foldl (fun (p : State × Except Halt (List LaneStore)) x =>
      match p.2 with
      | .error _ => p
      | .ok ws =>
        match p.1.engineTarget (fun s v => s.translateFor t v .write) x.1 x.2 with
        | (s, .error h) => (s, .error h)
        | (s, .ok g) => (s, .ok (ws ++ [{ lane := 0, va := x.1, pa := g, bytes := (bs.drop (x.1 - va)).take x.2 }]))) (s, .ok [])
    match r with
    | .error h => (s, .error h)
    | .ok ws =>
      match State.drainTargets t l s with
      | (s, .error h) => (s, .error h)
      | (s, .ok rest) => (s, .ok (ws ++ rest))

/-- A vector of the descriptor for a column tile: 128 FP32 elements, when the flag asks for it (R344, R345). -/
def State.drainVector (s : State) (core : Nat) (t : Team) (use : Bool) (base : DWord) (cb : Nat) : State × Except Halt (List Word) :=
  if !use then (s, .ok [])
  else
    match State.engineReads core 8 t (fun s v => s.translateFor t v .read) false (linePieces 10 (base.toNat + cb * 512) 512) s with
    | (s, .error h) => (s, .error h)
    | (s, .ok bs) => (s, .ok (wordsOf 128 bs))

/-- A slot's error, or a fault of its drain, is reported to the fault domain of the region that set up the ring (R250, R346). The supervisor has
had its record of an uncorrectable error when that was found (R250). -/
def State.ringReport (s : State) (r : Ring) (core : Nat) (f : FaultCode) (addr : DWord) : State :=
  let (id, s) := s.fresh
  s.addReport { Report.blank id (some r.part) 0 f.num with
    flg := reportFlg false true false false true, die := r.die, core := core % 100, addr := addr,
    rcb := ((s.launch? r.launch).map fun l => l.region.block).getD 0, aux := BitVec.ofNat 32 r.num, launch := some r.launch }

/-- A drained slot is freed, and the tail and the counts move on (R345). -/
def State.drained (s : State) (core : Nat) (r : Ring) (flags : Word) : State :=
  let j := r.tail
  let s := s.updRing r fun r =>
    { r with tail := (r.tail + 1) % r.slots.length, epi := r.epi.map fun e => { e with drained := e.drained + 1 } }
  let s := s.updHead core 8 fun c =>
    { c with flags := c.flags ||| flags, fetches := [], kind := match c.kind with
      | .epi d n left e => .epi d n (left - 1) e
      | k => k }
  s.freeSlot r j

/-- The end of an EPI whose drain has met a fault that cannot be resolved: the slot returns to Complete, the epilogue is
disarmed, and the fault of a write is reported to the ring's domain (R346), that of a read to the issuing region's (R330). -/
def State.failEpi (s : State) (core : Nat) (r : Ring) (write : Bool) (f : FaultCode) (addr : Option DWord) : State :=
  let s := s.updRing r fun r => { r with epi := none, slots := r.slots.modify r.tail fun x =>
    if x.st = .draining then { x with st := .complete } else x }
  if write then (s.ringReport r core f (addr.getD 0)).endCommand core 8 f.status else s.failCommand core 8 f addr

/-- A write of an EPI's drain has met a halt, which concerns the ring's domain (R346). -/
def State.haltDrain (s : State) (core : Nat) (h : Halt) : State :=
  (s.updHead core 8 fun c => { c with ringFault := true }).haltCommand core 8 h

/-- SLOT_DRAIN (R345, R346): the flowstone engine of a core drains the tail slot of its EPI's ring, once the slot is Complete. -/
def execSlotDrain (core : Nat) (s : State) : Host.Outcome State Fault Refusal :=
  match s.headCmd core 8 with
  | none => .next s
  | some c =>
    match c.kind, s.team? c.team with
    | .epi die num left e, some t =>
      match s.ring? die num with
      | none => .next s
      | some r =>
        if !(c.started && !t.ending && c.fault.isNone && c.page.isNone && decide (0 < left)) then .next s
        else
          match r.slots[r.tail]?, r.epi with
          | some x, some a =>
            if x.st = .armed ∨ a.cmd ≠ some c.id then .next s
            else
              match x.err with
              | some (f, p) => .next ((s.ringReport r core f p).drained core r x.flags)
              | none =>
                let s := (s.updSlot r r.tail fun x => { x with st := .draining }).updHead core 8 fun c => { c with ringFault := false }
                match s.drainVector core t e.svec e.scalev (a.drained % e.ct) with
                | (s, .error h) => .next (s.haltCommand core 8 h)
                | (s, .ok sc) =>
                  match s.drainVector core t e.bias e.biasv (a.drained % e.ct) with
                  | (s, .error h) => .next (s.haltCommand core 8 h)
                  | (s, .ok bi) =>
                    let (rows, flags) := e.rows r x a.drained sc bi
                    match State.drainTargets t rows s with
                    | (s, .error h) => .next (s.haltDrain core h)
                    | (s, .ok ws) =>
                      match s.lostPart ws with
                      | some va => .next (s.haltDrain core (.fault .lineLost va))
                      | none => .next ((s.engineWrites core 8 t false c.shared ws).drained core r (x.flags ||| flags))
          | _, _ => .next s
    | _, _ => .next s

/-! ## COMMAND_START and COMMAND_COMPLETE -/

/-- Whether a command's team is being ended: the command does not start, and a running one does not go on (R371). -/
def State.stopped (s : State) (c : Command) : Bool := ((s.team? c.team).map (·.ending)).getD false

/-- COMMAND_START (R279, R280, R327): the head of a queue starts when what it waits for is done; a COPY makes up to `chunks` of its
chunks. -/
def execCommandStart (core queue chunks : Nat) (s : State) : Host.Outcome State Fault Refusal :=
  match s.headCmd core queue with
  | none => .next s
  | some c =>
    if s.stopped c then .next s
    else if c.started then .next (State.copyRun core queue chunks s)
    else if !s.mayStart c then .next s
    else
      let s := ((c.ringOf core).map fun x => s.restoreRing x.1 x.2).getD s
      if ((c.ringOf core).map fun x => s.isSaved x.1 x.2).getD false then .next s
      else
        match c.kind with
        | .epi die num _ e => .next (s.startEpi core c die num e)
        | _ => .next (State.copyRun core queue chunks (s.updHead core queue fun c => { c with started := true }))

/-- The end of a command that has met a fault, its earlier writes being performed (R330, R346). -/
def State.endFaulted (s : State) (core queue : Nat) (c : Command) (f : FaultCode) (addr : Option DWord) : State :=
  match c.kind with
  | .epi die num _ _ =>
    match s.ring? die num with
    | some r => s.failEpi core r c.ringFault f addr
    | none => s.failCommand core queue f addr
  | _ => s.failCommand core queue f addr

/-- COMMAND_COMPLETE (R327, R328, R330): the head of a queue does what it has left to do and completes, unless something that it
needs is not there yet. Its writes are performed before it completes. -/
def execCommandComplete (core queue : Nat) (s : State) : Host.Outcome State Fault Refusal :=
  let s := match s.headCmd core queue with
    | some c => match c.kind with
      | .copy a _ => if c.started && !s.stopped c then State.copyRun core queue (a.total + 1) s else s
      | _ => s
    | none => s
  match s.headCmd core queue with
  | none => .next s
  | some c =>
    if !c.started || s.stopped c || c.page.isSome || !s.performed c.writes then .next s
    else
      match c.fault, s.team? c.team with
      | some (f, a), _ => .next (s.endFaulted core queue c f a)
      | none, none => .next s
      | none, some t =>
        match c.kind with
        | .copy a k => .next (if a.total ≤ k then s.endCommand core queue 0 else s)
        | .vfill v off =>
          if ((s.core? core).map fun k => k.asleep v || s.vaultsBusy k v).getD false then .next s
          else if t.spadError off (v.chain * v.groups * Fmt.vaultBytes v.bf) then .next (s.failCommand core queue .eccUncorr none)
          else .next ((s.fillSet core queue t v off).endCommand core queue 0)
        | .mloop a step =>
          .next (if a.steps ≤ step ∧ !(s.arrivals.any fun x => x.cmd == some c.id && !x.held) then s.endCommand core queue 0 else s)
        | .aring rel int num target n base => .next (s.runAring core t rel int num target n base)
        | .epi die num left _ =>
          if left ≠ 0 then .next s
          else
            let s := match s.ring? die num with
              | some r => s.updRing r fun r => { r with epi := r.epi.map fun (e : ArmedEpi) => if e.cmd = some c.id then { e with cmd := none } else e }
              | none => s
            .next (s.endCommand core queue 0)

end Sys2Proof.Machine
end

