-- ==== Sys2Proof/Machine/Notify.lean ====
section
/-!
DEFINITION. Who is told what: the fabric control block (R431), inbound fault records (R441), replies to invocations and hosts (R435,
R442, R445), the sources of launches (R162, R164, R169, R220, R405, R434) and the release of a sump range (R350).
-/

namespace Sys2Proof.Machine

/-! ## The fabric control block (R431) -/

/-- Whether the control block's reserved content must be 0: its minor version is 0 (R12). -/
def State.fcbStrict (s : State) : Bool := minorZero (BitVec.ofNat 8 (s.fcb 0 1))

/-- The partition whose report ring logs inbound faults, none when the field is absent. -/
def State.inbp (s : State) : Option Nat :=
  let b := s.fcb 1 1
  if s.fcbOk && (b < 16 || !s.fcbStrict) then some (b % 16) else none

/-- The handler table's address, none when the field is absent. -/
def State.htab (s : State) : Option Nat := if s.fcbOk && s.fcb 8 8 % 65536 == 0 then some (s.fcb 8 8) else none

/-- Whether the reserved bytes after an overflow ring's size are as they must be (R12, R431). -/
def State.ringClean (s : State) (q : Nat) : Bool := !s.fcbStrict || s.fcb (73 + 16 * q) 7 == 0

/-- The overflow ring of an invocation queue, base and log2 of its entries: none when there is none or a field is absent. -/
def State.overflowRing (s : State) (q : Nat) : Option (Nat × Nat) :=
  let base := s.fcb (64 + 16 * q) 8
  let log := s.fcb (72 + 16 * q) 1
  if s.fcbOk && base % 64 == 0 && log ≤ 16 && s.ringClean q then some (base, log) else none

/-- A record for partition INBP, on the device ring when INBP is absent (R431, R441). -/
def State.inboundNote (s : State) (code : Nat) (addr : DWord) (hasAddr glob : Bool) : State :=
  let (id, s) := s.fresh
  s.addReport { Report.blank id s.inbp 0 code with flg := reportFlg false hasAddr glob false true, addr := addr }

/-- A record of an inbound fault; an absent INBP field, which it reads, has a record of its own (R431, R441). A control block whose version
is rejected has one of its own instead (`State.noteBlock`). -/
def State.inboundRecord (s : State) (code : Nat) (addr : DWord) (hasAddr glob : Bool) : State :=
  let s := s.inboundNote code addr hasAddr glob
  if s.inbp.isSome || !s.fcbOk then s else s.inboundNote FaultCode.illegal.num 1 true false

/-- The records of control-block fields, by their first bytes, that a packet finds to be absent (R431). -/
def State.noteFields (s : State) (fields : List Nat) : State :=
  fields.foldl (fun s a => s.inboundRecord FaultCode.illegal.num (BitVec.ofNat 64 a) true false) s

/-- A packet that finds the control block's version rejected (R12): each of its fields is absent, and a record with CODE VERSION names the
block (log entry 80). -/
def State.noteBlock (s : State) : State := if s.fcbOk then s else s.inboundRecord FaultCode.version.num 0 true false

/-- PTO when it breaks its range. -/
def State.badPto (s : State) : List Nat := if s.fcbOk && 1000000 < s.fcb 4 4 then [4] else []

/-- HTAB when it breaks its range. -/
def State.badHtab (s : State) : List Nat := if s.fcbOk && s.fcb 8 8 % 65536 != 0 then [8] else []

/-- The fields of an invocation queue that break their range. -/
def State.badQueue (s : State) (q : Nat) : List Nat :=
  if !s.fcbOk then []
  else
    (if s.fcb (64 + 16 * q) 8 % 64 ≠ 0 then [64 + 16 * q] else []) ++
      (if (16 < s.fcb (72 + 16 * q) 1 ∧ s.fcb (72 + 16 * q) 1 ≠ 0xFF) ∨ !s.ringClean q then [72 + 16 * q] else [])

/-! ## Replies -/

/-- An invocation of this device receives its status: its tag is set (R435, R445). DONE forms a done edge (R436). -/
def State.answerInvocation (s : State) (p : Invocation → Bool) (st : Nat) : State :=
  match s.invocations.find? p with
  | none => s
  | some v =>
    (s.copiesOf v.team).foldl (fun s t => s.setTag t (some v.tag) st (st == 0))
      { s with invocations := s.invocations.filter fun x => x.id != v.id }

/-- A host's reply word: the status and a count of replies (R442). -/
def State.hostReply (s : State) (tag st : Nat) : State :=
  { s with replyWords := s.replyWords.modify tag fun w => BitVec.ofNat 32 ((w.toNat / 256 + 1) % 2 ^ 24 * 256 + st) }

/-- The reply to an invocation that came from a device: a response packet, or for a self-invocation the tag itself (R432,
R435). -/
def State.replyTo (s : State) (dev : Nat) (tag : Option Nat) (die : Nat) (seq : Word) (st : Nat) : State :=
  match tag with
  | none => s
  | some _ =>
    if dev = s.ownDev then s.answerInvocation (fun v => v.dev == dev && v.die == die && v.seq == seq) st
    else s.send dev 0 1 (.reply die seq st)

/-! ## Sump ranges (R350, R365) -/

/-- A write of the device at a line's home, which its monitors see (R252, R347). -/
def State.writeHome (s : State) (pa : Nat) (bs : List Byte) : State := (s.storeNow pa bs).observeLine (lineOf pa)

/-- HEAD of a node moves over the released records at the front of its ranges (R350). -/
def State.sumpHead (s : State) (node : Nat) : State :=
  match s.sumps.find? fun n => n.pa == node with
  | none => s
  | some n =>
    let rest := n.ranges.dropWhile fun r => decide (r.count ≤ r.released)
    let head := match rest with
      | r :: _ => r.start + r.released
      | [] => natLE (s.peek (node + 40) 8)
    let s := { s with sumps := s.sumps.map fun (m : SumpNode) => if m.pa = node then { m with ranges := rest } else m }
    s.writeHome (node + 32) (bytesLE 8 head)

/-- Records of a launch's range are released: `k` more of them, at most all (R350, R365). -/
def State.releaseRange (s : State) (r : SumpRange) (k : Nat) : State :=
  { s with sumps := s.sumps.map fun (n : SumpNode) => if n.pa = r.node then
      { n with ranges := n.ranges.map fun (x : SumpRange) =>
          if x.start = r.start then { x with released := Nat.min x.count (x.released + k) } else x } else n }.sumpHead r.node

/-! ## Sources -/

/-- A source whose offer is not accepted: the queue is full (none), or the launch is refused with a fault (R162, R169, R220, R350,
R405, R434). -/
def State.tellRefused (s : State) (o : Offer) (rcb : DWord) (f : Option FaultCode) : State :=
  match o.source, f with
  | .supervisor t q, _ => s.answerLoad t 0 q (BitVec.ofNat 32 ((f.map FaultCode.status).getD 2))
  | .instr t tag, _ =>
    let s := if tag.isNone then s.updPart o.part fun p => { p with prefuse := satInc p.prefuse 1 } else s
    (s.copiesOf t).foldl (fun s t => s.setTag t tag ((f.map FaultCode.status).getD 1) false) s
  | .host tag wend, some f =>
    match wend, tag with
    | true, some t => s.hostReply t f.status
    | true, none => s
    | false, _ =>
      let (v, s) := s.free
      s.inboundRecord f.num v true true
  | .remote dev tag die seq wend, some f =>
    if wend then s.replyTo dev tag die seq f.status
    else
      let (v, s) := s.free
      s.inboundRecord f.num v true true
  | .sump r, some f =>
    let (id, s) := s.fresh
    let s := s.addReport { Report.blank id (some o.part) 0 f.num with
      flg := reportFlg false true false false true, addr := BitVec.ofNat 64 r.node, rcb := rcb }
    s.releaseRange r r.count
  | .host _ _, none | .remote _ _ _ _ _, none | .sump _, none | .handler _, _ => s

/-- A source whose launch has ended with a status (R164, R220, R350, R405, R434). A handler launch's end is for R369. -/
def State.tellEnded (s : State) (part : Nat) (src : Source) (st : Nat) : State :=
  match src with
  | .supervisor _ _ => s.updPart part fun p => { p with pdone := satInc p.pdone 1 }
  | .instr t tag => (s.copiesOf t).foldl (fun s t => s.setTag t tag st true) s
  | .host (some t) true => s.hostReply t st
  | .host _ _ => s
  | .remote dev tag die seq true => s.replyTo dev tag die seq st
  | .remote _ _ _ _ false => s
  | .sump r => s.releaseRange r r.count
  | .handler _ => s

end Sys2Proof.Machine
end

