-- ==== Sys2Proof/Machine/Dispose.lean ====
section
/-!
DEFINITION. What becomes of a parked entry (R182, R367, R369, R475): its access or its instruction is performed again, it goes on, its
lanes exit; the supervisor's resolution of a missing page (R376); and the delivery of a fault to its domain (R366, R368).
-/

namespace Sys2Proof.Machine

/-! ## Parked lanes -/

/-- A fault of a list that a report tells of. -/
def parkingOf (id : Nat) (ps : List Parking) : Option Parking := ps.find? fun p => p.report == id

/-- The faults under which an entry is parked. -/
def Entry.parkings (e : Entry) : List Parking :=
  match e.st with
  | .parked ps => ps
  | _ => []

/-- Everything that a wave keeps parked: its entries, or in runahead mode those it returns to, the lanes that its run parks, and exited lanes. -/
def Wave.allParked (w : Wave) : List (BitVec 64 × Parking) :=
  (((w.runahead.map (·.frontier)).getD w.frontier).flatMap fun e => e.parkings.map fun p => (e.mask, p)) ++ ((w.run.map (·.parks)).getD []) ++ w.ghosts

/-- The lanes that a wave keeps parked under a report, and how they resume. -/
def Wave.parkedUnder (w : Wave) (id : Nat) : Option (BitVec 64 × Parking) :=
  let ps := w.allParked.filter fun p => p.2.report == id
  ps.head?.map fun p => (ps.foldl (fun m q => m ||| q.1) 0, p.2)

/-- The team and wave that keep lanes parked under a report, on a core or saved. -/
def State.parkedAt (s : State) (id : Nat) : Option (Team × Wave × BitVec 64 × Parking) :=
  (s.saved ++ s.teams).findSome? fun t => t.waves.findSome? fun w =>
    (w.parkedUnder id).map fun p => (t, w, p.1, p.2)

/-- How lanes that a report has parked come back: where they go on, when that is not where they stand, and the instruction that they perform
again. -/
structure Comeback where
  at_ : Option (Word × Land) := none
  redo : Option Redo := none
  deriving DecidableEq, Repr

/-- A parked entry with one of its faults removed: it may run once none is left, after what its run has left to wait for, or first performs an
instruction again (R182, R369). -/
def Entry.comeBack (loops : List LoopEntry) (k : Comeback) (rest : List Parking) (e : Entry) : Entry :=
  let p := k.at_.getD (e.pc, e.land)
  let redo := k.redo <|> e.redo
  let e := { e with pc := p.1, land := p.2, redo := redo }
  if !rest.isEmpty then { e with st := .parked rest }
  else if redo.isSome then { e with st := .runnable }
  else e.goOn loops

/-- Lanes parked under a report are told apart: those of `ok` come back, those of `bad` are parked under new faults, the others are gone. -/
def Wave.repark (w : Wave) (id : Nat) (ok : BitVec 64) (k : Comeback) (bad : List (BitVec 64 × Parking)) : Wave :=
  let w := w.both fun w => { w with
    sel := none
    frontier := addEntries (w.frontier.flatMap fun (e : Entry) =>
      if (parkingOf id e.parkings).isNone then [e]
      else
        let rest := e.parkings.filter fun p => p.report != id
        ({ e with mask := e.mask &&& ok } : Entry).comeBack w.loops k rest ::
          bad.map fun (m, p) => { e with mask := e.mask &&& m, st := .parked (rest ++ [p]) }) [] }
  let again := fun ps : List (BitVec 64 × Parking) => ps.flatMap fun (m, p) =>
    if p.report = id then (bad.map fun (n, q) => (m &&& n, q)).filter fun q => q.1 != 0 else [(m, p)]
  { w with
    ghosts := again w.ghosts
    run := w.run.map fun (r : Run) =>
      let mine := (r.parks.filter fun p => p.2.report == id).foldl (fun m p => m ||| p.1) 0
      let repeats := r.repeats ++ (k.redo.map fun x => (mine &&& ok, x)).toList.filter fun p => p.1 != 0
      let parks := again r.parks
      { r with
        parks := parks
        repeats := repeats
        parkedMask := parks.foldl (fun m p => m ||| p.1) (repeats.foldl (fun m p => m ||| p.1) 0) } }

/-! ## The access of a lane, repeated (R475) -/

/-- What the repetition of one parked access comes to: the item that goes on waiting, if any, or a fault. -/
abbrev Retried := Except FaultCode (Option LoadItem)

/-- The access of a parked operation, for its translation. -/
def ParkedOp.access : ParkedOp → Access
  | .load _ _ _ => .read
  | .store _ => .write
  | .rmw _ _ _ _ _ _ _ => .rmw

/-- The address that the bundle instance of a parked access gives its element, for a bound one. -/
def ParkedOp.boundAt : ParkedOp → Option Nat
  | .load _ _ b => b
  | .store _ => none
  | .rmw _ _ _ _ _ _ b => b

/-- Where the element of a parked access lies now: a bound access keeps its instance's address, which no translation changes (R233), any
other is translated again. -/
def State.parkedTarget (s : State) (t : Team) (va : Nat) (op : ParkedOp) : State × Except FaultCode Nat :=
  match op.boundAt with
  | some g => (s, .ok g)
  | none => s.translateFor t va op.access

/-- One parked access of a lane is made again (R182, R475). -/
def State.retryItem (s : State) (t : Team) (w : Nat) (l : Load) (i : LoadItem) : State × Retried :=
  match i.src with
  | .parked op =>
    match s.parkedTarget t i.va.toNat op with
    | (s, .error f) => (s, .error f)
    | (s, .ok g) =>
      let pa := localOf g
      match op with
      | .load f h _ => (s, .ok (some { i with src := s.loadSrc f h g }))
      | .store bs =>
        if devOf g = s.ownDev ∧ s.inWindow pa then (s, .error .accState)
        else (s.storeOut t w g (whole bs) i.va false (s.sharedAccess t i.va.toNat), .ok none)
      | .rmw op f a b level returns bound =>
        let s := if t.performs then
            s.sendRmws t w l.pc op f level (if returns then some l.seq else none) bound.isSome [(i.lane, i.va.toNat, g, a, b)]
          else s
        (s, .ok (if returns then some { i with src := .rmw } else none))
  | _ => (s, .ok (some i))

/-- The parked accesses of a load's lanes, made again in order. -/
def State.retryItems (t : Team) (w : Nat) (l : Load) (m : BitVec 64) : List LoadItem → State → State × List (LoadItem × Retried)
  | [], s => (s, [])
  | i :: is, s =>
    let (s, r) := if laneIn m i.lane then s.retryItem t w l i else (s, .ok (some i))
    let (s, rs) := State.retryItems t w l m is s
    (s, (i, r) :: rs)

/-- The access of lanes parked under a report is performed again: the lanes whose access is made go on, those that meet another
fault are parked under a report of it (R182, R369, R376). -/
def State.retryAccess (s : State) (t : Team) (w : Wave) (id seq : Nat) (m : BitVec 64) : State :=
  match w.loads.find? fun l => l.seq == seq with
  | none => s.updAny t.id w.idx fun w => w.repark id m {} []
  | some l =>
    let (s, rs) := State.retryItems t w.idx l m l.items s
    let faults := rs.filterMap fun (i, r) => match r with | .error f => some (i, f) | _ => none
    let items := rs.flatMap fun (i, r) => match r with | .ok (some j) => [j] | .ok none => [] | .error _ => [i]
    let (s, bad) := (distinct (faults.map (·.2))).foldl (fun (p : State × List (BitVec 64 × Parking)) f =>
      let mine := faults.filter fun x => x.2 == f
      let i := (mine.head?.map (·.1.lane)).getD 0
      let va := mine.head?.map (·.1.va)
      let (n, s) := p.1.fresh
      let s := s.addReport (s.faultReport t w.idx { code := f, lane := i, addr := va, pc := l.pc } (f == .page) false n)
      (s, p.2 ++ [(maskOf (mine.map (·.1.lane)), ⟨f, n, .access seq⟩)])) (s, [])
    let ok := m &&& ~~~(maskOf (faults.map (·.1.lane)))
    s.updAny t.id w.idx fun w =>
      let w := w.mapLoad seq fun l => { l with items := items }
      let w := (w.repark id ok {} bad).unmark (l.items.flatMap fun i => i.regs)
      -- the destinations are pending for the resumed lanes (R37, R182)
      { w with marks := unionIds w.marks ((l.items.flatMap fun i => i.regs).filter fun p => l.named.contains p && w.awaited p) }

/-! ## Dispositions (R369) -/

/-- Whether RESUME takes effect for lanes parked with a retry: not for a decode failure at fetch (R366). -/
def Retry.resumes : Retry → Bool
  | .none => false
  | _ => true

/-- Lanes of a wave exit between runs (R209): their outstanding results are discarded on arrival, the accesses that they wait for under a
report are not made, and they leave the frontier and the wave's run. -/
def Wave.exitLanes (w : Wave) (m : BitVec 64) : Wave :=
  let keep := fun (i : LoadItem) => if laneIn m i.lane && i.isParked then none else i.discard m
  let v := { w with loads := (w.loads.map fun (l : Load) => { l with items := l.items.filterMap keep }).filter fun l => !l.items.isEmpty }
  let v := v.unmark (w.loads.flatMap fun l => l.items.flatMap LoadItem.regs)
  let v := v.both fun v => { v with
    sel := none
    frontier := (v.frontier.map fun (e : Entry) => { e with mask := e.mask &&& ~~~m }).filter fun e => e.mask != 0 }
  let cut := fun (p : BitVec 64) => p &&& ~~~m
  { v with run := v.run.map fun (r : Run) =>
      { r with mask := cut r.mask, parkedMask := cut r.parkedMask, parks := r.parks.map fun p => (cut p.1, p.2),
               repeats := r.repeats.map fun p => (cut p.1, p.2) } }

/-- Lanes parked under a report exit (R209, R369): a wave that leaves with its last lane ends its turn while it still has one (R194). An exited
lane's access is given up. -/
def State.exitParked (s : State) (t : Team) (w : Wave) (m : BitVec 64) (id : Nat) : State :=
  let last := w.liveMask &&& ~~~m == 0
  let s := if last && w.liveMask != 0 then s.endTurn t w.idx else s
  let s := s.updReal t.id fun t => t.updWave w.idx fun w =>
    { w.exitLanes m with ghosts := w.ghosts.filter fun p => p.2.report != id }
  s.afterExit t.id w.idx

/-- What RESUME does for a run whose trailer has not retired for the parked lanes: they go on after it, the lantern passes on a yield or an
LPASS, and a yield ends the turn and makes their entry the skip entry (R40, R208, R210, R369). -/
def State.resumeAfter (s : State) (t : Team) (w : Wave) (id : Nat) (m : BitVec 64) (trailer : Word) (skips passes : Bool) : State :=
  let s := if passes then s.passLantern t w.idx else s
  let s := if skips && passes then s.endTurn t w.idx else s
  s.updAny t.id w.idx fun w =>
    let w := w.repark id m { at_ := some (fallThrough ((w.runahead.map (·.loops)).getD w.loops) trailer) } []
    let w := w.settle.checkRcb
    if skips then w.skipOver m else w

/-- The entry parked under a report resumes: it continues as if its run had retired, or performs its access or its instruction
again (R369). -/
def State.resume (s : State) (t : Team) (w : Wave) (id : Nat) (m : BitVec 64) (r : Retry) : State :=
  match r with
  | .none => s.exitParked t w m id
  | .refetch | .goOn => s.updAny t.id w.idx fun w => w.repark id m {} []
  | .after trailer skips passes => s.resumeAfter t w id m trailer skips passes
  | .access seq => s.retryAccess t w id seq m
  | .whole r => s.updAny t.id w.idx fun w => w.repark id m { redo := some r } []

/-- A sump record whose write waits under a report is written again (R364). -/
def State.retrySump (s : State) (id : Nat) : State :=
  { s with sumpWrites := s.sumpWrites.map fun (x : SumpWrite) => if x.blocked = some id then { x with blocked := none } else x }

/-- DISP 0 or 1 applied to what a report has parked; an asynchronous report has parked nothing (R369). -/
def State.disposeTo (s : State) (id : Nat) (exit : Bool) : State :=
  match s.parkedAt id with
  | none => if exit then s else s.retrySump id
  | some (t, w, m, p) => if exit then s.exitParked t w m id else (s.retrySump id).resume t w id m p.retry

/-! ## Delivery -/

/-- A report that the supervisor has passed on to the fault domain: the same record without SUP (R376). -/
def State.passOn (s : State) (r : Report) : Nat × State :=
  let (id, s) := s.fresh
  (id, s.addReport { r with id := id, flg := r.flg &&& 0xF7, index := none, disp := 0xFF })

/-- A missing page that the supervisor has not resolved: what waits for it meets PAGE (R241, R330, R364, R376). -/
def State.unresolved (s : State) (r : Report) : State :=
  match s.parkedAt r.id with
  | some (t, w, m, p) =>
    let (id, s) := s.passOn r
    s.updAny t.id w.idx fun w => w.repark r.id 0 {} [(m, { p with report := id })]
  | none =>
    let fail := fun (x : Command) => if x.page = some r.id then { x with page := none, fault := some (.page, r.addr) } else x
    let s := { s with
      cores := s.cores.map fun (c : Core) => { c with queues := c.queues.map fun (q : Queue) => { q with cmds := q.cmds.map fail } }
      saved := s.saved.map fun (t : Team) => { t with held := t.held.map fun (q, x) => (q, fail x) }
      sumpWrites := s.sumpWrites.map fun (x : SumpWrite) =>
        if x.blocked = some r.id then { x with blocked := none, fault := some (.page, r.addr) } else x }
    (s.insts.filter fun b => (b.pageWait.map (·.2)) == some r.id).foldl (fun s b => s.failInst b (.page, r.addr)) s

/-- A missing page that the supervisor has resolved: what waits for it tries again (R182, R241, R330, R376). -/
def State.resolved (s : State) (id : Nat) : State :=
  let s := s.disposeTo id false
  let retry := fun (x : Command) => if x.page = some id then { x with page := none } else x
  { s with
    cores := s.cores.map fun (c : Core) => { c with queues := c.queues.map fun (q : Queue) => { q with cmds := q.cmds.map retry } }
    saved := s.saved.map fun (t : Team) => { t with held := t.held.map fun (q, x) => (q, retry x) }
    insts := s.insts.map fun (b : BInst) => if (b.pageWait.map (·.2)) = some id then { b with pageWait := none } else b }

/-- PRESOLVE (R376): the supervisor has written DISP into the record and names it. A record that is not a PAGE for the supervisor, or
is not the partition's, does nothing. -/
def State.resolveReport (s : State) (part : Nat) (index : Word) : State :=
  match s.reports.find? fun r => r.ring == some part && r.index == some index && r.flg.getLsbD 3 && r.code == 5 with
  | none => s
  | some r =>
    let p := s.part part
    let slot := p.prbase.toNat + 64 * (index.toNat % 2 ^ p.prsize.toNat)
    let gone := { s with reports := s.reports.filter fun x => x.id != r.id }
    if fieldLE (s.peek (slot + 38) 1) 0 1 = 0 then gone.resolved r.id else gone.unresolved r

end Sys2Proof.Machine
end

