-- ==== Sys2Proof/Machine/Endings.lean ====
section
/-!
DEFINITION. Ends: of a team (R209, R282), of a launch (R164), of a launch that a fault ends (R371), what a handler launch leaves
(R369, R370), the queue timers (R390) and the reset of a partition (R391, R392, R476). TEAM_END.
-/

namespace Sys2Proof.Machine

/-- The fault code with a number; ILLEGAL for a number that names none. -/
def faultOf (n : Nat) : FaultCode :=
  ([.illegal, .priv, .align, .bounds, .page, .prot, .bundleEscape, .bundleTooBig, .accState, .gangGone, .lineLost, .remoteTimeout,
    .remoteRefused, .noHandler, .version, .dualMismatch, .watchdog, .eccUncorr, .trap] : List FaultCode).getD (n - 1) .illegal

/-! ## Queue timers (R390) -/

/-- The oldest launch of a queue with a running team, on a core or saved. -/
def State.oldestRunning (s : State) (part q : Nat) : Option Launch :=
  s.launches.find? fun l => l.part == part && l.queue == q &&
    (s.teams ++ s.saved).any fun t => t.launch == some l.id && !t.gone

/-- Arm a queue's timer for its oldest launch with a running team, or stop it when there is none (R390). -/
def State.armTimer (s : State) (part q : Nat) : State :=
  let v := (s.oldestRunning part q).map fun l => (l.id, s.time, l.region.wdog)
  s.updPart part fun p => { p with timers := p.timers.set q v }

/-- The timer of a queue stops when no launch of the queue has a running team (R390). -/
def State.stopTimer (s : State) (part q : Nat) : State :=
  if (s.oldestRunning part q).isSome then s else s.updPart part fun p => { p with timers := p.timers.set q none }

/-! ## The end of a team -/

/-- Whether a wave stands at a run boundary, or at a compare point that its DUAL team cannot pass any more (R371, R394). -/
def Team.waveStopped (t : Team) (w : Wave) : Bool :=
  match w.run with
  | none => true
  | some r => match t.dual, r.words[r.idx]? with
    | some d, some i => d.atCompare w i
    | _, _ => false

/-- Whether every access of a team's waves and commands has been performed (R282). -/
def State.teamPerformed (s : State) (t : Team) : Bool :=
  !(s.posted.any fun p => p.team == t.id) && !(s.rmws.any fun m => m.team == t.id) &&
  !(s.sumpWrites.any fun x => x.team == t.id && !x.written && x.blocked.isNone)

/-- Whether a team has a command in its core's queues. -/
def State.hasCommands (s : State) (t : Team) : Bool :=
  !t.held.isEmpty || ((s.core? t.core).map fun c => c.queues.any fun q => q.cmds.any fun x => x.team == t.id).getD false

/-- Whether a team's core is in the midst of a matrix step of it, which completes (R371). -/
def State.inStep (s : State) (t : Team) : Bool :=
  (s.core? t.core).any fun c => c.queues.any fun q => q.cmds.any fun x => x.team == t.id && x.stepping

/-- Whether a team has ended: every wave has exited and every command that it issued has completed (R209). -/
def State.teamDone (s : State) (t : Team) : Bool :=
  !t.isSup && !t.gone && !(s.saved.any fun u => u.id == t.id) && s.teamPerformed t &&
  if t.ending then t.waves.all t.waveStopped && !s.inStep t else t.waves.all (fun w => w.exited && w.run.isNone && w.priv != .trap && w.ghosts.isEmpty) && !s.hasCommands t

/-- An EPI that is stopped leaves its ring without an epilogue, the slot that it drains being Complete again (R371). -/
def State.stopEpi (s : State) (id : Nat) : State :=
  { s with rings := s.rings.map fun (r : Ring) => if (r.epi.bind (·.cmd)) = some id then
      { r with epi := none, slots := r.slots.map fun (x : Slot) => if x.st = .draining then { x with st := .complete } else x } else r }

/-- The commands of a team that is being ended: a running one counts as completed with the status, the others are discarded
(R371). -/
def State.dropCommands (s : State) (t : Team) (status : Nat) : State :=
  (List.range 9).foldl (fun s q =>
    let s := match s.headCmd t.core q with
      | some c => if c.team = t.id ∧ c.started then (s.stopEpi c.id).endCommand t.core q status else s
      | none => s
    s.updQueue t.core q fun x => { x with cmds := x.cmds.filter fun c => c.team != t.id }) s

/-- A team gives up its bundle entries, queued requests and invocations (R209, R245, R435). -/
def State.releaseTeam (s : State) (t : Team) : State :=
  let s := s.releaseHolder (.team t.id) fun _ => true
  { s with admissions := s.admissions.filter fun (q : Admission) => q.holder != Holder.team t.id,
           invocations := s.invocations.filter fun v => v.team != t.id }

/-- Members of a gang that have ended. -/
def State.goneMembers (s : State) (t : Team) : List Team :=
  s.teams.filter fun u => u.gone && u.launch == t.launch && u.gangBase == t.gangBase

/-- A team leaves its core: outside a gang its scratchpad is freed, in a gang it is kept until the last member has ended (R179,
R209). -/
def State.removeTeam (s : State) (t : Team) : State :=
  let s := s.releaseTeam t
  if t.gangSize < 2 then { s with teams := s.teams.filter fun u => u.id != t.id }
  else
    let s := s.updTeam t.id fun t =>
      { t with gone := true, tags := [], waves := t.waves.map fun w => { w with frontier := [], run := none, loads := [], runahead := none } }
    let gone := s.goneMembers t
    let all := (List.range t.gangSize).all fun k => gone.any fun u => u.logical == t.gangBase + k
    if all then { s with teams := s.teams.filter fun u => !gone.any fun v => v.id == u.id } else s

/-! ## The end of a launch -/

/-- Whether a record of a launch still waits for its domain's handler (R370). -/
def State.reportsWait (s : State) (l : Launch) : Bool :=
  s.reports.any fun r => r.launch == some l.id && r.kind == 0 && !r.flg.getLsbD 3 && (r.index.isNone || s.handlers.contains r.id)

/-- Whether a launch has ended (R164), or, when it is being ended, none of its teams is left (R371). -/
def State.launchDone (s : State) (l : Launch) : Bool :=
  let none_ := !((s.teams ++ s.saved).any fun t => t.launch == some l.id && !t.gone)
  match l.ending with
  | some .watchdog => none_
  | some _ => none_ && !s.reportsWait l
  | none => decide (l.region.gx * l.region.gy ≤ l.ended) && none_ && !s.reportsWait l

/-- Whether a core holds a team of a task region. -/
def State.servesTasks (s : State) (core : Nat) : Bool :=
  s.teams.any fun t => t.core == core && !t.gone && s.inTask t

/-- A launch that has ended leaves: its entries are released, when it was ended its rings too; its queue's timer is armed again
(R164, R245, R246, R371, R390). -/
def State.dropLaunch (s : State) (l : Launch) : State :=
  let s := if l.ending.isSome then (s.rings.filter fun r => r.launch == l.id).foldl (fun s r => s.releaseRing r) s else s
  let s := s.releaseHolder (.launch l.id) fun _ => true
  let s := { s with
    admissions := s.admissions.filter fun (q : Admission) => q.holder != Holder.launch l.id
    teams := s.teams.filter fun (t : Team) => t.launch != some l.id
    launches := s.launches.filter fun x => x.id != l.id
    savedRings := if l.ending.isSome then s.savedRings.filter fun r => r.launch != l.id else s.savedRings
    handlers := s.handlers.filter fun i => !(s.reports.any fun r => r.id == i && r.launch == some l.id)
    reports := s.reports.filter fun r => !(r.launch == some l.id && r.index.isSome) }
  let s := if l.region.task then
      { s with cores := s.cores.map fun (c : Core) => if c.part = some l.part ∧ !s.servesTasks c.id then { c with deque := [], spill := [], probed := [] } else c }
    else s
  s.armTimer l.part l.queue

/-- The end of a reset (R391, steps 2 to 7): counters are 0, L1s and L1 TLBs are invalid, rings, deques and pending triggers are
gone, the cores start again, and the KIND 3 record is written (R392, R405, R411). -/
def State.endReset (s : State) (part : Nat) : State :=
  match (s.part part).resetting with
  | none => s
  | some r =>
    if s.launches.any fun l => l.part == part then s
    else
      let mine := (s.cores.filter fun c => c.part == some part).map (·.id)
      let s := (s.rings.filter fun r => r.part == part).foldl (fun s r => s.releaseRing r) s
      let s := { s with
        cores := s.cores.map fun (c : Core) => if c.part = some part then { Core.fresh (c.id / 100) (c.id % 100) with part := some part } else c
        l1 := s.l1.filter fun c => !mine.contains c.holder
        tlb1 := s.tlb1.filter fun e => !mine.contains e.holder
        savedRings := s.savedRings.filter fun r => r.part != part
        arrivals := s.arrivals.filter fun (a : Arrival) => (s.ring? a.die a.ring).isSome || s.savedRings.any fun r => r.die == a.die && r.num == a.ring && r.part != part
        sumps := s.sumps.map fun (n : SumpNode) => if natLE (s.peek (n.pa + 3) 1) % 16 = part then { n with pending := false } else n }
      let s := s.updPart part fun p => { p with resetting := none, timers := [none, none, none, none] }
      let (id, s) := s.fresh
      let s := s.addReport { Report.blank id (some part) 3 r.code with
        die := dieOf (mine.headD 0), rcb := r.rcb, aux := BitVec.ofNat 32 r.ended }
      r.replies.foldl (fun s (t, w, q) => s.answerLoad t w q 0) s

/-- A launch that has ended and whose source is not a handler's report: it leaves, and its source is told (R164, R371). -/
def State.finishPlain (s : State) (l : Launch) : State :=
  let st := (l.ending.map FaultCode.status).getD 0
  ((s.dropLaunch l).tellEnded l.part l.source st).endReset l.part

/-- A launch is to be ended by a fault (R371): its teams on cores stop at their next run boundary, its saved teams are gone. -/
def State.markEnding (s : State) (id : Nat) (f : FaultCode) : State :=
  match s.launch? id with
  | none => s
  | some l =>
    if l.ending.isSome && f != .watchdog then s
    else
      let s := s.updLaunch id fun l => { l with ending := some f }
      let s := (s.saved.filter fun t => t.launch == some id).foldl (fun s t => s.releaseTeam t) s
      { s with saved := s.saved.filter fun t => t.launch != some id,
               teams := s.teams.map fun t => if t.launch = some id then { t with ending := true } else t }

/-- A launch leaves when it has ended. -/
def State.checkPlain (s : State) (id : Nat) : State :=
  match s.launch? id with
  | some l => if s.launchDone l then s.finishPlain l else s
  | none => s

/-! ## What a handler launch leaves (R369, R370) -/

/-- The DISP byte of a record that has been written (R369). -/
def State.dispOf (s : State) (r : Report) : Nat :=
  match r.ring, r.index with
  | some p, some i =>
    let q := s.part p
    fieldLE (s.peek (q.prbase.toNat + 64 * (i.toNat % 2 ^ q.prsize.toNat) + 38) 1) 0 1
  | _, _ => 2

/-- The disposition of a report when its handler launch has ended: as DISP says, or END when a fault ended the handler (R369, R370).
A report that parked nothing has none. -/
def State.dispose (s : State) (id : Nat) (forced : Bool) : State :=
  match s.reports.find? fun r => r.id == id with
  | none => s
  | some r =>
    let d := if forced then 2 else s.dispOf r
    let parked := (s.parkedAt id).isSome
    let s := { s with reports := s.reports.filter fun x => x.id != id }
    if !parked then s
    else if d ≤ 1 then s.disposeTo id (d == 1)
    else
      match r.launch with
      | some l => (s.markEnding l (faultOf r.code)).checkPlain l
      | none => s

/-- A launch that has ended leaves, its source is told, and a handler launch's disposition is applied (R164, R369, R371). -/
def State.checkLaunch (s : State) (id : Nat) : State :=
  match s.launch? id with
  | none => s
  | some l =>
    if !s.launchDone l then s
    else
      let s := s.finishPlain l
      match l.source with
      | .handler r => s.dispose r l.ending.isSome
      | _ => s

/-- END_LAUNCH: a fault ends a launch (R371). -/
def State.endLaunch (s : State) (id : Nat) (f : FaultCode) : State := (s.markEnding id f).checkLaunch id

/-- A launch of which an instance held by its own entry has failed is ended with the instance's code (R175). -/
def State.endFailed (s : State) : State :=
  (s.insts.filter fun b => b.failure.isSome).foldl (fun s b => b.entries.foldl (fun s h => match h, b.failure with
    | .launch l, some f => s.endLaunch l f.1
    | _, _ => s) s) s

/-! ## The reset of a partition (R391, R392, R405, R476) -/

/-- A partition's reset begins, or joins the one in progress: every launch is to be ended. It ends when the last team has stopped. -/
def State.beginReset (s : State) (part code : Nat) (rcb : DWord) (reply : Option (Nat × Nat × Nat)) : State :=
  let ls := s.launches.filter fun l => l.part == part
  let r : Resetting := match (s.part part).resetting with
    | some r => { r with code := if code = 17 then 17 else r.code, rcb := if code = 17 then rcb else r.rcb,
                         replies := r.replies ++ reply.toList }
    | none => { code := code, rcb := rcb, ended := ls.length, replies := reply.toList }
  let s := s.updPart part fun p => { p with resetting := some r }
  let s := { s with handlers := s.handlers.filter fun i => !(s.reports.any fun r => r.id == i && r.ring == some part) }
  let s := ls.foldl (fun s l => s.markEnding l.id .watchdog) s
  (ls.foldl (fun s l => s.checkPlain l.id) s).endReset part

/-! ## TEAM_END -/

/-- A team ends: its commands are gone, it leaves its core, and its launch counts it; the copy that a DUAL primary has beside it
counts for nothing (R209, R371, R393). -/
def State.endTeam (s : State) (t : Team) : State :=
  let status := (((s.launchOf t).bind (·.ending)).map FaultCode.status).getD 0
  let s := if t.ending then s.dropCommands t status else s
  match s.launchOf t with
  | none => s.removeTeam t
  | some l =>
    let s := s.removeTeam t
    let s := s.updLaunch l.id fun l => { l with ended := if (t.dual.map (·.primary)).getD true then l.ended + 1 else l.ended }
    (s.stopTimer l.part l.queue).checkLaunch l.id

/-- TEAM_END (R209, R371). -/
def execTeamEnd (team : Nat) (s : State) : Host.Outcome State Fault Refusal :=
  match s.team? team with
  | none => .next s
  | some t => .next (if s.teamDone t then s.endTeam t else s)

end Sys2Proof.Machine
end

