-- ==== Sys2Proof/Machine/System.lean ====
section
/-!
DEFINITION. The system instructions TRAP, ERET, WFI, HALT, TLBI, PART and LOSTCLR (R397 to R406), and the interrupts of the supervisor
cores (R407).
-/

namespace Sys2Proof.Machine

/-! ## TRAP, ERET, WFI and HALT -/

/-- TRAP (R374, R400). -/
def execTrap (n : BitVec 10) (s : State) : Host.Outcome State Fault Refusal :=
  issue (.trap n) s fun c => s.raise c { code := .trap, lane := c.lowest.getD 0, aux := zext32 n }

/-- ERET (R375, R386, R401): on a supervisor core the frame at %tfp is checked now and restored at the trailer; in the restore entry of a
compute core the wave's saved state comes back at the trailer. -/
def execEret (s : State) : Host.Outcome State Fault Refusal :=
  waveOp .eret (fun c x s =>
    let go := Except.ok (s.updRun fun r => { r with returns := true })
    if c.team.isSup then (if frameValid (s.frameBytes c.team) then go else .error { code := .illegal, lane := x.l })
    else if c.wave.saving then .error { code := .illegal, lane := x.l }
    else go) s

/-- WFI: from the trailer the core's wave waits for an enabled pending source (R402). -/
def execWfi (s : State) : Host.Outcome State Fault Refusal :=
  waveOp .wfi (fun _ _ s => .ok (s.updRun fun r => r.blockOn .wfi)) s

/-- HALT: the core stops once its accesses have been performed (R403). -/
def execHalt (s : State) : Host.Outcome State Fault Refusal :=
  waveOp .halt (fun _ _ s => .ok (s.updRun fun r => r.blockOn .halt)) s

/-! ## TLBI (R378, R404) -/

/-- The extent of a TLBI: address space (none for all of them), first address and length (none for every address). -/
structure Shot where
  asid : Option Nat
  extent : Option (Nat × Nat)
  deriving DecidableEq, Repr

/-- The extent that a control word and an address name; none for a reserved value (R404). -/
def shotOf (va : DWord) (ctl : Word) : Option Shot :=
  let scope := bitsOf ctl.toNat 30 2
  let size := bitsOf ctl.toNat 28 2
  let asid := bitsOf ctl.toNat 0 12
  if scope = 3 ∨ size = 3 ∨ bitsOf ctl.toNat 12 16 ≠ 0 ∨ (scope = 0 ∧ 2 ^ 56 ≤ va.toNat) then none
  else if scope = 2 then some { asid := none, extent := none }
  else if scope = 1 then some { asid := some asid, extent := none }
  else
    let n := 2 ^ ([16, 21, 30].getD size 16)
    some { asid := some asid, extent := some (va.toNat / n * n, n) }

/-- Whether a shot hits any byte of a range in an address space. -/
def Shot.hits (h : Shot) (asid va n : Nat) : Bool :=
  (match h.asid with | some a => a == asid | none => true) &&
  (match h.extent with | some (b, m) => overlap b m va n | none => true)

/-- An instance with a placed line whose translation is removed becomes Orphaned, and the supervisor is told its frames (R245,
R378). -/
def State.orphan (h : Shot) (s : State) (b : BInst) : State :=
  let asid := s.instAsid b
  if !b.live || !(b.lines.any fun l => l.2.isSome && h.hits asid (l.1 * 64) 64) then s
  else
    let (a, n) := framesOf (s.linesAt b)
    let s := s.frameRecord b.part b.die 1 a n b.handle
    s.releaseInst { b with st := .orphaned }

/-- A ring with a line whose translation is removed keeps its lines, and the supervisor is told its frames (R378). -/
def State.holdRing (h : Shot) (s : State) (r : Ring) : State :=
  let asid := ((s.launch? r.launch).map (·.asid)).getD (bitsOf (s.part r.part).pasid.toNat 0 12)
  if r.frameHeld || !h.hits asid r.base.toNat (8192 * r.slots.length) then s
  else
    let (a, n) := framesOf r.pas
    (s.updRing r fun r => { r with frameHeld := true }).frameRecord r.part r.die 1 a n (BitVec.ofNat 32 r.num)

/-- Whether a load's item has been translated and not performed. -/
def LoadItem.translated (i : LoadItem) : Bool :=
  match i.src with
  | .memory _ _ _ | .remote _ _ _ _ => true
  | _ => false

/-- The commands of a team, in its core's queues or saved with it. -/
def State.teamCommands (s : State) (t : Team) : List Command :=
  t.held.map (·.2) ++ (s.cores.flatMap fun c => c.queues.flatMap fun q => q.cmds.filter fun x => x.team == t.id)

/-- Accesses that have been translated through what a shot removes and have not been performed (R378): posted writes and what a DUAL copy's
buffer holds, read-modify-writes, lane loads and record loads, and the reads that engine commands have sent to other devices. What a saved
team's loads had translated is dropped with them (R383). -/
def State.translated (s : State) (h : Shot) : List Nat :=
  let ts := s.teams ++ s.saved
  let asidOf := fun (team : Nat) => ((ts.find? fun t => t.id == team).map s.asidOf).getD 0
  (s.posted.filter fun p => h.hits (asidOf p.team) p.va.toNat p.bytes.length).map (·.id) ++
  (s.rmws.filter fun m => h.hits (asidOf m.team) m.va.toNat (Fmt.size m.fmt)).map (·.id) ++
  ts.flatMap fun t =>
    (((t.dual.map (·.stream)).getD []).filter fun x => h.hits (s.asidOf t) x.va.toNat x.bytes.length).map (·.id) ++
    ((s.teamCommands t).flatMap fun c => if h.hits (s.asidOf t) 0 (2 ^ 56) then (c.fetches.filter fun f => f.data.isNone).map (·.id) else []) ++
    t.waves.flatMap fun w =>
      ((w.loads.filter fun l => l.items.any fun i => i.translated && h.hits (s.asidOf t) i.va.toNat 8).map (·.seq)) ++
      (w.recLoads.filter fun r => !r.reissue && h.hits (s.asidOf t) r.va.toNat 32).map (·.seq)

/-- The translations that a TLBI names are removed (R378, R404). -/
def State.shoot (s : State) (h : Shot) : State :=
  let keep := fun e : TlbEntry => !h.hits e.asid e.va (2 ^ e.log)
  let s := { s with tlb1 := s.tlb1.filter keep, tlb2 := s.tlb2.filter keep }
  let s := s.insts.foldl (State.orphan h) s
  s.rings.foldl (State.holdRing h) s

/-- Whether the translated accesses of a list have been performed: stores left a DUAL buffer too, and loads returned, wherever they were
issued (R378). -/
def State.accessesGone (s : State) (ids : List Nat) : Bool :=
  s.performed ids && (s.teams ++ s.saved).all fun t =>
    !(((t.dual.map (·.stream)).getD []).any fun x => ids.contains x.id) &&
    !((s.teamCommands t).any fun c => c.fetches.any fun f => f.data.isNone && ids.contains f.id) &&
    t.waves.all fun w => !(w.loads.any fun l => ids.contains l.seq && l.items.any LoadItem.translated) &&
      !(w.recLoads.any fun r => !r.reissue && ids.contains r.seq)

/-- TLBI (R404): the entry is Blocked from the trailer. It acts as a FENCE.dev of its wave first, then removes the translations, then waits for
what they have served (R378). -/
def execTlbi (a b : Reg) (s : State) : Host.Outcome State Fault Refusal :=
  waveOp (.tlbi a b) (fun c x s =>
    match shotOf (x.pair a) (x.reg b) with
    | none => .error { code := .illegal, lane := x.l }
    | some _ =>
      let (seq, s) := s.fresh
      let wait := BlockWhy.tlbi [] (x.pair a) (x.reg b) false
      .ok (if s.fenceHolds c.team.id c.wave seq 2 then
          s.updRun fun r => { r with blocks := r.blocks ++ [.fence seq 2 (s.fencePending c.team.id c.wave seq), wait] }
        else (s.completeFence c.team c.wave seq 2).updRun fun r => r.blockOn wait)) s

/-! ## PART (R405) -/

/-- Core n of the 384, by the identity of R21. -/
def coreNumber (n : Nat) : Nat := n / 96 * 100 + n % 96

/-- Whether a core holds a team. -/
def State.holdsTeam (s : State) (core : Nat) : Bool := s.teams.any fun t => t.core == core

/-- PART, with the operation that B names (R405). -/
def partOp (i : Instr) (d a b : Reg) (s : State) : Host.Outcome State Fault Refusal :=
  memWaveOp i (fun c x s =>
    let w := (x.reg b).toNat
    let p := bitsOf w 0 4
    let n := (lo32 (x.pair a)).toNat
    let bad := (s, Except.error (FaultCode.illegal, (none : Option Nat), (0 : Word)))
    if bitsOf w 4 24 ≠ 0 then bad
    else
      match bitsOf w 28 4 with
      | 0 =>
        let (id, s) := s.fresh
        let (seq, s) := s.addLoad c (c.phys d) false (fun _ => .launchReply id) none
        let o : Offer := { id := id, part := p, template := x.pair a, source := .supervisor c.team.id seq,
                           after := s.wavePending c.team.id c.wave, args := none, prio := none }
        ({ s with offers := s.offers ++ [o] }, .ok ())
      | 1 =>
        if 384 ≤ n then bad
        else
          match s.core? (coreNumber n) with
          | none => bad
          | some k =>
            if k.part.isSome then (s.statusLoad c d 1, .ok ())
            else ((s.updCore k.id fun k => { k with part := some p }).statusLoad c d 0, .ok ())
      | 2 =>
        if 384 ≤ n then bad
        else
          match s.core? (coreNumber n) with
          | none => bad
          | some k =>
            if k.part ≠ some p then (s.statusLoad c d 3, .ok ())
            else if s.holdsTeam k.id then (s.statusLoad c d 1, .ok ())
            else ((s.updCore k.id fun k => { k with part := none }).statusLoad c d 0, .ok ())
      | 3 =>
        let (seq, s) := s.addLoad c (c.phys d) false (fun _ => .launchReply 0) none
        (s.beginReset p 0 0 (some (c.team.id, c.wave.idx, seq)), .ok ())
      | _ => bad) s

/-- PART ENQ (R405). -/
def execPartEnq (d a b : Reg) (s : State) : Host.Outcome State Fault Refusal := partOp (.partEnq d a b) d a b s

/-- PART ADD: one word with PART ENQ, B selecting the operation (R405). -/
def execPartAdd (d a b : Reg) (s : State) : Host.Outcome State Fault Refusal := partOp (.partAdd d a b) d a b s

/-- PART REMOVE (R405). -/
def execPartRemove (d a b : Reg) (s : State) : Host.Outcome State Fault Refusal := partOp (.partRemove d a b) d a b s

/-- PART RESET (R405). -/
def execPartReset (d a b : Reg) (s : State) : Host.Outcome State Fault Refusal := partOp (.partReset d a b) d a b s

/-! ## LOSTCLR (R406) -/

/-- LOSTCLR: a LOST line is written as zero, which clears its mark; D receives 0 once the write is performed. -/
def execLostclr (d a : Reg) (s : State) : Host.Outcome State Fault Refusal :=
  memWaveOp (.lostclr d a) (fun c x s =>
    let pa := (x.pair a).toNat
    let stop := fun f : FaultCode => (s, Except.error (f, some pa, (0 : Word)))
    if 2 ^ 43 ≤ pa then stop .illegal
    else if pa % 64 ≠ 0 then stop .align
    else if s.inWindow pa then stop .accState
    else if !inHbm pa then stop .prot
    else if !s.lost.contains pa then (s.statusLoad c d 1, .ok ())
    else
      let id := s.nextId
      let s := s.post c.team c.wave.idx (s.ownDev * 2 ^ 43 + pa) (List.replicate 64 (some 0)) (x.pair a) false false
      ((s.addLoad c (c.phys d) false (fun _ => .performed [id] 0) none).2, .ok ())) s

/-! ## Interrupts (R407) -/

/-- TIMER: the source is latched while %time has reached %stcmp (R407). -/
def execTimer (sup : Nat) (s : State) : Host.Outcome State Fault Refusal :=
  .next (if sup < 16 ∧ (s.sup sup).stcmp.toNat ≤ s.time then s.latchSip sup 0 else s)

/-- The lowest enabled pending source (R407). -/
def Sup.lowest (u : Sup) : Nat := ((List.range 5).find? fun i => (u.sip &&& u.sie).getLsbD i).getD 0

/-- A supervisor core takes its pending interrupt between runs: a trap with CAUSE 0, whose return address is the run that would have
started next (R374, R407). -/
def State.interrupt (s : State) (sup : Nat) : State :=
  let u := s.sup sup
  match s.team? sup, s.wave? sup 0 with
  | some t, some w =>
    if !t.isSup || u.halted || !u.interrupts || w.run.isSome then s
    else
      match w.select none with
      | none => s
      | some e => s.trapEntry t e.mask 0 e.pc 0 (BitVec.ofNat 32 u.lowest)
  | _, _ => s

/-- INTERRUPT (R407). -/
def execInterrupt (sup : Nat) (s : State) : Host.Outcome State Fault Refusal :=
  .next (match s.team? sup, s.wave? sup 0 with
    | some t, some w => if w.run.isNone then (s.tryWake t).interrupt sup else s
    | _, _ => s)

/-! ## Errors (R395, R396) -/

/-- An uncorrectable error of a line. In a line of a ring's slot it sets the slot's error bit with the line's address, the first code of the use
staying, and the supervisor is told at once (R250); elsewhere a reader meets it (R396). -/
def State.lineError (s : State) (pa : Nat) : State :=
  match s.ringAt pa with
  | none => { s with ecc := unionIds s.ecc [lineOf pa] }
  | some (r, j, off) =>
    let (id, s) := s.fresh
    let va := r.slotBase j + BitVec.ofNat 64 (lineOf off)
    let s := s.addReport { Report.blank id none 0 FaultCode.eccUncorr.num with
      flg := reportFlg false true false false true, die := r.die, addr := BitVec.ofNat 64 (lineOf pa),
      rcb := ((s.launch? r.launch).map fun l => l.region.block).getD 0, aux := BitVec.ofNat 32 r.num }
    s.updSlot r j fun x => { x with err := some (x.err.getD (.eccUncorr, va)) }

/-- An uncorrectable error found on a die (R396, log entry 94). -/
def State.foundError (die : Nat) (s : State) : ErrorSite → State
  | .line pa => if homeDie pa = die ∧ (inHbm pa ∨ s.inWindow pa) then s.lineError pa else s
  | .vault core v => if dieOf core = die then s.updVault core v fun x => { x with bad := true } else s
  | .register team wave lane reg =>
    if (s.team? team).any fun t => dieOf t.core == die then
      s.updWave team wave fun w => { w with lanes := w.lanes.modify lane fun l => { l with badRegs := unionIds l.badRegs [reg] } }
    else s
  | .spad team off =>
    if (s.team? team).any fun t => dieOf t.core == die then s.updTeam team fun t => { t with spadBad := unionIds t.spadBad [off] } else s

/-- The summary of a die's corrected errors, once a second in which it has counted any. How many it has met since the last record is for the
outside world: a free value (R395, log entry 24). -/
def State.errorSummary (s : State) (die : Nat) : State :=
  match s.corrected[die]? with
  | none => s
  | some (n, since) =>
    if s.time < since + 1000000000 then s
    else
      let (v, s) := s.free
      let count := n + v.toNat
      if count = 0 then s
      else
        let s := { s with corrected := s.corrected.set die (0, s.time) }
        let (id, s) := s.fresh
        s.addReport { Report.blank id none 4 0 with die := die, aux2 := BitVec.ofNat 64 count }

/-- CORRECTED_ERROR_SUMMARY (R395, R396): the die meets the uncorrectable errors that the outside world brings, and writes the summary of its
corrected ones when that is due. -/
def execCorrectedErrorSummary (errors : DieErrors) (s : State) : Host.Outcome State Fault Refusal :=
  .next ((errors.found.foldl (State.foundError errors.die) s).errorSummary errors.die)

end Sys2Proof.Machine
end

