-- ==== Sys2Proof/Machine/SupRegs.lean ====
section
/-!
DEFINITION. The special registers: GETS and SETS (R21 to R24, R94 to R96), the supervisor registers of R408, R465, R466 and R474 with
the effects of writing them, and the device's register-write steps.
-/

namespace Sys2Proof.Machine

/-! ## Reading a supervisor register (R408, R465, R474) -/

/-- The word of the scope table that %scsel selects. -/
def scopeIndex (scsel : Word) : Nat := 8 * (bitsOf scsel.toNat 0 3 - 1) + bitsOf scsel.toNat 3 3

/-- %shalt: the halted supervisor cores, and above them the number of halted compute cores (R408). -/
def State.shalt (s : State) : Word :=
  let m := (List.range 16).foldl (fun m i => if (s.sup i).halted then m + 2 ^ i else m) 0
  BitVec.ofNat 32 (m + 65536 * s.cores.countP (·.halted))

/-- The value that supervisor core `i` reads from a register. -/
def State.getSup (s : State) (i num : Nat) : DWord :=
  let u := s.sup i
  let p := s.part (bitsOf u.psel.toNat 0 4)
  match num with
  | 0x200 => zext64 u.tvec
  | 0x201 => u.tfp
  | 0x202 => u.tlim
  | 0x203 => zext64 u.twb
  | 0x204 => zext64 u.sie
  | 0x205 => zext64 u.sip
  | 0x206 => u.stcmp
  | 0x208 => zext64 s.shalt
  | 0x210 => zext64 u.psel
  | 0x211 => zext64 p.pasid
  | 0x212 => p.prbase
  | 0x213 => zext64 p.prsize
  | 0x214 => zext64 p.prhead
  | 0x215 => zext64 p.prtail
  | 0x216 => zext64 p.prdrop
  | 0x218 => zext64 p.paging
  | 0x219 => zext64 p.pbarlim
  | 0x21A => zext64 p.prefuse
  | 0x21B => zext64 p.pibc
  | 0x21C => zext64 (p.pbud.getD 0 0)
  | 0x21D => zext64 (p.pbud.getD 1 0)
  | 0x21E => zext64 (p.pbud.getD 2 0)
  | 0x21F => zext64 (p.pbud.getD 3 0)
  | 0x220 => zext64 p.psave
  | 0x221 => zext64 p.prest
  | 0x222 => zext64 p.pdone
  | 0x223 => BitVec.ofNat 64 (s.cores.countP fun c => c.part == some (bitsOf u.psel.toNat 0 4))
  | 0x224 => s.drbase
  | 0x225 => zext64 s.drsize
  | 0x226 => zext64 s.drhead
  | 0x227 => zext64 s.drtail
  | 0x228 => zext64 s.drdrop
  | 0x230 => s.asidt
  | 0x231 => zext64 u.scsel
  | 0x232 => s.scopes.getD (scopeIndex u.scsel) 0
  | 0x233 => zext64 (s.carves.getD s.carveDie 0)
  | 0x240 => p.ptbase
  | 0x241 => zext64 p.ptsize
  | 0x242 => zext64 p.pthead
  | 0x243 => zext64 p.pttail
  | 0x244 => zext64 p.ptdrop
  | 0x245 => zext64 s.ptpst
  | 0x246 => s.ptoff
  | 0x247 => zext64 s.bootsrv
  | 0x248 => zext64 s.hostpw
  | 0x24A => zext64 s.atstat
  | 0x24B => zext64 s.devnum
  | 0x250 => s.nrbase
  | 0x251 => zext64 s.nrsize
  | 0x252 => zext64 s.nrhead
  | 0x253 => zext64 s.nrtail
  | 0x254 => zext64 s.nrdrop
  | 0x255 => s.ntbase
  | 0x256 => zext64 s.ntsize
  | 0x257 => zext64 s.nthead
  | 0x258 => zext64 s.nttail
  | _ => 0

/-! ## Writing a supervisor register -/

/-- %scwake: a halted supervisor core restarts at the entry with supervisor privilege; nothing happens to a running one (R408). Its lanes
keep their registers; its frontier, loop stack and window base are those of a kernel's entry (log entry 30). -/
def State.wakeCore (s : State) (i : Nat) (entry : Word) : State :=
  if !(s.sup i).halted then s
  else
    (s.updSup i fun u => { u with halted := false }).updWave i 0 fun w =>
      { w with frontier := [{ pc := entry, mask := 1, st := .runnable, age := 0, land := .here }], loops := [], winb := 0, run := none,
               sel := none, skip := none, priv := .supervisor }

/-- %sdbell: DOORBELL is latched in the named supervisor cores other than the writer (R407, R408). -/
def State.ring (s : State) (i : Nat) (m : Word) : State :=
  (List.range 16).foldl (fun s j => if m.getLsbD j ∧ j ≠ i then s.latchSip j 2 else s) s

/-- The scope table after %devnum has changed: a level that still holds only the device's own bit goes on doing so (R474). -/
def scopesFor (old new : Word) (t : List DWord) : List DWord :=
  (List.range 40).map fun j =>
    let level := fun (l : List DWord) => (l.drop (j / 8 * 8)).take 8
    if level t = level (scopesReset old) then (scopesReset new).getD j 0 else t.getD j 0

/-- Whether %devnum may be written: no link is trained and no partition holds a compute core (R466). -/
def State.devnumFree (s : State) : Bool := s.links.all (fun l => !l.up) && s.cores.all fun c => c.part.isNone

/-- Whether a die holds a bundle instance or a ring (R408). -/
def State.carveBusy (s : State) (die : Nat) : Bool := s.insts.any (fun b => b.die == die) || s.rings.any fun r => r.die == die

/-- A write of supervisor core `i` to a register: none when the value is ILLEGAL, which leaves the register unchanged (R96, R408,
R454, R464 to R466, R474). -/
def State.setSup (s : State) (i num : Nat) (v : DWord) : Option State :=
  let w := lo32 v
  let n := w.toNat
  let pn := bitsOf (s.sup i).psel.toNat 0 4
  let p := s.part pn
  let when_ := fun (ok : Bool) (t : State) => if ok then some t else none
  match num with
  | 0x200 => some (s.updSup i fun u => { u with tvec := w })
  | 0x201 => when_ (v.toNat % 128 == 0) (s.updSup i fun u => { u with tfp := v })
  | 0x202 => some (s.updSup i fun u => { u with tlim := v })
  | 0x203 => when_ (decide (n < 512) && n % 8 == 0) (s.updSup i fun u => { u with twb := w })
  | 0x204 => when_ (bitsOf n 5 26 == 0) (s.updSup i fun u => { u with sie := w })
  | 0x205 => when_ (decide (n < 32)) (s.updSup i fun u => { u with sip := u.sip &&& ~~~w })
  | 0x206 => some (s.updSup i fun u => { u with stcmp := v })
  | 0x207 => when_ (bitsOf v.toNat 36 28 == 0) (s.wakeCore (bitsOf v.toNat 32 4) (lo32 v))
  | 0x209 => when_ (decide (n < 65536)) (s.ring i w)
  | 0x210 => when_ (decide (n < 16)) (s.updSup i fun u => { u with psel := w })
  | 0x211 => when_ (decide (n < 4096)) (s.updPart pn fun p => { p with pasid := w })
  | 0x212 => when_ (v.toNat % (64 * 2 ^ p.prsize.toNat) == 0) (s.updPart pn fun p => { p with prbase := v })
  | 0x213 => when_ (decide (6 ≤ n ∧ n ≤ 16)) (s.updPart pn fun p => { p with prsize := w })
  | 0x214 => some (s.updPart pn fun p => { p with prhead := w })
  | 0x216 => some (s.updPart pn fun p => { p with prdrop := w })
  | 0x217 => some (s.resolveReport pn w).endFailed
  | 0x218 => when_ (decide (n ≤ 1000000)) (s.updPart pn fun p => { p with paging := w })
  | 0x219 => when_ (decide (500 ≤ n ∧ n ≤ 6000)) (s.updPart pn fun p => { p with pbarlim := w })
  | 0x21A => some (s.updPart pn fun p => { p with prefuse := w })
  | 0x21B => some (s.updPart pn fun p => { p with pibc := w })
  | 0x21C => when_ (decide (n ≤ 1048576)) (s.updPart pn fun p => { p with pbud := p.pbud.set 0 w })
  | 0x21D => when_ (decide (n ≤ 1048576)) (s.updPart pn fun p => { p with pbud := p.pbud.set 1 w })
  | 0x21E => when_ (decide (n ≤ 1048576)) (s.updPart pn fun p => { p with pbud := p.pbud.set 2 w })
  | 0x21F => when_ (decide (n ≤ 1048576)) (s.updPart pn fun p => { p with pbud := p.pbud.set 3 w })
  | 0x220 => some (s.updPart pn fun p => { p with psave := w })
  | 0x221 => some (s.updPart pn fun p => { p with prest := w })
  | 0x222 => some (s.updPart pn fun p => { p with pdone := w })
  | 0x224 => when_ (v.toNat % (64 * 2 ^ s.drsize.toNat) == 0) { s with drbase := v }
  | 0x225 => when_ (decide (6 ≤ n ∧ n ≤ 16)) { s with drsize := w }
  | 0x226 => some { s with drhead := w }
  | 0x228 => some { s with drdrop := w }
  | 0x230 => when_ (v.toNat % 32768 == 0) { s with asidt := v }
  | 0x231 => when_ (decide (n < 64) && decide (1 ≤ n % 8 ∧ n % 8 ≤ 5)) (s.updSup i fun u => { u with scsel := w })
  | 0x232 => some { s with scopes := s.scopes.set (scopeIndex (s.sup i).scsel) v }
  | 0x233 =>
    let die := bitsOf n 28 2
    when_ (bitsOf n 30 2 == 0 && bitsOf n 13 15 == 0 && bitsOf n 4 4 == 0 && decide (bitsOf n 8 5 ≤ 16 ∧ bitsOf n 0 4 ≤ 8) &&
        !s.carveBusy die)
      { s with carves := s.carves.set die w, carveDie := die }
  | 0x240 => when_ (v.toNat % (32 * 2 ^ bitsOf p.ptsize.toNat 0 5) == 0)
      (s.updPart pn fun p => { p with ptbase := v, pthead := 0, pttail := 0 })
  | 0x241 => when_ (decide (n < 512) && bitsOf n 5 3 == 0 && decide (6 ≤ n % 32 ∧ n % 32 ≤ 20))
      (s.updPart pn fun p => { p with ptsize := w, pthead := 0, pttail := 0 })
  | 0x244 => some (s.updPart pn fun p => { p with ptdrop := w })
  | 0x248 => some { s with hostpw := w }
  | 0x249 => some (if s.atstat = 1 then s else { s with atblk := v, atstat := 1 })
  | 0x24B => when_ (decide (n < 512) && s.devnumFree) { s with devnum := w, scopes := scopesFor s.devnum w s.scopes }
  | 0x250 => when_ (v.toNat % (2048 * 2 ^ bitsOf s.nrsize.toNat 0 4) == 0) { s with nrbase := v, nrhead := 0, nrtail := 0 }
  | 0x251 => when_ (bitsOf n 4 12 == 0 && decide (4 ≤ n % 16 ∧ n % 16 ≤ 12)) { s with nrsize := w, nrhead := 0, nrtail := 0 }
  | 0x252 => some { s with nrhead := w }
  | 0x254 => some { s with nrdrop := w }
  | 0x255 => when_ (v.toNat % (2048 * 2 ^ bitsOf s.ntsize.toNat 0 4) == 0) { s with ntbase := v, nthead := 0, nttail := 0 }
  | 0x256 => when_ (decide (4 ≤ n ∧ n ≤ 12)) { s with ntsize := w, nthead := 0, nttail := 0 }
  | 0x258 => when_ (decide ((w - s.nthead).toNat ≤ 2 ^ bitsOf s.ntsize.toNat 0 4 ∧ (s.nttail - s.nthead).toNat ≤ (w - s.nthead).toNat))
      { s with nttail := w }
  | _ => none

/-! ## GETS and SETS -/

/-- What a lane reads from a special register in the instruction's first issue cycle (R21, R94, R95); 0 from a write-only one (R10). -/
def State.getSpecial (s : State) (c : Issue) (x : LaneCtx) (num : Nat) : DWord :=
  match num with
  | 0x001 => BitVec.ofNat 64 c.run.winb
  | 0x002 => zext64 (x.lane.flagsAt c.run.cycle)
  | 0x003 => zext64 (c.wave.rmodeAt c.run.cycle)
  | 0x004 => x.lane.seedAt c.run.cycle
  | 0x010 => BitVec.ofNat 64 x.l
  | 0x011 => BitVec.ofNat 64 c.wave.idx
  | 0x012 => zext64 c.team.linear
  | 0x013 => BitVec.ofNat 64 c.wave.width
  | 0x014 => BitVec.ofNat 64 c.wave.nregs
  | 0x015 => BitVec.ofNat 64 (c.team.core % 100)
  | 0x016 => BitVec.ofNat 64 (dieOf c.team.core)
  | 0x017 => BitVec.ofNat 64 s.ownDev
  | 0x018 => BitVec.ofNat 64 c.wave.loops.length
  | 0x020 => BitVec.ofNat 64 s.time
  | 0x207 | 0x209 | 0x217 | 0x249 => 0
  | n => s.getSup c.team.supIdx n

/-- GETS (R95): a pair for a 64-bit register. -/
def execGets (n : Bool) (d : Reg) (i : BitVec 10) (s : State) : Host.Outcome State Fault Refusal :=
  laneOp (.gets n d i) 1 4 (fun c x =>
    let v := s.getSpecial c x i.toNat
    if specialWidth i.toNat = some 2 then
      let o := outPair x d v
      { o with regs := if n then [] else o.regs }
    else outReg x n d (lo32 v)) s

/-- A per-lane write of SETS, in effect 4 cycles after the last issue cycle (R96). -/
def State.setLanes (s : State) (c : Issue) (f : LaneCtx → Nat → Lane → Lane) : State :=
  s.updCur fun w => w.mapActive c.run.mask fun l ln => f (c.ctx 1 l) (c.lastCycle 1 + 4) ln

/-- SETS (R93, R96): %flags and %seed in each active lane, every other register from the lowest one. -/
def execSets (a : Reg) (i : BitVec 10) (s : State) : Host.Outcome State Fault Refusal :=
  waveOp (.sets a i) (fun c x s =>
    let bad := Except.error ({ code := .illegal, lane := x.l } : FaultInfo)
    match i.toNat with
    | 0x001 => if (x.reg a).toNat < 512 ∧ (x.reg a).toNat % 8 = 0 then winbAct c x.l (x.reg a).toNat s else bad
    | 0x002 =>
      match c.lanes.find? fun l => decide (64 ≤ ((c.ctx 1 l).reg a).toNat) with
      | some l => .error { code := .illegal, lane := l }
      | none => .ok (s.setLanes c fun x due ln => { ln with pend := ln.pend ++ [{ due := due, dst := .setFlags, val := x.reg a : PendWrite }] })
    | 0x003 =>
      if 4 < (x.reg a).toNat then bad
      else .ok (s.updCur fun w => { w with rmodePend := w.rmodePend ++ [(c.lastCycle 1 + 4, x.reg a)] })
    | 0x004 => .ok (s.setLanes c fun x due ln => { ln with seedPend := ln.seedPend ++ [(due, x.pair a)] })
    | n =>
      match s.setSup c.team.supIdx n (if specialWidth n = some 2 then x.pair a else zext64 (x.reg a)) with
      | some s => .ok s
      | none => bad) s

/-! ## Register-write steps of the device -/

/-- A supervisor core's write to a register, as a step of its own; an ILLEGAL value changes nothing. -/
def supWrite (num sup : Nat) (v : DWord) (s : State) : Host.Outcome State Fault Refusal :=
  .next (if sup < 16 then (s.setSup sup num v).getD s else s)

/-- SIP (R407, R408): writing 1 to a pending bit clears it. -/
def execSip (sup : Nat) (v : Word) (s : State) : Host.Outcome State Fault Refusal := supWrite 0x205 sup (zext64 v) s

/-- PRESOLVE (R376). -/
def execPresolve (sup : Nat) (v : Word) (s : State) : Host.Outcome State Fault Refusal := supWrite 0x217 sup (zext64 v) s

/-- SCWAKE (R408, R453). -/
def execScwake (sup : Nat) (v : DWord) (s : State) : Host.Outcome State Fault Refusal := supWrite 0x207 sup v s

/-- SDBELL (R407, R408). -/
def execSdbell (sup : Nat) (v : Word) (s : State) : Host.Outcome State Fault Refusal := supWrite 0x209 sup (zext64 v) s

/-- ATBLK (R454): a write starts a quote unless one is being made. -/
def execAtblk (sup : Nat) (v : DWord) (s : State) : Host.Outcome State Fault Refusal := supWrite 0x249 sup v s

/-- CARVE (R408). -/
def execCarve (sup : Nat) (v : Word) (s : State) : Host.Outcome State Fault Refusal := supWrite 0x233 sup (zext64 v) s

/-- DEVNUM (R466). -/
def execDevnum (sup : Nat) (v : Word) (s : State) : Host.Outcome State Fault Refusal := supWrite 0x24B sup (zext64 v) s

/-- PRHEAD (R372, R408, R409): the records before the new head are consumed. -/
def execPrhead (sup : Nat) (v : Word) (s : State) : Host.Outcome State Fault Refusal := supWrite 0x214 sup (zext64 v) s

/-- DRHEAD (R373, R408). -/
def execDrhead (sup : Nat) (v : Word) (s : State) : Host.Outcome State Fault Refusal := supWrite 0x226 sup (zext64 v) s

/-- PTBASE (R459, R465): the trace ring's head and tail become 0. -/
def execPtbase (sup : Nat) (v : DWord) (s : State) : Host.Outcome State Fault Refusal := supWrite 0x240 sup v s

/-- PTSIZE (R459, R465). -/
def execPtsize (sup : Nat) (v : Word) (s : State) : Host.Outcome State Fault Refusal := supWrite 0x241 sup (zext64 v) s

/-- NRBASE (R464, R465). -/
def execNrbase (sup : Nat) (v : DWord) (s : State) : Host.Outcome State Fault Refusal := supWrite 0x250 sup v s

/-- NRSIZE (R464, R465). -/
def execNrsize (sup : Nat) (v : Word) (s : State) : Host.Outcome State Fault Refusal := supWrite 0x251 sup (zext64 v) s

/-- NRHEAD (R463). -/
def execNrhead (sup : Nat) (v : Word) (s : State) : Host.Outcome State Fault Refusal := supWrite 0x252 sup (zext64 v) s

/-- NTBASE (R464). -/
def execNtbase (sup : Nat) (v : DWord) (s : State) : Host.Outcome State Fault Refusal := supWrite 0x255 sup v s

/-- NTSIZE (R464). -/
def execNtsize (sup : Nat) (v : Word) (s : State) : Host.Outcome State Fault Refusal := supWrite 0x256 sup (zext64 v) s

/-- NTTAIL (R464). -/
def execNttail (sup : Nat) (v : Word) (s : State) : Host.Outcome State Fault Refusal := supWrite 0x258 sup (zext64 v) s

end Sys2Proof.Machine
end

