-- ==== Sys2Proof/Machine/Accept.lean ====
section
/-!
DEFINITION. Acceptance of a launch: the template (R165, R166), the region control blocks and their chain (R168, R169, R385), the bundles
it names (R169, R235), the gang check (R179), and the launch queue that takes it (R161, R162, R476). LAUNCH_ACCEPT.
-/

namespace Sys2Proof.Machine

/-! ## Reading the template and the blocks -/

/-- The address space that a partition's launches are accepted in (R376). -/
def State.partAsid (s : State) (p : Nat) : Nat := bitsOf (s.part p).pasid.toNat 0 12

/-- The core through whose TLB a partition's distributor reads: the lowest one (log entry 31). -/
def State.partCore (s : State) (p : Nat) : Nat := ((s.cores.find? fun c => c.part == some p).map (·.id)).getD 0

/-- Pieces of bytes in single lines, read by a core in an address space: those that are newest in the device (R220, R420); the first fault
decides. -/
def State.spacePieces (core asid : Nat) : List (Nat × Nat) → State → State × Except FaultCode (List Byte)
  | [], s => (s, .ok [])
  | (a, n) :: l, s =>
    match s.translate core asid false a .read with
    | (s, .error f) => (s, .error f)
    | (s, .ok g) =>
      match s.readGlobal core g n with
      | (s, .error f) => (s, .error f)
      | (s, .ok b) =>
        match State.spacePieces core asid l s with
        | (s, .error f) => (s, .error f)
        | (s, .ok bs) => (s, .ok (b ++ bs))

/-- A read of the distributor in a partition's address space. -/
def State.partRead (s : State) (p va n : Nat) : State × Except FaultCode (List Byte) :=
  State.spacePieces (s.partCore p) (s.partAsid p) (linePieces (n / 64 + 2) va n) s

/-- Bit `i` of the override mask of a block (R168). -/
def ovrBit (b : List Byte) (i : Nat) : Bool := (fieldLE b 2 2).testBit i

/-- Whether the reserved content of a block is zero (R12, R168). -/
def blockReserved (b : List Byte) : Bool :=
  bitsOf (fieldLE b 1 1) 5 3 == 0 && bitsOf (fieldLE b 2 2) 13 3 == 0 && bitsOf (fieldLE b 4 1) 2 6 == 0 &&
  bitsOf (fieldLE b 11 1) 1 7 == 0 && zeroBytes b 15 1 && zeroBytes b 19 1 && zeroBytes b 30 2 && zeroBytes b 57 3 && zeroBytes b 96 32 &&
  (List.range 4).all fun i => zeroBytes b (128 + 16 * i + 13) 3

/-- The chain of blocks from an address to the root, the leaf first, with the checks of each block (R169). -/
def State.readChain (p : Nat) : Nat → Nat → State → State × Except FaultCode (List (Nat × List Byte))
  | 0, _, s => (s, .error .illegal)
  | fuel + 1, va, s =>
    if va % 256 ≠ 0 then (s, .error .align)
    else
      match s.partRead p va 256 with
      | (s, .error f) => (s, .error f)
      | (s, .ok b) =>
        if !versionOk (b.getD 0 0) then (s, .error .version)
        else if minorZero (b.getD 0 0) && !blockReserved b then (s, .error .illegal)
        else
          let parent := fieldLE b 64 8
          if parent = 0 then
            if (List.range 13).all (ovrBit b) then (s, .ok [(va, b)]) else (s, .error .illegal)
          else
            match State.readChain p fuel parent s with
            | (s, .error f) => (s, .error f)
            | (s, .ok l) => (s, .ok ((va, b) :: l))

/-- The block of a chain that supplies a group's effective values: the nearest one that sets its bit (R168). -/
def supplier (chain : List (Nat × List Byte)) (g : Nat) : List Byte :=
  ((chain.find? fun x => ovrBit x.2 g).map (·.2)).getD []

/-- A shared-range entry of a block (R168). -/
def sharedAt (b : List Byte) (i : Nat) : SharedRange :=
  { base := field64 b (128 + 16 * i), len := field32 b (136 + 16 * i), so := b.getD (140 + 16 * i) 0 }

/-- The effective region of a chain (R168 to R170). -/
def regionOf (chain : List (Nat × List Byte)) : Region :=
  let own := ((chain.head?).map (·.2)).getD []
  let g := supplier chain
  let mode := fieldLE (g 4) 1 1
  let fair := fieldLE (g 10) 72 4
  { block := BitVec.ofNat 64 ((chain.head?.map (·.1)).getD 0), ord := mode.testBit 0, dual := mode.testBit 1, nofair := mode.testBit 2,
    preempt := mode.testBit 3, task := (fieldLE own 1 1).testBit 4, prio := bitsOf (fieldLE (g 0) 4 1) 0 2,
    width := [16, 32, 64].getD (fieldLE (g 1) 5 1) 16, nregs := fieldLE (g 1) 6 2, carve := fieldLE (g 2) 8 1,
    curve := fieldLE (g 3) 9 1, tile := (g 3).getD 10 0, serpentine := (fieldLE (g 3) 11 1).testBit 0, dualn := fieldLE (g 4) 12 1,
    waves := fieldLE own 13 1, gang := fieldLE own 14 1, tags := fieldLE (g 5) 18 1, spad := fieldLE (g 5) 20 4,
    cores := fieldLE (g 5) 16 2, blines := fieldLE (g 5) 24 4, rslots := fieldLE (g 5) 28 2,
    budgets := (chain.filter fun x => ovrBit x.2 5).map fun x =>
      { block := BitVec.ofNat 64 x.1, cores := fieldLE x.2 16 2, tags := fieldLE x.2 18 1, spad := fieldLE x.2 20 4,
        blines := fieldLE x.2 24 4, rslots := fieldLE x.2 28 2 }
    gx := fieldLE own 32 4, gy := fieldLE own 36 4, entry := field32 own 40, fdh := field32 (g 6) 48, fdpol := fieldLE (g 6) 56 1,
    wdog := fieldLE (g 7) 60 4, fair := if fair = 0 then 4096 else fair, spilln := fieldLE (g 11) 76 4, spill := field64 (g 11) 80,
    csa := field64 (g 12) 88, shr := (List.range 4).map (sharedAt (g 8)), syn := (List.range 8).map fun i => field64 (g 9) (192 + 8 * i) }

/-- Scratchpad of a carve-out code in bytes (R224). -/
def carveSpad (code : Nat) : Nat := [0, 256, 512, 768, 960].getD code 0 * 1024

/-- Bytes of a quadrant's register file (R158, R169). -/
def quadrantBytes : Nat := 131072

/-- Waves of a team that run on quadrant `q` (R159). -/
def wavesOn (waves q : Nat) : Nat := (List.range waves).countP fun w => w % 4 == q

/-- Register bytes of one wave of a region. -/
def Region.waveBytes (r : Region) : Nat := r.nregs * r.width * 4

/-- Whether every field has a value of its stated range and some core could hold a team of the shape (R168, R169, R385). DESIGN CHOICE (log
entry 91): the values are the effective ones of R168; a group's values in a block of the chain that the launch does not take, the budgets of
its ancestors among them, are not held to their ranges. -/
def Region.legal (r : Region) (widthCode : Nat) : Bool :=
  let ta := bitsOf r.tile.toNat 0 4
  let tb := bitsOf r.tile.toNat 4 4
  decide (widthCode ≤ 2) && decide (8 ≤ r.nregs ∧ r.nregs ≤ 512 ∧ r.nregs % 8 = 0) && decide (r.carve ≤ 4) && decide (r.curve ≤ 3) &&
  (if r.curve = 3 then decide (ta ≤ 8 ∧ tb ≤ 8) else r.tile == 0) &&
  (if r.dual then decide (2 ≤ r.dualn) else r.dualn == 0) &&
  decide (1 ≤ r.waves ∧ r.waves ≤ 16) && decide (r.gang ≤ 16) && decide (1 ≤ r.cores ∧ r.cores ≤ 384) && decide (r.tags ≤ 64) &&
  decide (r.spad % 1024 = 0 ∧ r.spad ≤ 983040) && decide (1 ≤ r.gx ∧ 1 ≤ r.gy ∧ r.gx * r.gy < 2 ^ 32) && decide (r.fdpol ≤ 2) &&
  decide (1 ≤ r.wdog ∧ r.wdog ≤ 60000) && decide (256 ≤ r.fair ∧ r.fair ≤ 65536) && decide (r.spilln % 256 = 0 ∧ r.spill.toNat % 64 = 0) &&
  r.shr.all (fun x => x.len == 0 || (decide (x.base.toNat % 64 = 0 ∧ x.base.toNat < 2 ^ 56 ∧ x.len.toNat % 64 = 0) &&
    (decide (x.so.toNat < 8) || x.so == 0xFF))) &&
  r.syn.all (fun a => a.toNat % 8 == 0) && r.csa != 0 &&
  decide (r.spad ≤ carveSpad r.carve) && (List.range 4).all fun q => decide (wavesOn r.waves q * r.waveBytes ≤ quadrantBytes)

/-! ## The gang check (R179) -/

/-- Teams of a region's shape that an empty core holds at once (R173). -/
def Region.perCore (r : Region) : Nat :=
  let bySpad := if r.spad = 0 then 16 else carveSpad r.carve / r.spad
  let byTags := if r.tags = 0 then 16 else 64 / r.tags
  (List.range 4).foldl (fun n q =>
    let k := wavesOn r.waves q
    if k = 0 then n else Nat.min n (Nat.min (15 / k) (quadrantBytes / (k * r.waveBytes)))) (Nat.min 16 (Nat.min bySpad byTags))

/-- Members of a launch's largest gang. -/
def Region.gangTeams (r : Region) : Nat := Nat.min r.gang (r.gx * r.gy)

/-- Whether some die's cores of the partition could hold a whole gang at once, or the launch has none. -/
def State.gangFits (s : State) (p : Nat) (r : Region) : Bool :=
  decide (r.gang < 2) || (List.range 4).any fun d =>
    decide (r.gangTeams ≤ (s.cores.countP fun c => c.part == some p && dieOf c.id == d) * r.perCore)

/-! ## Acceptance -/

/-- A launch as it will enter its queue, or the code that refuses it, with the region block's address for a record (R165 to R169). -/
def State.resolveLaunch (s : State) (o : Offer) : State × DWord × Except FaultCode Launch :=
  let va := o.template.toNat
  if va % 128 ≠ 0 then (s, 0, .error .align)
  else
    match s.partRead o.part va 128 with
    | (s, .error f) => (s, 0, .error f)
    | (s, .ok t) =>
      let nb := fieldLE t 1 1
      let hs := (List.range 4).map fun i => field32 t (16 + 4 * i)
      let rcb := field64 t 8
      if !versionOk (t.getD 0 0) then (s, rcb, .error .version)
      else if 4 < nb || (hs.drop nb).any (· != 0) || (minorZero (t.getD 0 0) && !(zeroBytes t 2 6 && zeroBytes t 80 48)) then
        (s, rcb, .error .illegal)
      else
        match State.readChain o.part 8 rcb.toNat s with
        | (s, .error f) => (s, rcb, .error f)
        | (s, .ok chain) =>
          let own := regionOf chain
          -- a sump launch has one team whatever the grid (R350)
          let r := match o.source with | .sump _ => { own with gx := 1, gy := 1, gang := 0 } | _ => own
          let bs := distinct (hs.take nb)
          let most := (List.range 4).foldl (fun m d => Nat.max m (s.bundleBudget o.part d)) 0
          if !own.legal (fieldLE (supplier chain 1) 5 1) then (s, rcb, .error .illegal)
          else if bs.any fun h => (s.declOf o.part h).isNone then (s, rcb, .error .illegal)
          else if bs.any fun h => decide (most < (s.bundleLines o.part h).length) then (s, rcb, .error .bundleTooBig)
          else if !s.gangFits o.part r then (s, rcb, .error .illegal)
          else
            let args := o.args.getD ((List.range 12).map fun i => field32 t (32 + 4 * i))
            let (args, range) := match o.source with
              | .sump x => ((args.set 10 (BitVec.ofNat 32 x.start)).set 11 (BitVec.ofNat 32 x.count), some x)
              | _ => (args, none)
            (s, rcb, .ok {
              id := 0, part := o.part, source := o.source, asid := s.partAsid o.part, queue := o.prio.getD r.prio, aged := 0, agedAt := s.time,
              region := r, args := args, bundles := bs, walk := 0, nextTeam := 0, savedTeams := [], ended := 0, lantern := none,
              entryDies := [], ending := none, range := range, exited := [], gangs := [], after := o.after })

/-- Launches of a partition's queue (R161). -/
def State.queueLaunches (s : State) (p q : Nat) : List Launch := s.launches.filter fun l => l.part == p && l.queue == q

/-- Whether a launch queue has room (R161, R476). -/
def State.queueHasRoom (s : State) (p q : Nat) : Bool :=
  (s.part p).resetting.isNone && decide ((s.queueLaunches p q).length < 256)

/-- A launch enters its queue. -/
def State.enterQueue (s : State) (l : Launch) : State :=
  let (id, s) := s.fresh
  { s with launches := s.launches ++ [{ l with id := id, agedAt := s.time }] }

/-- What an offer comes to: the queue is full, it is refused, or it is accepted. -/
inductive Accepting where
  | full
  | refused (rcb : DWord) (f : FaultCode)
  | accepted
  deriving DecidableEq, Repr

/-- The distributor takes an offer, or does not (R162, R169, R476). -/
def State.accept (s : State) (o : Offer) : State × Accepting :=
  if (s.part o.part).resetting.isSome then (s, .full)
  else
    match s.resolveLaunch o with
    | (s, rcb, .error f) => (s, .refused rcb f)
    | (s, _, .ok l) => if s.queueHasRoom l.part l.queue then (s.enterQueue l, .accepted) else (s, .full)

/-- The source of an accepted launch is told that it has been (R220, R405). -/
def State.tellAccepted (s : State) (o : Offer) : State :=
  match o.source with
  | .supervisor t q => s.answerLoad t 0 q 0
  | _ => s

/-- LAUNCH_ACCEPT (R162, R165 to R169): an offer of a supervisor or of a LAUNCH, once the writes that precede it are performed. -/
def execLaunchAccept (offer : Nat) (s : State) : Host.Outcome State Fault Refusal :=
  match s.offers.find? fun o => o.id == offer with
  | none => .next s
  | some o =>
    if !s.performed o.after then .next s
    else
      let s := { s with offers := s.offers.filter fun x => x.id != offer }
      .next (match s.accept o with
        | (s, .full) => s.tellRefused o 0 none
        | (s, .refused rcb f) => s.tellRefused o rcb (some f)
        | (s, .accepted) => s.tellAccepted o)

end Sys2Proof.Machine
end

