-- ==== Sys2Proof/Machine/CrossLane.lean ====
section
/-!
DEFINITION. The cross-lane family (spec 07): SHFL, VOTE, LRED and SCAN (R198, R200, R202 to R206).
-/

namespace Sys2Proof.Machine

/-- What lane `j` supplies to a cross-lane instruction: read in the instruction's last issue cycle (R202). A lane that
is not active has no pending result and no latch, so it supplies its register's content, and 0 for a latch. -/
def Issue.srcCtx (c : Issue) (cost j : Nat) : LaneCtx :=
  c.ctxAt j (c.lastCycle cost) (c.wave.lanes.getD j (Lane.fresh 0))

/-- A cross-lane instruction: `f` gives each active lane's result from what every lane supplies, `dep` the lanes whose
operand the result of a lane depends on (R200, R202). -/
def crossOp (i : Instr) (lat : Nat) (f : Issue → (Nat → LaneCtx) → Nat → LaneOut)
    (dep : Issue → (Nat → LaneCtx) → Nat → List Nat) (s : State) : Host.Outcome State Fault Refusal :=
  issue i s fun c =>
    let cost := c.cost i 1
    let src := c.srcCtx cost
    (s.updCur fun w => w.mapActive c.run.mask fun l ln =>
      let o := f c src l
      let ln' := ln.put c.run.idx (c.dueOf cost lat l) o
      if c.wave.runahead.isSome then
        ln'.markInvalid c.run.winb c.run.idx ((dep c src l).any fun j => (src j).anyInvalid i) (Instr.noWrite i)
          (Instr.dests (fun _ => 1) i) (o.pred.map (·.1))
      else ln').advance c cost

/-- The source lane of SHFL in lane `l`, none when it is out of range (R203). -/
def shflSource (f : ShflFn) (w l b : Nat) : Option Nat :=
  match f with
  | .idx => if b < w then some b else none
  | .up => if b ≤ l then some (l - b) else none
  | .down => if l + b < w then some (l + b) else none
  | .xor => if Nat.xor l b < w then some (Nat.xor l b) else none

/-- SHFL (R203). -/
def execShfl (n : Bool) (f : ShflFn) (d a b : Reg) (s : State) : Host.Outcome State Fault Refusal :=
  crossOp (.shfl n f d a b) 8
    (fun c src l =>
      let j := (shflSource f c.wave.width l ((src l).reg b).toNat).getD l
      outReg (src l) n d ((src j).reg a))
    (fun c src l => [l, (shflSource f c.wave.width l ((src l).reg b).toNat).getD l]) s

/-- The active lanes in which a predicate reads true, as a mask (R204). -/
def ballot (c : Issue) (src : Nat → LaneCtx) (k : Pred) : BitVec 64 :=
  maskOf (c.lanes.filter fun l => (src l).pred k)

/-- VOTE (R204). -/
def execVote (f : VoteFn) (d : Reg) (a : Pred) (s : State) : Host.Outcome State Fault Refusal :=
  crossOp (.vote f d a) 8
    (fun c src l =>
      match f with
      | .all => outPred (d.truncate 3) (c.lanes.all fun j => (src j).pred a)
      | .any => outPred (d.truncate 3) (c.lanes.any fun j => (src j).pred a)
      | .ballot => outPair (src l) d (ballot c src a))
    (fun c _ _ => c.lanes) s

/-- The combination of LRED (R205). -/
def lredFn (f : LredFn) (x y : Word) : Word :=
  match f with
  | .add => x + y
  | .min => minS x y
  | .max => maxS x y
  | .minu => minU x y
  | .maxu => maxU x y
  | .and => x &&& y
  | .or => x ||| y
  | .xor => x ^^^ y

/-- A non-empty list combined. -/
def reduceBy (g : Word → Word → Word) : List Word → Word
  | [] => 0
  | x :: l => l.foldl g x

/-- LRED (R205). -/
def execLred (n : Bool) (f : LredFn) (d a : Reg) (s : State) : Host.Outcome State Fault Refusal :=
  crossOp (.lred n f d a) 12
    (fun c src l => outReg (src l) n d (reduceBy (lredFn f) (c.lanes.map fun j => (src j).reg a)))
    (fun c _ _ => c.lanes) s

/-- Identity of a scan (R206). -/
def scanUnit : ScanFn → Word
  | .add | .addx => 0
  | .max => 0x80000000
  | .min => 0x7FFFFFFF

/-- One step of a scan (R206). -/
def scanFn (f : ScanFn) (x y : Word) : Word :=
  match f with
  | .add | .addx => x + y
  | .max => maxS x y
  | .min => minS x y

/-- The active lanes that a scan combines for lane `l`: those up to `l`, without `l` for .addx (R206). -/
def scanLanes (c : Issue) (f : ScanFn) (l : Nat) : List Nat :=
  c.lanes.filter fun j => decide (j < l) || (f != .addx && j == l)

/-- SCAN (R206). -/
def execScan (n : Bool) (f : ScanFn) (d a : Reg) (s : State) : Host.Outcome State Fault Refusal :=
  crossOp (.scan n f d a) 12
    (fun c src l =>
      outReg (src l) n d (((scanLanes c f l).map fun j => (src j).reg a).foldl (scanFn f) (scanUnit f)))
    (fun c _ l => scanLanes c f l) s

end Sys2Proof.Machine
end

