-- ==== Sys2Proof/Machine/Place.lean ====
section
/-!
DEFINITION. Placement: the walk (R172), the order of launches (R163, R177), eligible cores (R173, R383) and the choice among them
(R174), the bundles of a launch (R175, R246), the start of a team (R167, R176, R225), the return of a saved one (R386, R387, R389), and
the pre-emption that placement asks for (R177, R180, R196). TEAM_PLACE and AGING_INTERVAL.
-/

namespace Sys2Proof.Machine

/-! ## The walk (R172) -/

/-- The even bits of a number, packed. -/
def evenBits : Nat → Nat → Nat
  | 0, _ => 0
  | n + 1, x => x % 2 + 2 * evenBits n (x / 4)

/-- The least power of two that is at least `x`, as a number of doublings. -/
def log2Up (x : Nat) : Nat := ((List.range 33).find? fun k => decide (x ≤ 2 ^ k)).getD 33

/-- Hilbert(m, d), from side `sz` on, with `n` doublings left (R172). -/
def hilbert : Nat → Nat → Nat → Nat → Nat → Nat × Nat
  | 0, _, _, x, y => (x, y)
  | n + 1, sz, q, x, y =>
    let hx := q / 2 % 2
    let hy := (q + hx) % 2
    let (x, y) := if hy = 0 then (if hx = 1 then (sz - 1 - y, sz - 1 - x) else (y, x)) else (x, y)
    hilbert n (2 * sz) (q / 4) (x + sz * hx) (y + sz * hy)

/-- Coordinates of a step of the walk; they may lie outside the grid (R172). -/
def Region.walkAt (r : Region) (k : Nat) : Nat × Nat :=
  match r.curve with
  | 0 => (k % r.gx, k / r.gx)
  | 1 => (evenBits 33 k, evenBits 33 (k / 2))
  | 2 => hilbert (log2Up (Nat.max r.gx r.gy)) 1 k 0 0
  | _ =>
    let w := 2 ^ bitsOf r.tile.toNat 0 4
    let h := 2 ^ bitsOf r.tile.toNat 4 4
    let cols := (r.gx + w - 1) / w
    let t := k / (w * h)
    let row := t / cols
    let col := if r.serpentine ∧ row % 2 = 1 then cols - 1 - t % cols else t % cols
    (col * w + k % (w * h) % w, row * h + k % (w * h) / w)

/-- The first step from `k` on that lies in the grid, with its coordinates. -/
def Region.nextStep (r : Region) : Nat → Nat → Option (Nat × Nat × Nat)
  | 0, _ => none
  | fuel + 1, k =>
    let (x, y) := r.walkAt k
    if x < r.gx ∧ y < r.gy then some (k, x, y) else r.nextStep fuel (k + 1)

/-! ## What is to be placed next -/

/-- Teams of a launch. -/
def Launch.total (l : Launch) : Nat := l.region.gx * l.region.gy

/-- Whether a launch has teams that are not placed. -/
def Launch.unplaced (l : Launch) : Bool := l.ending.isNone && (!l.savedTeams.isEmpty || decide (l.nextTeam < l.total))

/-- The least element of a list of numbers. -/
def leastOf (l : List Nat) : Option Nat := minBy id l

/-- The logical index of the team whose wave the lantern awaits (R196). -/
def Launch.awaited (l : Launch) : Option Nat :=
  match l.lantern with
  | some (.awaiting u) => some (u / l.region.waves)
  | _ => none

/-- The team that the lantern awaits, if it can be placed next: it is saved, or the next one of the walk. -/
def Launch.awaitedNext (l : Launch) : Option Nat := l.awaited.filter fun k => l.savedTeams.contains k || k == l.nextTeam

/-- The logical index that a launch places next: its lowest saved team, else the next one of the walk (R171, R197, R389); the room of a team
that has been displaced goes to the one that the lantern awaits (R196, log entry 53). -/
def Launch.nextIndex (l : Launch) : Nat :=
  match if l.displaced then l.awaitedNext else none with
  | some k => k
  | none => (leastOf l.savedTeams).getD l.nextTeam

/-- Gang size of a launch, 1 for none. -/
def Launch.gangSize (l : Launch) : Nat := if l.region.gang < 2 then 1 else l.region.gang

/-- First member of the gang of a logical index (R160). -/
def Launch.gangBase (l : Launch) (k : Nat) : Nat := k / l.gangSize * l.gangSize

/-- Teams of a launch on cores, without those of a gang that have ended. -/
def State.resident (s : State) (l : Launch) : List Team := s.teams.filter fun t => t.launch == some l.id && !t.gone

/-- Started members of the gang that a launch is placing (R178). -/
def State.gangStarted (s : State) (l : Launch) : List Team :=
  if l.region.gang < 2 then []
  else s.teams.filter fun t => t.launch == some l.id && t.gangBase == l.gangBase l.nextIndex

/-- Whether a launch's next team belongs to a partly placed gang (R177, R179). -/
def State.gangPartial (s : State) (l : Launch) : Bool := l.unplaced && !(s.gangStarted l).isEmpty

/-- The launches of a queue with teams to place: those with saved teams first, then in arrival order (R163, R389). -/
def State.queueOrder (s : State) (p q : Nat) : List Launch :=
  let ls := (s.queueLaunches p q).filter Launch.unplaced
  ls.filter (fun l => !l.savedTeams.isEmpty) ++ ls.filter fun l => l.savedTeams.isEmpty

/-- The head of a queue. -/
def State.queueHead (s : State) (p q : Nat) : Option Launch := (s.queueOrder p q).head?

/-- The launches of a partition in the order in which the distributor tries them (R163): by effective level, the higher queue first;
only the heads have risen. -/
def State.tryOrder (s : State) (p : Nat) : List Launch :=
  let ls := [3, 2, 1, 0].flatMap fun q => (s.queueOrder p q).zipIdx.map fun (l, i) => (if i = 0 then Nat.min 3 (q + l.aged) else q, l)
  let ls := (sortBy (fun a b => decide (b.1 ≤ a.1)) ls).map (·.2)
  -- a partly placed gang goes before all but PREEMPT regions of higher priority (R177)
  match ls.find? s.gangPartial with
  | none => ls
  | some g =>
    let over_ := fun (l : Launch) => l.region.preempt && decide (g.region.prio < l.region.prio)
    ls.filter over_ ++ g :: ls.filter fun l => !over_ l && l.id != g.id

/-! ## Eligible cores (R173) -/

/-- Scratchpad allocations of a core: offset and size. -/
def State.spadHeld (s : State) (core : Nat) : List (Nat × Nat) :=
  (s.teams.filter fun t => t.core == core).map fun t => (t.spadBase, t.spadSize)

/-- The lowest free offset at which an allocation fits (R225). -/
def spadOffer (held : List (Nat × Nat)) (room size : Nat) : Option Nat :=
  ((0 :: held.map fun x => x.1 + x.2).filter fun o =>
    decide (o + size ≤ room) && held.all fun x => x.2 == 0 || size == 0 || !overlap o size x.1 x.2).foldl
    (fun m o => match m with | none => some o | some n => some (Nat.min n o)) none

/-- Cores that the launches counting against a block hold (R170). -/
def State.blockCores (s : State) (block : DWord) : List Nat :=
  distinct ((s.teams.filter fun t => !t.gone && ((s.launchOf t).map fun l => l.region.budgets.any fun b => b.block == block).getD false).map
    (·.core))

/-- Dies on which every bundle of a launch is complete under the launch's entry (R175, R246). -/
def State.bundlesReady (s : State) (l : Launch) (die : Nat) : Bool :=
  l.bundles.all fun h => s.insts.any fun b =>
    b.part == l.part && b.handle == h && b.die == die && b.entries.contains (.launch l.id) && b.complete

/-- Whether a wave holds its register space: until it has exited and its issued accesses have been performed (R209). -/
def State.holdsRegs (s : State) (t : Team) (w : Wave) : Bool :=
  !w.exited || s.posted.any (fun p => p.team == t.id && p.wave == w.idx) || s.rmws.any fun m => m.team == t.id && m.wave == w.idx

/-- The conditions of R173 on a core for a launch's team, apart from the die. A launch's own SPAD and TAGS lie within the budgets of the
blocks that it counts against (R170, log entry 45). -/
def State.coreFits (s : State) (l : Launch) (c : Core) : Bool :=
  let r := l.region
  let ts := s.teams.filter fun t => t.core == c.id
  let live := ts.filter fun t => !t.gone
  c.part == some l.part && c.started && !c.halted && (ts.isEmpty || c.carve == some r.carve) && decide (live.length < 16) &&
  (spadOffer (s.spadHeld c.id) (carveSpad r.carve) r.spad).isSome &&
  decide ((live.map fun t => t.tags.length).sum + r.tags ≤ 64) &&
  ((List.range 4).all fun q =>
    let mine := live.flatMap fun t => t.waves.filter fun w => w.idx % 4 == q && s.holdsRegs t w
    let n := wavesOn r.waves q
    n == 0 || decide (mine.length + n < 16 ∧ (mine.map fun w => w.nregs * w.width * 4).sum + n * r.waveBytes ≤ quadrantBytes)) &&
  (r.budgets.all fun b =>
    let cs := s.blockCores b.block
    (cs.contains c.id || decide (cs.length < b.cores)) && decide (r.spad ≤ b.spad ∧ r.tags ≤ b.tags)) &&
  (!r.task || live.all fun t => ((s.launchOf t).map fun m => !m.region.task || m.region.block == r.block).getD true)

/-- The die that a saved team must return to: that of its bundle entries and queued requests, and of the rings it has commands on
(R383). -/
def State.savedDie (s : State) (t : Team) : Option Nat :=
  match s.insts.find? fun b => b.entries.contains (.team t.id) with
  | some b => some b.die
  | none =>
    match s.admissions.find? fun q => q.holder == .team t.id with
    | some q => some q.die
    | none => t.held.findSome? fun x => match x.2.kind with
      | .mloop _ _ | .aring _ _ _ _ _ _ => some (dieOf t.core)
      | .epi d _ _ _ => some d
      | _ => none

/-- The saved copy of a launch's team (a DUAL pair has two, the primary first). -/
def State.savedOf (s : State) (l : Launch) (k : Nat) : List Team :=
  let ts := s.saved.filter fun t => t.launch == some l.id && t.logical == k
  ts.filter Team.performs ++ ts.filter fun t => !t.performs

/-- Whether a die is one that a launch's next team may use, bundles apart (R178, R383). -/
def State.dieFits (s : State) (l : Launch) (die : Nat) : Bool :=
  (match (s.gangStarted l).head? with | some t => dieOf t.core == die | none => true) &&
  (s.savedOf l l.nextIndex).all fun t => (s.savedDie t).all (fun d => d == die) && (s.savedRingsOf t).all fun r => r.die == die

/-- The cores of a partition on which a launch's next team may be placed, bundles apart (R173). -/
def State.eligible (s : State) (l : Launch) : List Core := s.cores.filter fun c => s.coreFits l c && s.dieFits l (dieOf c.id)

/-- The core chosen among eligible ones: one that holds a team of the launch, then the next one after the last used (R174). -/
def State.choose (s : State) (l : Launch) (cs : List Core) : Option Core :=
  let last := ((s.part l.part).lastCore.map (· + 1)).getD 0
  let after := cs.filter (fun c => decide (last ≤ c.id)) ++ cs.filter fun c => decide (c.id < last)
  match after.find? fun c => (s.resident l).any fun t => t.core == c.id with
  | some c => some c
  | none => after.head?

/-! ## The bundles of a launch (R175, R246) -/

/-- The die for a further entry of a launch: budget for its bundles' lines together, most lines resident, the lowest number. -/
def State.bundleDie (s : State) (l : Launch) : Option Nat :=
  let lines := distinct (l.bundles.flatMap fun h => s.bundleLines l.part h)
  let dies := (List.range 4).filter fun d => decide (lines.length ≤ s.bundleBudget l.part d) && !l.entryDies.contains d
  let held := fun d => lines.countP fun v => s.insts.any fun b =>
    b.part == l.part && b.die == d && b.live && b.lines.any fun x => x.1 == v && x.2.isSome
  (minBy (fun d => 1000000000 - held d * 4 + d) dies)

/-- A launch asks for its bundles on a die: at first it queues, later it is admitted only at once (R240, R246). -/
def State.askBundles (s : State) (l : Launch) : State :=
  let h := Holder.launch l.id
  if s.admissions.any fun q => q.holder == h then s
  else
    match s.bundleDie l with
    | none => s
    | some d =>
      if l.entryDies.isEmpty then
        { s with admissions := s.admissions ++ [{
            die := d, part := l.part, holder := h, handles := l.bundles, level := l.region.prio, atTop := 0, since := s.time, reply := none }] }
      else
        match if s.atOnce l.part d h then s.tryFit l.part d h l.bundles else none with
        | none => s
        | some s => (s.grant l.part d h 0 l.bundles).updLaunch l.id fun l => { l with entryDies := d :: l.entryDies }

/-! ## The start of a team (R167, R176) -/

/-- A lane at launch, with the argument words (R167). -/
def Lane.withArgs (args : List Word) (l : Lane) : Lane :=
  { l with regs := l.regs.mapIdx fun i v => if i < 12 then args.getD i v else v }

/-- A new team of a launch on a core. -/
def Launch.team (l : Launch) (id : Nat) (core spadBase x y : Nat) (dual : Option Dual) : Team :=
  let r := l.region
  let k := l.nextTeam
  { id := id, launch := some l.id, core := core, logical := k, linear := BitVec.ofNat 32 (y * r.gx + x),
    waves := (List.range r.waves).map fun i =>
      let w := Wave.fresh i r.width r.nregs r.entry (allLanes r.width) .user
      { w with lanes := w.lanes.map (Lane.withArgs l.args) }
    spad := [], spadSize := r.spad, spadBase := spadBase, spadRegions := [], tags := List.replicate r.tags Tag.fresh,
    barriers := List.replicate 16 Barrier.fresh, gangBase := l.gangBase k,
    gangSize := Nat.min l.gangSize (l.total - l.gangBase k), preempt := false, limitPassed := false, ending := false, fillLog := [],
    dual := dual, restoring := false, held := [], gone := false }

/-- A core takes a carve-out code: another one than before invalidates its L1 (R174, R224). What a core's L1 holds is dropped when a team
starts in any case, as its accesses follow those of who launched it (R271, R283). -/
def State.takeCore (s : State) (p core carve : Nat) : State :=
  ({ s.updCore core fun c => { c with carve := some carve } with
    l1 := s.l1.filter fun c => c.holder != core }).updPart p fun q => { q with lastCore := some core }

/-- After the start of a launch's team `k`: the lantern reaches a wave that it awaits (R196), and the queue's timer is armed if it is the first team
of the queue's oldest launch with a running team, or the timer has stopped (R390). -/
def State.afterStart (s : State) (l : Launch) (k : Nat) : State :=
  let first := k == 0 && !l.savedTeams.contains k
  let s := s.updLaunch l.id fun l =>
    if !l.region.ord then l
    else match l.lantern with
      | none => if k = 0 then { l with lantern := some (.at 0) } else l
      | some (.awaiting u) => if u / l.region.waves = k then { l with lantern := some (.at u), displaced := false } else l
      | _ => l
  let oldest := (s.oldestRunning l.part l.queue).map (·.id) == some l.id
  if (((s.part l.part).timers[l.queue]?).join).isNone || first && oldest then s.armTimer l.part l.queue else s

/-- The free offset of a core for a region's scratchpad. -/
def State.offsetOn (s : State) (core : Nat) (r : Region) : Nat := (spadOffer (s.spadHeld core) (carveSpad r.carve) r.spad).getD 0

/-- Whether team `k` of a launch runs twice (R393). -/
def Region.twice (r : Region) (k : Nat) : Bool := r.dual && k % r.dualn == 0

/-- The next team of a launch's walk starts on a core, and its secondary copy on another (R167, R173, R393). -/
def State.startNew (s : State) (l : Launch) (core : Nat) (second : Option Nat) : State :=
  match l.region.nextStep (2 ^ 66) l.walk with
  | none => s
  | some (k, x, y) =>
    let (a, s) := s.fresh
    let (b, s) := s.fresh
    let dualOf := fun (peer : Nat) (first : Bool) =>
      if second.isSome then some ({ peer := peer, primary := first, stream := [], atPoint := none, passed := false, shares := none } : Dual) else none
    let t := l.team a core (s.offsetOn core l.region) x y (dualOf b true)
    let s := ({ s with teams := s.teams ++ [t] }).takeCore l.part core l.region.carve
    let s := match second with
      | none => s
      | some c =>
        ({ s with teams := s.teams ++ [l.team b c (s.offsetOn c l.region) x y (dualOf a false)] }).takeCore l.part c l.region.carve
    let s := s.updLaunch l.id fun l => { l with walk := k + 1, nextTeam := l.nextTeam + 1 }
    s.afterStart l l.nextTeam

/-! ## The return of a saved team (R386, R387, R389) -/

/-- Address of a team's save slot and of its scratchpad image (R385). -/
def Region.saveSlot (r : Region) (k : Nat) : Nat × Nat :=
  let regs := 4096 + 4 * r.waves * r.width * r.nregs
  let z := roundUp (regs + r.spad + 3 * (r.spad / 128) + 8) 4096
  (r.csa.toNat + k * z, r.csa.toNat + k * z + regs)

/-- The vault fills of a resumed team are made again, in order, from the scratchpad (R387). They count no ill-formed block again. -/
def State.replayFills (s : State) (t : Team) : State :=
  let p := s.partOf t
  let n := (s.part p).pibc
  let s := t.fillLog.foldl (fun s (v, f, off) =>
    State.fillVault t.core 9 t { v0 := v, chain := 1, groups := 1, bf := f } off s v) s
  s.updPart p fun q => { q with pibc := n }

/-- A wave that runs the partition's save or restore entry on its share of the scratchpad (R374, R386): the share's number `i` of `n`; its length,
not its offset, is clipped to SPAD. -/
def Wave.toHandler (w : Wave) (entry : Word) (image size i n : Nat) (save : Bool) : Wave :=
  let part := (size + n * 1024 - 1) / (n * 1024) * 1024
  let off := i * part
  let args := [BitVec.ofNat 32 image, BitVec.ofNat 32 (image / 2 ^ 32), BitVec.ofNat 32 off, BitVec.ofNat 32 (Nat.min part (size - off))]
  { w with frontier := [{ pc := entry, mask := w.liveMask, st := .runnable, age := 0, land := .here }], loops := [], winb := 0,
           run := none, sel := none, skip := none, loads := [], recLoads := [], marks := [], priv := .trap, saving := save,
           lanes := w.lanes.map fun (l : Lane) => { l with regs := l.regs.mapIdx (fun j v => if j < 4 then args.getD j v else v), badRegs := l.badRegs.filter (4 ≤ ·) } }

/-- The waves of a team that have not exited run a handler entry; the others stay as they are. -/
def Team.toHandlers (t : Team) (entry : Word) (image : Nat) (save : Bool) : Team :=
  let live := (t.waves.filter fun w => !w.exited).map (·.idx)
  { t with waves := t.waves.map fun w =>
      if w.exited then w else w.toHandler entry image t.spadSize ((live.takeWhile (· != w.idx)).length) live.length save }

/-- Scratchpad that hardware saves by itself (R386). -/
def hardwareSpad : Nat := 131072

/-- The commands of a saved team enter the queues of its core, the fences that they stand under with them, and its fills are made again
(R279, R383, R387). -/
def State.goOn (s : State) (t : Team) (held : List (Nat × Command)) (fences : List (Nat × List Nat)) : State :=
  let s := held.foldl (fun s (q, c) => s.updQueue t.core q fun x => { x with cmds := x.cmds ++ [c] }) s
  let s := fences.foldl (fun s (q, ids) => s.updQueue t.core q fun x => { x with fence := unionIds x.fence ids }) s
  let mine := held.map fun x => x.2.id
  let move := fun (e : ArmedEpi) => if e.cmd.any mine.contains then { e with core := t.core } else e
  let s := { s with rings := s.rings.map fun (r : Ring) => { r with epi := r.epi.map move } }
  s.replayFills t

/-- A saved team goes on, on a core (R383, R386 to R389). Above 128 KiB its waves first run the restore entry on a scratchpad that reads as zero,
and its saved state waits for them. -/
def State.resumeOn (s : State) (l : Launch) (t : Team) (core : Nat) : State :=
  let u := { t with core := core, spadBase := s.offsetOn core l.region, preempt := false, limitPassed := false }
  let v := { u with held := [], heldFences := [] }
  if hardwareSpad < t.spadSize && t.waves.any fun w => !w.exited then
    let h := { v with restoring := true, spad := [] }.toHandlers (s.part l.part).prest (l.region.saveSlot t.logical).2 false
    ({ s with teams := s.teams ++ [h], saved := s.saved.map fun (x : Team) => if x.id = t.id then u else x } : State).takeCore l.part core l.region.carve
  else
    let s := { s with teams := s.teams ++ [v], saved := s.saved.filter fun (x : Team) => x.id != t.id }
    (s.takeCore l.part core l.region.carve).goOn v t.held t.heldFences

/-- A restore ends once every wave of the team has left the restore entry: the waves go on from the saved state, with the scratchpad that they
have restored (R386, R387). -/
def State.finishRestore (s : State) (team : Nat) : State :=
  match s.team? team, s.saved.find? fun x => x.id == team with
  | some t, some u =>
    if !t.restoring || !(t.waves.all fun w => w.run.isNone && w.exited) || !s.teamPerformed t then s
    else
      let v := { u with core := t.core, spadBase := t.spadBase, spad := t.spad, spadRegions := t.spadRegions, preempt := t.preempt,
                        preemptAt := t.preemptAt, limitPassed := t.limitPassed, restoring := false, held := [], heldFences := [] }
      let s := { s with saved := s.saved.filter fun x => x.id != team }
      (s.updTeam team fun _ => v).goOn v u.held u.heldFences
  | _, _ => s

/-- A launch's saved team returns to a core, its secondary copy to another. -/
def State.resumeTeam (s : State) (l : Launch) (k core : Nat) (second : Option Nat) : State :=
  let s := match s.savedOf l k, second with
    | [a], _ => s.resumeOn l a core
    | a :: b :: _, some c => (s.resumeOn l a core).resumeOn l b c
    | _, _ => s
  let s := s.updLaunch l.id fun l => { l with savedTeams := l.savedTeams.filter (· != k) }
  s.afterStart l k

/-! ## Pre-emption requests (R382) -/

/-- Whether a request may name a team: not a handler's (R370), nor one that is ended or ending. -/
def State.mayPreempt (s : State) (t : Team) : Bool :=
  !t.isSup && !t.gone && !t.ending && match (s.launchOf t).map fun (l : Launch) => l.source with
    | some (Source.handler _) => false
    | _ => true

/-- A request names a team: its waves start no new run, and a wave in runahead mode restores first (R381, R382). Both copies of a DUAL pair
are named. The barrier limit runs from the first request. -/
def State.requestPreempt (s : State) (ids : List Nat) : State :=
  let named := fun (t : Team) => s.mayPreempt t && (ids.contains t.id || ((t.dual.map fun d => ids.contains d.peer).getD false))
  { s with teams := s.teams.map fun t => if named t then { t with preempt := true, preemptAt := if t.preempt then t.preemptAt else s.time, waves := t.waves.map Wave.restore } else t }

/-- Whether a team of a partition is being pre-empted. -/
def State.preempting (s : State) (p : Nat) : Bool := s.teams.any fun t => t.preempt && s.partOf t == p && !t.isSup

/-- The teams that a PREEMPT launch may drive from a core (R180). -/
def State.lowerOn (s : State) (l : Launch) (core : Nat) : List Team :=
  s.teams.filter fun t => t.core == core && !t.gone && s.mayPreempt t && decide (s.prioOf t < l.region.prio)

/-- Whether a launch's next team could be placed on a core without some teams. -/
def State.fitsWithout (s : State) (l : Launch) (c : Core) (ts : List Team) : Bool :=
  let s' := { s with teams := s.teams.filter fun t => !ts.any fun u => u.id == t.id }
  s'.coreFits l c && s'.dieFits l (dieOf c.id)

/-- What a PREEMPT launch pre-empts whose next team is eligible nowhere: a partly placed gang of lower priority whole, else the teams of one
core (R177, R180). -/
def State.preemptFor (s : State) (l : Launch) : State :=
  if s.preempting l.part then s
  else
    match s.launches.find? fun g => g.part == l.part && s.gangPartial g && decide (g.region.prio < l.region.prio) with
    | some g => s.requestPreempt (((s.gangStarted g).filter fun t => !t.gone).map (·.id))
    | none =>
      let cands := s.cores.filter fun c => !(s.lowerOn l c.id).isEmpty && s.fitsWithout l c (s.lowerOn l c.id)
      match minBy (fun c : Core => ((s.lowerOn l c.id).map fun t => t.waves.length).sum) cands with
      | none => s
      | some c => s.requestPreempt ((s.lowerOn l c.id).map (·.id))

/-- Lantern displacement (R196): the lantern awaits a team for which every core is filled with teams of the launch; the one with the
highest logical index is saved. -/
def State.displace (s : State) (l : Launch) : State :=
  match l.awaitedNext with
  | none => s
  | some _ =>
    let l' := { l with displaced := true }
    if s.preempting l.part || !(s.eligible l').isEmpty ||
        !(s.cores.any fun c => s.fitsWithout l' c ((s.resident l).filter fun t => t.core == c.id)) then s
    else
      match minBy (fun t : Team => 2 ^ 33 - t.logical) ((s.resident l).filter s.mayPreempt) with
      | none => s
      | some t => (s.updLaunch l.id fun x => { x with displaced := true }).requestPreempt [t.id]

/-! ## TEAM_PLACE (R171) -/

/-- Whether started members of the gang that a launch is placing are being pre-empted: no further member starts until all of them are
saved (R177, R179). -/
def State.gangLeaving (s : State) (l : Launch) : Bool := (s.gangStarted l).any fun t => t.preempt

/-- The core for the secondary copy of a DUAL team whose primary has been placed on another (R173). -/
def State.secondFor (s : State) (l : Launch) (cs : List Core) (core : Nat) : Option Core :=
  let t := { l.team s.nextId core (s.offsetOn core l.region) 0 0 none with logical := l.nextIndex }
  let s' := { s with teams := s.teams ++ [t] }
  s.choose l (cs.filter fun d => d.id != core && s'.coreFits l d)

/-- Try to place the next team of a launch: none when no core is eligible for it. The saved rings of a saved team come back first (R388). -/
def State.tryPlace (s : State) (l : Launch) : Option State :=
  let cs := (s.eligible l).filter fun c => l.bundles.isEmpty || s.bundlesReady l (dieOf c.id)
  let k := l.nextIndex
  if s.gangLeaving l then none
  else
    match s.choose l cs with
    | none => none
    | some c =>
      let second := if l.region.twice k && (!l.savedTeams.contains k || (s.savedOf l k).length == 2) then
          (s.secondFor l cs c.id).map fun d => some d.id
        else some none
      second.bind fun d =>
        if !l.savedTeams.contains k then some (s.startNew l c.id d)
        else ((s.savedOf l k).foldl (fun o t => o.bind fun s => s.restoreRings t) (some s)).map fun s => s.resumeTeam l k c.id d

/-- The bundles that a launch still needs are asked for: before its first team, and on a further die when no core of the dies entered is
eligible (R175, R246). -/
def State.wantBundles (s : State) (l : Launch) : State :=
  if l.bundles.isEmpty || (s.eligible l).any fun c => l.entryDies.contains (dieOf c.id) then s else s.askBundles l

/-- The distributor goes through the launches of a partition: the first whose next team is eligible has it placed (R163, R171). -/
def State.placeFrom : List Launch → State → State
  | [], s => s
  | l :: ls, s =>
    match s.tryPlace l with
    | some s => s
    | none =>
      let s := s.wantBundles l
      let s := if l.region.preempt && (s.eligible l).isEmpty then s.preemptFor l else s
      State.placeFrom ls (s.displace l)

/-- Heads that have changed begin a new aging interval (R163). -/
def State.touchHeads (old s : State) (p : Nat) : State :=
  (List.range 4).foldl (fun s q =>
    match s.queueHead p q with
    | none => s
    | some l => if (old.queueHead p q).map (·.id) = some l.id then s else s.updLaunch l.id fun l => { l with agedAt := s.time }) s

/-- TEAM_PLACE (R171): the distributor of a partition places one team, when one is eligible. -/
def execTeamPlace (part : Nat) (s : State) : Host.Outcome State Fault Refusal :=
  .next (if (s.part part).resetting.isSome then s else s.touchHeads (State.placeFrom (s.tryOrder part) s) part)

/-! ## AGING_INTERVAL (R163, R239) -/

/-- A waiting bundle request after an aging interval (R239). -/
def Admission.age (q : Admission) (now : Nat) : Admission :=
  { q with level := Nat.min 3 (q.level + 1), atTop := if 3 ≤ q.level then q.atTop + 1 else q.atTop, since := now }

/-- AGING_INTERVAL: the queue heads and the bundle requests of a partition that have waited an interval rise by a level (R163, R239). -/
def execAgingInterval (part : Nat) (s : State) : Host.Outcome State Fault Refusal :=
  let n := (s.part part).paging.toNat * 1000
  if n = 0 then .next s
  else
    let heads := (List.range 4).filterMap fun q => (s.queueHead part q).map (·.id)
    .next { s with
      launches := s.launches.map fun (l : Launch) =>
        if l.part != part then l
        else if !heads.contains l.id then { l with agedAt := s.time }
        else if l.agedAt + n ≤ s.time then { l with aged := Nat.min 3 (l.aged + 1), agedAt := s.time } else l
      admissions := s.admissions.map fun (q : Admission) => if q.part = part ∧ q.since + n ≤ s.time then q.age s.time else q }

end Sys2Proof.Machine
end

