-- ==== Sys2Proof/Machine/Distrib.lean ====
section
/-!
DEFINITION. Beside placement: the lantern's passing (R196), pre-emption and saves (R254, R382 to R388), the report rings (R372, R373) and
fault policies (R368), handler launches (R370), the watchdog (R390, R391) and DUAL compare points (R393, R394).
-/

namespace Sys2Proof.Machine

/-! ## The lantern (R196) -/

/-- Whether a wait is that of an INVOKE for its packet's way out. -/
def BlockWhy.isPort : BlockWhy → Bool
  | .port _ _ _ _ => true
  | _ => false

/-- Whether every lantern operation of a wave has been performed. -/
def State.lanternClear (s : State) (t : Team) (w : Nat) : Bool :=
  !(s.posted.any fun p => p.team == t.id && p.wave == w && p.shared) && !(s.rmws.any fun m => m.team == t.id && m.wave == w) &&
  !((s.cores.flatMap fun c => c.queues.flatMap fun q => q.cmds).any fun c => c.team == t.id && c.wave == w && c.shared) &&
  !(t.held.any fun x => x.2.wave == w && x.2.shared) &&
  !(s.sumpWrites.any fun x => x.team == t.id && x.wave == w && !x.written) &&
  !(((t.waves[w]?).map Wave.blocks).getD []).any BlockWhy.isPort

/-- The next logical wave after `v`, wrapping, that has not exited; none when every wave has. -/
def Launch.nextWave (l : Launch) (v : Nat) : Option Nat :=
  let n := l.waveCount
  if n ≤ l.exited.length then none
  else (List.range (l.exited.length + 1)).findSome? fun i =>
    let u := (v + 1 + i) % n
    if l.exited.contains u then none else some u

/-- LANTERN_PASS (R196): the lantern of a launch passes once its last holder's operations are performed. -/
def execLanternPass (launch : Nat) (s : State) : Host.Outcome State Fault Refusal :=
  match s.launch? launch with
  | none => .next s
  | some l =>
    match l.lantern with
    | some (.passing v) =>
      let k := v / l.region.waves
      let holder := (s.teams ++ s.saved).find? fun t => t.launch == some l.id && t.logical == k && !t.gone && t.performs
      if !((holder.map fun t => s.lanternClear t (v % l.region.waves)).getD true) then .next s
      else
        let next := match l.nextWave v with
          | none => Lantern.retired
          | some u => if (s.resident l).any fun t => t.logical == u / l.region.waves then .at u else .awaiting u
        let s := s.updLaunch l.id fun l => { l with lantern := some next }
        .next (((s.launch? l.id).map fun l => s.displace l).getD s)
    | some (.awaiting _) => .next (s.displace l)
    | _ => .next s

/-! ## Pre-emption and saves (R382 to R388) -/

/-- PREEMPT_REQUEST (R382). -/
def execPreemptRequest (teams : List Nat) (s : State) : Host.Outcome State Fault Refusal := .next (s.requestPreempt teams)

/-- BARRIER_LIMIT (R382): once %pbarlim has passed since the request, the waves of a team to be saved that still run towards a partly arrived
barrier halt too. -/
def execBarrierLimit (team : Nat) (s : State) : Host.Outcome State Fault Refusal :=
  .next (s.updTeam team fun t =>
    if t.preempt ∧ t.preemptAt + (s.part (s.partOf t)).pbarlim.toNat ≤ s.time then { t with limitPassed := true } else t)

/-- The words of a 1 KiB region as one literal token, the coding that never exceeds its bound (R386). -/
def regionImage (k : Nat) (bs : List Byte) : List Byte := bytesLE 8 k ++ bytesLE 8 128 ++ bs ++ bytesLE 8 (3 * 2 ^ 62)

/-- The scratchpad image of a hardware save: each region written since launch, and the end word (R386, log entry 32). -/
def Team.image (t : Team) : List Byte :=
  ((sortBy (fun a b => decide (a ≤ b)) t.spadRegions).flatMap fun k => regionImage k (Memory.readN t.spad (k * 1024) 1024)) ++
    List.replicate 8 0xFF

/-- Bytes written by the device in a team's address space; a piece that no page maps is not written (log entry 32). -/
def State.imageWrite (s : State) (t : Team) (va : Nat) (bs : List Byte) : State :=
  (linePieces (bs.length / 64 + 2) va bs.length).foldl (fun s (a, n) =>
    match s.translateFor t a .write with
    | (s, .ok g) => if devOf g = s.ownDev ∧ !s.inWindow (localOf g) then s.writeHome (localOf g) ((bs.drop (a - va)).take n) else s
    | (s, .error _) => s) s

/-- Whether a ring's slot is being drained for a command of a team. -/
def State.drains? (s : State) (t : Team) : Bool :=
  let mine := ((s.core? t.core).map fun c => c.queues.flatMap fun q => (q.cmds.filter fun x => x.team == t.id).map (·.id)).getD []
  s.rings.any fun r => ((r.epi.bind (·.cmd)).any fun i => mine.contains i) && r.slots.any fun x => x.st == .draining

/-- Whether the waves of a team stand at run boundaries, its issued stores and RMWs are performed, and no matrix step or drain of a slot is
under way (R382, R383). -/
def State.quietTeam (s : State) (t : Team) : Bool :=
  s.teamPerformed t && !s.inStep t && !s.drains? t && t.waves.all fun w => w.run.isNone && w.runahead.isNone

/-- Whether a team to be saved has halted: no wave of it may still run on towards a partly arrived barrier (R382, R383). -/
def State.halted (s : State) (t : Team) : Bool :=
  t.preempt && !t.restoring && !t.gone && !t.ending && s.quietTeam t && !t.waves.any t.runsOn

/-- Whether every entry of a wave waits in an armed WAITC. -/
def Wave.inWaitc (w : Wave) : Bool :=
  w.frontier.all fun e => match e.st with
    | .blocked l => l.any fun y => match y with | .waitc a => a.armed | _ => false
    | _ => false

/-- Whether a team may be saved without a request: each wave of it that has not exited waits in WAITC (R254). A DUAL copy is kept (log entry 5). -/
def State.echoSaves (s : State) (t : Team) : Bool :=
  s.mayPreempt t && !t.preempt && !t.restoring && t.dual.isNone && s.quietTeam t && t.waves.any (fun w => !w.exited) &&
  t.waves.all fun w => w.exited || w.inWaitc

/-- The commands of a team in its core's queues, with their queues (R383). -/
def State.commandsOf (s : State) (t : Team) : List (Nat × Command) :=
  (List.range 9).flatMap fun q => (((s.queue? t.core q).map (·.cmds)).getD []).filterMap fun c => if c.team = t.id then some (q, c) else none

/-- The commands of a halted team leave its core's queues with the team, and its waves' turns end (R194, R383). -/
def State.detach (s : State) (t : Team) : State :=
  let s := t.waves.foldl (fun s w => s.endTurn t w.idx) s
  { s with cores := s.cores.map fun (c : Core) => if c.id = t.core then
      { c with queues := c.queues.map fun (q : Queue) => { q with cmds := q.cmds.filter fun x => x.team != t.id } } else c }

/-- A read in memory is dropped at a save, to be issued again (R383). -/
def LoadItem.again (i : LoadItem) : LoadItem :=
  match i.src with
  | .memory _ f h | .remote _ f h _ => { i with src := .reissue f h }
  | _ => i

/-- A wave as it is saved: its outstanding reads are recorded, to be issued again at the resume through the same addresses (R383, R384). -/
def Wave.saved (w : Wave) : Wave :=
  { w with loads := w.loads.map fun (l : Load) => { l with items := l.items.map LoadItem.again }
           recLoads := w.recLoads.map fun (r : RecLoad) => { r with reissue := true, sent := none, data := none, fault := none } }

/-- A halted team as it is saved, with its commands and the fences that its own later commands stand under (R279, R384). -/
def State.keptOf (s : State) (t : Team) : Team :=
  let held := s.commandsOf t
  let mine := held.map fun x => x.2.id
  { t with waves := t.waves.map Wave.saved, held := held, echo := !t.preempt,
           heldFences := (List.range 9).map fun q => (q, (((s.queue? t.core q).map (·.fence)).getD []).filter mine.contains) }

/-- A team leaves its core saved: `kept` is its state (R384), the scratchpad the one it has now. It returns to the front of its queue; one that
waits in WAITC does so once a compare ends a wait (R254, R389). -/
def State.finishSave (s : State) (t kept : Team) : State :=
  let u := { kept with spad := t.spad, spadRegions := t.spadRegions, preempt := false, limitPassed := false }
  let s := { s with teams := s.teams.filter fun x => x.id != t.id, saved := (s.saved.filter fun x => x.id != t.id) ++ [u] }
  match if kept.echo then none else t.launch with
  | none => s
  | some l => s.updLaunch l fun l => { l with
      savedTeams := if l.savedTeams.contains t.logical then l.savedTeams else t.logical :: l.savedTeams }

/-- TEAM_SAVE (R254, R383 to R386): a halted team, or one all of whose waves wait in WAITC, is saved. A scratchpad of 128 KiB or less is coded
into the save area; a larger one is copied by the waves in the partition's save entry, and the save ends when they have exited. -/
def execTeamSave (team : Nat) (s : State) : Host.Outcome State Fault Refusal :=
  match s.team? team with
  | none => .next s
  | some t =>
    match s.launchOf t, s.saved.find? fun u => u.id == t.id with
    | none, _ => .next s
    | some _, some u => .next (if s.halted t && t.waves.all Wave.exited then s.finishSave t u else s)
    | some l, none =>
      if !s.halted t && !s.echoSaves t then .next s
      else
        let (_, image) := l.region.saveSlot t.logical
        let kept := s.keptOf t
        let s := s.detach t
        if t.spadSize ≤ hardwareSpad || t.waves.all Wave.exited then .next ((s.imageWrite t image t.image).finishSave t kept)
        else .next { s.updTeam t.id fun t => { t.toHandlers (s.part l.part).psave image true with preempt := true } with
                     saved := s.saved ++ [kept] }

/-! ## Report rings (R372, R373) -/

/-- The 64 bytes of a record (R372). -/
def Report.bytes (r : Report) (time : Nat) (disp : Byte) : List Byte :=
  [0x10, BitVec.ofNat 8 r.kind, BitVec.ofNat 8 r.code, r.flg, (match r.ring with | some p => BitVec.ofNat 8 p | none => 0x80),
    BitVec.ofNat 8 r.die] ++ bytesLE 2 r.core ++ bytesLE 8 r.addr.toNat ++ bytesLE 8 time ++ bytesLE 8 r.rcb.toNat ++
  bytesLE 4 r.team.toNat ++ [BitVec.ofNat 8 r.wave, BitVec.ofNat 8 r.lane, disp, 0] ++ bytesLE 4 r.pc.toNat ++ bytesLE 4 r.aux.toNat ++
  bytesLE 8 r.aux2.toNat ++ List.replicate 8 0

/-- A record is gone from the device. -/
def State.dropReport (s : State) (id : Nat) : State := { s with reports := s.reports.filter fun r => r.id != id }

/-- Whether a record is a fault for a domain: KIND 0 without SUP, of a launch that is on the device (R366, R376). -/
def State.domainOf (s : State) (r : Report) : Option Launch :=
  if r.kind = 0 ∧ !r.flg.getLsbD 3 then r.launch.bind s.launch? else none

/-- What a fault under FDPOL 1 or, for `all`, 2 ends (R368, R371). -/
def State.endDomain (s : State) (l : Launch) (all : Bool) (f : FaultCode) : State :=
  let ids := if all then (s.launches.filter fun m => m.part == l.part).map (·.id) else [l.id]
  ids.foldl (fun s i => s.endLaunch i f) s

/-- A record that finds no ring is dropped and counted; a fault for a domain then ends the launch, as under FDPOL 1, and so does a missing page,
as if the supervisor had passed it to the domain (R372). -/
def State.dropRecord (s : State) (p : Nat) (r : Report) : State :=
  let n := s.nextId
  let s := s.updPart p fun q => { q with prdrop := satInc q.prdrop 1 }
  if r.kind ≠ 0 then s.dropReport r.id
  else if r.flg.getLsbD 3 then
    let s := (s.unresolved r).dropReport r.id
    let new := s.reports.filter fun x => decide (n ≤ x.id) && x.code == r.code
    new.foldl (fun s x => match x.launch.bind s.launch? with
      | some l => (s.dropReport x.id).endDomain l false .page
      | none => s.dropReport x.id) s.endFailed
  else
    match s.domainOf r with
    | some l => (s.dropReport r.id).endDomain l false (faultOf r.code)
    | none => s.dropReport r.id

/-- A record is written to a partition's ring, and the policy of its domain follows (R368, R372, R407). -/
def State.writePartRecord (s : State) (p : Nat) (r : Report) : State :=
  let q := s.part p
  let slot := q.prbase.toNat + 64 * (q.prtail.toNat % 2 ^ q.prsize.toNat)
  let pol := (s.domainOf r).map (·.region.fdpol)
  let s := s.writeHome slot (r.bytes s.time (if pol.any fun n => n != 0 then 2 else 0xFF))
  let s := (s.updPart p fun q => { q with prtail := q.prtail + 1 }).latchAll 1
  let keep := { s with reports := s.reports.map fun (x : Report) => if x.id = r.id then { x with index := some q.prtail } else x }
  match s.domainOf r with
  | none => if r.kind = 0 ∧ r.flg.getLsbD 3 then keep else s.dropReport r.id
  | some l =>
    if l.ending = some .watchdog then (s.dropReport r.id).checkLaunch l.id
    else if l.region.fdpol = 0 then { keep with handlers := keep.handlers ++ [r.id] }
    else ((s.dropReport r.id).endDomain l (l.region.fdpol == 2) (faultOf r.code)).checkLaunch l.id

/-- Whether a record must wait for another one: asynchronous records of fabric-global addresses keep their order (R440). -/
def State.reportWaits (s : State) (r : Report) : Bool :=
  let after := fun (x : Report) => x.ring == r.ring && x.index.isNone && x.flg.getLsbD 2 && x.flg.getLsbD 4
  after r && ((s.reports.takeWhile fun x => x.id != r.id).any after)

/-- REPORT_RECORD_WRITE (R372, R373): a record is written to its ring; with a full ring KIND 0 to 3 wait and KIND 4 is dropped. -/
def execReportRecordWrite (report : Nat) (s : State) : Host.Outcome State Fault Refusal :=
  match s.reports.find? fun r => r.id == report && r.index.isNone with
  | none => .next s
  | some r =>
    if s.reportWaits r then .next s
    else
      match r.ring with
      | some p =>
        let q := s.part p
        if q.prbase = 0 then .next (s.dropRecord p r)
        else if 2 ^ q.prsize.toNat ≤ (q.prtail - q.prhead).toNat then
          .next (if r.kind = 4 then (s.updPart p fun q => { q with prdrop := satInc q.prdrop 1 }).dropReport r.id else s)
        else .next (s.writePartRecord p r)
      | none =>
        let gone := s.dropReport r.id
        if s.drbase = 0 then .next { gone with drdrop := satInc s.drdrop 1 }
        else if 2 ^ s.drsize.toNat ≤ (s.drtail - s.drhead).toNat then
          .next (if r.kind = 4 then { gone with drdrop := satInc s.drdrop 1 } else s)
        else
          let slot := s.drbase.toNat + 64 * (s.drtail.toNat % 2 ^ s.drsize.toNat)
          let t := gone.writeHome slot (r.bytes s.time 0xFF)
          .next (({ t with drtail := t.drtail + 1 } : State).latchAll 1)

/-! ## Handler launches (R370) -/

/-- The region of a handler launch (R370). -/
def Region.handler (r : Region) : Region :=
  { r with ord := false, dual := false, nofair := false, preempt := false, task := false, prio := 3, width := 16, nregs := 64, curve := 0,
           tile := 0, serpentine := false, dualn := 0, waves := 1, gang := 0, tags := 0, spad := 0, cores := 1, blines := 0, rslots := 0,
           budgets := [], gx := 1, gy := 1, entry := r.fdh, fdpol := 1, fair := 4096 }

/-- The physical address of a partition's written record. -/
def State.recordAddr (s : State) (p : Nat) (index : Word) : Nat :=
  (s.part p).prbase.toNat + 64 * (index.toNat % 2 ^ (s.part p).prsize.toNat)

/-- HANDLER_LAUNCH (R370): the handler launch of a report enters queue 3 when it has room, in the order of the reports. -/
def execHandlerLaunch (handler : Nat) (s : State) : Host.Outcome State Fault Refusal :=
  match s.reports.find? fun r => r.id == handler && s.handlers.contains r.id with
  | none => .next s
  | some r =>
    let ringOf := fun (i : Nat) => (s.reports.find? fun x => x.id == i).bind (·.ring)
    match r.ring, r.index, r.launch.bind s.launch? with
    | some p, some i, some l =>
      if !s.queueHasRoom p 3 || (s.handlers.find? fun j => ringOf j == some p) != some r.id then .next s
      else
        let a := s.recordAddr p i
        let h : Launch :=
          { l with source := .handler r.id, queue := 3, aged := 0, agedAt := s.time, region := l.region.handler,
                   args := [BitVec.ofNat 32 a, BitVec.ofNat 32 (a / 2 ^ 32)] ++ List.replicate 10 0, bundles := [], walk := 0, nextTeam := 0,
                   savedTeams := [], ended := 0, lantern := none, entryDies := [], ending := none, range := none, exited := [], gangs := [],
                   after := [] }
        .next ((({ s with handlers := s.handlers.filter (· != r.id) } : State).enterQueue h).checkLaunch l.id)
    | _, _, _ => .next s

/-! ## The watchdog (R390, R391) -/

/-- WATCHDOG_EXPIRY: the timer of a launch queue has expired; the partition is reset (R390 to R392). -/
def execWatchdogExpiry (part prio : Nat) (s : State) : Host.Outcome State Fault Refusal :=
  match ((s.part part).timers[prio]?).join with
  | none => .next s
  | some (_, at_, ms) =>
    if s.time < at_ + ms * 1000000 || (s.part part).resetting.isSome then .next s
    else .next (s.beginReset part 17 (((s.queueLaunches part prio).head?.map (·.region.block)).getD 0) none)

/-! ## DUAL (R393, R394) -/

/-- The request that a wave stands at: its index, the word, the lanes, and what the word reads in each (R393). -/
def Team.requestAt (t : Team) (w : Nat) : Option (Nat × Instr × BitVec 64 × List (List Word)) :=
  match t.waves[w]? with
  | none => none
  | some v =>
    match v.run with
    | none => none
    | some r =>
      match r.words[r.idx]? with
      | none => none
      | some i =>
        let c : Issue := { team := t, wave := v, run := r }
        some (w, i, r.mask, c.lanes.map fun l =>
          (Instr.sources v.esz i).flatMap fun (f, n) => (List.range n).map fun k => (c.ctx 1 l).grp f k)

/-- The buffered stores of a DUAL primary are performed as its own, in order; both buffers are empty again (R393). -/
def State.commitStream (s : State) (p q : Team) : State :=
  let w := ((p.dual.bind (·.atPoint))).getD 0
  let s := ((p.dual.map (·.stream)).getD []).foldl (fun s (x : DualStore) => s.postAs x.id p w x.pa x.bytes x.va false false) s
  [p.id, q.id].foldl (fun s i => s.updTeam i fun t => { t with dual := t.dual.map fun d => { d with stream := [] } }) s

/-- The mismatch of a DUAL pair: reported to the domain and the supervisor, and the launch ends (R394, R396). -/
def State.dualMismatch (s : State) (p : Team) : State :=
  let (id, s) := s.fresh
  let r := s.faultReport p (((p.dual.bind (·.atPoint))).getD 0) { code := .dualMismatch } false false id
  let s := (s.addReport r).deviceCopy r none
  match p.launch with
  | some l => s.endLaunch l .dualMismatch
  | none => s

/-- DUAL_COMPARE (R393): both copies of a pair stand at a compare point; their streams and their requests are compared. On a match the
primary's stores are performed and it may pass; the secondary follows it with the same result. -/
def execDualCompare (team : Nat) (s : State) : Host.Outcome State Fault Refusal :=
  let one := s.team? team
  match one, one.bind fun t => t.dual.bind fun d => s.team? d.peer with
  | some a, some b =>
    let (p, q) := if a.performs then (a, b) else (b, a)
    match p.dual, q.dual with
    | some d, some e =>
      match d.atPoint, e.atPoint with
      | some w, some v =>
        if d.passed || e.passed || p.ending then .next s
        else if d.stream.map (fun x => (x.pa, x.bytes)) == e.stream.map (fun x => (x.pa, x.bytes)) && p.requestAt w == q.requestAt v then
          .next ((s.commitStream p q).updTeam p.id fun t => { t with dual := t.dual.map fun d => { d with passed := true } })
        else .next (s.dualMismatch p)
      | _, _ => .next s
    | _, _ => .next s
  | _, _ => .next s

end Sys2Proof.Machine
end

