-- ==== Sys2Proof/Machine/Sumps.lean ====
section
/-!
DEFINITION. Sump queues: the node control block (R347), SUMPW and its record's write (R348, R364), triggers and ranges (R349, R350), SUMPX
(R365); and the fill of bundles (R241, R242, R244, R245).
-/

namespace Sys2Proof.Machine

/-! ## The node control block (R347) -/

/-- A node control block as it lies at its home. -/
structure NodeBlock where
  rsz : Nat
  prio : Nat
  own : Nat
  cap : Nat
  qbase : Nat
  tmpl : DWord
  tile : Nat
  flush : Nat
  head : Nat
  cut : Nat
  tail : Nat
  arr : Nat
  deriving DecidableEq, Repr

/-- The block in 64 bytes. -/
def NodeBlock.ofBytes (b : List Byte) : NodeBlock :=
  { rsz := fieldLE b 1 1, prio := bitsOf (fieldLE b 2 1) 0 2, own := fieldLE b 3 1, cap := fieldLE b 4 4, qbase := fieldLE b 8 8,
    tmpl := field64 b 16, tile := fieldLE b 24 4, flush := fieldLE b 28 4, head := fieldLE b 32 8, cut := fieldLE b 40 8,
    tail := fieldLE b 48 8, arr := fieldLE b 56 8 }

/-- The block at a physical address. -/
def State.node (s : State) (pa : Nat) : NodeBlock := NodeBlock.ofBytes (s.peek pa 64)

/-- Record size in bytes. -/
def NodeBlock.size (n : NodeBlock) : Nat := 64 * 2 ^ n.rsz

/-- OWN valid. -/
def NodeBlock.owned (n : NodeBlock) : Bool := n.own.testBit 4

/-- The owning partition. -/
def NodeBlock.part (n : NodeBlock) : Nat := n.own % 16

/-- The checks of a block: VERSION, then ILLEGAL for a reserved value or a field outside its range (R12, R347). -/
def blockFault (b : List Byte) : Option FaultCode :=
  let n := NodeBlock.ofBytes b
  if !versionOk (b.getD 0 0) then some .version
  else if 2 < n.rsz || (minorZero (b.getD 0 0) && fieldLE b 2 1 / 4 != 0) || n.own / 32 != 0 || n.cap < 1 || 2 ^ 24 < n.cap ||
      n.qbase % n.size != 0 || n.tile < 1 || n.cap < n.tile || 1000000 < n.flush then some .illegal
  else none

/-! ## Triggers (R349, R350) -/

/-- A range leaves for a launch: CUT moves past it and the node remembers it until it is released. -/
def State.takeRange (s : State) (pa : Nat) (r : SumpRange) : State :=
  let s := s.writeHome (pa + 40) (bytesLE 8 (r.start + r.count))
  { s with sumps := s.sumps.map fun (m : SumpNode) => if m.pa = pa then
      { m with ranges := m.ranges ++ [r], times := m.times.drop r.count, pending := false } else m }

/-- The range that a node would launch now: a full tile, or what has waited for the flush time. -/
def State.sumpDue (s : State) (m : SumpNode) (n : NodeBlock) : Option SumpRange :=
  let k := n.arr - n.cut
  if n.tile ≤ k then some { node := m.pa, start := n.cut, count := n.tile, released := 0 }
  else if 0 < k ∧ 0 < n.flush ∧ (m.times.headD s.time) + n.flush * 1000 ≤ s.time then
    some { node := m.pa, start := n.cut, count := k, released := 0 }
  else none

/-- The checks of R349, repeated while they launch; a launch that finds its queue full stays pending. -/
def State.sumpTrigger (pa : Nat) : Nat → State → State
  | 0, s => s
  | fuel + 1, s =>
    match s.sumps.find? fun m => m.pa == pa with
    | none => s
    | some m =>
      let n := s.node pa
      match if n.owned then s.sumpDue m n else none with
      | none => s
      | some r =>
        let o : Offer := { id := 0, part := n.part, template := n.tmpl, source := .sump r, after := [], args := none, prio := some n.prio }
        match s.accept o with
        | (s, .full) => { s with sumps := s.sumps.map fun (m : SumpNode) => if m.pa = pa then { m with pending := true } else m }
        | (s, .accepted) => State.sumpTrigger pa fuel (s.takeRange pa r)
        | (s, .refused rcb f) => State.sumpTrigger pa fuel ((s.takeRange pa r).tellRefused o rcb (some f))

/-- All the checks of a node. -/
def State.sumpChecks (s : State) (pa : Nat) : State := State.sumpTrigger pa ((s.node pa).arr - (s.node pa).cut + 1) s

/-- ARR of a node after a record has been written: the lowest sequence number that is not, or TAIL (R348). -/
def State.sumpAdvance (s : State) (pa : Nat) : State :=
  let n := s.node pa
  let mine := s.sumpWrites.filter fun x => x.node == pa && !x.written
  let arr := (leastOf (mine.map (·.seqno))).getD n.tail
  if arr ≤ n.arr then s
  else
    let s := { s with
      sumpWrites := s.sumpWrites.filter fun x => !(x.node == pa && x.written && decide (x.seqno < arr))
      sumps := s.sumps.map fun (m : SumpNode) => if m.pa = pa then { m with times := m.times ++ List.replicate (arr - n.arr) s.time } else m }
    (s.writeHome (pa + 56) (bytesLE 8 arr)).sumpChecks pa

/-! ## SUMPW and SUMPX (R364, R365) -/

/-- The result of a wave-scoped request of the secondary copy of a DUAL pair: what the primary's request has given (R393). -/
def State.sharedStatus (s : State) (c : Issue) (d : Reg) : State :=
  let got := do
    let e ← c.team.dual
    let q ← e.shares
    let w ← s.wave? e.peer c.wave.idx
    let l ← w.loads.find? fun (l : Load) => l.seq == q
    let i ← l.items.head?
    some (q, i.src)
  match got with
  | none => s.turnStatus c d 0
  | some (q, src) =>
    let (new, s) := s.addLoad c (c.phys d) false (fun _ => src) none
    s.updCur fun w => { w with loads := w.loads.map fun (l : Load) => if l.seq = new then { l with seq := q } else l }

/-- Writes of a core to a line that have not reached its home are made there: what a sump unit does to a block follows them (R260). -/
def State.flushLine (s : State) (core line : Nat) : State :=
  (s.postedOf core).foldl (fun s p => if lineOf p.pa = line then s.applyWrite p else s) s

/-- The block that a sump instruction names: its local address, none for a block of another device, or the fault (R347, R364, R424). -/
def State.nodeFor (s : State) (t : Team) (va : Nat) : State × Except (FaultCode × Option Nat × Word) (Option Nat) :=
  match s.translateFor t va .rmw with
  | (s, .error f) => (s, .error (f, some va, 0))
  | (s, .ok g) =>
    let pa := localOf g
    if devOf g ≠ s.ownDev then (s, .ok none)
    else if s.inWindow pa then (s, .error (.accState, some va, 0))
    else
      match s.lineFault pa with
      | some f => (s, .error (f, some va, 0))
      | none => (s, .ok (some pa))

/-- A record is appended (R348): it takes the sequence number TAIL, the block's owner is set if it has none, and its write is outstanding. A
block without an owner begins afresh. -/
def State.append (s : State) (c : Issue) (d : Reg) (pa : Nat) (n : NodeBlock) (bytes : List Byte) : State :=
  let s := if n.owned then s else
    { s with sumpWrites := s.sumpWrites.filter fun x => x.node != pa, sumps := s.sumps.filter fun m => m.pa != pa }
  let s := if n.owned then s else s.writeHome (pa + 3) [BitVec.ofNat 8 (16 + s.partOf c.team)]
  let s := s.writeHome (pa + 48) (bytesLE 8 (n.tail + 1))
  let s := if s.sumps.any fun m => m.pa == pa then s else
    let busy := s.sumps.countP fun m => m.timed && sliceOf m.pa == sliceOf pa && homeDie m.pa == homeDie pa
    { s with sumps := s.sumps ++ [{ pa := pa, times := [], timed := decide (busy < 64), checkedAt := s.time, ranges := [], pending := false }] }
  let (id, s) := s.fresh
  let (seq, s) := s.addLoad c (c.phys d) false (fun _ => .sump id) none
  { s with sumpWrites := s.sumpWrites ++ [{
      id := id, node := pa, seqno := n.tail, bytes := bytes, team := c.team.id, wave := c.wave.idx, written := false, load := seq,
      pc := c.pc, lane := c.lowest.getD 0, blocked := none, fault := none }] }

/-- SUMPW to a block of another device: its sump unit appends the record or refuses it, and what it answers is free (log entry 33). -/
def State.farStatus (s : State) (c : Issue) (d : Reg) : State :=
  let (v, s) := s.free
  s.turnStatus c d (if v.getLsbD 0 then 1 else 0)

/-- SUMPW (R348, R364). -/
def execSumpw (d a b : Reg) (s : State) : Host.Outcome State Fault Refusal :=
  memWaveOp (.sumpw d a b) (fun c x s =>
    let va := (x.pair a).toNat
    let off := (x.reg b).toNat
    if va % 64 ≠ 0 then (s, .error (.align, some va, 0))
    else if off % 64 ≠ 0 then (s, .error (.align, none, 0))
    else
      match s.nodeFor c.team va with
      | (s, .error e) => (s, .error e)
      | (s, .ok none) => (if c.team.performs then s.farStatus c d else s.sharedStatus c d, .ok ())
      | (s, .ok (some pa)) =>
        let s := s.flushLine c.team.core pa
        let n := s.node pa
        match blockFault (s.peek pa 64) with
        | some f => (s, .error (f, some va, 0))
        | none =>
          if n.owned && n.part != s.partOf c.team then (s, .error (.prot, some va, 0))
          else if c.team.spadSize < off + n.size then (s, .error (.bounds, none, 0))
          else if !c.team.performs then (s.sharedStatus c d, .ok ())
          else if n.cap ≤ n.tail - n.head then (s.turnStatus c d 1, .ok ())
          else if c.team.spadError off n.size then (s, .error (.eccUncorr, none, 2))
          else (s.append c d pa n (c.team.spadRead off n.size), .ok ())) s

/-- SUMPX (R350, R365): D receives the number of records of the range that are still held. A team that is not a sump launch of the node at the address
raises ILLEGAL, whatever lies there. -/
def execSumpx (d a b : Reg) (s : State) : Host.Outcome State Fault Refusal :=
  memWaveOp (.sumpx d a b) (fun c x s =>
    let va := (x.pair a).toNat
    match (s.launchOf c.team).bind (·.range), s.translateFor c.team va .rmw with
    | none, _ => (s, .error (.illegal, some va, 0))
    | some _, (s, .error f) => (s, .error (f, some va, 0))
    | some r, (s, .ok g) =>
      if g ≠ s.ownDev * 2 ^ 43 + r.node then (s, .error (.illegal, some va, 0))
      else
        match s.lineFault r.node with
        | some f => (s, .error (f, some va, 0))
        | none =>
          if !c.team.performs then (s.sharedStatus c d, .ok ())
          else
            let s := s.releaseRange r (x.reg b).toNat
            let left := ((s.sumps.find? fun m => m.pa == r.node).bind fun m => m.ranges.find? fun y => y.start == r.start).map fun y =>
              y.count - y.released
            (s.turnStatus c d (BitVec.ofNat 32 (left.getD 0)), .ok ())) s

/-! ## The record's write (R348, R364) -/

/-- Replace the outstanding write of a sump record. -/
def State.updSump (s : State) (id : Nat) (f : SumpWrite → SumpWrite) : State :=
  { s with sumpWrites := s.sumpWrites.map fun (x : SumpWrite) => if x.id = id then f x else x }

/-- The lanes that wait for a record's status. -/
def State.sumpLanes (s : State) (x : SumpWrite) : List Nat :=
  ((((s.wave? x.team x.wave).bind fun w => w.loads.find? fun l => l.seq == x.load).map fun l => l.items.map (·.lane)).getD [])

/-- A record's write has met a fault: the issuing entry is parked, and the write waits for its disposition (R364, R367). A PAGE that the
supervisor has not resolved goes to the domain. -/
def State.sumpFault (s : State) (x : SumpWrite) (f : FaultCode) (addr : DWord) : State :=
  let id := s.nextId
  match s.lateFault x.team x.wave { code := f, lane := x.lane, addr := some addr, pc := x.pc } (s.sumpLanes x) none .goOn with
  | none => s
  | some s =>
    let s := { s with reports := s.reports.map fun (r : Report) => if r.id = id then { r with flg := r.flg &&& 0xF7 } else r }
    s.updSump x.id fun x => { x with fault := none, blocked := some id }

/-- Where a record goes, with the access rights of the issuing team: a fabric-global address, or a fault. -/
def State.sumpTarget (s : State) (t : Team) (va : Nat) : State × Except FaultCode Nat :=
  match s.translateFor t va .write with
  | (s, .error f) => (s, .error f)
  | (s, .ok g) => if devOf g = s.ownDev ∧ s.inWindow (localOf g) then (s, .error .accState) else (s, .ok g)

/-- A record has been written to its slot: its lanes receive 0, in both copies of a DUAL pair. -/
def State.recordWritten (s : State) (x : SumpWrite) : State :=
  let s := s.updSump x.id fun x => { x with written := true, sent := none }
  ((s.copiesOf x.team).foldl (fun s t => s.answerLoad t x.wave x.load 0) s).sumpAdvance x.node

/-- Virtual address of the slot that a record takes (R364). -/
def State.slotVa (s : State) (x : SumpWrite) : Nat :=
  let n := s.node x.node
  n.qbase + x.seqno % n.cap * n.size

/-- A record is written to its slot, line by line: at a home on this device at once, to another one it is sent, and is written when every line
has been acknowledged (R424). Without a route the write meets a link fault (R429). -/
def State.putRecord (s : State) (x : SumpWrite) (g : Nat) : State :=
  let lines := (List.range (x.bytes.length / 64)).map fun k => (g + 64 * k, sliceBytes x.bytes (64 * k) 64)
  if devOf g = s.ownDev then (lines.foldl (fun s l => s.writeHome (localOf l.1) l.2) s).recordWritten x
  else if !s.hasRoute (devOf g) then s.updSump x.id fun x => { x with fault := some (.remoteTimeout, BitVec.ofNat 64 (s.slotVa x)) }
  else
    let (req, s) := s.fresh
    (lines.foldl (fun s l => s.send (devOf g) (homeDie x.node) 2 (.access req (BitVec.ofNat 64 l.1) (.store (whole l.2)))) s).updSump x.id
      fun x => { x with sent := some (req, g, lines.length) }

/-- The record whose write to another device is under way under a request. -/
def State.sumpSent (s : State) (req : Nat) : Option SumpWrite := s.sumpWrites.find? fun x => (x.sent.map (·.1)) == some req

/-- A line of such a record has been written. -/
def State.sumpAcked (s : State) (x : SumpWrite) : State :=
  match x.sent with
  | some (req, g, n + 2) => s.updSump x.id fun x => { x with sent := some (req, g, n + 1) }
  | _ => s.recordWritten x

/-- Such a record cannot be written: the fault is raised at its SUMPW (R364). -/
def State.sumpRefused (s : State) (f : FaultCode) (x : SumpWrite) : State :=
  s.updSump x.id fun x => { x with sent := none, fault := some (f, BitVec.ofNat 64 (s.slotVa x)) }

/-- SUMP_RECORD_WRITE (R348, R364): a record's write to its slot is performed, after the writes of its wave that precede its SUMPW (R283). -/
def execSumpRecordWrite (write : Nat) (s : State) : Host.Outcome State Fault Refusal :=
  match s.sumpWrites.find? fun x => x.id == write && !x.written && x.blocked.isNone && x.sent.isNone with
  | none => .next s
  | some x =>
    match s.team? x.team, s.wave? x.team x.wave with
    | some t, some w =>
      if s.secondaryLags x.team || !s.performed ((s.wavePending t.id w).filter fun i => decide (i < x.id)) then .next s
      else
        match x.fault with
        | some (f, a) => .next (s.sumpFault x f a)
        | none =>
          let va := s.slotVa x
          match s.sumpTarget t va with
          | (s, .ok g) => .next (s.putRecord x g)
          | (s, .error f) =>
            if f = .page ∧ !t.isSup then
              let (id, s) := s.fresh
              let info : FaultInfo := { code := f, lane := x.lane, addr := some (BitVec.ofNat 64 va), pc := x.pc }
              .next ((s.addReport (s.faultReport t x.wave info true false id)).updSump x.id fun x => { x with blocked := some id })
            else .next (s.sumpFault x f (BitVec.ofNat 64 va))
    | _, _ => .next s

/-- SUMP_CHECK (R349): every 10 µs, and while a trigger is pending, the checks of a node are made. -/
def execSumpCheck (node : Nat) (s : State) : Host.Outcome State Fault Refusal :=
  match s.sumps.find? fun m => m.pa == node with
  | none => .next s
  | some m =>
    if m.pending then .next (s.sumpChecks node)
    else if s.time < m.checkedAt + 10000 then .next s
    else
      .next (({ s with sumps := s.sumps.map fun (x : SumpNode) => if x.pa = node then { x with checkedAt := s.time } else x } :
        State).sumpChecks node)

/-- SUMP_FLUSH (R349): the flush timer of a node that holds one. -/
def execSumpFlush (node : Nat) (s : State) : Host.Outcome State Fault Refusal :=
  match s.sumps.find? fun m => m.pa == node with
  | none => .next s
  | some m => .next (if m.timed then s.sumpChecks node else s)

/-! ## Bundle fill (R241) -/

/-- What the fill of one virtual line comes to now: its physical line, a page that is missing, or a failure. -/
inductive FillLine where
  | placed (pl : Nat)
  | missing
  | failed (f : FaultCode)
  deriving DecidableEq, Repr

/-- The walk and the read of a line for an instance (R241): the line's fabric-global address. -/
def State.fillTarget (s : State) (b : BInst) (v : Nat) : FillLine :=
  match s.walk (s.instAsid b) (v * 64) with
  | .error .page => .missing
  | .error f => .failed f
  | .ok l =>
    let g := (l.pa + v * 64 % 2 ^ l.log) % 2 ^ 52
    let pa := localOf g
    if !l.allows .read || !s.exists? g then .failed .prot
    else if devOf g ≠ s.ownDev then .placed g
    else if s.inWindow pa then .failed .accState
    else
      match s.lineFault pa with
      | some f => .failed f
      | none => .placed g

/-- The line that a fill takes next: the first one that is not placed; while a missing page is being resolved, one whose walk does not miss
(R241). -/
def State.fillNext (s : State) (b : BInst) : Option (Nat × FillLine) :=
  (b.lines.filter fun l => l.2.isNone).findSome? fun l =>
    match s.fillTarget b l.1 with
    | .missing => if b.pageWait.isSome then none else some (l.1, .missing)
    | r => some (l.1, r)

/-- The KIND 0 record of a missing page of a fill (R241). -/
def State.fillReport (s : State) (b : BInst) (v : Nat) : Nat × State :=
  let (id, s) := s.fresh
  let l := s.holderLaunch b.creator
  let team := match b.creator with
    | .team i => (((s.teams ++ s.saved).find? fun t => t.id == i).map (·.linear)).getD 0
    | .launch _ => 0
  (id, s.addReport { Report.blank id (some ((l.map (·.part)).getD b.part)) 0 FaultCode.page.num with
    flg := reportFlg false true false true false, die := b.die, addr := BitVec.ofNat 64 (v * 64),
    rcb := (l.map fun l => l.region.block).getD 0, team := team, wave := b.wave, aux := b.handle })

/-- Whether a line finds a residency slot in its slice's carve, beside the slots that the other lines keep (R237, R242). -/
def State.slotFree (s : State) (b : BInst) (v pl : Nat) : Bool :=
  let rest := (s.insts.filter fun x => x.die == b.die).flatMap fun x =>
    if x.id = b.id then s.slotsOf { x with lines := x.lines.filter fun l => l.1 != v } else s.slotsOf x
  let taken := distinct rest
  taken.contains pl || decide (taken.countP (fun x => sliceOf x == sliceOf pl) < s.sliceRoom b.die)

/-- The copy of another device's line that a fill brings: its bytes are free (log entry 15). -/
def State.fillCopy (s : State) (die line : Nat) : State :=
  if s.bundleCopies.any fun c => c.holder == die && c.line == line then s
  else
    let (s, bs) := s.freeBytes 64
    { s with bundleCopies := { holder := die, line := line, data := bs, modified := false } :: s.bundleCopies }

/-- An instance after a line has been placed: the last one completes it (R245). A line that finds no slot in its slice waits for a free
one (R242). -/
def State.placeLine (s : State) (b : BInst) (v pl : Nat) : State :=
  if !s.slotFree b v pl then s else
  let ls := b.lines.map fun l => if l.1 = v then (v, some pl) else l
  let b := { b with lines := ls }
  let s := if devOf pl = s.ownDev then s.bindLine b.die (localOf pl) else s.fillCopy b.die pl
  if ls.any fun l => l.2.isNone then { s with insts := s.insts.map fun (x : BInst) => if x.id = b.id then b else x }
  else if b.st = .filling then
    s.releaseInst { b with st := .entered }
  else s.releaseInst b

/-- BUNDLE_FILL_LINE (R241, R245): the fill of an instance places its next line, reports a missing page or fails. -/
def execBundleFillLine (inst : Nat) (s : State) : Host.Outcome State Fault Refusal :=
  match s.insts.find? fun b => b.id == inst && b.failure.isNone && (b.st == .filling || b.st == .orphaned) with
  | none => .next s
  | some b =>
    match s.fillNext b with
    | none => .next s
    | some (v, .placed pl) => .next (s.placeLine b v pl)
    | some (v, .failed f) => .next (s.failInst b (f, BitVec.ofNat 64 (v * 64))).endFailed
    | some (v, .missing) =>
      let (id, s) := s.fillReport b v
      .next { s with insts := s.insts.map fun (x : BInst) => if x.id = b.id then { x with pageWait := some (v, id) } else x }

end Sys2Proof.Machine
end

