-- ==== Sys2Proof/Machine/Fabric.lean ====
section
/-!
DEFINITION. The fabric (R424 to R448): links and flows (LINK_REPLAY, LINK_TRAINING, PACKET_ARRIVAL, FLOW_DISCARD, ROUTE_LOST), accesses of
other devices (INBOUND_ACCESS) and their answers (REMOTE_TIMEOUT), invocations (INVOKE, INVOCATION_ARRIVAL, INVOCATION_SLOT_HEAD,
INVOKE_REPLY, INVOKE_LINK_TIMEOUT, OUTBOUND_PORT_FREE, HOST_SUBMISSION), token row frames (FRAME, FCHK), trace events (EVT) and the
failure of a die (DIE_FAILURE).
-/

namespace Sys2Proof.Machine

/-! ## The invocation packet (R432) -/

/-- PRIO. -/
def pktPrio (p : List Byte) : Nat := bitsOf (fieldLE p 1 1) 0 2
/-- WEND. -/
def pktWend (p : List Byte) : Bool := (fieldLE p 1 1).testBit 2
/-- HOST. -/
def pktHost (p : List Byte) : Bool := (fieldLE p 1 1).testBit 3
/-- The target device. -/
def pktDev (p : List Byte) : Nat := bitsOf (fieldLE p 2 2) 0 9
/-- HIDX. -/
def pktHidx (p : List Byte) : Nat := bitsOf (fieldLE p 4 2) 0 12
/-- The source device. -/
def pktSrc (p : List Byte) : Nat := bitsOf (fieldLE p 6 2) 0 9
/-- The source die. -/
def pktDie (p : List Byte) : Nat := bitsOf (fieldLE p 6 2) 9 2
/-- SEQ. -/
def pktSeq (p : List Byte) : Word := field32 p 8
/-- The reply tag, none for "no tag". -/
def pktTag (p : List Byte) : Option Nat := if (fieldLE p 13 1).testBit 7 then none else some (fieldLE p 13 1 % 64)
/-- The 12 argument words. -/
def pktArgs (p : List Byte) : List Word := (List.range 12).map fun i => field32 p (16 + 4 * i)

/-- Whether the reserved content of a header is zero, or excused by a minor version (R12, R432). -/
def pktClean (p : List Byte) : Bool :=
  !minorZero (p.getD 0 0) || (bitsOf (fieldLE p 1 1) 4 4 == 0 && bitsOf (fieldLE p 2 2) 9 7 == 0 && bitsOf (fieldLE p 4 2) 12 4 == 0 &&
    bitsOf (fieldLE p 6 2) 11 5 == 0 && !(fieldLE p 13 1).testBit 6 && zeroBytes p 14 2)

/-- Whether software has left the fields that the device writes, and RTAG, as 0 (R432, R444). -/
def pktUnwritten (p : List Byte) : Bool := !pktHost p && zeroBytes p 6 8

/-- A packet with the fields that the device writes (R432). -/
def pktFill (p : List Byte) (host : Bool) (dev die : Nat) (seq : Word) (score : Nat) (rtag : Byte) : List Byte :=
  [p.getD 0 0, (p.getD 1 0 &&& 0xF7) ||| (if host then 8 else 0)] ++ sliceBytes p 2 4 ++ bytesLE 2 (dev + die * 512) ++ bytesLE 4 seq.toNat ++
    [BitVec.ofNat 8 score, rtag] ++ sliceBytes p 14 50

/-- The target's answer to a packet: to a host's reply word, or to the issuing device (R435, R442). -/
def State.replyPacket (s : State) (p : List Byte) (st : Nat) : State :=
  if pktHost p then
    match pktTag p with
    | some t => s.hostReply t st
    | none => s
  else s.replyTo (pktSrc p) (pktTag p) (pktDie p) (pktSeq p) st

/-- Where a packet's launch comes from (R162). -/
def pktSource (p : List Byte) : Source :=
  if pktHost p then .host (pktTag p) (pktWend p) else .remote (pktSrc p) (pktTag p) (pktDie p) (pktSeq p) (pktWend p)

/-! ## The handler table and the queues (R433, R434) -/

/-- A valid entry of the handler table. -/
structure Handler where
  hosts : Bool
  part : Nat
  maxp : Nat
  tmpl : DWord
  deriving DecidableEq, Repr

/-- The entry of a handler index, none when HTAB is absent or the entry is not valid (R431, R433). -/
def State.handlerOf (s : State) (i : Nat) : Option Handler :=
  match s.htab with
  | none => none
  | some a =>
    let b := s.peek (a + 16 * i) 16
    let fl := fieldLE b 0 1
    if fl.testBit 0 && fl / 4 == 0 && fieldLE b 1 1 / 16 == 0 && fieldLE b 2 1 / 4 == 0 && zeroBytes b 3 5 && fieldLE b 8 8 % 128 == 0 then
      some { hosts := fl.testBit 1, part := fieldLE b 1 1 % 16, maxp := fieldLE b 2 1 % 4, tmpl := field64 b 8 }
    else none

/-- An invocation queue. -/
def State.invQueue (s : State) (q : Nat) : InvQueue := s.invQueues.getD q InvQueue.fresh

/-- Replace an invocation queue. -/
def State.updInv (s : State) (q : Nat) (f : InvQueue → InvQueue) : State := { s with invQueues := s.invQueues.modify q f }

/-- A packet is placed, ACCEPTED, or refused when neither a slot nor the ring has room (R434). -/
def State.placePacket (s : State) (q : Nat) (p : List Byte) : State :=
  let v := s.invQueue q
  let taken := fun s : State => if pktWend p then s else s.replyPacket p 2
  if v.slots.length < 64 ∧ v.head = v.tail then taken (s.updInv q fun v => { v with slots := v.slots ++ [p] })
  else
    match s.overflowRing q with
    | some (base, log) =>
      if v.tail - v.head < 2 ^ log then
        taken ((s.writeHome (base + 64 * (v.tail % 2 ^ log)) p).updInv q fun v => { v with tail := v.tail + 1 })
      else s.replyPacket p (FaultCode.status .remoteRefused)
    | none => s.replyPacket p (FaultCode.status .remoteRefused)

/-- A packet arrives at its target (R431, R434): its version, then its handler, then its queue. -/
def State.invocationArrives (s : State) (p : List Byte) : State :=
  if !versionOk (p.getD 0 0) then s.replyPacket p (FaultCode.status .version)
  else
    let s := s.noteBlock.noteFields s.badHtab
    match s.handlerOf (pktHidx p) with
    | none => s.replyPacket p (FaultCode.status .noHandler)
    | some h =>
      if !pktClean p || (pktHost p && !h.hosts) then s.replyPacket p (FaultCode.status .noHandler)
      else
        let q := 4 * h.part + Nat.min (pktPrio p) h.maxp
        (s.noteFields (s.badQueue q)).placePacket q p

/-- A slot is freed: the oldest entry of the overflow ring moves into it (R434). -/
def State.freeInvSlot (s : State) (q : Nat) : State :=
  let s := s.updInv q fun v => { v with slots := v.slots.drop 1 }
  let v := s.invQueue q
  match s.overflowRing q with
  | some (base, log) =>
    if v.head = v.tail then s
    else
      let p := s.peek (base + 64 * (v.head % 2 ^ log)) 64
      s.updInv q fun v => { v with slots := v.slots ++ [p], head := v.head + 1 }
  | none => s

/-- INVOCATION_ARRIVAL (R434). -/
def execInvocationArrival (packet : List Byte) (s : State) : Host.Outcome State Fault Refusal :=
  .next (if packet.length = 64 then s.invocationArrives packet else s)

/-- A packet whose handler has gone since it arrived is refused like one whose template is (log entry 35). -/
def State.handlerGone (s : State) (p : List Byte) : State :=
  if pktWend p then s.replyPacket p (FaultCode.status .noHandler)
  else
    let (v, s) := s.free
    s.inboundRecord FaultCode.noHandler.num v true true

/-- INVOCATION_SLOT_HEAD (R434): the oldest packet of a queue enters the launch queue of its priority when that has room. -/
def execInvocationSlotHead (queue : Nat) (s : State) : Host.Outcome State Fault Refusal :=
  match (s.invQueue queue).slots with
  | [] => .next s
  | p :: _ =>
    if !s.queueHasRoom (queue / 4) (queue % 4) then .next s
    else
      match s.handlerOf (pktHidx p) with
      | none => .next ((s.freeInvSlot queue).handlerGone p)
      | some h =>
        let o : Offer := { id := 0, part := queue / 4, template := h.tmpl, source := pktSource p, after := [], args := some (pktArgs p),
                           prio := some (queue % 4) }
        .next (match s.accept o with
          | (s, .full) => s
          | (s, .refused rcb f) => (s.freeInvSlot queue).tellRefused o rcb (some f)
          | (s, .accepted) => s.freeInvSlot queue)

/-! ## INVOKE (R444 to R446) -/

/-- A tag of a team, and of its DUAL peer, receives the link-fault status (R429, R445). -/
def State.linkFault (s : State) (team : Nat) (tag : Option Nat) : State :=
  (s.copiesOf team).foldl (fun s t => s.setTag t tag 3 false) s

/-- An INVOKE's packet leaves its core: into the target's queues for a self-invocation, else into the die's outbound port; none while
the port is full (R432, R444). Without a route that has feature bit 1 its status is LINK (R445). -/
def State.sendInvocation (s : State) (t : Team) (id : Nat) (p : List Byte) (tag : Option Nat) : Option State :=
  let dev := pktDev p
  let die := dieOf t.core
  let self := dev == s.ownDev
  let (s, ok) := if self then (s, true) else if s.hasRoute dev then s.routeHas dev 1 else (s, false)
  if !ok then some (s.linkFault t.id tag)
  else if !self && decide (64 ≤ s.outPort.countP fun x => x.die == die) then none
  else
    let (seq, s) := s.takeSeq dev die 3
    let rtag : Byte := match tag with
      | some k => BitVec.ofNat 8 k
      | none => 0x80
    let p := pktFill p false s.ownDev die seq (t.core % 100) rtag
    let s := if pktWend p then s else s.noteBlock.noteFields s.badPto
    let wait : List Invocation := tag.toList.map fun k =>
      { id := id, team := t.id, tag := k, wend := pktWend p, dev := dev, die := die, seq := seq, sentAt := s.time }
    let s := { s with invocations := s.invocations ++ wait }
    some (if self then s.invocationArrives p else { s with outPort := s.outPort ++ [{ die := die, dev := dev, bytes := p }] })

/-- INVOKE (R444, R446): the entry is Blocked from the trailer until its packet is handed over, which the writes that precede it go
before (R436). The secondary of a DUAL pair only takes the tag (R393). -/
def execInvoke (a b : Reg) (s : State) : Host.Outcome State Fault Refusal :=
  waveOp (.invoke a b) (fun c x s =>
    let off := (x.reg a).toNat
    if off % 64 ≠ 0 then .error { code := .align, lane := x.l }
    else if c.team.spadSize < off + 64 then .error { code := .bounds, lane := x.l }
    else if c.team.spadError off 64 then .error (spadEcc x.l)
    else
      let p := c.team.spadRead off 64
      if !versionOk (p.getD 0 0) then .error { code := .version, lane := x.l }
      else
        match if pktClean p && pktUnwritten p then c.team.tagOf (x.reg b) else .error .illegal with
        | .error f => .error { code := f, lane := x.l, aux := x.reg b }
        | .ok tag =>
          let (id, s) := s.fresh
          let s := s.ownTag c.team.id tag id
          let waits := s.scopeWaits (if pktDev p = s.ownDev then 2 else 3) (s.wavePending c.team.id c.wave)
          .ok (if c.team.performs then s.updRun fun r => r.blockOn (.port id waits p tag) else s)) s

/-- OUTBOUND_PORT_FREE (R444): the oldest packet of a die's outbound port goes to the links, or meets a link fault (R429). -/
def execOutboundPortFree (die : Nat) (s : State) : Host.Outcome State Fault Refusal :=
  match s.outPort.find? fun x => x.die == die with
  | none => .next s
  | some x =>
    let s := { s with outPort := s.outPort.erase x }
    .next (if s.hasRoute x.dev then
        { s with sent := s.sent ++ [{ dev := x.dev, die := die, cls := 3, seq := pktSeq x.bytes, body := .invocation x.bytes }] }
      else s.answerInvocation (fun v => v.dev == x.dev && v.die == die && v.seq == pktSeq x.bytes) 3)

/-- The statuses that a reply may bring to an invocation (R445). -/
def Invocation.takes (v : Invocation) (st : Nat) : Bool :=
  [FaultCode.remoteRefused.status, FaultCode.noHandler.status, FaultCode.version.status].contains st ||
    (if v.wend then st == 0 || decide (0x80 < st ∧ st ≤ 0x80 + 19) else st == 2)

/-- INVOKE_REPLY (R435, R445). -/
def execInvokeReply (inv status : Nat) (s : State) : Host.Outcome State Fault Refusal :=
  .next (s.answerInvocation (fun v => v.id == inv && v.takes status) status)

/-- INVOKE_LINK_TIMEOUT (R445): with WEND = 0, no reply has come within the port timeout. -/
def execInvokeLinkTimeout (inv : Nat) (s : State) : Host.Outcome State Fault Refusal :=
  .next (s.answerInvocation (fun v => v.id == inv && !v.wend && decide (v.sentAt + s.portTimeout ≤ s.time)) 3)

/-- The flow of the host's packets is told apart by a device number that no device has (R442). -/
def hostFlow : Nat := 512

/-- HOST_SUBMISSION (R442): a whole packet is filled in and handled as one from the fabric; anything else is counted. -/
def execHostSubmission (whole : Bool) (packet : List Byte) (s : State) : Host.Outcome State Fault Refusal :=
  if !whole || packet.length != 64 then .next { s with hostpw := satInc s.hostpw 1 }
  else
    let (seq, s) := s.takeSeq hostFlow 0 3
    .next (s.invocationArrives (pktFill packet true s.ownDev 0 seq 0xFF (packet.getD 13 0)))

/-! ## Accesses of other devices (R441) -/

/-- Whether an inbound access waits at its home: another write of its line has been ordered there and is not performed yet (R263). -/
def State.inboundWaits (s : State) (addr : DWord) : Bool := s.lineLocked (lineOf (localOf addr.toNat))

/-- Whether inbound accesses stall: a record of an inbound fault waits for room in its ring (R441). -/
def State.inboundStalls (s : State) : Bool :=
  s.reports.any fun r => r.index.isNone && r.core == 0xFFFF && r.flg.getLsbD 2 && r.flg.getLsbD 4 && r.ring.any fun p =>
    let q := s.part p
    q.prbase != 0 && decide (2 ^ q.prsize.toNat ≤ (q.prtail - q.prhead).toNat)

/-- Whether an access is an RMW. -/
def InboundOp.isRmw : InboundOp → Bool
  | .rmw _ _ _ _ _ => true
  | _ => false

/-- The fault that an inbound access meets at the home (R441); a store of a whole line clears a LOST mark (R423). -/
def State.inboundFault (s : State) (dev pa : Nat) (op : InboundOp) : State × Option FaultCode :=
  let wholeLine := match op with
    | .store bs => pa % 64 == 0 && bs.length == 64 && bs.all (·.isSome)
    | _ => false
  let reads := match op with
    | .store _ => false
    | _ => true
  let (s, feature) := if InboundOp.isRmw op then s.routeHas dev 0 else (s, true)
  (s, if s.inWindow pa then some .accState
    else if !inHbm pa || pa < 2048 then some .prot
    else if s.lost.contains (lineOf pa) && !wholeLine then some .lineLost
    else if reads && s.ecc.contains (lineOf pa) then some .eccUncorr
    else if !feature then some .prot
    else none)

/-- The bytes of a request, those that it does not write as they are. -/
def filled (bs : List (Option Byte)) (old : List Byte) : List Byte := bs.mapIdx fun i b => b.getD (old.getD i 0)

/-- An inbound access is checked and performed at its home, and answered (R424, R441). -/
def State.inbound (s : State) (dev req : Nat) (addr : DWord) (op : InboundOp) : State :=
  let pa := localOf addr.toNat
  let die := homeDie pa
  match s.inboundFault dev pa op with
  | (s, some f) => (s.inboundRecord f.num addr true true).send dev die 1 (.refused req addr f.num)
  | (s, none) =>
    match op with
    | .load n => s.send dev die 1 (.response req addr (s.peek pa n))
    | .store bs => (s.writeHome pa (filled bs (s.peek pa bs.length))).send dev die 1 (.ack req)
    | .rmw op f d cmp returns =>
      let n := Fmt.size f
      let old := natLE (s.peek pa n)
      let new := (rmwValue op f old (d.toNat % 2 ^ (8 * n)) (cmp.toNat % 2 ^ (8 * n))).1
      let s := if op = .cas ∧ old ≠ cmp.toNat % 2 ^ (8 * n) then s else s.writeHome pa (bytesLE n new)
      s.send dev die 1 (if returns then .response req addr (bytesLE n old) else .ack req)

/-- INBOUND_ACCESS (R441). -/
def execInboundAccess (dev req : Nat) (addr : DWord) (op : InboundOp) (s : State) : Host.Outcome State Fault Refusal :=
  .next (if dev = s.ownDev ∨ devOf addr.toNat ≠ s.ownDev ∨ s.inboundStalls ∨ s.inboundWaits addr then s else s.inbound dev req addr op)

/-! ## Answers to this device's accesses -/

/-- Replace the engine commands of the cores and of the saved teams. -/
def State.mapCommands (s : State) (f : Command → Command) : State :=
  { s with cores := s.cores.map fun (c : Core) => { c with queues := c.queues.map fun (q : Queue) => { q with cmds := q.cmds.map f } },
           saved := s.saved.map fun (t : Team) => { t with held := t.held.map fun (h : Nat × Command) => (h.1, f h.2) } }

/-- A command's read with an identity ends: with its data, or with a fault that ends the command (R330, R439). -/
def State.fetchEnds (s : State) (id : Nat) (r : Except FaultCode (List Byte)) : State :=
  s.mapCommands fun c =>
    match c.fetches.find? fun f => f.id == id, r with
    | none, _ => c
    | some _, .ok bs => { c with fetches := c.fetches.map fun (f : Fetch) => if f.id = id then { f with data := some bs } else f }
    | some f, .error e => { c with fault := some (c.fault.getD (e, BitVec.ofNat 64 f.addr)) }

/-- Items of a load that data at an address answer. -/
def LoadItem.answeredBy (i : LoadItem) (a n : Nat) : Bool :=
  match i.src with
  | .remote x f _ (some _) => decide (a ≤ x.toNat ∧ x.toNat + Fmt.size f ≤ a + n)
  | _ => false

/-- An item that data at an address answer, with its bytes. -/
def LoadItem.fill (i : LoadItem) (a : Nat) (bs : List Byte) : LoadItem :=
  match i.src with
  | .remote x f _ _ => { i with src := .remoteData (sliceBytes bs (x.toNat - a) (Fmt.size f)) f }
  | _ => i

/-- Whether an item's line may stay in the L2 as a scoped copy (R425). -/
def LoadItem.copies (i : LoadItem) : Bool :=
  match i.src with
  | .remote _ _ h _ => h != .byp
  | _ => false

/-- A load of a team, by its identity, with its wave. -/
def State.loadOf (s : State) (seq : Nat) : Option (Team × Wave × Load) :=
  (s.teams ++ s.saved).findSome? fun t => t.waves.findSome? fun w => (w.loads.find? fun l => l.seq == seq).map fun l => (t, w, l)

/-- Items of a load that data at an address answer take them, in lane order, with the core's own writes that precede them (R272). -/
def State.fillItems (t : Team) (w : Wave) (l : Load) (a : Nat) (bs : List Byte) : List LoadItem → State → State × List LoadItem
  | [], s => (s, [])
  | i :: is, s =>
    let (s, j) := match i.src with
      | .remote x f _ _ =>
        if i.answeredBy a bs.length then
          let n := Fmt.size f
          let lim := s.laterWrite t.id w.idx l.seq l.upTo x.toNat n
          (s.noteRead t w.idx i.regs x.toNat n lim, i.fill a (t.dualView a (s.farView t.core lim a bs)))
        else (s, i)
      | _ => (s, i)
    let (s, js) := State.fillItems t w l a bs is s
    (s, j :: js)

/-- The data of a line arrive for a load: its items take them, and the line stays in the L2 of the core's die as a scoped copy unless the
hint was .byp, with the die's own writes that have been sent since (R425). -/
def State.loadAnswered (s : State) (t : Team) (w : Wave) (l : Load) (a : Nat) (bs : List Byte) : State :=
  let keeps := a % 64 = 0 ∧ bs.length = 64 ∧ (l.items.filter fun i => i.answeredBy a bs.length).any LoadItem.copies
  let (s, items) := State.fillItems t w l a bs l.items s
  let s := s.updAny t.id w.idx fun w => w.mapLoad l.seq fun (l : Load) => { l with items := items }
  if keeps then
    let sent := s.posted.filter fun p => p.remote && p.applied && dieOf p.core == dieOf t.core
    let c : LineCopy := { holder := dieOf t.core, line := a, data := overlaid sent a bs, modified := false }
    { s with scopedCopies := c :: s.scopedCopies.filter fun x => !(x.holder == dieOf t.core && x.line == a) }
  else s

/-- The record load of a wave whose read of another device is under way, by its identity. -/
def State.recLoadOf (s : State) (seq : Nat) : Option (Team × Wave × RecLoad) :=
  (s.teams ++ s.saved).findSome? fun t => t.waves.findSome? fun w =>
    (w.recLoads.find? fun r => r.seq == seq && r.sent.isSome && r.data.isNone && r.fault.isNone).map fun r => (t, w, r)

/-- Its answer: the bytes, or a fault (R439, R441). -/
def State.recordAnswered (s : State) (t : Team) (w : Wave) (r : RecLoad) (v : Except FaultCode (List Byte)) : State :=
  s.updAny t.id w.idx fun w => { w with recLoads := w.recLoads.map fun x => if x.seq ≠ r.seq then x else
    match v with
    | .ok bs => { x with data := some bs }
    | .error f => { x with fault := some f } }

/-- The lanes of a request to another device, by its identity: an element's, of one instruction; of a CAS its own (R255). -/
def State.farRequest (s : State) (req : Nat) : List Rmw :=
  match s.rmws.find? fun m => m.id == req && m.remote with
  | some m => if m.op = .cas then [m] else s.rmws.filter fun x => x.remote && x.req == m.req
  | none => []

/-- Read-modify-writes of another device have been performed there: what they carried is noted, no copy of their line is older than they are, and the
copy that a bundle of their die holds has their result, free where it is not known (R270, R272, R425). -/
def State.farPerformed (s : State) (m : Rmw) (ms : List Rmw) (new : Option (List Byte)) : State :=
  let marks := ms.flatMap fun x => s.pastMark x.id x.core x.pa (Fmt.size x.fmt) x.carries
  let (s, bs) := match new with
    | some bs => (s, bs)
    | none => s.freeBytes (Fmt.size m.fmt)
  ((({ s with rmws := s.rmws.filter fun x => !ms.any (·.id == x.id)
              past := marks ++ s.past
              bundleCopies := s.bundleCopies.map fun (c : LineCopy) => if c.holder = dieOf m.core then c.patch m.pa (whole bs) else c } :
    State).dropScoped (dieOf m.core) (lineOf m.pa))).settleLeaves

/-- Data answer an access of this device; what nothing waits for any more is discarded (R439). None while it must wait (R393). -/
def State.answered (s : State) (req a : Nat) (bs : List Byte) : Option State :=
  match s.farRequest req with
  | m :: rest =>
    if s.secondaryLags m.team then none
    else
      let ms := m :: rest
      let n := Fmt.size m.fmt
      let old := natLE bs % 2 ^ (8 * n)
      let merged := decide (1 < ms.length)
      let new := (rmwValue m.op m.fmt old ((combined m rest).toNat % 2 ^ (8 * n)) (m.comparand.toNat % 2 ^ (8 * n))).1
      let s := s.farPerformed m ms (some (bytesLE n new))
      some ((memberAnswers m old ms merged).foldl (fun s (x, v, fl) => s.answerMember x v fl) s)
  | [] =>
    match s.loadOf req, s.recLoadOf req with
    | some (t, w, l), _ => some (s.loadAnswered t w l a bs)
    | none, some (t, w, r) =>
      let own := s.farView t.core (s.laterWrite t.id w.idx r.seq r.upTo r.pa 32) a bs
      some (s.recordAnswered t w r (.ok (sliceBytes own (r.pa - a) 32)))
    | none, none => some (s.fetchEnds req (.ok bs))

/-- A write of this device has been performed at its home. -/
def State.acked (s : State) (req : Nat) : State :=
  match s.posted.find? fun p => p.id == req && p.remote, s.sumpSent req with
  | some p, _ => s.dropPosted p
  | none, some x => s.sumpAcked x
  | none, none =>
    match s.farRequest req with
    | m :: rest => if m.load.isNone then s.farPerformed m (m :: rest) none else s
    | [] => s

/-- Items of a load that wait for a line of another device meet a fault; none while their lanes cannot be parked. -/
def State.loadFails (s : State) (t : Team) (w : Wave) (l : Load) (f : FaultCode) (is : List LoadItem) : Option State :=
  if is.isEmpty then some s
  else
    let s' := s.faultItems t.id w.idx l f none is
    if s'.loadOf l.seq = s.loadOf l.seq then none else some s'

/-- An access of this device is refused with a code (R440, R441): a posted write or RED is reported, a load or an RMW faults. -/
def State.accessRefused (s : State) (req a : Nat) (f : FaultCode) : Option State :=
  match s.posted.find? fun p => p.id == req && p.remote with
  | some p => some ((s.dropPosted p).asyncFault p.team p.wave f (BitVec.ofNat 64 p.pa) true)
  | none =>
    match s.rmws.find? fun m => m.id == req && m.remote with
    | some m =>
      let s' := s.refuseRmw f m
      if s'.rmws.any fun x => x.id == req then none else some s'
    | none =>
      match s.loadOf req, s.recLoadOf req, s.sumpSent req with
      | some (t, w, l), _, _ => s.loadFails t w l f (l.items.filter fun i => match i.src with
          | .remote x _ _ (some _) => lineOf x.toNat == lineOf a
          | _ => false)
      | none, some (t, w, r), _ => some (s.recordAnswered t w r (.error f))
      | none, none, some x => some (s.sumpRefused f x)
      | none, none, none => some (s.fetchEnds req (.error f))

/-- REMOTE_TIMEOUT (R439): a read, a record's read, a read-modify-write or a command's read that has not been answered in time. -/
def execRemoteTimeout (req : Nat) (s : State) : Host.Outcome State Fault Refusal :=
  let late := fun n : Nat => decide (n + s.portTimeout ≤ s.time)
  match s.rmws.find? fun m => m.id == req && m.remote with
  | some m => .next (if m.load.isSome && (m.sentAt.map late).getD false then s.refuseRmw .remoteTimeout m else s)
  | none =>
    match s.loadOf req, s.recLoadOf req with
    | some (t, w, l), _ =>
      .next ((s.loadFails t w l .remoteTimeout (l.items.filter fun i => match i.src with
        | .remote _ _ _ (some n) => late n
        | _ => false)).getD s)
    | none, some (t, w, r) => .next (if (r.sent.map late).getD false then s.recordAnswered t w r (.error .remoteTimeout) else s)
    | none, none =>
      let cmds := (s.cores.flatMap fun c => c.queues.flatMap fun q => q.cmds) ++ s.saved.flatMap fun t => t.held.map (·.2)
      .next (if cmds.any fun c => c.fetches.any fun f => f.id == req && f.data.isNone && late f.sentAt then
        s.fetchEnds req (.error .remoteTimeout) else s)

/-! ## Flows (R428) -/

/-- A packet is delivered; none while it must wait. -/
def State.deliver (s : State) (dev : Nat) : FabricBody → Option State
  | .access req addr op =>
    if devOf addr.toNat ≠ s.ownDev then some s
    else if s.inboundStalls || s.inboundWaits addr then none
    else some (s.inbound dev req addr op)
  | .response req a bs => s.answered req a.toNat bs
  | .refused req a code => s.accessRefused req a.toNat (faultOf code)
  | .ack req => some (s.acked req)
  | .invocation p => some (if p.length = 64 then s.invocationArrives p else s)
  | .reply die seq st => some (s.answerInvocation (fun v => v.dev == dev && v.die == die && v.seq == seq && v.takes st) st)

/-- Whether a flow is the inbound one of a device, die and class. -/
def Flow.inboundOf (dev die cls : Nat) (f : Flow) : Bool := !f.out && f.dev == dev && f.die == die && f.cls == cls

/-- Replace an inbound flow. -/
def State.updFlow (s : State) (dev die cls : Nat) (f : Flow → Flow) : State :=
  { s with flows := s.flows.map fun (g : Flow) => if g.inboundOf dev die cls then f g else g }

/-- The packets of an inbound flow that stand in sequence are delivered, at most `n` of them. -/
def State.pump (dev die cls : Nat) : Nat → State → State
  | 0, s => s
  | n + 1, s =>
    match s.flows.find? (Flow.inboundOf dev die cls) with
    | none => s
    | some f =>
      match f.early.find? fun p => p.1 == f.next with
      | none => s
      | some p =>
        match s.deliver dev p.2 with
        | none => s
        | some s =>
          State.pump dev die cls n (s.updFlow dev die cls fun g =>
            { g with next := g.next + 1, early := g.early.filter fun x => x.1 != p.1 })

/-- PACKET_ARRIVAL (R428): a packet that has been delivered before is discarded, one that is early is held, and those in sequence are
delivered. -/
def execPacketArrival (dev die cls : Nat) (seq : Word) (body : FabricBody) (s : State) : Host.Outcome State Fault Refusal :=
  if dev = s.ownDev ∨ 512 ≤ dev ∨ 4 ≤ die ∨ 4 ≤ cls then .next s
  else
    let s := { s with links := s.links.map fun (l : Link) => { l with replays := 0 } }
    let s := if s.flows.any (Flow.inboundOf dev die cls) then s else
      { s with flows := s.flows ++ [{ dev := dev, die := die, cls := cls, out := false, next := 0, early := [], lastAt := s.time }] }
    let s := s.updFlow dev die cls fun (f : Flow) =>
      { f with lastAt := s.time
               early := if (seq - f.next).msb || f.early.any (fun p => p.1 == seq) then f.early else f.early ++ [(seq, body)] }
    let n := ((s.flows.find? (Flow.inboundOf dev die cls)).map fun f => f.early.length).getD 0
    .next (State.pump dev die cls n s)

/-- FLOW_DISCARD (R428): without a route, what a device's flows hold is discarded after the port timeout. -/
def execFlowDiscard (dev : Nat) (s : State) : Host.Outcome State Fault Refusal :=
  .next (if s.hasRoute dev then s else
    { s with flows := s.flows.map fun (f : Flow) =>
        if !f.out ∧ f.dev = dev ∧ f.lastAt + s.portTimeout ≤ s.time then { f with early := [] } else f })

/-! ## Links and routes (R427, R429, R430) -/

/-- LINK_REPLAY (R427): at the 64th replay in a row the link goes down; its flits are resent on other links. -/
def execLinkReplay (link : Nat) (s : State) : Host.Outcome State Fault Refusal :=
  .next { s with links := s.links.modify link fun l =>
    if !l.up then l else if 63 ≤ l.replays then { l with up := false, replays := 0 } else { l with replays := l.replays + 1 } }

/-- This device's protocol version and features (R430). -/
def linkVersion : Byte := 0x10
/-- The features that this device sends. -/
def linkFeatures : Word := 0xF

/-- LINK_TRAINING (R430): both ends use the lower version and the common features; a peer of an older major version is not connected. A
route that comes up where there was none restarts the flows (R428). -/
def execLinkTraining (link peer : Nat) (version : Byte) (features : Word) (s : State) : Host.Outcome State Fault Refusal :=
  match s.links[link]? with
  | none => .next s
  | some l =>
    if l.up || version.toNat / 16 < 1 then .next s
    else
      let gone := fun f : Flow => f.dev != s.ownDev && f.dev != hostFlow && !s.hasRoute f.dev
      .next { s with
        flows := s.flows.filter fun f => !gone f
        noRoute := []
        links := s.links.set link { up := true, peer := some peer, version := if version.toNat < linkVersion.toNat then version else linkVersion,
                                    features := features &&& linkFeatures, replays := 0 } }

/-- ROUTE_LOST (R429): no route to a device remains; its posted writes and REDs are reported, its invocations meet a link fault. What is
issued later meets the same. -/
def execRouteLost (dev : Nat) (s : State) : Host.Outcome State Fault Refusal :=
  if dev = s.ownDev then .next s
  else
    let s := { s with noRoute := unionIds s.noRoute [dev] }
    let ps := s.posted.filter fun p => p.remote && devOf p.pa == dev
    let ms := s.rmws.filter fun m => m.remote && m.load.isNone && devOf m.pa == dev
    let s := ps.foldl (fun s p => (s.dropPosted p).asyncFault p.team p.wave .remoteTimeout (BitVec.ofNat 64 p.pa) true) s
    let s := (s.sumpWrites.filter fun x => x.sent.any fun y => devOf y.2.1 == dev).foldl (fun s x => s.sumpRefused .remoteTimeout x) s
    let s := ms.foldl (fun s m => s.refuseRmw .remoteTimeout m) s
    let s := { s with outPort := s.outPort.filter fun x => x.dev != dev }
    .next ((s.invocations.filter fun v => v.dev == dev).foldl (fun s v => s.answerInvocation (fun x => x.id == v.id) 3) s)

/-! ## FRAME, FCHK and EVT (R438, R447, R448) -/

/-- The token row header (R438, R447). -/
def frameHeader (dev die a b : Nat) : DWord :=
  let h := dev * 4 + die + bitsOf a 0 18 * 2 ^ 11 + bitsOf a 18 3 * 2 ^ 29 + bitsOf a 21 8 * 2 ^ 32 + bitsOf b 0 16 * 2 ^ 40
  BitVec.ofNat 64 (h + (crc8 (bytesLE 7 h)).toNat * 2 ^ 56)

/-- FRAME (R447). -/
def execFrame (d a b : Reg) (s : State) : Host.Outcome State Fault Refusal :=
  laneOp (.frame d a b) 1 6 (fun c x => outPair x d (frameHeader s.ownDev (dieOf c.team.core) (x.reg a).toNat (x.reg b).toNat)) s

/-- FCHK (R447). -/
def execFchk (d : Pred) (a : Reg) (s : State) : Host.Outcome State Fault Refusal :=
  laneOp (.fchk d a) 1 6 (fun _ x =>
    let v := (x.pair a).toNat
    outPred d (decide (v / 2 ^ 56 = (crc8 (bytesLE 7 v)).toNat))) s

/-- EVT (R448): a trace record of the issuing partition; a supervisor core belongs to none. Only the primary of a DUAL pair writes it. -/
def execEvt (a : Reg) (i : BitVec 10) (s : State) : Host.Outcome State Fault Refusal :=
  waveOp (.evt a i) (fun c x s =>
    if c.team.isSup || !c.team.performs then .ok s
    else .ok (s.trace (s.partOf c.team) (traceRecord 0 i.toNat (s.partOf c.team) c.team.core s.time c.team.linear c.wave.idx (x.pair a)))) s

/-! ## The failure of a die (R414, R423) -/

/-- Whether a page table maps a line, from a table on (R377): its entries that are not zero are looked through. -/
def State.tableMaps (s : State) (line : Nat) : List (Nat × Nat × Nat) → Nat → Bool
  | [], _ => false
  | (lo, n, _) :: rest, table =>
    let t := localOf table
    let is := distinct ((s.mem.filter fun c => decide (t ≤ c.1 ∧ c.1 < t + 8 * 2 ^ n)).map fun (c : Host.Cell) => (c.1 - t) / 8)
    devOf table == s.ownDev && is.any fun i =>
      let e := natLE (s.peek (t + 8 * i) 8)
      decide (e % 2 = 1) && (if bitsOf e 1 1 = 1 then devOf (pteAdr e) == s.ownDev && decide (localOf (pteAdr e) ≤ line ∧ line < localOf (pteAdr e) + 2 ^ lo)
        else State.tableMaps s line rest (pteAdr e))

/-- Whether a partition has mapped a line (R423): the tables of its address space, or of that of one of its launches, map it. -/
def State.partMaps (s : State) (p line : Nat) : Bool :=
  let asids := distinct (s.partAsid p :: (s.launches.filter fun l => l.part == p).map (·.asid))
  (s.cores.any fun c => c.part == some p) && asids.any fun a =>
    let root := natLE (s.peek (s.asidt.toNat + 8 * a) 8)
    decide (root % 2 = 1) && s.tableMaps line walkLevels (root - 1)

/-- A line is LOST: every partition that has mapped it is told (R423). -/
def State.loseLine (s : State) (line : Nat) : State :=
  let s := { s with lost := unionIds s.lost [line] }
  ((List.range 16).filter fun p => s.partMaps p line).foldl (fun s p =>
    let (id, s) := s.fresh
    s.addReport { Report.blank id (some p) 0 FaultCode.lineLost.num with
      flg := reportFlg false true false true false, die := homeDie line, addr := BitVec.ofNat 64 line }) s

/-- The directory requests that a die has not answered: the line of each and when it was made (R414). -/
def State.unanswered (s : State) (die : Nat) : List (Nat × Nat) :=
  ((s.posted.filter fun p => p.acks.contains die).map fun p => (lineOf p.pa, p.appliedAt)) ++
    (s.forwards.filter fun f => f.2.2.1 == die).map fun f => (f.1, f.2.2.2)

/-- What the directories and the agents of a failed die hold is gone: nobody waits for it any more. -/
def State.forgetDie (s : State) (die : Nat) : State :=
  let s := { s with
    l2 := s.l2.filter fun c => c.holder != die
    scopedCopies := s.scopedCopies.filter fun c => c.holder != die
    pushes := s.pushes.filter fun p => p.die != die
    overlays := s.overlays.filter fun o => o.die != die
    forwards := s.forwards.filter fun f => f.2.1 != die && f.2.2.1 != die
    dir := s.dir.map fun (e : DirEntry) => { e with sharers := e.sharers.filter (· != die) } }
  (s.posted.filter fun p => p.acks.contains die).foldl (fun s p => s.acknowledge p.id die) s

/-- The time within which a die answers a directory request, in ns (R414). -/
def dieLimit : Nat := 1000000

/-- DIE_FAILURE (R414, R423): a die has not answered a directory request within 1 ms: it is reported with the line of the oldest such request, the
lines of which it held the only modified copy are LOST, and every partition that holds a core of it is reset. A request that the state does not
hold, as it is served at once, can fail a die too: its line is free, and it is as old as the device at most (log entry 93). -/
def execDieFailure (die : Nat) (s : State) : Host.Outcome State Fault Refusal :=
  let oldest := minBy (fun r : Nat × Nat => r.2) (s.unanswered die)
  if 4 ≤ die ∨ s.diesFailed.contains die ∨ s.time < (oldest.map (·.2)).getD 0 + dieLimit then .next s
  else
    let (addr, s) := match oldest with
      | some r => (BitVec.ofNat 64 r.1, s)
      | none => s.free
    let (id, s) := s.fresh
    let s := s.addReport { Report.blank id none 0 0 with flg := reportFlg false true false false false, die := die, addr := addr }
    let s := { s with diesFailed := s.diesFailed ++ [die] }
    let lines := (s.l2.filter fun c => c.holder == die && c.modified).map (·.line)
    let s := lines.foldl (fun s l => s.loseLine l) (s.forgetDie die)
    let parts := (List.range 16).filter fun p => s.cores.any fun c => c.part == some p && dieOf c.id == die
    .next (parts.foldl (fun s p => s.beginReset p 0 0 none) s)

end Sys2Proof.Machine
end

