-- ==== Sys2Proof/Machine/Select.lean ====
section
/-!
DEFINITION. FRONTIER_SELECT: the waits of a wave that have ended (R181, R265 to R267, R215, R223, R378, R402, R403, R444), the held
entries that they free (R90), reconvergence (R186) and the selection of an entry (R183, R184).
-/

namespace Sys2Proof.Machine

/-- Whether a wait is that of a FENCE. -/
def BlockWhy.isFence : BlockWhy → Bool
  | .fence _ _ _ => true
  | _ => false

/-- One wait of a wave ends. -/
def State.endWait (s : State) (t w : Nat) (y : BlockWhy) : State := s.updWave t w fun w => w.unblock (· == y)

/-- Whether an INVOKE of a wave stands before another one's wait for the port. -/
def Wave.portFirst (w : Wave) (y : BlockWhy) : Bool := (w.blocks.find? BlockWhy.isPort) == some y

/-- A store that waited for a gang member to start is made; a member that has exited since is GANG_GONE (R179, R223). -/
def State.lateMember (s : State) (t : Team) (w : Nat) (u : Team) (off : Nat) (bs : List Byte) : State :=
  if bs.isEmpty then s
  else if u.hasExited then s.asyncFault t.id w .gangGone (BitVec.ofNat 64 off) false
  else s.updTeam u.id fun u => u.spadStore off bs

/-- A wait of a wave, looked at again: it ends, or takes its next step, when what it waits for is there. -/
def State.tryRelease (t : Team) (i : Nat) (s : State) (y : BlockWhy) : State :=
  match s.wave? t.id i with
  | none => s
  | some w =>
  match y with
  | .stores ids => if s.performed ids then s.endWait t.id w.idx y else s
  | .fence seq level _ => if s.fenceHolds t.id w seq level then s else (s.completeFence t w seq level).endWait t.id w.idx y
  | .taken _ ids =>
    if (s.scopeWaits 2 ids).isEmpty then (s.dropCopies t.core 2 fun _ => true).endWait t.id w.idx y else s
  | .rel _ _ _ _ _ _ => s.tryRelInc t w y
  | .acq a => if a.armed then s else s.tryAcquire t w y
  | .waitc a => if a.armed then s else s.observeWait t w (fun _ => true) y
  | .tlbi ids va ctl removed =>
    if !s.accessesGone ids || w.blocks.any BlockWhy.isFence then s
    else if removed then s.endWait t.id w.idx y
    else
      match shotOf va ctl with
      | none => s.endWait t.id w.idx y
      | some h => (s.shoot h).changeWhy t.id w.idx y (.tlbi (s.translated h) va ctl true)
  | .lantern => if s.holdsLantern t w.idx then s.endWait t.id w.idx y else s
  | .member logical off bs =>
    match s.member? t logical with
    | some u => (s.lateMember t w.idx u off bs).endWait t.id w.idx y
    | none => s
  | .port id waits packet tag =>
    if !s.performed waits || !((s.wave? t.id w.idx).map fun w => w.portFirst y).getD false then s
    else
      match s.sendInvocation t id packet tag with
      | some s => s.endWait t.id w.idx y
      | none => s
  | .gangBarrier _ => s.releaseGang t
  | .wfi => s.tryWake t
  | .halt => s.tryHalt t
  | .barrier _ _ | .rcb _ | .tags _ _ _ _ _ | .steal _ _ => s

/-- The drain of a wave's last run comes to its end on a quadrant that issues no run, unless another wave is ready to start before (R28, R188). -/
def State.drainOut (s : State) (team wave : Nat) : State :=
  match s.team? team, s.wave? team wave with
  | some t, some w =>
    if w.drain = 0 || !s.idle t w || s.beside t w (fun u v => s.ready u v && s.candidate u v && decide (v.drain < w.drain)) then s
    else s.passCycles t.core (w.idx % 4) w.drain none
  | _, _ => s

/-- The selection of a wave that stands in no run: the standing one, or a new one (R183), once its last run has drained (R28); a waiting
selection may take the wave into runahead mode (R379). -/
def State.selectEntry (s : State) (team wave : Nat) : State :=
  match s.team? team, s.wave? team wave with
  | some t, some w =>
    if w.run.isSome || w.drain != 0 || !s.mayRun t w then s
    else
      match s.selected t w with
      | none => s.updWave team wave fun w => { w with sel := none }
      | some e =>
        let s := s.updWave team wave fun w => { w with sel := some e.pc, skip := none }
        s.afterSelect t w e
  | _, _ => s

/-- FRONTIER_SELECT (R181, R183, R184, R186). A restore that is complete ends (R386). A wait on tags that was satisfied when its run ended gives its report here (R351, R357). -/
def execFrontierSelect (team wave : Nat) (s : State) : Host.Outcome State Fault Refusal :=
  match s.team? team, s.wave? team wave with
  | some t, some w =>
    let s := w.blocks.foldl (State.tryRelease t wave) s
    let s := s.updWave team wave fun w => w.writeReports.settle.checkRcb
    .next (((s.finishRestore team).drainOut team wave).selectEntry team wave)
  | _, _ => .next s

end Sys2Proof.Machine
end

