-- ==== Sys2Proof/Machine/Platform.lean ====
section
/-!
DEFINITION. The platform (chapter 21 of the manual): power-up and boot (R449 to R453), attestation (R454), the staged start of cores (R455),
device time (R457), and the front-end network interface (R463, R464).
-/

namespace Sys2Proof.Machine

/-! ## The ROM (R449, R450) -/

/-- Number of boot servers in the fuses: 1 to 4. -/
def bootServers : Nat := Config.fuseServers % 4 + 1

/-- An attempt to fetch from a server: %bootsrv counts it, and a read request is sent (R450, R465). -/
def State.startFetch (s : State) (port server : Nat) : State :=
  let n := Nat.min 255 (bitsOf s.bootsrv.toNat 8 8 + 1)
  { s with boot := .fetching { port := port, server := server, retries := 0, since := s.time, got := [] },
           bootsrv := BitVec.ofNat 32 (n * 256 + server), romRequests := s.romRequests ++ [(port, server)] }

/-- The next server in fuse order, or a pause after the last one (R450). -/
def State.nextServer (s : State) (f : Fetching) : State :=
  if f.server + 1 < bootServers then s.startFetch f.port (f.server + 1) else { s with boot := .pausing f.port s.time }

/-- The ROM uses a front-end port: it fetches when the port has a link, else it waits for one. -/
def State.usePort (s : State) (port : Nat) : State :=
  if s.portUp.getD port false then s.startFetch port 0 else { s with boot := .waitLink port s.time }

/-- POWER_ON (R449): the next die powers up; after the last one the ROM brings up front-end port 0. -/
def execPowerOn (s : State) : Host.Outcome State Fault Refusal :=
  .next (if s.boot ≠ .off then s
    else
      let s := { s with diesUp := s.diesUp + 1 }
      if s.diesUp < 4 then s else s.usePort 0)

/-- BOOT_PORT_TIMEOUT (R449): port 0 has had no link for 5 s. -/
def execBootPortTimeout (s : State) : Host.Outcome State Fault Refusal :=
  .next (match s.boot with
    | .waitLink 0 since => if since + 5000000000 ≤ s.time then s.usePort 1 else s
    | _ => s)

/-- TFTP_RETRANSMIT (R450): after 1 s without an answer; after 5 retransmissions the server is abandoned. -/
def execTftpRetransmit (s : State) : Host.Outcome State Fault Refusal :=
  .next (match s.boot with
    | .fetching f =>
      if s.time < f.since + 1000000000 then s
      else if 5 ≤ f.retries then s.nextServer f
      else
        { s with boot := .fetching { f with retries := f.retries + 1, since := s.time },
                 romRequests := if f.got.isEmpty then s.romRequests ++ [(f.port, f.server)] else s.romRequests }
    | _ => s)

/-- BOOT_RETRY (R450): 1 s after the last server the ROM starts again at the first. -/
def execBootRetry (s : State) : Host.Outcome State Fault Refusal :=
  .next (match s.boot with
    | .pausing port since => if since + 1000000000 ≤ s.time then s.startFetch port 0 else s
    | _ => s)

/-! ## The image (R451 to R453) -/

/-- LEN of a header. -/
def imgLen (h : List Byte) : Nat := fieldLE h 4 4
/-- LOAD of a header. -/
def imgLoad (h : List Byte) : Nat := fieldLE h 8 8
/-- ENTRY of a header. -/
def imgEntry (h : List Byte) : Nat := fieldLE h 16 4

/-- Checks 1 to 7 of an image, which need only its header (R452). -/
def headerOk (h : List Byte) : Bool :=
  let keyix := fieldLE h 1 1
  versionOk (h.getD 0 0) && (!minorZero (h.getD 0 0) || (zeroBytes h 2 2 && zeroBytes h 184 72)) && decide (keyix < 4) &&
  imgLen h != 0 && imgLen h % 64 == 0 && decide (imgLen h ≤ 2 ^ 28) && imgLoad h % 65536 == 0 && decide (4 * imgEntry h < imgLen h) &&
  Config.sm3 (sliceBytes h 120 64) == Config.fuseKeyHash keyix && !Config.fuseRevoked keyix &&
  decide (Config.fuseMinSvn ≤ fieldLE h 20 4) &&
  Config.sm2Verify (sliceBytes h 120 64) (sliceBytes h 56 64) (Config.sm3 (sliceBytes h 0 56)) &&
  decide (imgLoad h + imgLen h ≤ hbmBytes)

/-- Check 8: the hash of the body (R452). -/
def bodyOk (h body : List Byte) : Bool := Config.sm3 body == sliceBytes h 24 32

/-- The image is accepted: its header is measured, and supervisor core 0 of D0 starts at its entry (R453). -/
def State.handOver (s : State) (f : Fetching) (h : List Byte) : State :=
  let pc := BitVec.ofNat 32 (imgLoad h / 4 + imgEntry h)
  let regs := fun (l : List Word) =>
    ((l.set 0 (lo32 (BitVec.ofNat 64 (imgLoad h)))).set 1 (hi32 (BitVec.ofNat 64 (imgLoad h)))).set 2 (BitVec.ofNat 32 f.server)
  let s := { s with boot := .running, image := h, cur := (0, 0) }
  let s := s.updSup 0 fun u => { u with halted := false, sie := u.sie &&& 0x7FFFFFFF }
  s.updWave 0 0 fun w => { w with
    lanes := w.lanes.modify 0 fun ln => { ln with regs := regs ln.regs }
    frontier := [{ pc := pc, mask := 1, st := .runnable, age := 0, land := .here }]
    winb := 0, priv := .supervisor, run := none, sel := none, skip := none }

/-- TFTP_DATA (R450 to R453): bytes of the image arrive. The header is checked when it is complete; the body is written at LOAD as it comes, and
checked when it is complete. A rejected image sends the ROM to the next server. -/
def execTftpData (bytes : List Byte) (last : Bool) (s : State) : Host.Outcome State Fault Refusal :=
  .next (match s.boot with
    | .fetching f =>
      let got := f.got ++ bytes
      let s := { s with boot := .fetching { f with got := got, retries := 0, since := s.time } }
      let h := got.take 256
      if got.length < 256 then (if last then s.nextServer f else s)
      else if !headerOk h then s.nextServer f
      else
        let old := Nat.max f.got.length 256
        let body := (got.drop 256).take (imgLen h)
        let s := s.storeNow (imgLoad h + (old - 256)) (body.drop (old - 256))
        if body.length < imgLen h then (if last then s.nextServer f else s)
        else if bodyOk h body then s.handOver f h
        else s.nextServer f
    | _ => s)

/-! ## Attestation (R454) -/

/-- A list of bytes cut or filled with zeros to a length. -/
def padTo (n : Nat) (bs : List Byte) : List Byte := (List.range n).map fun i => bs.getD i 0

/-- Whether the block at an address may be quoted (R12, R454). -/
def State.quotable (s : State) (a : Nat) : Bool :=
  let b := s.peek a 8
  a % 256 == 0 && inHbm a && versionOk (b.getD 0 0) && (!minorZero (b.getD 0 0) || zeroBytes b 1 7)

/-- QUOTE_COMPLETE (R454): the block is written, signed by the identity key, or the quote ends in error with the block unchanged. -/
def execQuoteComplete (s : State) : Host.Outcome State Fault Refusal :=
  .next (if s.atstat ≠ 1 then s
    else
      let a := s.atblk.toNat
      if !s.quotable a then { s with atstat := 3 }
      else
        let body := padTo 32 (Config.sm3 s.image) ++ padTo 8 Config.fuseSerial ++ sliceBytes s.image 20 4 ++ List.replicate 12 0
        let s := s.writeHome a (s.peek a 40 ++ body.take 24)
        let s := s.writeHome (a + 64) (body.drop 24)
        let sig := padTo 64 (Config.sm2Sign (Config.sm3 (s.peek a 96)))
        let rest := sig ++ padTo 64 Config.identityKey ++ List.replicate 32 0
        let s := s.writeHome (a + 96) (rest.take 32)
        let s := s.writeHome (a + 128) (sliceBytes rest 32 64)
        let s := s.writeHome (a + 192) (rest.drop 96)
        { s with atstat := 2 })

/-! ## Cores (R455) -/

/-- Time between the groups of cores that start: 2 µs (R455). -/
def groupTime : Nat := 2000

/-- The cores of a partition's next group: the first 8 that have not started, in ascending order; those of a die that has failed do not
start. -/
def State.nextGroup (s : State) (part : Nat) : List Nat :=
  ((s.cores.filter fun c => c.part == some part && !c.started && !s.diesFailed.contains (dieOf c.id)).map (·.id)).take 8

/-- CORE_GROUP_START (R455): the next group of a partition's cores starts, 2 µs after the last one. -/
def execCoreGroupStart (part : Nat) (s : State) : Host.Outcome State Fault Refusal :=
  let group := s.nextGroup part
  .next (if group.isEmpty || (s.part part).groupAt.any (fun t => decide (s.time < t + groupTime)) then s
    else ({ s with cores := s.cores.map fun (c : Core) => if group.contains c.id then { c with started := true } else c }).updPart part
      fun p => { p with groupAt := some s.time })

/-! ## Device time (R457, R465) -/

/-- PTP_LOCK (R457): at the first lock %time is stepped once, forward, to the PTP time; afterwards only its rate is adjusted. -/
def execPtpLock (time : DWord) (s : State) : Host.Outcome State Fault Refusal :=
  if !s.locked && decide (time.toNat < s.time) then .next s
  else
    .next { s with time := if s.locked then s.time else time.toNat
                   locked := true
                   ptoff := time - BitVec.ofNat 64 s.time
                   ptpst := (s.ptpst &&& 0xFFFFFFFC) ||| 2 }

/-- HOLDOVER (R457, R465): a locked clock keeps its last rate. -/
def execHoldover (s : State) : Host.Outcome State Fault Refusal :=
  .next (if bitsOf s.ptpst.toNat 0 2 = 2 then { s with ptpst := (s.ptpst &&& 0xFFFFFFFC) ||| 3 } else s)

/-! ## The front-end network interface (R463, R464) -/

/-- PORT_LINK_CHANGE (R449, R464): the link of a front-end port comes or goes; the ROM that waits for it goes on. -/
def execPortLinkChange (port : Nat) (up : Bool) (s : State) : Host.Outcome State Fault Refusal :=
  let s := { s with portUp := s.portUp.set port up }
  .next (match s.boot with
    | .waitLink p _ => if p = port ∧ up then s.startFetch port 0 else s
    | _ => s)

/-- Whether a port takes a frame with a destination address: its own, broadcast, or multicast (R463). -/
def takesFrame (port : Nat) (bytes : List Byte) : Bool :=
  bytes.take 6 == Config.fuseMac port || (bytes.getD 0 0).getLsbD 0

/-- The 2,048 bytes of a receive slot (R463). -/
def recvSlot (port : Nat) (bytes : List Byte) (time : Option Nat) : List Byte :=
  bytesLE 2 bytes.length ++ [BitVec.ofNat 8 port, if time.isSome then 1 else 0, 0, 0, 0, 0] ++ bytesLE 8 (time.getD 0) ++ bytes ++
    List.replicate (2032 - bytes.length) 0

/-- Bytes written at their home line by line, from a line's start on. -/
def State.writeLines (s : State) (pa : Nat) (bs : List Byte) : State :=
  (List.range ((bs.length + 63) / 64)).foldl (fun s k => s.writeHome (pa + 64 * k) ((bs.drop (64 * k)).take 64)) s

/-- FRAME_RECEIVE (R463): a frame that the port passes is written to the receive ring; any other is counted. While the ROM drives the ports the
frame is the ROM's. -/
def execFrameReceive (port : Nat) (bytes : List Byte) (fcsOk stamped : Bool) (s : State) : Host.Outcome State Fault Refusal :=
  let k := bitsOf s.nrsize.toNat 0 4
  if s.boot ≠ .running ∨ 2 ≤ port then .next s
  else if !fcsOk || !takesFrame port bytes || bytes.length < 14 || 2032 < bytes.length || s.nrbase == 0 ||
      decide (2 ^ k ≤ (s.nrtail - s.nrhead).toNat) then .next { s with nrdrop := satInc s.nrdrop 1 }
  else
    let slot := s.nrbase.toNat + 2048 * (s.nrtail.toNat % 2 ^ k)
    let s := s.writeLines slot (recvSlot port bytes (if stamped then some s.time else none))
    let who := bitsOf s.nrsize.toNat 16 16
    .next ((List.range 16).foldl (fun s i => if who.testBit i then s.latchSip i 2 else s) { s with nrtail := s.nrtail + 1 })

/-- CRC-32 of an Ethernet frame (log entry 36). -/
def crc32 (bs : List Byte) : Word :=
  ~~~(bs.foldl (fun crc b => (List.range 8).foldl (fun (c : Word) _ => if c.getLsbD 0 then (c >>> 1) ^^^ 0xEDB88320 else c >>> 1)
    (crc ^^^ zext32 b)) (0xFFFFFFFF : Word))

/-- A frame as it goes out: padded to 60 bytes, with its FCS (R464). -/
def sentFrame (bytes : List Byte) : List Byte :=
  let b := bytes ++ List.replicate (60 - bytes.length) 0
  b ++ bytesLE 4 (crc32 b).toNat

/-- FRAME_TRANSMIT (R464): the slot at %nthead is sent, is refused, or waits for its port's link. -/
def execFrameTransmit (s : State) : Host.Outcome State Fault Refusal :=
  if s.ntbase = 0 ∨ s.nthead = s.nttail then .next s
  else
    let slot := s.ntbase.toNat + 2048 * (s.nthead.toNat % 2 ^ bitsOf s.ntsize.toNat 0 4)
    let h := s.peek slot 8
    let len := fieldLE h 0 2
    let port := fieldLE h 2 1
    let done := fun s : State => { s with nthead := s.nthead + 1 }
    if len < 14 || 2032 < len || 1 < port || 1 < fieldLE h 3 1 || !zeroBytes h 4 4 then
      .next (done (s.writeHome (slot + 8) (bytesLE 8 (2 ^ 64 - 1))))
    else if !s.portUp.getD port false then .next s
    else
      let s := { s with sentFrames := s.sentFrames ++ [(port, sentFrame (s.peek (slot + 16) len))] }
      .next (done (if fieldLE h 3 1 = 1 then s.writeHome (slot + 8) (bytesLE 8 s.time) else s))

end Sys2Proof.Machine
end

