-- ==== Sys2Proof/Machine/Dispatch.lean ====
section
/-!
DEFINITION. The dispatch: each constructor of `Instr` to its one meaning.
-/

namespace Sys2Proof.Machine

def exec (i : Instr) (s : State) : Host.Outcome State Fault Refusal :=
  match i with
  | .add n d a b => Sys2Proof.Machine.execAdd n d a b s
  | .sub n d a b => Sys2Proof.Machine.execSub n d a b s
  | .and n d a b => Sys2Proof.Machine.execAnd n d a b s
  | .or n d a b => Sys2Proof.Machine.execOr n d a b s
  | .xor n d a b => Sys2Proof.Machine.execXor n d a b s
  | .min n d a b => Sys2Proof.Machine.execMin n d a b s
  | .max n d a b => Sys2Proof.Machine.execMax n d a b s
  | .minu n d a b => Sys2Proof.Machine.execMinu n d a b s
  | .maxu n d a b => Sys2Proof.Machine.execMaxu n d a b s
  | .shl n d a b => Sys2Proof.Machine.execShl n d a b s
  | .shr n d a b => Sys2Proof.Machine.execShr n d a b s
  | .sra n d a b => Sys2Proof.Machine.execSra n d a b s
  | .rot n d a b => Sys2Proof.Machine.execRot n d a b s
  | .clz n d a => Sys2Proof.Machine.execClz n d a s
  | .popc n d a => Sys2Proof.Machine.execPopc n d a s
  | .brev n d a => Sys2Proof.Machine.execBrev n d a s
  | .mov n d a => Sys2Proof.Machine.execMov n d a s
  | .mul n d a b => Sys2Proof.Machine.execMul n d a b s
  | .mulh n d a b => Sys2Proof.Machine.execMulh n d a b s
  | .mulhu n d a b => Sys2Proof.Machine.execMulhu n d a b s
  | .mad n d a b => Sys2Proof.Machine.execMad n d a b s
  | .div n d a b => Sys2Proof.Machine.execDiv n d a b s
  | .divu n d a b => Sys2Proof.Machine.execDivu n d a b s
  | .rem n d a b => Sys2Proof.Machine.execRem n d a b s
  | .remu n d a b => Sys2Proof.Machine.execRemu n d a b s
  | .addw d a b => Sys2Proof.Machine.execAddw d a b s
  | .subw d a b => Sys2Proof.Machine.execSubw d a b s
  | .mulw d a b => Sys2Proof.Machine.execMulw d a b s
  | .bfx n d a w p => Sys2Proof.Machine.execBfx n d a w p s
  | .bfi n d a w p => Sys2Proof.Machine.execBfi n d a w p s
  | .addi n d a i1 => Sys2Proof.Machine.execAddi n d a i1 s
  | .andi n d a i1 => Sys2Proof.Machine.execAndi n d a i1 s
  | .ori n d a i1 => Sys2Proof.Machine.execOri n d a i1 s
  | .xori n d a i1 => Sys2Proof.Machine.execXori n d a i1 s
  | .movi d i1 => Sys2Proof.Machine.execMovi d i1 s
  | .movhi d i1 => Sys2Proof.Machine.execMovhi d i1 s
  | .cmp c d a b => Sys2Proof.Machine.execCmp c d a b s
  | .cmpi c d a i1 => Sys2Proof.Machine.execCmpi c d a i1 s
  | .kop f d a b => Sys2Proof.Machine.execKop f d a b s
  | .sel n g d a b => Sys2Proof.Machine.execSel n g d a b s
  | .br k s1 o => Sys2Proof.Machine.execBr k s1 o s
  | .brl k s1 a o => Sys2Proof.Machine.execBrl k s1 a o s
  | .jr k s1 a o => Sys2Proof.Machine.execJr k s1 a o s
  | .loop a e => Sys2Proof.Machine.execLoop a e s
  | .loopi e c => Sys2Proof.Machine.execLoopi e c s
  | .leave => Sys2Proof.Machine.execLeave s
  | .nop => Sys2Proof.Machine.execNop s
  | .winb i1 => Sys2Proof.Machine.execWinb i1 s
  | .gets n d i1 => Sys2Proof.Machine.execGets n d i1 s
  | .sets a i1 => Sys2Proof.Machine.execSets a i1 s
  | .recld d a => Sys2Proof.Machine.execRecld d a s
  | .recset d a => Sys2Proof.Machine.execRecset d a s
  | .ld d q x h z => Sys2Proof.Machine.execLd d q x h z s
  | .st k d q x h z => Sys2Proof.Machine.execSt k d q x h z s
  | .trail b c e f y u v => Sys2Proof.Machine.execTrail b c e f y u v s
  | .fadd n f d a b => Sys2Proof.Machine.execFadd n f d a b s
  | .fsub n f d a b => Sys2Proof.Machine.execFsub n f d a b s
  | .fmul n f d a b => Sys2Proof.Machine.execFmul n f d a b s
  | .ffma n f d a b => Sys2Proof.Machine.execFfma n f d a b s
  | .fmin n prop f d a b => Sys2Proof.Machine.execFmin n prop f d a b s
  | .fmax n prop f d a b => Sys2Proof.Machine.execFmax n prop f d a b s
  | .fsgn n f d a b => Sys2Proof.Machine.execFsgn n f d a b s
  | .fcmp c d a b => Sys2Proof.Machine.execFcmp c d a b s
  | .fclass n d a => Sys2Proof.Machine.execFclass n d a s
  | .fcvt n d a s1 t => Sys2Proof.Machine.execFcvt n d a s1 t s
  | .frnd n d a m => Sys2Proof.Machine.execFrnd n d a m s
  | .sfn n f d a => Sys2Proof.Machine.execSfn n f d a s
  | .maxex n d a b => Sys2Proof.Machine.execMaxex n d a b s
  | .scalb n d a b => Sys2Proof.Machine.execScalb n d a b s
  | .exp2m n d a b => Sys2Proof.Machine.execExp2m n d a b s
  | .dot4 n f d a b => Sys2Proof.Machine.execDot4 n f d a b s
  | .pack n d a c => Sys2Proof.Machine.execPack n d a c s
  | .unpk d a c => Sys2Proof.Machine.execUnpk d a c s
  | .topki k d a b => Sys2Proof.Machine.execTopki k d a b s
  | .rand n f d => Sys2Proof.Machine.execRand n f d s
  | .shfl n f d a b => Sys2Proof.Machine.execShfl n f d a b s
  | .vote f d a => Sys2Proof.Machine.execVote f d a s
  | .lred n f d a => Sys2Proof.Machine.execLred n f d a s
  | .scan n f d a => Sys2Proof.Machine.execScan n f d a s
  | .bar a b => Sys2Proof.Machine.execBar a b s
  | .bara a b => Sys2Proof.Machine.execBara a b s
  | .barw b => Sys2Proof.Machine.execBarw b s
  | .rcb => Sys2Proof.Machine.execRcb s
  | .yield => Sys2Proof.Machine.execYield s
  | .exit => Sys2Proof.Machine.execExit s
  | .lpass => Sys2Proof.Machine.execLpass s
  | .fork d a => Sys2Proof.Machine.execFork d a s
  | .join d => Sys2Proof.Machine.execJoin d s
  | .take d a => Sys2Proof.Machine.execTake d a s
  | .launch a b => Sys2Proof.Machine.execLaunch a b s
  | .gbar a => Sys2Proof.Machine.execGbar a s
  | .sld n d a o z => Sys2Proof.Machine.execSld n d a o z s
  | .sldm d a o z => Sys2Proof.Machine.execSldm d a o z s
  | .sst d a o z => Sys2Proof.Machine.execSst d a o z s
  | .sstm d a o z => Sys2Proof.Machine.execSstm d a o z s
  | .pref q x h z => Sys2Proof.Machine.execPref q x h z s
  | .bdecl d a => Sys2Proof.Machine.execBdecl d a s
  | .benter d a b => Sys2Proof.Machine.execBenter d a b s
  | .bwait d a b => Sys2Proof.Machine.execBwait d a b s
  | .bleave a b => Sys2Proof.Machine.execBleave a b s
  | .bdrop d a => Sys2Proof.Machine.execBdrop d a s
  | .acq s1 a b => Sys2Proof.Machine.execAcq s1 a b s
  | .rel s1 a => Sys2Proof.Machine.execRel s1 a s
  | .fence s1 => Sys2Proof.Machine.execFence s1 s
  | .waitc d q x c => Sys2Proof.Machine.execWaitc d q x c s
  | .atomAdd k d q x s1 => Sys2Proof.Machine.execAtomAdd k d q x s1 s
  | .redAdd k d q x s1 => Sys2Proof.Machine.execRedAdd k d q x s1 s
  | .atomMin k d q x s1 => Sys2Proof.Machine.execAtomMin k d q x s1 s
  | .redMin k d q x s1 => Sys2Proof.Machine.execRedMin k d q x s1 s
  | .atomMax k d q x s1 => Sys2Proof.Machine.execAtomMax k d q x s1 s
  | .redMax k d q x s1 => Sys2Proof.Machine.execRedMax k d q x s1 s
  | .atomAnd k d q x s1 => Sys2Proof.Machine.execAtomAnd k d q x s1 s
  | .redAnd k d q x s1 => Sys2Proof.Machine.execRedAnd k d q x s1 s
  | .atomOr k d q x s1 => Sys2Proof.Machine.execAtomOr k d q x s1 s
  | .redOr k d q x s1 => Sys2Proof.Machine.execRedOr k d q x s1 s
  | .atomXor k d q x s1 => Sys2Proof.Machine.execAtomXor k d q x s1 s
  | .redXor k d q x s1 => Sys2Proof.Machine.execRedXor k d q x s1 s
  | .atomXchg k d q x s1 => Sys2Proof.Machine.execAtomXchg k d q x s1 s
  | .cas k d q x s1 => Sys2Proof.Machine.execCas k d q x s1 s
  | .copy f a b => Sys2Proof.Machine.execCopy f a b s
  | .wtag d a => Sys2Proof.Machine.execWtag d a s
  | .wtany d a => Sys2Proof.Machine.execWtany d a s
  | .tfirst d a => Sys2Proof.Machine.execTfirst d a s
  | .vfill d a b => Sys2Proof.Machine.execVfill d a b s
  | .mloop d a b => Sys2Proof.Machine.execMloop d a b s
  | .aring d a b => Sys2Proof.Machine.execAring d a b s
  | .aringRelease d a b => Sys2Proof.Machine.execAringRelease d a b s
  | .epi d a b => Sys2Proof.Machine.execEpi d a b s
  | .qfence a => Sys2Proof.Machine.execQfence a s
  | .qseq d a => Sys2Proof.Machine.execQseq d a s
  | .sumpw d a b => Sys2Proof.Machine.execSumpw d a b s
  | .sumpx d a b => Sys2Proof.Machine.execSumpx d a b s
  | .trap i1 => Sys2Proof.Machine.execTrap i1 s
  | .eret => Sys2Proof.Machine.execEret s
  | .wfi => Sys2Proof.Machine.execWfi s
  | .tlbi a b => Sys2Proof.Machine.execTlbi a b s
  | .partEnq d a b => Sys2Proof.Machine.execPartEnq d a b s
  | .partAdd d a b => Sys2Proof.Machine.execPartAdd d a b s
  | .partRemove d a b => Sys2Proof.Machine.execPartRemove d a b s
  | .partReset d a b => Sys2Proof.Machine.execPartReset d a b s
  | .halt => Sys2Proof.Machine.execHalt s
  | .lostclr d a => Sys2Proof.Machine.execLostclr d a s
  | .invoke a b => Sys2Proof.Machine.execInvoke a b s
  | .frame d a b => Sys2Proof.Machine.execFrame d a b s
  | .fchk d a => Sys2Proof.Machine.execFchk d a s
  | .evt a i1 => Sys2Proof.Machine.execEvt a i1 s
  | .runStart team wave => Sys2Proof.Machine.execRunStart team wave s
  | .frontierSelect team wave => Sys2Proof.Machine.execFrontierSelect team wave s
  | .loadDataArrival team wave part => Sys2Proof.Machine.execLoadDataArrival team wave part s
  | .hold team wave => Sys2Proof.Machine.execHold team wave s
  | .launchAccept offer => Sys2Proof.Machine.execLaunchAccept offer s
  | .agingInterval part => Sys2Proof.Machine.execAgingInterval part s
  | .teamPlace part => Sys2Proof.Machine.execTeamPlace part s
  | .teamEnd team => Sys2Proof.Machine.execTeamEnd team s
  | .steal core => Sys2Proof.Machine.execSteal core s
  | .lanternPass launch => Sys2Proof.Machine.execLanternPass launch s
  | .bundleAdmission die => Sys2Proof.Machine.execBundleAdmission die s
  | .bundleFillLine inst => Sys2Proof.Machine.execBundleFillLine inst s
  | .monitorPoll team wave => Sys2Proof.Machine.execMonitorPoll team wave s
  | .atomicAtHome rmws => Sys2Proof.Machine.execAtomicAtHome rmws s
  | .directoryRequest die line own => Sys2Proof.Machine.execDirectoryRequest die line own s
  | .homeWrite posted => Sys2Proof.Machine.execHomeWrite posted s
  | .invalidation posted die => Sys2Proof.Machine.execInvalidation posted die s
  | .invalidationAck posted die => Sys2Proof.Machine.execInvalidationAck posted die s
  | .directoryMerge die base => Sys2Proof.Machine.execDirectoryMerge die base s
  | .updatePush line die => Sys2Proof.Machine.execUpdatePush line die s
  | .forwardedRead line die => Sys2Proof.Machine.execForwardedRead line die s
  | .writeBack line die => Sys2Proof.Machine.execWriteBack line die s
  | .dieFailure die => Sys2Proof.Machine.execDieFailure die s
  | .linkReplay link => Sys2Proof.Machine.execLinkReplay link s
  | .linkTraining link peer version features => Sys2Proof.Machine.execLinkTraining link peer version features s
  | .packetArrival dev die cls seq body => Sys2Proof.Machine.execPacketArrival dev die cls seq body s
  | .flowDiscard dev => Sys2Proof.Machine.execFlowDiscard dev s
  | .routeLost dev => Sys2Proof.Machine.execRouteLost dev s
  | .inboundAccess dev req addr op => Sys2Proof.Machine.execInboundAccess dev req addr op s
  | .remoteTimeout req => Sys2Proof.Machine.execRemoteTimeout req s
  | .invocationArrival packet => Sys2Proof.Machine.execInvocationArrival packet s
  | .invocationSlotHead queue => Sys2Proof.Machine.execInvocationSlotHead queue s
  | .invokeReply inv status => Sys2Proof.Machine.execInvokeReply inv status s
  | .invokeLinkTimeout inv => Sys2Proof.Machine.execInvokeLinkTimeout inv s
  | .hostSubmission whole packet => Sys2Proof.Machine.execHostSubmission whole packet s
  | .commandStart core queue chunks => Sys2Proof.Machine.execCommandStart core queue chunks s
  | .commandComplete core queue => Sys2Proof.Machine.execCommandComplete core queue s
  | .matrixStep core quadrant => Sys2Proof.Machine.execMatrixStep core quadrant s
  | .matrixPartial part => Sys2Proof.Machine.execMatrixPartial part s
  | .slotDrain core => Sys2Proof.Machine.execSlotDrain core s
  | .vaultRetention core vault => Sys2Proof.Machine.execVaultRetention core vault s
  | .vaultWake core group => Sys2Proof.Machine.execVaultWake core group s
  | .sumpRecordWrite write => Sys2Proof.Machine.execSumpRecordWrite write s
  | .sumpCheck node => Sys2Proof.Machine.execSumpCheck node s
  | .sumpFlush node => Sys2Proof.Machine.execSumpFlush node s
  | .reportRecordWrite report => Sys2Proof.Machine.execReportRecordWrite report s
  | .handlerLaunch handler => Sys2Proof.Machine.execHandlerLaunch handler s
  | .pageWalk core asid va => Sys2Proof.Machine.execPageWalk core asid va s
  | .runaheadEnd team wave => Sys2Proof.Machine.execRunaheadEnd team wave s
  | .preemptRequest teams => Sys2Proof.Machine.execPreemptRequest teams s
  | .barrierLimit team => Sys2Proof.Machine.execBarrierLimit team s
  | .teamSave team => Sys2Proof.Machine.execTeamSave team s
  | .watchdogExpiry part prio => Sys2Proof.Machine.execWatchdogExpiry part prio s
  | .dualCompare team => Sys2Proof.Machine.execDualCompare team s
  | .correctedErrorSummary errors => Sys2Proof.Machine.execCorrectedErrorSummary errors s
  | .timer sup => Sys2Proof.Machine.execTimer sup s
  | .interrupt sup => Sys2Proof.Machine.execInterrupt sup s
  | .powerOn => Sys2Proof.Machine.execPowerOn s
  | .bootPortTimeout => Sys2Proof.Machine.execBootPortTimeout s
  | .tftpRetransmit => Sys2Proof.Machine.execTftpRetransmit s
  | .bootRetry => Sys2Proof.Machine.execBootRetry s
  | .tftpData bytes last => Sys2Proof.Machine.execTftpData bytes last s
  | .quoteComplete => Sys2Proof.Machine.execQuoteComplete s
  | .coreGroupStart part => Sys2Proof.Machine.execCoreGroupStart part s
  | .frameReceive port bytes fcsOk stamped => Sys2Proof.Machine.execFrameReceive port bytes fcsOk stamped s
  | .frameTransmit => Sys2Proof.Machine.execFrameTransmit s
  | .sip sup v => Sys2Proof.Machine.execSip sup v s
  | .presolve sup v => Sys2Proof.Machine.execPresolve sup v s
  | .scwake sup v => Sys2Proof.Machine.execScwake sup v s
  | .sdbell sup v => Sys2Proof.Machine.execSdbell sup v s
  | .atblk sup v => Sys2Proof.Machine.execAtblk sup v s
  | .carve sup v => Sys2Proof.Machine.execCarve sup v s
  | .devnum sup v => Sys2Proof.Machine.execDevnum sup v s
  | .prhead sup v => Sys2Proof.Machine.execPrhead sup v s
  | .drhead sup v => Sys2Proof.Machine.execDrhead sup v s
  | .ptbase sup v => Sys2Proof.Machine.execPtbase sup v s
  | .ptsize sup v => Sys2Proof.Machine.execPtsize sup v s
  | .nrbase sup v => Sys2Proof.Machine.execNrbase sup v s
  | .nrsize sup v => Sys2Proof.Machine.execNrsize sup v s
  | .nrhead sup v => Sys2Proof.Machine.execNrhead sup v s
  | .ntbase sup v => Sys2Proof.Machine.execNtbase sup v s
  | .ntsize sup v => Sys2Proof.Machine.execNtsize sup v s
  | .nttail sup v => Sys2Proof.Machine.execNttail sup v s
  | .holdClear team wave => Sys2Proof.Machine.execHoldClear team wave s
  | .outboundPortFree die => Sys2Proof.Machine.execOutboundPortFree die s
  | .ptpLock time => Sys2Proof.Machine.execPtpLock time s
  | .holdover => Sys2Proof.Machine.execHoldover s
  | .portLinkChange port up => Sys2Proof.Machine.execPortLinkChange port up s

end Sys2Proof.Machine
end

