-- ==== Sys2Proof/Machine/Step.lean ====
section
/-!
DEFINITION. One step of the device (log entry 4). The outside world's events come first, in the order of the agenda; then the ROM, until
Dylet runs; then the wave that stands in a run issues its next word; between runs the current wave and the device's other agents take turns.
-/

namespace Sys2Proof.Machine

/-- Time passes (log entry 6). -/
def State.tick (s : State) : State := { s with time := s.time + Config.elapsed s.ticks, ticks := s.ticks + 1 }

/-- The instruction that the current wave issues next, when it stands in a run. -/
def State.issuing (s : State) : Option Instr := s.issuer.bind fun c => c.run.words[c.run.idx]?

/-- The waves that stand on cores, in order. -/
def State.waveList (s : State) : List (Nat × Nat) := s.teams.flatMap fun t => t.waves.map fun w => (t.id, w.idx)

/-- The turn goes to the next wave. -/
def State.rotate (s : State) : State := { s with cur := (nextIn s.waveList s.cur).getD (0, 0), turn := s.turn + 1 }

/-! ## The agents of the device -/

/-- What a wave's outstanding work may do next. -/
def Team.waveWork (t : Team) (w : Wave) : List Instr :=
  List.flatten [
    [.frontierSelect t.id w.idx], if w.runahead.isSome then [.runaheadEnd t.id w.idx] else [],
    w.loads.map fun l => .loadDataArrival t.id w.idx ⟨l.seq, BitVec.allOnes 64⟩,
    w.recLoads.map fun r => .loadDataArrival t.id w.idx ⟨r.seq, BitVec.allOnes 64⟩, w.recLoads.map fun r => .remoteTimeout r.seq,
    if w.blocks.isEmpty then [] else [.monitorPoll t.id w.idx],
    (w.loads.filter fun l => l.items.any fun i => match i.src with | .remote _ _ _ (some _) => true | _ => false).map fun l =>
      .remoteTimeout l.seq,
    if t.isSup then [.timer t.supIdx, .interrupt t.supIdx] else []]

/-- What the memory system may do next (R255, R263, R415 to R421). -/
def State.memoryWork (s : State) : List Instr :=
  List.flatten [
    s.posted.flatMap fun p => .homeWrite p.id :: p.acks.flatMap fun d => [.invalidation p.id d, .invalidationAck p.id d],
    s.pushes.map fun p => .updatePush (lineOf p.pa) p.die, s.forwards.map fun f => .forwardedRead f.1 f.2.1,
    (s.l2.filter (·.modified)).map fun c => .writeBack c.line c.holder, s.writeBacks.map fun c => .writeBack c.line c.holder,
    s.rmws.flatMap fun m => .atomicAtHome [m.id] :: if m.remote then [.remoteTimeout m.id] else [],
    s.dir.map fun e => .directoryMerge e.die e.base]

/-- What the engines of a core may do next (R279, R327, R345, R455, R456). -/
def Core.work (c : Core) : List Instr :=
  List.flatten [
    (List.range 9).flatMap fun q => match (c.queues[q]?).bind fun x => x.cmds.head? with
      | some x => .commandStart c.id q 1 :: .commandComplete c.id q :: x.fetches.map fun f => .remoteTimeout f.id
      | none => [],
    (List.range 4).flatMap fun q => if ((c.queues[4 + q]?).map fun x => !x.cmds.isEmpty).getD false then [.matrixStep c.id q] else [],
    (List.range 32).flatMap fun v => match c.vaults[v]? with
      | some x => if x.retained then [.vaultWake c.id (v / 4)] else if x.usedAt = 0 then [] else [.vaultRetention c.id v]
      | none => [],
    [.slotDrain c.id, .steal c.id]]

/-- What the distributor and the directors of teams and launches may do next. -/
def State.launchWork (s : State) : List Instr :=
  List.flatten [
    s.offers.map fun o => .launchAccept o.id,
    (distinct (s.launches.map (·.part))).flatMap fun p => [.teamPlace p, .agingInterval p],
    s.teams.flatMap fun t => .teamEnd t.id :: if t.preempt then [.barrierLimit t.id, .teamSave t.id] else [],
    s.teams.flatMap fun t => if t.dual.isSome then [.dualCompare t.id] else [],
    s.launches.map fun l => .lanternPass l.id,
    if s.admissions.isEmpty then [] else (List.range 4).map .bundleAdmission,
    s.insts.map fun b => .bundleFillLine b.id,
    (List.range 16).flatMap fun p => (List.range 4).flatMap fun q => if (((s.part p).timers[q]?).join).isSome then [.watchdogExpiry p q] else [],
    (List.range 16).flatMap fun p => if s.cores.any fun c => c.part == some p && !c.started then [.coreGroupStart p] else []]

/-- What the other units may do next. -/
def State.unitWork (s : State) : List Instr :=
  List.flatten [
    s.arrivals.map fun a => .matrixPartial ⟨a.id, BitVec.allOnes 64⟩, s.sumpWrites.map fun x => .sumpRecordWrite x.id,
    s.sumps.flatMap fun n => [.sumpCheck n.pa, .sumpFlush n.pa],
    (s.reports.filter fun r => r.index.isNone).map fun r => .reportRecordWrite r.id, s.handlers.map .handlerLaunch,
    if s.atstat = 1 then [.quoteComplete] else [], if s.nthead = s.nttail then [] else [.frameTransmit],
    s.outPort.map fun x => .outboundPortFree x.die,
    (List.range 64).flatMap fun q => if (s.invQueue q).slots.isEmpty then [] else [.invocationSlotHead q],
    s.invocations.map fun v => .invokeLinkTimeout v.id,
    (s.posted.filter fun p => p.remote && !s.hasRoute (devOf p.pa)).map fun p => .routeLost (devOf p.pa),
    (s.sumpWrites.filterMap (·.sent)).flatMap fun x => if s.hasRoute (devOf x.2.1) then [] else [.routeLost (devOf x.2.1)],
    s.flows.flatMap fun f => (f.early.filter fun p => p.1 == f.next).map fun p => .packetArrival f.dev f.die f.cls p.1 p.2,
    s.flows.flatMap fun f => if f.early.isEmpty then [] else [.flowDiscard f.dev],
    (List.range 4).map fun d => .correctedErrorSummary ⟨d, []⟩]

/-- Everything that an agent of the device other than the issuing wave may do next. -/
def State.work (s : State) : List Instr :=
  List.flatten [s.teams.flatMap fun t => t.waves.flatMap t.waveWork, s.memoryWork, s.launchWork, s.unitWork, s.cores.flatMap Core.work]

/-! ## The step -/

/-- What the ROM does when no packet comes (R449, R450). -/
def State.romWork (s : State) : Instr :=
  match s.boot with
  | .off => .powerOn
  | .waitLink _ _ => .bootPortTimeout
  | .fetching _ => .tftpRetransmit
  | .pausing _ _ => .bootRetry
  | .running => .powerOn

/-- The current wave between runs: a pending interrupt is taken (R407), its waits are looked at, an entry is selected (R183), and its run
starts if it can (R27). -/
def State.boundary (s : State) : State :=
  match s.team? s.cur.1 with
  | none => s
  | some t =>
    let s := if t.isSup then (s.tryWake t).interrupt t.supIdx else s
    match execFrontierSelect s.cur.1 s.cur.2 s with
    | .next s => s.startRun s.cur.1 s.cur.2
    | _ => s

/-- After an issue, the turn goes on when the run has ended or when the wave has not moved on in it. -/
def State.afterIssue (idx : Nat) (s : State) : State :=
  match s.issuer with
  | some c => if c.run.idx = idx + 1 then s else s.rotate
  | none => s.rotate

/-- One instruction of the current wave is issued. -/
def State.issueOne (s : State) (i : Instr) : Host.Outcome State Fault Refusal :=
  match exec i s with
  | .next t => .next (t.afterIssue ((s.issuer.map fun c => c.run.idx).getD 0))
  | o => o

/-- Whether the current wave is held (R41). -/
def State.curHeld (s : State) : Bool := ((s.wave? s.cur.1 s.cur.2).map fun w => decide (0 < w.holds)).getD false

/-- A step once Dylet runs and the agenda is empty. -/
def State.runStep (s : State) : Host.Outcome State Fault Refusal :=
  match s.issuing with
  | some i => if s.curHeld then exec (.holdClear s.cur.1 s.cur.2) s else s.issueOne i
  | none =>
    if s.turn % 2 = 0 then
      let s := s.boundary
      match s.issuing with
      | some i => s.issueOne i
      | none => .next s.rotate
    else
      let ws := s.work
      exec (ws.getD (s.turn / 2 % ws.length) (.timer 0)) { s with turn := s.turn + 1 }

/-- One step of the device: an event of the outside world, the ROM, or a running device. A word of an instruction is no event. -/
def step (s : State) : Host.Outcome State Fault Refusal :=
  let s := s.tick
  match s.agenda with
  | i :: rest => if Instr.hasWord i then .next { s with agenda := rest } else exec i { s with agenda := rest }
  | [] => if s.boot = .running then s.runStep else exec s.romWork s

/-! ## The host's placement of one instruction -/

/-- The word of a TRAIL without ranges (R59). -/
def trailWord : Nat := 0xFE000000

/-- The entry at which supervisor core 0 of D0 goes on. -/
def State.fetchPc (s : State) : Word := (((s.wave? 0 0).bind fun w => w.frontier.head?).map (·.pc)).getD 0

/-- The machine with an instruction and a trailer stored where supervisor core 0 of D0 fetches next, the core ready to start that run (log
entry 37). -/
def State.withFetchWord (s : State) (nbits w : Nat) : State :=
  let pc := s.fetchPc
  let ready := fun v : Wave =>
    { v with frontier := [{ pc := pc, mask := 1, st := .runnable, age := 0, land := .here }], run := none, sel := none, skip := none, holds := 0,
             runahead := none, priv := .supervisor, drain := 0 }
  let s := { s with boot := .running, agenda := [], cur := (0, 0), turn := 0,
                    mem := Memory.writeN s.mem (4 * pc.toNat) (bytesLE 4 (w % 2 ^ nbits) ++ bytesLE 4 trailWord) }
  (s.updSup 0 fun u => { u with halted := false, sie := 0 }).updWave 0 0 ready

end Sys2Proof.Machine
end

