-- ==== Sys2Proof/Safety.lean ====
section
/-!
DEFINITION. The terms in which claims are stated: the state in which a word takes its whole effect, what the words of a wave change and what
they leave, and the invariant that every step keeps.
-/

namespace Sys2Proof.Machine

/-! ## Issuing -/

/-- The current wave stands in a run, outside runahead mode (R380), in a team that is no DUAL copy (R393), and none of its registers holds an
uncorrectable error (R396): the word that it issues takes its whole effect, unless it is an access that has to wait (`State.goes`). Runahead
mode, compare points and errors have claims of their own. -/
def State.issues (s : State) (c : Issue) : Prop :=
  s.issuer = some c ∧ c.wave.runahead = none ∧ c.team.dual = none ∧ ∀ l ∈ c.wave.lanes, l.badRegs = []

/-- The word that the current wave issues takes its whole effect: it is not an access that waits for a FENCE, an ACQ or a tag wait of its
wave, or for a read-modify-write (R267, R272). A word that makes no access at its issue never waits so. -/
def State.goes (s : State) (c : Issue) (i : Instr) : Prop := s.issues c ∧ s.stalls c i = false

/-- A word whose A and B fields, if both name general registers of one bank, cost one more cycle for each slice (R29, R30). -/
def Issue.slots (c : Issue) (base : Nat) (bank : Option (Reg × Reg)) : Nat :=
  match bank with
  | some (a, b) =>
    if a.toNat < 120 ∧ b.toNat < 120 ∧ (c.run.winb + a.toNat) % 4 = (c.run.winb + b.toNat) % 4 then base + 1 else base
  | none => base

/-- What lane `l` of the issuing wave reads when its slice issues, each slice taking `k` cycles (R29, R31). An instruction that a resumed
entry performs again has the operands of its issue (R367, log entry 28). -/
def Issue.laneAt (c : Issue) (k l : Nat) : LaneCtx :=
  match (c.run.again.map (·.ctxs)).bind (·.find? fun x => x.l == l) with
  | some x => x
  | none => { lane := c.wave.lanes.getD l (Lane.fresh 0), l := l, winb := c.run.winb, idx := c.run.idx, cyc := c.run.cycle + l / 16 * k }

/-- The cycle in which the result of latency `lat` of lane `l` is written: `lat` after the last issue cycle of its slice (R31). -/
def Issue.dueAt (c : Issue) (k lat l : Nat) : Nat := c.run.cycle + (l / 16 + 1) * k - 1 + lat

/-- Results given to the active lanes of the current wave, and nothing else changed. -/
def State.putLanes (s : State) (c : Issue) (due : Nat → Nat) (out : Nat → LaneOut) : State :=
  s.updCur fun w => w.mapActive c.run.mask fun l ln => ln.put c.run.idx (due l) (out l)

/-- The word has been issued, its slices taking `k` cycles each: the run's position and cycle, the progress count (R187) and the ages of the
frontier (R183) move on, and nothing else changes. -/
def State.issued (s : State) (c : Issue) (k : Nat) : State := s.updCur fun w => w.advance (c.wave.width / 16 * k)

/-! ## What a word leaves unchanged -/

/-- Everything outside the current wave is as before: memory with its copies and posted writes, the other waves and teams, and every
register of partitions, dies, supervisor cores and the device. -/
def State.keepsDevice (s t : State) : Prop := ∃ f : Wave → Wave, t = s.updCur f

/-- The byte of HBM at an address. -/
def State.byteAt (s : State) (a : Nat) : Byte := Memory.read s.mem a

/-! ## The invariant of memory -/

/-- The byte lists of the device keep the canonical form: HBM, and the scratchpad of every team, saved ones too (log entry 7). -/
def State.memoryCanonical (s : State) : Prop := Memory.wf s.mem = true ∧ ∀ t ∈ s.teams ++ s.saved, Memory.wf t.spad = true

/-! ## The invariant of a step -/

/-- What every step keeps: memory in its canonical form (log entry 7), the supervisor registers of sixteen cores, and the registers of sixteen
partitions with a bundle budget for each of the four dies (R408). -/
def State.wellKept (s : State) : Prop :=
  s.memoryCanonical ∧ s.sups.length = 16 ∧ s.parts.length = 16 ∧ ∀ p ∈ s.parts, p.pbud.length = 4

end Sys2Proof.Machine
end

