-- ==== Sys2Proof/Certificates/Slice0/Obligations.lean ====
section
/-!
DEFINITION. The statements for the provers. A word's statement says, for every state in which it issues and all of its operands, that it
completes and in which state: the equation is also its frame. The states are built with the model's own operations (Safety.lean); rules are
cited where a statement rests on them, and log entries where it rests on the model's choice.
-/

namespace Sys2Proof.Claims
end Sys2Proof.Claims

open Sys2Proof Sys2Proof.Machine Sys2Proof.Claims

/-! ## Words that compute in each lane -/

namespace Sys2Proof.Claims

/-- What R75 and the rule of a word give it: the no-write bit, the destination, the result latency, the fields that the bank rule compares,
and the value, of what the lane reads. -/
structure LaneRow where
  nw : Bool
  d : Reg
  lat : Nat
  bank : Option (Reg × Reg)
  val : LaneCtx → Word

/-- The integer words with a result in one register (R76 to R81, R83, R86), with the values that those rules give. -/
def intRow : Instr → Option LaneRow
  | .add n d a b => some ⟨n, d, 4, some (a, b), fun x => x.reg a + x.reg b⟩
  | .sub n d a b => some ⟨n, d, 4, some (a, b), fun x => x.reg a - x.reg b⟩
  | .and n d a b => some ⟨n, d, 4, some (a, b), fun x => x.reg a &&& x.reg b⟩
  | .or n d a b => some ⟨n, d, 4, some (a, b), fun x => x.reg a ||| x.reg b⟩
  | .xor n d a b => some ⟨n, d, 4, some (a, b), fun x => x.reg a ^^^ x.reg b⟩
  | .min n d a b => some ⟨n, d, 4, some (a, b), fun x => if (x.reg b).slt (x.reg a) then x.reg b else x.reg a⟩
  | .max n d a b => some ⟨n, d, 4, some (a, b), fun x => if (x.reg a).slt (x.reg b) then x.reg b else x.reg a⟩
  | .minu n d a b => some ⟨n, d, 4, some (a, b), fun x => if x.reg b < x.reg a then x.reg b else x.reg a⟩
  | .maxu n d a b => some ⟨n, d, 4, some (a, b), fun x => if x.reg a < x.reg b then x.reg b else x.reg a⟩
  | .shl n d a b => some ⟨n, d, 4, some (a, b), fun x => x.reg a <<< (x.reg b).toNat⟩
  | .shr n d a b => some ⟨n, d, 4, some (a, b), fun x => x.reg a >>> (x.reg b).toNat⟩
  | .sra n d a b => some ⟨n, d, 4, some (a, b), fun x => (x.reg a).sshiftRight (x.reg b).toNat⟩
  | .rot n d a b => some ⟨n, d, 4, some (a, b), fun x => (x.reg a).rotateLeft (x.reg b).toNat⟩
  | .mul n d a b => some ⟨n, d, 6, some (a, b), fun x => x.reg a * x.reg b⟩
  | .mulh n d a b => some ⟨n, d, 6, some (a, b), fun x => BitVec.ofInt 32 (((x.reg a).toInt * (x.reg b).toInt) >>> 32)⟩
  | .mulhu n d a b => some ⟨n, d, 6, some (a, b), fun x => BitVec.ofNat 32 (((x.reg a).toNat * (x.reg b).toNat) >>> 32)⟩
  | .mad n d a b => some ⟨n, d, 6, some (a, b), fun x => x.reg d + x.reg a * x.reg b⟩
  | .div n d a b => some ⟨n, d, 36, some (a, b), fun x => if x.reg b = 0 then 0xFFFFFFFF else (x.reg a).sdiv (x.reg b)⟩
  | .divu n d a b => some ⟨n, d, 36, some (a, b), fun x => if x.reg b = 0 then 0xFFFFFFFF else x.reg a / x.reg b⟩
  | .rem n d a b => some ⟨n, d, 36, some (a, b), fun x => if x.reg b = 0 then x.reg a else (x.reg a).srem (x.reg b)⟩
  | .remu n d a b => some ⟨n, d, 36, some (a, b), fun x => if x.reg b = 0 then x.reg a else x.reg a % x.reg b⟩
  | .clz n d a => some ⟨n, d, 4, none, fun x => BitVec.ofNat 32 ((List.range 32).takeWhile fun k => !(x.reg a).getMsbD k).length⟩
  | .popc n d a => some ⟨n, d, 4, none, fun x => BitVec.ofNat 32 ((List.range 32).filter fun k => (x.reg a).getLsbD k).length⟩
  | .brev n d a => some ⟨n, d, 4, none, fun x => (x.reg a).reverse⟩
  | .mov n d a => some ⟨n, d, 4, none, fun x => x.reg a⟩
  | .bfx n d a w p => some ⟨n, d, 4, none, fun x => ((x.reg a).extractLsb' p.toNat (w.toNat + 1)).zeroExtend 32⟩
  | .bfi n d a w p => some ⟨n, d, 4, none, fun x =>
      let m := BitVec.ofNat 32 (2 ^ Nat.min (w.toNat + 1) (32 - p.toNat) - 1) <<< p.toNat
      (x.reg d &&& ~~~m) ||| ((x.reg a <<< p.toNat) &&& m)⟩
  | .addi n d a i => some ⟨n, d, 4, none, fun x => x.reg a + i.signExtend 32⟩
  | .andi n d a i => some ⟨n, d, 4, none, fun x => x.reg a &&& i.zeroExtend 32⟩
  | .ori n d a i => some ⟨n, d, 4, none, fun x => x.reg a ||| i.zeroExtend 32⟩
  | .xori n d a i => some ⟨n, d, 4, none, fun x => x.reg a ^^^ i.zeroExtend 32⟩
  | .movi d i => some ⟨false, d, 4, none, fun _ => i.signExtend 32⟩
  | .movhi d i => some ⟨false, d, 4, none, fun x => i ++ (x.reg d).extractLsb' 0 14⟩
  | .sel n g d a b => some ⟨n, d, 4, some (a, b), fun x => if x.pred g then x.reg a else x.reg b⟩
  | _ => none

/-- The word that the encoding tables of R76, R78, R79, R80 and R86 give for a major opcode, NW, F and the three register fields. -/
def rWord (m : BitVec 7) (n : Bool) (f : BitVec 3) (d a b : Reg) : Word := (m ++ BitVec.ofBool n ++ f ++ d ++ a ++ b : BitVec 32)

/-- The words of the integer instructions, field by field as the tables of their rules print them. -/
def intWord : Instr → Option Word
  | .add n d a b => some (rWord 1 n 0 d a b)
  | .sub n d a b => some (rWord 1 n 1 d a b)
  | .and n d a b => some (rWord 1 n 2 d a b)
  | .or n d a b => some (rWord 1 n 3 d a b)
  | .xor n d a b => some (rWord 1 n 4 d a b)
  | .min n d a b => some (rWord 2 n 0 d a b)
  | .max n d a b => some (rWord 2 n 1 d a b)
  | .minu n d a b => some (rWord 2 n 2 d a b)
  | .maxu n d a b => some (rWord 2 n 3 d a b)
  | .shl n d a b => some (rWord 3 n 0 d a b)
  | .shr n d a b => some (rWord 3 n 1 d a b)
  | .sra n d a b => some (rWord 3 n 2 d a b)
  | .rot n d a b => some (rWord 3 n 3 d a b)
  | .clz n d a => some (rWord 4 n 0 d a 0)
  | .popc n d a => some (rWord 4 n 1 d a 0)
  | .brev n d a => some (rWord 4 n 2 d a 0)
  | .mov n d a => some (rWord 4 n 3 d a 0)
  | .mul n d a b => some (rWord 5 n 0 d a b)
  | .mulh n d a b => some (rWord 5 n 1 d a b)
  | .mulhu n d a b => some (rWord 5 n 2 d a b)
  | .mad n d a b => some (rWord 6 n 0 d a b)
  | .div n d a b => some (rWord 7 n 0 d a b)
  | .divu n d a b => some (rWord 7 n 1 d a b)
  | .rem n d a b => some (rWord 7 n 2 d a b)
  | .remu n d a b => some (rWord 7 n 3 d a b)
  | .bfx n d a w p => some ((0x09#7 ++ BitVec.ofBool n ++ d ++ a ++ w ++ p : BitVec 32))
  | .bfi n d a w p => some ((0x0A#7 ++ BitVec.ofBool n ++ d ++ a ++ w ++ p : BitVec 32))
  | .addi n d a i => some ((0x0B#7 ++ BitVec.ofBool n ++ d ++ a ++ i : BitVec 32))
  | .andi n d a i => some ((0x0C#7 ++ BitVec.ofBool n ++ d ++ a ++ i : BitVec 32))
  | .ori n d a i => some ((0x0D#7 ++ BitVec.ofBool n ++ d ++ a ++ i : BitVec 32))
  | .xori n d a i => some ((0x0E#7 ++ BitVec.ofBool n ++ d ++ a ++ i : BitVec 32))
  | .movi d i => some ((0x10#7 ++ d ++ i : BitVec 32))
  | .movhi d i => some ((0x11#7 ++ d ++ i : BitVec 32))
  | .sel n g d a b => some (rWord 0x23 n g d a b)
  | _ => none

/-- The function codes that R76, R78, R79 and R80 reserve, and the B field of the unary words, which must be 0. -/
def intReserved (w : Word) : Prop :=
  let m := (w.extractLsb' 25 7).toNat
  let f := (w.extractLsb' 21 3).toNat
  (m = 1 ∧ 5 ≤ f) ∨ (m ∈ [2, 3, 4, 7] ∧ 4 ≤ f) ∨ (m = 5 ∧ 3 ≤ f) ∨ (m = 6 ∧ 1 ≤ f) ∨ (m = 4 ∧ w.extractLsb' 0 7 ≠ 0)

end Sys2Proof.Claims

/-- R76 to R81, R83 and R86: every integer word with a register result completes; each active lane's result is the value of the rule, written at
the rule's latency unless the no-write bit is set or gz is named, captured by the latch, and nothing else changes but the issue. Its word is that of the rule's
encoding table, and a word with a reserved function code, or a unary word with a B field, decodes to nothing. -/
def Obligations.IntegerResults : Prop :=
  (∀ (s : State) (c : Issue) (i : Instr) (r : LaneRow), s.issues c → intRow i = some r →
    let k := c.slots 1 r.bank
    exec i s = .next ((s.putLanes c (c.dueAt k r.lat) fun l => outReg (c.laneAt k l) r.nw r.d (r.val (c.laneAt k l))).issued c k)) ∧
  (∀ (i : Instr) (w : Word), intWord i = some w → i.wf = true → decode w = some i) ∧ ∀ w : Word, intReserved w → decode w = none


namespace Sys2Proof.Claims

/-- The 64-bit integer words (R82): destination, latency, sources, value of the pairs. -/
def pairRow : Instr → Option (Reg × Nat × Reg × Reg × (DWord → DWord → DWord))
  | .addw d a b => some (d, 4, a, b, (· + ·))
  | .subw d a b => some (d, 4, a, b, (· - ·))
  | .mulw d a b => some (d, 6, a, b, (· * ·))
  | _ => none

/-- What R84, R85 and R141 give a word with a predicate result: the predicate, the fields that the bank rule compares, and the outcome with
the flags that it raises. -/
structure PredRow where
  d : Pred
  bank : Option (Reg × Reg)
  val : LaneCtx → Bool
  flags : LaneCtx → Word

/-- The outcome of a condition of CMP (R84). -/
def cmpOutcome : Cond → Word → Word → Bool
  | .eq, a, b => decide (a = b)
  | .ne, a, b => decide (a ≠ b)
  | .lt, a, b => a.slt b
  | .le, a, b => a.sle b
  | .ltu, a, b => a.ult b
  | .leu, a, b => a.ule b

/-- The outcome of FCMP on two values: a NaN is unordered, the zeros are equal (R141). -/
def fcmpOutcome (cnd : FCond) (x y : FV) : Bool :=
  match cnd with
  | .un => x.isNan || y.isNan
  | .eq => !(x.isNan || y.isNan) && x.cmp y == 0
  | .lt => !(x.isNan || y.isNan) && decide (x.cmp y < 0)
  | .le => !(x.isNan || y.isNan) && decide (x.cmp y ≤ 0)

/-- NV of FCMP: a signalling operand, or any NaN under .lt and .le (R141). -/
def fcmpNV (cnd : FCond) (x y : FV) : Bool :=
  x.isSig || y.isSig || ((cnd == .lt || cnd == .le) && (x.isNan || y.isNan))

/-- The words with a predicate result. -/
def predRow : Instr → Option PredRow
  | .cmp c d a b => some ⟨d, some (a, b), fun x => cmpOutcome c (x.reg a) (x.reg b), fun _ => 0⟩
  | .cmpi c d a i => some ⟨d, none, fun x => cmpOutcome c (x.reg a) (i.signExtend 32), fun _ => 0⟩
  | .kop .and d a b => some ⟨d, none, fun x => x.pred a && x.pred b, fun _ => 0⟩
  | .kop .or d a b => some ⟨d, none, fun x => x.pred a || x.pred b, fun _ => 0⟩
  | .kop .xor d a b => some ⟨d, none, fun x => xor (x.pred a) (x.pred b), fun _ => 0⟩
  | .kop .andn d a b => some ⟨d, none, fun x => x.pred a && !x.pred b, fun _ => 0⟩
  | .kop .not d a _ => some ⟨d, none, fun x => !x.pred a, fun _ => 0⟩
  | .fcmp c d a b => some ⟨d, some (a, b), fun x => fcmpOutcome c (f32 (x.reg a)) (f32 (x.reg b)),
      fun x => if fcmpNV c (f32 (x.reg a)) (f32 (x.reg b)) then flNV else 0⟩
  | _ => none

end Sys2Proof.Claims

/-- R82: ADDW, SUBW and MULW complete; each active lane's pair, modulo 2^64, is written to two registers and, whole, to the latch. -/
def Sys2Proof.Claims.PairResults : Prop :=
  ∀ (s : State) (c : Issue) (i : Instr) (d : Reg) (lat : Nat) (a b : Reg) (g : DWord → DWord → DWord), s.issues c →
    pairRow i = some (d, lat, a, b, g) →
    let k := c.slots 1 (some (a, b))
    exec i s = .next ((s.putLanes c (c.dueAt k lat) fun l =>
      let x := c.laneAt k l
      let v := g (x.pair a) (x.pair b)
      { regs := if d.toNat < 120 then [(x.winb + d.toNat, v.extractLsb' 0 32), (x.winb + d.toNat + 1, v.extractLsb' 32 32)] else [],
        latch := some v }).issued c k)

/-- R84, R85 and R141: CMP, CMPI, KOP and FCMP complete; each active lane's outcome is written to the predicate after four cycles, a write
to k0 is discarded, and only FCMP raises NV. -/
def Sys2Proof.Claims.PredicateResults : Prop :=
  ∀ (s : State) (c : Issue) (i : Instr) (r : PredRow), s.issues c → predRow i = some r →
    let k := c.slots 1 r.bank
    exec i s = .next ((s.putLanes c (c.dueAt k 4) fun l =>
      let x := c.laneAt k l
      { pred := if r.d = 0 then none else some (r.d, r.val x), flags := r.flags x }).issued c k)

/-- R82, R84 and R85: the words of ADDW, SUBW, MULW, CMP, CMPI and KOP: which field values decode, and to what; every other one is ILLEGAL,
at each privilege level. A pair field is even, or, as a source, a latch. -/
def Sys2Proof.Claims.PairAndPredicateWords : Prop :=
  (∀ (p : Priv) (n : Bool) (f : BitVec 3) (d a b : Reg),
    let w : Word := (0x08#7 ++ BitVec.ofBool n ++ f ++ d ++ a ++ b : BitVec 32)
    let even (r : Reg) : Prop := r.toNat % 2 = 0 ∨ 120 < r.toNat
    if n = false ∧ f.toNat < 3 ∧ d.toNat ≤ 120 ∧ even d ∧ even a ∧ even b then
      checkWord p w = .ok (if f = 0 then .addw d a b else if f = 1 then .subw d a b else .mulw d a b)
    else checkWord p w = .error .illegal) ∧
  (∀ (p : Priv) (n : Bool) (c : BitVec 3) (d : BitVec 7) (a b : Reg),
    let w : Word := (0x20#7 ++ BitVec.ofBool n ++ c ++ d ++ a ++ b : BitVec 32)
    match [Cond.eq, .ne, .lt, .le, .ltu, .leu][c.toNat]? with
    | some cc => if n = false ∧ d.toNat < 8 then checkWord p w = .ok (.cmp cc (d.setWidth 3) a b) else checkWord p w = .error .illegal
    | none => checkWord p w = .error .illegal) ∧
  (∀ (p : Priv) (n z : Bool) (c : BitVec 3) (d : Pred) (a : Reg) (i : BitVec 10),
    let w : Word := (0x21#7 ++ BitVec.ofBool n ++ BitVec.ofBool z ++ c ++ d ++ a ++ i : BitVec 32)
    match [Cond.eq, .ne, .lt, .le, .ltu, .leu][c.toNat]? with
    | some cc => if n = false ∧ z = false then checkWord p w = .ok (.cmpi cc d a i) else checkWord p w = .error .illegal
    | none => checkWord p w = .error .illegal) ∧
  ∀ (p : Priv) (n : Bool) (f : BitVec 3) (d a b : BitVec 7),
    let w : Word := (0x22#7 ++ BitVec.ofBool n ++ f ++ d ++ a ++ b : BitVec 32)
    match [KFn.and, .or, .xor, .andn, .not][f.toNat]? with
    | some g => if n = false ∧ d.toNat < 8 ∧ a.toNat < 8 ∧ b.toNat < 8 ∧ (g = .not → b = 0) then
        checkWord p w = .ok (.kop g (d.setWidth 3) (a.setWidth 3) (b.setWidth 3)) else checkWord p w = .error .illegal
    | none => checkWord p w = .error .illegal

/-- 64-bit words and predicate words: result, timing and frame, and the encodings of R82, R84 and R85, all in one. -/
def Obligations.PairAndPredicateResults : Prop :=
  Sys2Proof.Claims.PairResults ∧ Sys2Proof.Claims.PredicateResults ∧ Sys2Proof.Claims.PairAndPredicateWords


namespace Sys2Proof.Claims

/-- What R136 to R156 give a word of the float family: its cost for each slice, its latency, the fields that the bank rule compares, and
what it writes in a lane: a value with flags and, when it has drawn random numbers, the seed that they leave. -/
structure FloatRow where
  base : Nat
  lat : Nat
  bank : Option (Reg × Reg)
  out : Issue → LaneCtx → LaneOut

/-- A value that a format holds: a NaN is the canonical one, and anything else is rounded once, with the flags of rounding beside those that
the operation raised (R120, R125). -/
def rounded (f : FpFmt) (m : RMode) (v : FV) (nv : Bool) : Nat × Word :=
  let fl := if nv then flNV else 0
  if v.isNan then (f.canon, fl) else ((f.encode m v).1, (f.encode m v).2 ||| fl)

/-- The exact result of an arithmetic word on values, and whether it is invalid: a signalling operand, a NaN from operands that are none,
and for FFMA an invalid product whatever the addend (R138). -/
def exactOf (rdn : Bool) : Instr → FV → FV → FV → FV × Bool
  | .fadd .., x, y, _ => let r := x.add rdn y; (r, x.isSig || y.isSig || (r.isNan && !x.isNan && !y.isNan))
  | .fsub .., x, y, _ => let r := x.add rdn y.negate; (r, x.isSig || y.isSig || (r.isNan && !x.isNan && !y.isNan))
  | .fmul .., x, y, _ => let r := x.mul y; (r, x.isSig || y.isSig || (r.isNan && !x.isNan && !y.isNan))
  | _, x, y, z =>
    let p := x.mul y
    let r := p.add rdn z
    (r, x.isSig || y.isSig || z.isSig || (p.isNan && !x.isNan && !y.isNan) || (r.isNan && !p.isNan && !z.isNan))

/-- The flags of several elements together. -/
def flagsOf (l : List (Nat × Word)) : Word := (l.map (·.2)).foldl (· ||| ·) 0

/-- An arithmetic word: each element rounded under %rmode, with a draw for each element under SR (R121, R138). -/
def arithOut (i : Instr) (n : Bool) (f : FFmt) (d a b z : Reg) (c : Issue) (x : LaneCtx) : LaneOut :=
  let (mode, seed) := c.modes x (FFmt.fp f) (FFmt.count f)
  let el := fun (r : Reg) e => (FFmt.fp f).decode (FFmt.elem f (x.reg r) e)
  let res := (List.range (FFmt.count f)).map fun e =>
    let v := exactOf (mode e == .rdn) i (el a e) (el b e) (el z e)
    rounded (FFmt.fp f) (mode e) v.1 v.2
  { outReg x n d (FFmt.join f (res.map (·.1))) (flagsOf res) with seed := seed }

/-- FMIN and FMAX on each element (R126, R139). -/
def minmaxOut (isMax n p : Bool) (f : FFmt) (d a b : Reg) (x : LaneCtx) : LaneOut :=
  let res := (List.range (FFmt.count f)).map fun e =>
    fminmax (FFmt.fp f) isMax p (FFmt.elem f (x.reg a) e) (FFmt.elem f (x.reg b) e)
  outReg x n d (FFmt.join f (res.map (·.1))) (flagsOf res)

/-- The words of the float family with a register result. -/
def floatRow : Instr → Option FloatRow
  | .fadd n f d a b => some ⟨1, 6, some (a, b), arithOut (.fadd n f d a b) n f d a b d⟩
  | .fsub n f d a b => some ⟨1, 6, some (a, b), arithOut (.fsub n f d a b) n f d a b d⟩
  | .fmul n f d a b => some ⟨1, 6, some (a, b), arithOut (.fmul n f d a b) n f d a b d⟩
  | .ffma n f d a b => some ⟨1, 6, some (a, b), arithOut (.ffma n f d a b) n f d a b d⟩
  | .fmin n p f d a b => some ⟨1, 4, some (a, b), fun _ => minmaxOut false n p f d a b⟩
  | .fmax n p f d a b => some ⟨1, 4, some (a, b), fun _ => minmaxOut true n p f d a b⟩
  | .fsgn n f d a b => some ⟨1, 4, some (a, b), fun _ x =>
      let sign := match f with
        | .j => (x.reg b).msb
        | .jn => !(x.reg b).msb
        | .jx => xor (x.reg a).msb (x.reg b).msb
      outReg x n d (BitVec.ofBool sign ++ (x.reg a).extractLsb' 0 31)⟩
  | .fclass n d a => some ⟨1, 4, none, fun _ x => outReg x n d (1 <<< fclassBit (x.reg a))⟩
  | .fcvt n d a t u => some ⟨1, 6, none, fun c x =>
      let (mode, seed) := match CvtTy.fp u with
        | some f => c.modes x f 1
        | none => (fun _ => modeOf (c.wave.rmodeAt c.run.cycle), none)
      let r := cvtResult (mode 0) u (cvtSource t (if CvtTy.regs t = 2 then x.pair a else (x.reg a).zeroExtend 64))
      { (if CvtTy.regs u = 2 then outPair x d r.1 r.2 else outReg x n d (r.1.extractLsb' 0 32) r.2) with seed := seed }⟩
  | .frnd n d a m => some ⟨1, 6, none, fun c x =>
      let r := frndFn (rndMode (c.wave.rmodeAt c.run.cycle) m) (x.reg a)
      outReg x n d r.1 r.2⟩
  | .sfn n f d a => some ⟨4, 16, none, fun _ x => outReg x n d (sfnFn f (x.reg a)).1 (sfnFn f (x.reg a)).2⟩
  | .maxex n d a b => some ⟨1, 4, some (a, b), fun _ x => outReg x n d (maxexFn (x.reg a) (x.reg b)).1 (maxexFn (x.reg a) (x.reg b)).2⟩
  | .scalb n d a b => some ⟨1, 6, some (a, b), fun c x =>
      let r := scalbFn (modeOf (c.wave.rmodeAt c.run.cycle)) (x.reg a) (x.reg b)
      outReg x n d r.1 r.2⟩
  | .exp2m n d a b => some ⟨4, 16, some (a, b), fun _ x => outReg x n d (exp2mFn (x.reg a) (x.reg b)).1 (exp2mFn (x.reg a) (x.reg b)).2⟩
  | .dot4 n f d a b => some ⟨1, 6, some (a, b), fun c x =>
      let mode := modeOf (c.wave.rmodeAt c.run.cycle)
      let r := match f with
        | .s8 => dotInt true (x.reg a) (x.reg b) (x.reg d)
        | .z8 => dotInt false (x.reg a) (x.reg b) (x.reg d)
        | .e4m3 => dotFp .e4m3 mode (x.reg a) (x.reg b) (x.reg d)
        | .e5m2 => dotFp .e5m2 mode (x.reg a) (x.reg b) (x.reg d)
      outReg x n d r.1 r.2⟩
  | .pack n d a .h => some ⟨1, 6, none, fun _ x => outReg x n d ((x.grp a 1).extractLsb' 0 16 ++ (x.grp a 0).extractLsb' 0 16)⟩
  | .pack n d a .b => some ⟨1, 6, none, fun _ x =>
      outReg x n d ((x.grp a 3).extractLsb' 0 8 ++ (x.grp a 2).extractLsb' 0 8 ++ (x.grp a 1).extractLsb' 0 8 ++ (x.grp a 0).extractLsb' 0 8)⟩
  | .pack n d a f => some ⟨1, 6, none, fun c x =>
      let t := (PackFn.fp f).getD .f32
      let k := PackFn.group f
      let (mode, seed) := c.modes x t k
      let res := (List.range k).map fun e => rounded t (mode e) (f32 (x.grp a e)) (f32 (x.grp a e)).isSig
      let v := (res.mapIdx fun e r => r.1 <<< (32 / k * e)).sum
      { outReg x n d (BitVec.ofNat 32 v) (flagsOf res) with seed := seed }⟩
  | .rand n f d => some ⟨1, 6, none, fun c x =>
      let seed := x.lane.seedAt c.run.cycle
      let w := drawOf (streamId c.team.linear c.wave.idx x.l) seed
      let v := match f with
        | .z32 => w
        | .f32 => codeW (FpFmt.f32.encode .rne (.fin false (w.toNat / 256) (-24))).1
      { outReg x n d v with seed := some (c.run.cycle, nextSeed seed) }⟩
  | _ => none

end Sys2Proof.Claims

/-- R138 to R152 and R156: every word of the float family with one destination completes, and writes in each active lane what its rule
says, with its flags, when its latency has passed. -/
def Obligations.FloatResults : Prop :=
  ∀ (s : State) (c : Issue) (i : Instr) (r : FloatRow), s.issues c → floatRow i = some r →
    let k := c.slots r.base r.bank
    exec i s = .next ((s.putLanes c (c.dueAt k r.lat) fun l => r.out c (c.laneAt k l)).issued c k)


namespace Sys2Proof.Claims

/-- The list of a TOPKI after an insertion: the pairs whose keys rank at least the new one, the new one, the others, cut to the list's
length (R153). -/
def inserted (l : List (Word × Word)) (key idx : Word) : List (Word × Word) :=
  let p := (l.filter fun e => decide (keyRank key ≤ keyRank e.1)).length
  (l.take p ++ (key, idx) :: l.drop p).take l.length

/-- An element of a packed register, and its exact FP32 value with NV for a signalling NaN (R152). -/
def widened (f : PackFn) (w : Word) (e : Nat) : Nat × Word :=
  let v := w.toNat >>> (32 / PackFn.group f * e) % 2 ^ (32 / PackFn.group f)
  match PackFn.fp f with
  | some t => rounded .f32 .rne (t.decode v) (t.decode v).isSig
  | none => (v, 0)

/-- What lane `j` supplies to a cross-lane word whose slices take `k` cycles: read in the word's last issue cycle (R202). -/
def Source (c : Issue) (k j : Nat) : LaneCtx :=
  { lane := c.wave.lanes.getD j (Lane.fresh 0), l := j, winb := c.run.winb, idx := c.run.idx, cyc := c.run.cycle + c.wave.width / 16 * k - 1 }

/-- The lane that SHFL reads for lane `l`, lane `l` itself when it is out of range (R203). -/
def shflFrom (f : ShflFn) (w l b : Nat) : Nat :=
  let j : Int := match f with
    | .idx => b
    | .up => (l : Int) - b
    | .down => l + b
    | .xor => (l ^^^ b : Nat)
  if 0 ≤ j ∧ j < w then j.toNat else l

/-- The combination of LRED (R205). -/
def lredOp : LredFn → Word → Word → Word
  | .add, x, y => x + y
  | .min, x, y => if y.slt x then y else x
  | .max, x, y => if x.slt y then y else x
  | .minu, x, y => if y.ult x then y else x
  | .maxu, x, y => if x.ult y then y else x
  | .and, x, y => x &&& y
  | .or, x, y => x ||| y
  | .xor, x, y => x ^^^ y

/-- The scan of R206 over active lanes in ascending order: the value written in each. -/
def scanFrom (f : ScanFn) (read : Nat → Word) : Word → List Nat → List (Nat × Word)
  | _, [] => []
  | acc, l :: ls =>
    let next := match f with
      | .add | .addx => acc + read l
      | .max => if acc.slt (read l) then read l else acc
      | .min => if (read l).slt acc then read l else acc
    (l, if f = .addx then acc else next) :: scanFrom f read next ls

/-- Identity of a scan (R206). -/
def scanStart : ScanFn → Word
  | .add | .addx => 0
  | .max => 0x80000000
  | .min => 0x7FFFFFFF

/-- The cross-lane words: latency, fields that the bank rule compares, and what lane `l` writes when lane `j` supplies `src j` (R203 to R206). -/
def crossRow : Instr → Option (Nat × Option (Reg × Reg) × (Issue → (Nat → LaneCtx) → Nat → LaneOut))
  | .shfl n f d a b => some (8, some (a, b), fun c src l =>
      outReg (src l) n d ((src (shflFrom f c.wave.width l ((src l).reg b).toNat)).reg a))
  | .vote .all d a => some (8, none, fun c src _ => outPred (d.setWidth 3) (c.lanes.all fun j => (src j).pred a))
  | .vote .any d a => some (8, none, fun c src _ => outPred (d.setWidth 3) (c.lanes.any fun j => (src j).pred a))
  | .vote .ballot d a => some (8, none, fun c src l =>
      outPair (src l) d (BitVec.ofNat 64 ((c.lanes.filter fun j => (src j).pred a).map fun j => 2 ^ j).sum))
  | .lred n f d a => some (12, none, fun c src l =>
      outReg (src l) n d (match c.lanes with
        | [] => 0
        | j :: js => js.foldl (fun acc i => lredOp f acc ((src i).reg a)) ((src j).reg a)))
  | .scan n f d a => some (12, none, fun c src l =>
      let vs := scanFrom f (fun j => (src j).reg a) (scanStart f) c.lanes
      outReg (src l) n d (((vs.find? fun p => p.1 == l).map (·.2)).getD 0))
  | _ => none

end Sys2Proof.Claims

/-- R152 and R153: UNPK and TOPKI complete and write every register of their group: the exact widening of each element, and the list with
the new pair after the keys that rank at least as high, or the list unchanged for a NaN. -/
def Sys2Proof.Claims.GroupResults : Prop :=
  (∀ (s : State) (c : Issue) (d a : Reg) (f : PackFn), s.issues c →
    exec (.unpk d a f) s = .next ((s.putLanes c (c.dueAt 1 6) fun l =>
      let x := c.laneAt 1 l
      let e := fun i => widened f (x.reg a) i
      { regs := (List.range (PackFn.group f)).map fun i => (x.winb + d.toNat + i, BitVec.ofNat 32 (e i).1),
        latch := some (BitVec.ofNat 32 (e 1).1 ++ BitVec.ofNat 32 (e 0).1),
        flags := flagsOf ((List.range (PackFn.group f)).map e) }).issued c 1)) ∧
  ∀ (s : State) (c : Issue) (n : BitVec 3) (d a b : Reg), s.issues c →
    let k := c.slots 1 (some (a, b))
    exec (.topki n d a b) s = .next ((s.putLanes c (c.dueAt k 8) fun l =>
      let x := c.laneAt k l
      let old := (List.range (n.toNat + 1)).map fun j => (x.grp d (2 * j), x.grp d (2 * j + 1))
      let new := if (f32 (x.reg a)).isNan then old else inserted old (x.reg a) (x.reg b)
      { regs := (List.range (2 * (n.toNat + 1))).map fun i =>
          (x.winb + d.toNat + i, if i % 2 = 0 then (new.getD (i / 2) (0, 0)).1 else (new.getD (i / 2) (0, 0)).2),
        flags := if (f32 (x.reg a)).isSig then flNV else 0 }).issued c k)

/-- R202 to R206: SHFL, VOTE, LRED and SCAN complete; what a lane receives is formed from what every lane supplies in the word's last issue
cycle, and only active lanes are written. -/
def Sys2Proof.Claims.CrossLaneResults : Prop :=
  ∀ (s : State) (c : Issue) (i : Instr) (lat : Nat) (bank : Option (Reg × Reg)) (out : Issue → (Nat → LaneCtx) → Nat → LaneOut),
    s.issues c → crossRow i = some (lat, bank, out) →
    let k := c.slots 1 bank
    exec i s = .next ((s.putLanes c (c.dueAt k lat) fun l => out c (Source c k) l).issued c k)

/-- UNPK, TOPKI and the cross-lane words: results, timing and frame, all in one. -/
def Obligations.LaneGroupResults : Prop :=
  Sys2Proof.Claims.GroupResults ∧ Sys2Proof.Claims.CrossLaneResults

/-- R147: SFN of a NaN, an infinity, a zero, and of a negative operand where the function has none. -/
def Sys2Proof.Claims.SpecialOperands : Prop :=
  (∀ f a sig, f32 a = .nan sig → sfnFn f a = (0x7FC00000, if sig then flNV else 0)) ∧
  (∀ f, sfnFn f 0xFF800000 = match f with
    | .exp2 => (0, 0) | .log2 => (0x7FC00000, flNV) | .rcp => (0x80000000, 0) | .rsq => (0x7FC00000, flNV)
    | .sin => (0x7FC00000, flNV) | .cos => (0x7FC00000, flNV) | .tanh => (0xBF800000, 0) | .sigm => (0, 0)) ∧
  (∀ f, sfnFn f 0x7F800000 = match f with
    | .exp2 => (0x7F800000, 0) | .log2 => (0x7F800000, 0) | .rcp => (0, 0) | .rsq => (0, 0)
    | .sin => (0x7FC00000, flNV) | .cos => (0x7FC00000, flNV) | .tanh => (0x3F800000, 0) | .sigm => (0x3F800000, 0)) ∧
  (∀ f, sfnFn f 0x80000000 = match f with
    | .exp2 => (0x3F800000, 0) | .log2 => (0xFF800000, flDZ) | .rcp => (0xFF800000, flDZ) | .rsq => (0xFF800000, flDZ)
    | .sin => (0x80000000, 0) | .cos => (0x3F800000, 0) | .tanh => (0x80000000, 0) | .sigm => (0x3F000000, 0)) ∧
  (∀ f, sfnFn f 0 = match f with
    | .exp2 => (0x3F800000, 0) | .log2 => (0xFF800000, flDZ) | .rcp => (0x7F800000, flDZ) | .rsq => (0x7F800000, flDZ)
    | .sin => (0, 0) | .cos => (0x3F800000, 0) | .tanh => (0, 0) | .sigm => (0x3F000000, 0)) ∧
  ∀ (a : Word) (m : Nat) (e : Int), f32 a = .fin true m e → m ≠ 0 → ∀ f ∈ [SfnFn.log2, .rsq], sfnFn f a = (0x7FC00000, flNV)

/-- R155: the draw of a lane from its stream, and the counter that it advances. -/
def Sys2Proof.Claims.Draws : Prop :=
  ∀ (team : Word) (wave lane : Nat) (key count : Word), wave < 16 → lane < 64 →
    let id : DWord := BitVec.ofNat 64 (team.toNat * 1024 + wave * 64 + lane)
    let z0 := ((key.setWidth 64 <<< 32) ||| count.setWidth 64) ^^^ (id * 0xD1B54A32D192ED03)
    let z1 := (z0 ^^^ (z0 >>> 29)) * 0xAEF17502108EF2D9
    let z2 := (z1 ^^^ (z1 >>> 32)) * 0x9E6C63D0676A9A99
    drawOf (streamId team wave lane) (count ++ key) = (z2 ^^^ (z2 >>> 29)).setWidth 32 ∧
    nextSeed (count ++ key) = (count + 1) ++ key

/-- SFN of special operands, and the draws of the random stream, all in one. -/
def Obligations.SpecialOperandsAndDraws : Prop :=
  Sys2Proof.Claims.SpecialOperands ∧ Sys2Proof.Claims.Draws

/-- R120 and R123: rounding what a format holds already gives it back, under every mode and with no flag: every finite code of every format
but a zero, whose sign is kept too. -/
def Obligations.RoundingIsExact : Prop :=
  ∀ (f : FpFmt) (mode : RMode) (code : Nat), code < 2 ^ f.width → ∀ neg m e, f.decode code = .fin neg m e →
    f.encode mode (f.decode code) = (code, 0)


namespace Sys2Proof.Claims

/-- The frontier entry that holds a lane (R181). -/
def entryOf (w : Wave) (l : Nat) : Option Entry := w.frontier.find? fun e => laneIn e.mask l

/-- Where a branch word sends a lane (R87). -/
def branchTarget (c : Issue) : Instr → Option (Pred × Bool × (LaneCtx → Word))
  | .br k n o => some (k, n, fun _ => c.pc + o.signExtend 32)
  | .brl k n _ o => some (k, n, fun _ => c.pc + o.signExtend 32)
  | .jr k n a o => some (k, n, fun x => x.reg a + o.signExtend 32)
  | _ => none

/-- The register in which a branch leaves its link. -/
def linkOf : Instr → Option Reg
  | .brl _ _ a _ => some a
  | _ => none

/-- The active lanes whose guard passes, with their targets. -/
def takenBy (c : Issue) (k : Pred) (n : Bool) (target : LaneCtx → Word) : List (Nat × Word) :=
  (c.lanes.filter fun l => xor ((c.laneAt 1 l).pred k) n).map fun l => (l, target (c.laneAt 1 l))

/-- What a word that only marks its run for the trailer writes there (R93, R207 to R210, R402, R403). -/
def markOf (c : Issue) : Instr → Option (Run → Run)
  | .rcb => some fun r => { r with blocks := r.blocks ++ [.rcb c.pc] }
  | .yield => some fun r => { r with yields := true }
  | .exit => some fun r => { r with exits := true }
  | .lpass => some fun r => { r with lpass := true }
  | .wfi => some fun r => { r with blocks := r.blocks ++ [.wfi] }
  | .halt => some fun r => { r with blocks := r.blocks ++ [.halt] }
  | .winb i => if i.toNat < c.wave.nregs then some fun r => { r with newWinb := some i.toNat } else none
  | .leave => if c.run.leaves < c.wave.loops.length then some fun r => { r with leaves := r.leaves + 1 } else none
  | _ => none

end Sys2Proof.Claims

/-- R18, R31, R32 and R33: what a register field reads: 0 for gz; the register's content with the latest result written by the cycle of the
read; a latch's result once it is complete, and 0 before. -/
def Sys2Proof.Claims.ReadsOfAField : Prop :=
  ∀ (x : LaneCtx) (f : Reg),
    (f.toNat = 120 → x.reg f = 0 ∧ x.pair f = 0) ∧
    (f.toNat < 120 → (∀ w ∈ x.lane.pend, w.dst = .reg (x.winb + f.toNat) → x.cyc < w.due) →
      x.reg f = x.lane.regs.getD (x.winb + f.toNat) 0) ∧
    (f.toNat < 120 → ∀ w ∈ x.lane.pend, w.dst = .reg (x.winb + f.toNat) → w.due ≤ x.cyc →
      (∀ v ∈ x.lane.pend, v.dst = .reg (x.winb + f.toNat) → v.due ≤ x.cyc → v = w ∨ v.due < w.due) → x.reg f = w.val) ∧
    (120 < f.toNat → (∀ v ∈ x.lane.latches, v.idx + (f.toNat - 120) = x.idx → x.cyc < v.due) → x.reg f = 0 ∧ x.pair f = 0) ∧
    (120 < f.toNat → ∀ v, x.lane.latches.filter (fun v => v.idx + (f.toNat - 120) == x.idx) = [v] → v.due ≤ x.cyc →
      x.reg f = v.val.setWidth 32 ∧ x.pair f = v.val)

/-- R31 and R33: a result is read from its cycle on and not before, every other register reads as it did, and the latch holds it on the
same terms. -/
def Sys2Proof.Claims.ResultTiming : Prop :=
  ∀ (ln : Lane) (idx due p : Nat) (v : Word) (o : LaneOut), o.regs = [(p, v)] → o.pred = none →
    (∀ q y, (ln.put idx due o).physAt y q =
      if q = p ∧ due ≤ y ∧ ∀ w ∈ ln.pend, w.dst = .reg p → w.due ≤ y → w.due ≤ due then v else ln.physAt y q) ∧
    (∀ k y, (ln.put idx due o).predAt y k = ln.predAt y k) ∧
    ∀ z, o.latch = some z → (∀ w ∈ ln.latches, w.idx ≠ idx) → ∀ y k,
      (ln.put idx due o).latchAt y (idx + k) k = if due ≤ y then z else 0

/-- R28 and R33: at the end of a run every result has been written: each register then reads what it read when all results were complete,
nothing is pending, and the latches are lost. -/
def Sys2Proof.Claims.RunEndDrains : Prop :=
  ∀ (ln : Lane) (y p : Nat), (∀ w ∈ ln.pend, w.due ≤ y) → p < ln.regs.length →
    ln.drain.physAt 0 p = ln.physAt y p ∧ ln.drain.pend = [] ∧ ln.drain.latches = []

/-- What a register field reads, and when a result is written, all in one. -/
def Obligations.RegisterTiming : Prop :=
  Sys2Proof.Claims.ReadsOfAField ∧ Sys2Proof.Claims.ResultTiming ∧ Sys2Proof.Claims.RunEndDrains

/-- R87: BR, BRL and JR complete; the active lanes whose guard passes are recorded with their targets, and BRL's link, the word after the
trailer, is written in those lanes only. -/
def Sys2Proof.Claims.Branches : Prop :=
  ∀ (s : State) (c : Issue) (i : Instr) (k : Pred) (n : Bool) (target : LaneCtx → Word), s.issues c →
    branchTarget c i = some (k, n, target) →
    let taken := takenBy c k n target
    let t := s.updRun fun r => { r with taken := taken }
    exec i s = .next (State.issued (match linkOf i with
      | none => t
      | some a => t.updCur fun w => w.mapActive (maskOf (taken.map (·.1))) fun l ln =>
          ln.put c.run.idx (c.dueAt 1 4 l) (outReg (c.laneAt 1 l) false a (c.pc + 2))) c 1)

/-- R47, R93, R207 to R210, R402 and R403: RCB, YIELD, EXIT, LPASS, WFI, HALT, and LEAVE and WINB within their ranges, complete: they mark
the run for its trailer, and with no active lane they change nothing but the issue (R36, R74). -/
def Sys2Proof.Claims.MarkingWords : Prop :=
  ∀ (s : State) (c : Issue) (i : Instr) (f : Run → Run), s.issues c → markOf c i = some f →
    exec i s = .next (if c.lanes = [] then s.issued c 1 else (s.issued c 1).updRun f)

/-- R36, R47, R89 and R93: NOP only occupies its issue cycles; LEAVE on an empty loop stack and WINB at or above the allocation raise
ILLEGAL when a lane is active. -/
def Sys2Proof.Claims.NopLeaveWinb : Prop :=
  ∀ (s : State) (c : Issue), s.issues c →
    exec .nop s = .next (s.issued c 1) ∧
    (∀ l, c.lowest = some l → c.wave.loops.length ≤ c.run.leaves → exec .leave s = .next (s.raise c { code := .illegal, lane := l })) ∧
    ∀ l i, c.lowest = some l → c.wave.nregs ≤ BitVec.toNat i → exec (.winb i) s = .next (s.raise c { code := .illegal, lane := l })

/-- R91: a word of NOP's major opcode is NOP when every other field is 0, and ILLEGAL otherwise; NOP only occupies its issue cycles; and a
word of a run with a source that names the latch of a NOP is ILLEGAL where it stands, when the run is fetched, unless the word before it had
to be the last one. -/
def Sys2Proof.Claims.NopWord : Prop :=
  (∀ (p : Priv) (r : BitVec 25), checkWord p ((0x36#7 ++ r : BitVec 32)) = if r = 0 then .ok .nop else .error .illegal) ∧
  (0x36#7 ++ 0#25 : BitVec 32) = 0x6C000000#32 ∧
  (∀ (s : State) (c : Issue), s.issues c → exec .nop s = .next (s.issued c 1)) ∧
  ∀ (t : Team) (w : Wave) (top : Option Word) (fuel : Nat) (s s' : State) (pc x : Word) (before : List Instr) (i : Instr) (b : Reg) (n : Nat),
    s.fetchWord t pc = (s', .ok x) → checkWord w.priv x = .ok i → (b, n) ∈ Instr.sources (fun _ => 1) i → 120 < b.toNat →
    before.reverse[b.toNat - 121]? = some .nop → (∀ j, before.getLast? = some j → Instr.mustBeLast j = false) →
    State.fetchFrom t w top (fuel + 1) s pc before = (s', .error (.illegal, pc))

/-- NOP, and the words that mark their run for its trailer, all in one. -/
def Obligations.RunMarks : Prop :=
  Sys2Proof.Claims.MarkingWords ∧ Sys2Proof.Claims.NopWord ∧ Sys2Proof.Claims.NopLeaveWinb

/-- R44 and R88: LOOP and LOOPI complete: with a count the entry (p + 2, p + off, count) is to be pushed at the trailer, with a count of 0
control will continue after the end; an offset of 1, or a count with four entries on the stack, raises ILLEGAL. -/
def Sys2Proof.Claims.Loops : Prop :=
  ∀ (s : State) (c : Issue), s.issues c → ∀ (i : Instr) (off : BitVec 10) (n : Word),
    ((∃ a, i = .loop a off ∧ n = match c.lowest with | some l => (c.laneAt 1 l).reg a | none => 0) ∨
      ∃ m, i = .loopi off m ∧ n = match c.lowest with | some _ => m.setWidth 32 | none => 0) →
    exec i s = .next (
      if off.toNat < 2 then s.raise c { code := .illegal, lane := c.lowest.getD 0 }
      else if n = 0 then (s.issued c 1).updRun fun r => { r with skipTo := some (c.pc + off.setWidth 32 + 1) }
      else if 4 ≤ c.wave.loops.length - c.run.leaves then s.raise c { code := .illegal, lane := c.lowest.getD 0 }
      else (s.issued c 1).updRun fun r => { r with push := some { start := c.pc + 2, stop := c.pc + off.setWidth 32, count := n } })

/-- Branches and hardware loops complete, all in one. -/
def Obligations.BranchesAndLoops : Prop :=
  Sys2Proof.Claims.Branches ∧ Sys2Proof.Claims.Loops

/-- R28, R37 and R92: on a compute core TRAIL ends a run that neither exits, passes the lantern nor ends a turn: the wave's results are
written and its lanes form its next entries; the wave drains from now on, the quadrant's other waves have drained meanwhile (R188), and nothing
else of the device changes. -/
def Sys2Proof.Claims.Trailers : Prop :=
  ∀ (s : State) (c : Issue) (b : Reg) (m : BitVec 3) (e : Reg) (f : BitVec 3) (u v : Bool), s.issues c → c.team.isSup = false →
    c.wave.priv = .user → c.run.exits = false → c.run.lpass = false → c.run.yields = false → c.run.turnEnds = false → c.run.returns = false →
    c.run.blocks.any BlockWhy.endsTurn = false →
    exec (.trail b m e f false u v) s = .next ((s.drains c).updCur fun w => (w.branched s.unperformed c.run).retire c.run c.trailerPc false)

/-- R28 and R188: what a run's end does to the time: the wave drains for as long as its last result takes beyond the run's issue cycles, and
every other wave of its quadrant has drained for those cycles. -/
def Sys2Proof.Claims.RunsDrain : Prop :=
  ∀ (s : State) (c : Issue), s.issuer = some c → (∀ t ∈ s.teams, ∀ u ∈ s.teams, t.id = u.id → t = u) → 
    (∀ t ∈ s.teams, ∀ (i : Nat) (w : Wave), t.waves[i]? = some w → w.idx = i) →
    ∀ t ∈ s.teams, ∀ (i : Nat) (w : Wave), t.waves[i]? = some w →
      ((s.drains c).wave? t.id i).map Wave.drain =
        some (if t.id = c.team.id ∧ i = s.cur.2 then c.wave.lastDue - c.run.cycle
          else if t.core = c.team.core ∧ i % 4 = s.cur.2 % 4 then w.drain - c.run.cycle else w.drain)

/-- R87: at the trailer of a run that pushes nothing, in a wave with no loop, each lane of the run's entry continues at the target of the
branch that took it, and every other one at the word after the trailer; a lane of another entry stays where it was. -/
def Sys2Proof.Claims.TrailerPlacesLanes : Prop :=
  ∀ (w : Wave) (r : Run) (tr : Word), w.run = some r → w.loops = [] → r.push = none → r.skipTo = none → r.jump = none → r.exits = false →
    r.parks = [] → r.repeats = [] → r.blocks = [] → w.width ≤ 64 → (∀ e ∈ w.frontier, e.mask &&& r.mask = 0 ∧ e.isHeld = false) →
    (w.frontier.Pairwise fun a b => a.mask &&& b.mask = 0) →
    ∀ l, l < w.width →
      (laneIn r.mask l = true → (entryOf (w.retire r tr false) l).map (·.pc) =
        some (((r.taken.find? fun p => p.1 == l).map (·.2)).getD (tr + 1))) ∧
      (laneIn r.mask l = false → (entryOf (w.retire r tr false) l).map (·.pc) = (entryOf w l).map (·.pc))

/-- The trailer ends a run and places its lanes, all in one. -/
def Obligations.RunEnds : Prop :=
  Sys2Proof.Claims.Trailers ∧ Sys2Proof.Claims.RunsDrain ∧ Sys2Proof.Claims.TrailerPlacesLanes


namespace Sys2Proof.Claims

/-- What a lane reads from the special registers of R21. -/
def userRegister (s : State) (c : Issue) (x : LaneCtx) : Nat → Option DWord
  | 0x001 => some (BitVec.ofNat 64 c.run.winb)
  | 0x002 => some ((x.lane.flagsAt c.run.cycle).setWidth 64)
  | 0x003 => some ((c.wave.rmodeAt c.run.cycle).setWidth 64)
  | 0x004 => some (x.lane.seedAt c.run.cycle)
  | 0x010 => some (BitVec.ofNat 64 x.l)
  | 0x011 => some (BitVec.ofNat 64 c.wave.idx)
  | 0x012 => some (c.team.linear.setWidth 64)
  | 0x013 => some (BitVec.ofNat 64 c.wave.width)
  | 0x014 => some (BitVec.ofNat 64 c.wave.nregs)
  | 0x015 => some (BitVec.ofNat 64 (c.team.core % 100))
  | 0x016 => some (BitVec.ofNat 64 (c.team.core / 100))
  | 0x017 => some (BitVec.ofNat 64 (s.devnum.toNat % 512))
  | 0x018 => some (BitVec.ofNat 64 c.wave.loops.length)
  | 0x020 => some (BitVec.ofNat 64 s.time)
  | _ => none

/-- The 64-bit special registers (R21, R408, R465). -/
def wideRegister (n : Nat) : Bool :=
  n ∈ [0x004, 0x020, 0x201, 0x202, 0x206, 0x207, 0x212, 0x224, 0x230, 0x232, 0x240, 0x246, 0x249, 0x250, 0x255]

/-- The supervisor registers that software may read and write (R408, R465): they read what was last written. -/
def readWrite : List Nat :=
  [0x200, 0x201, 0x202, 0x203, 0x204, 0x206, 0x210, 0x211, 0x212, 0x213, 0x214, 0x216, 0x218, 0x219, 0x21A, 0x21B, 0x21C, 0x21D, 0x21E,
    0x21F, 0x220, 0x221, 0x222, 0x224, 0x225, 0x226, 0x228, 0x230, 0x231, 0x240, 0x241, 0x244, 0x248, 0x24B, 0x250, 0x251, 0x252, 0x254, 0x255,
    0x256, 0x258]

/-- The registers that stand once for each partition (R408, R465). -/
def perPartition (n : Nat) : Bool := (0x211 ≤ n && n ≤ 0x223) || (0x240 ≤ n && n ≤ 0x244)

/-- What each lane receives as a status of variable latency (R37, R399): one result of the run, that the trailer is to name.
`whole` is the instruction that a fault of it repeats, if one does (R367). -/
def givesStatus (s : State) (c : Issue) (d : Reg) (src : LoadSrc) (whole : Option Redo := none) : State :=
  ({ s with nextId := s.nextId + 1 } : State).updCur fun w =>
    { w with loads := w.loads ++ [{ seq := s.nextId, pc := c.pc, whole := whole, items := c.lanes.map fun l =>
      { lane := l, dst := if d.toNat < 120 then some (c.run.winb + d.toNat) else none, pair := false, src := src, va := 0 } }] }

/-- The D, A and B fields of a PART word. -/
def partFields : Instr → Option (Reg × Reg × Reg)
  | .partEnq d a b | .partAdd d a b | .partRemove d a b | .partReset d a b => some (d, a, b)
  | _ => none

/-- The state with an identity taken. -/
def nextIdentity (s : State) : State := { s with nextId := s.nextId + 1 }

end Sys2Proof.Claims

/-- R21 and R95: GETS completes; every active lane reads the register as it stands in the word's first issue cycle, a 64-bit one into a
pair; a write-only one reads 0 (R10). -/
def Sys2Proof.Claims.SpecialReads : Prop :=
  ∀ (s : State) (c : Issue) (n : Bool) (d : Reg) (i : BitVec 10), s.issues c →
    (∀ v : LaneCtx → DWord, (∀ x, userRegister s c x i.toNat = some (v x)) ∨
        (0x200 ≤ i.toNat ∧ i.toNat ∉ [0x207, 0x209, 0x217, 0x249] ∧ ∀ x, v x = s.getSup c.team.supIdx i.toNat) ∨
        (i.toNat ∈ [0x207, 0x209, 0x217, 0x249] ∧ ∀ x, v x = 0) →
      exec (.gets n d i) s = .next ((s.putLanes c (c.dueAt 1 4) fun l =>
        let x := c.laneAt 1 l
        let r := x.winb + d.toNat
        if wideRegister i.toNat then
          { regs := if n ∨ 120 ≤ d.toNat then [] else [(r, (v x).setWidth 32), (r + 1, (v x >>> 32).setWidth 32)], latch := some (v x) }
        else
          { regs := if n ∨ 120 ≤ d.toNat then [] else [(r, (v x).setWidth 32)], latch := some (((v x).setWidth 32).setWidth 64) }).issued c 1))

/-- R93 and R96: SETS of %winb, %flags, %rmode and %seed completes for legal values: the window base is that of the next run, the others
take effect four cycles after the last issue cycle, and %flags and %seed are set in each active lane. A reserved value raises ILLEGAL. -/
def Sys2Proof.Claims.SpecialWrites : Prop :=
  ∀ (s : State) (c : Issue) (a : Reg) (l : Nat), s.issues c → c.lowest = some l →
    let x := c.laneAt 1 l
    let v := x.reg a
    let at4 := c.run.cycle + c.wave.width / 16 - 1 + 4
    let bad := Host.Outcome.next (s.raise c { code := .illegal, lane := l })
    (exec (.sets a 0x001) s = if v.toNat < 512 ∧ v.toNat % 8 = 0 ∧ v.toNat < c.wave.nregs then
        .next ((s.issued c 1).updRun fun r => { r with newWinb := some v.toNat }) else bad) ∧
    (exec (.sets a 0x003) s = if v.toNat ≤ 4 then
        .next ((s.issued c 1).updCur fun w => { w with rmodePend := w.rmodePend ++ [(at4, v)] }) else bad) ∧
    ((∀ j ∈ c.lanes, ((c.laneAt 1 j).reg a).toNat < 64) →
      exec (.sets a 0x002) s = .next ((s.issued c 1).updCur fun w => w.mapActive c.run.mask fun j ln =>
        { ln with pend := ln.pend ++ [{ due := at4, dst := .setFlags, val := (c.laneAt 1 j).reg a }] })) ∧
    exec (.sets a 0x004) s = .next ((s.issued c 1).updCur fun w => w.mapActive c.run.mask fun j ln =>
      { ln with seedPend := ln.seedPend ++ [(at4, (c.laneAt 1 j).pair a)] })

/-- R96 and R408: SETS of a supervisor register takes effect at once when the value lies in the register's range, and raises ILLEGAL and
leaves every register unchanged when it does not. -/
def Sys2Proof.Claims.SupervisorWrites : Prop :=
  ∀ (s : State) (c : Issue) (a : Reg) (l : Nat) (i : BitVec 10), s.issues c → c.lowest = some l → 0x200 ≤ i.toNat →
    let x := c.laneAt 1 l
    exec (.sets a i) s = .next (
      match (s.issued c 1).setSup c.team.supIdx i.toNat (if wideRegister i.toNat then x.pair a else (x.reg a).setWidth 64) with
      | some t => t
      | none => s.raise c { code := .illegal, lane := l })

/-- GETS and SETS, all in one. -/
def Obligations.SpecialRegisters : Prop :=
  Sys2Proof.Claims.SpecialReads ∧ Sys2Proof.Claims.SpecialWrites ∧ Sys2Proof.Claims.SupervisorWrites

/-- R408 and R465: a supervisor register that may be read and written reads what was written; a register of a supervisor core is that
core's own, and a register of a partition is the selected partition's own. -/
def Obligations.SupervisorRegistersReadBack : Prop :=
  ∀ (s t : State) (i n : Nat) (v : DWord), s.wellKept → i < 16 →
    n ∈ readWrite → s.setSup i n v = some t →
    (t.getSup i n = if wideRegister n then v else (v.setWidth 32).setWidth 64) ∧
    (n ≤ 0x210 ∨ n = 0x231 → ∀ j, j ≠ i → t.sup j = s.sup j) ∧
    (perPartition n = true → (∀ j, t.sup j = s.sup j) ∧ ∀ q, q ≠ (s.sup i).psel.toNat % 16 → t.part q = s.part q)

/-- R366 and R367: a fault at execution on a compute core parks every lane of the issuing entry at the faulting word, beside the faults that
parked it before, with its report to the partition's ring; memory and the other waves are as before, but for the drain that the run's end
lets go on (R28). -/
def Obligations.FaultsPark : Prop :=
  ∀ (s : State) (c : Issue) (f : FaultInfo), s.issues c → c.team.isSup = false → c.run.jump = none → f.code ≠ .eccUncorr →
    let t := s.raise c f
    (∃ r, t.reports = s.reports ++ [r] ∧ r.id = s.nextId ∧ r.kind = 0 ∧ r.code = f.code.num ∧ r.pc = c.pc ∧ r.lane = f.lane ∧
      r.wave = c.wave.idx ∧ r.team = c.team.linear ∧ r.addr = f.addr.getD 0 ∧ r.aux = f.aux ∧ r.ring = some (s.partOf c.team)) ∧
    (∃ w, t.wave? s.cur.1 s.cur.2 = some w ∧ w.run = none ∧
      ∀ l, l < 64 → laneIn c.run.mask l = true → ∃ e ∈ w.frontier, laneIn e.mask l = true ∧ e.pc = c.pc ∧
        ∃ ps k, e.st = .parked (ps ++ [⟨f.code, s.nextId, k⟩])) ∧
    t.mem = s.mem ∧ t.posted = s.posted ∧ t.sups = s.sups ∧ t.parts = s.parts ∧
    ∀ i j, (i, j) ≠ s.cur → (t.wave? i j).map (fun w => { w with drain := 0 }) = (s.wave? i j).map (fun w => { w with drain := 0 })

/-- R374: trap entry on a supervisor core whose frame fits: the frame of 128 bytes is stored below %tfp as two lines, %tfp names it,
interrupts are masked, and the core goes on at %tvec with %twb, an empty loop stack and supervisor privilege. Below %tlim the core halts. -/
def Sys2Proof.Claims.TrapEntry : Prop :=
  ∀ (s : State) (t : Team) (w : Wave) (mask : BitVec 64) (cause : Nat) (ret : Word) (addr : DWord) (info : Word),
    s.sups.length = 16 → t.supIdx < 16 → s.wave? t.id 0 = some w →
    let u := s.sup t.supIdx
    let z := s.trapEntry t mask cause ret addr info
    (u.tlim.toNat + 128 ≤ u.tfp.toNat →
      (∃ a b, z.posted = s.posted ++ [a, b] ∧ a.pa = u.tfp.toNat - 128 ∧ b.pa = u.tfp.toNat - 64 ∧
        a.bytes ++ b.bytes = whole (trapFrame w (decide (w.priv = .supervisor)) (u.sie.getLsbD 31) mask cause ret addr info)) ∧
      z.sup t.supIdx = { u with tfp := u.tfp - 128, sie := u.sie &&& 0x7FFFFFFF } ∧
      ∃ v, z.wave? t.id 0 = some v ∧ v.frontier.map (fun e => (e.pc, e.mask)) = [(u.tvec, mask)] ∧ v.winb = u.twb.toNat ∧ v.loops = [] ∧
        v.priv = .supervisor) ∧
    (u.tfp.toNat < u.tlim.toNat + 128 →
      (z.sup t.supIdx).halted = true ∧ (∀ j, j < 16 → (z.sup j).sip.getLsbD 4 = true) ∧ z.posted = s.posted)

/-- R374 and R375: the frame holds each field at its place, and what ERET reads from it is what entry saved: the frame is valid, and the
return address, window base, rounding mode, mask and the loop stack, bottom first, read back. -/
def Sys2Proof.Claims.TrapFrames : Prop :=
  ∀ (w : Wave) (priv gie : Bool) (mask : BitVec 64) (cause : Nat) (ret : Word) (addr : DWord) (info : Word),
    cause < 256 → w.loops.length ≤ 4 → w.winb < 512 → w.winb % 8 = 0 → w.rmode.toNat ≤ 4 → (∀ ln ∈ w.lanes, ln.flags.toNat < 64) →
    let bs := trapFrame w priv gie mask cause ret addr info
    bs.length = 128 ∧ frameValid bs = true ∧ fieldLE bs 0 1 = 0x10 ∧ fieldLE bs 1 1 = cause ∧ fieldLE bs 2 1 = w.loops.length ∧
    fieldLE bs 3 1 = (if priv then 1 else 0) + (if gie then 2 else 0) ∧ field32 bs 4 = ret ∧ field64 bs 8 = addr ∧
    fieldLE bs 16 4 = w.winb ∧ field32 bs 24 = w.rmode ∧ field64 bs 28 = mask ∧ field32 bs 36 = info ∧
    frameLoops bs w.loops.length = w.loops

/-- Trap entry, its frame, and what ERET reads from it, all in one. -/
def Obligations.TrapEntryAndFrame : Prop :=
  Sys2Proof.Claims.TrapEntry ∧ Sys2Proof.Claims.TrapFrames

/-- R375, R386, R398, R400 and R401: TRAP raises its fault with its number. ERET marks its run when the frame at %tfp is valid, or in a
restore entry, and raises ILLEGAL for an invalid frame and in a save entry. ERET reads its frame when no FENCE, ACQ or tag of the wave holds it
back (R267). -/
def Obligations.TrapAndEret : Prop :=
  ∀ (s : State) (c : Issue), s.issues c →
    (∀ n : BitVec 10, exec (.trap n) s = .next (s.raise c { code := .trap, lane := c.lowest.getD 0, aux := n.setWidth 32 })) ∧
    ∀ l, c.lowest = some l → s.stalls c .eret = false →
      exec .eret s = .next (
        if (if c.team.isSup then frameValid ((s.issued c 1).frameBytes c.team) else !c.wave.saving) then
          (s.issued c 1).updRun fun r => { r with returns := true }
        else s.raise c { code := .illegal, lane := l })

/-- R378 and R404: TLBI acts first as a FENCE.dev of its wave, on which its entry is Blocked while a write or a read of the wave issued before
has to be made, and blocks the entry until the removal is made and what it has served is performed; a reserved control value is ILLEGAL. -/
def Sys2Proof.Claims.TlbInvalidations : Prop :=
  ∀ (s : State) (c : Issue) (a b : Reg) (l : Nat), s.issues c → c.lowest = some l →
    let k := c.slots 1 (some (a, b))
    let x := c.laneAt k l
    let ctl := (x.reg b).toNat
    let ok := ctl / 2 ^ 30 ≠ 3 ∧ ctl / 2 ^ 28 % 4 ≠ 3 ∧ ctl / 2 ^ 12 % 2 ^ 16 = 0 ∧ (ctl / 2 ^ 30 = 0 → (x.pair a).toNat < 2 ^ 56)
    let t := nextIdentity (s.issued c k)
    let wait := BlockWhy.tlbi [] (x.pair a) (x.reg b) false
    (¬ ok → exec (.tlbi a b) s = .next (s.raise c { code := .illegal, lane := l })) ∧
    (ok → t.fenceHolds c.team.id c.wave s.nextId 2 = true → exec (.tlbi a b) s = .next (t.updRun fun r =>
      { r with blocks := r.blocks ++ [.fence s.nextId 2 (t.fencePending c.team.id c.wave s.nextId), wait] })) ∧
    (ok → t.fenceHolds c.team.id c.wave s.nextId 2 = false →
      exec (.tlbi a b) s = .next ((t.completeFence c.team c.wave s.nextId 2).updRun fun r => { r with blocks := r.blocks ++ [wait] })) ∧
    ((∃ p ∈ s.posted, p.team = c.team.id ∧ p.wave = c.wave.idx ∧ p.id < s.nextId ∧ p.remote = false) ∨
      (∃ i ∈ c.wave.loads, i.seq < s.nextId ∧ i.reads = true) → t.fenceHolds c.team.id c.wave s.nextId 2 = true)

/-- R405: PART ADD and REMOVE give a core to a partition and take it away, or answer BUSY or that it is not the partition's; ENQ offers a
launch; RESET starts the partition's reset; every status is a result of variable latency. A reserved field, an unknown operation and a core
above 383 are ILLEGAL. -/
def Sys2Proof.Claims.Partitions : Prop :=
  ∀ (s : State) (c : Issue) (i : Instr) (d a b : Reg) (l : Nat), s.issues c → c.lowest = some l → partFields i = some (d, a, b) →
    let k := c.slots 1 (some (a, b))
    let x := c.laneAt k l
    let t := s.issued c k
    let w := (x.reg b).toNat
    let op := w / 2 ^ 28
    let p := w % 16
    let n := (x.pair a).toNat % 2 ^ 32
    (w / 16 % 2 ^ 24 ≠ 0 ∨ 4 ≤ op ∨ (op ∈ [1, 2] ∧ 384 ≤ n) → exec i s = .next (s.raise c { code := .illegal, lane := l })) ∧
    (w / 16 % 2 ^ 24 = 0 → n < 384 → ∀ core, t.core? (n / 96 * 100 + n % 96) = some core →
      (op = 1 → exec i s = .next (if core.part = none then
          givesStatus (t.updCore core.id fun k => { k with part := some p }) c d (.value 0) else givesStatus t c d (.value 1))) ∧
      (op = 2 → exec i s = .next (
        if core.part ≠ some p then givesStatus t c d (.value 3)
        else if t.teams.any fun u => u.core == core.id then givesStatus t c d (.value 1)
        else givesStatus (t.updCore core.id fun k => { k with part := none }) c d (.value 0)))) ∧
    (w / 16 % 2 ^ 24 = 0 → op = 0 → ∃ u o, exec i s = .next u ∧ u.offers = t.offers ++ [o] ∧ o.part = p ∧ o.template = x.pair a ∧
      u = { givesStatus { t with nextId := t.nextId + 1 } c d (.launchReply t.nextId) with offers := t.offers ++ [o] }) ∧
    (w / 16 % 2 ^ 24 = 0 → op = 3 → ∃ u, exec i s = .next u ∧
      u = (givesStatus t c d (.launchReply 0)).beginReset p 0 0 (some (c.team.id, c.wave.idx, t.nextId)))

/-- R405: the four words of PART complete, word by word: each on the operation that B names, with no reserved bit of B set, and for ADD and
REMOVE on a core that the device has. -/
def Sys2Proof.Claims.PartWords : Prop :=
  ∀ (s : State) (c : Issue) (d a b : Reg) (l : Nat), s.issues c → c.lowest = some l →
    let k := c.slots 1 (some (a, b))
    let x := c.laneAt k l
    let t := s.issued c k
    let w := (x.reg b).toNat
    let core := (x.pair a).toNat % 2 ^ 32 / 96 * 100 + (x.pair a).toNat % 2 ^ 32 % 96
    w / 16 % 2 ^ 24 = 0 →
    (w / 2 ^ 28 = 0 → exec (.partEnq d a b) s = .next { givesStatus (nextIdentity t) c d (.launchReply s.nextId) with
      offers := s.offers ++ [{ id := s.nextId, part := w % 16, template := x.pair a, source := .supervisor c.team.id (s.nextId + 1),
                               after := (nextIdentity t).wavePending c.team.id c.wave, args := none, prio := none }] }) ∧
    (w / 2 ^ 28 = 1 → (x.pair a).toNat % 2 ^ 32 < 384 → ∀ y, s.core? core = some y →
      exec (.partAdd d a b) s = .next (if y.part = none then givesStatus (t.updCore y.id fun k => { k with part := some (w % 16) }) c d (.value 0)
        else givesStatus t c d (.value 1))) ∧
    (w / 2 ^ 28 = 2 → (x.pair a).toNat % 2 ^ 32 < 384 → ∀ y, s.core? core = some y →
      exec (.partRemove d a b) s = .next (if y.part ≠ some (w % 16) then givesStatus t c d (.value 3)
        else if s.teams.any fun u => u.core == y.id then givesStatus t c d (.value 1)
        else givesStatus (t.updCore y.id fun k => { k with part := none }) c d (.value 0))) ∧
    (w / 2 ^ 28 = 3 → exec (.partReset d a b) s = .next
      ((givesStatus t c d (.launchReply 0)).beginReset (w % 16) 0 0 (some (c.team.id, c.wave.idx, s.nextId))))

/-- TLBI and PART, all in one. -/
def Obligations.SupervisorWords : Prop :=
  Sys2Proof.Claims.TlbInvalidations ∧ Sys2Proof.Claims.Partitions ∧ Sys2Proof.Claims.PartWords

/-- R406: LOSTCLR of a line that is LOST posts 64 zero bytes and answers 0 when they are performed, of any other line it answers 1; an
address outside the device's memory, a misaligned one and a stalagmite line raise their faults. -/
def Obligations.LostLines : Prop :=
  ∀ (s : State) (c : Issue) (d a : Reg) (l : Nat), s.issues c → c.lowest = some l →
    let pa := ((c.laneAt 1 l).pair a).toNat
    let t := s.issued c 1
    let fails := fun f : FaultCode => exec (.lostclr d a) s = .next (s.raise c { code := f, lane := l, addr := some ((c.laneAt 1 l).pair a) })
    (2 ^ 43 ≤ pa → fails .illegal) ∧
    (pa < 2 ^ 43 → pa % 64 ≠ 0 → fails .align) ∧
    (pa < 2 ^ 43 → pa % 64 = 0 → s.inWindow pa = true → fails .accState) ∧
    (pa < 2 ^ 43 → pa % 64 = 0 → s.inWindow pa = false → inHbm pa = false → c.team.isSup = true →
      exec (.lostclr d a) s = .next (t.raise c { code := .prot, lane := l, addr := some ((c.laneAt 1 l).pair a) })) ∧
    (pa < 2 ^ 43 → pa % 64 = 0 → s.inWindow pa = false → inHbm pa = true →
      (pa ∉ s.lost → exec (.lostclr d a) s = .next (givesStatus t c d (.value 1))) ∧
      (pa ∈ s.lost → exec (.lostclr d a) s = .next (givesStatus
        (t.post c.team c.wave.idx (s.devnum.toNat % 512 * 2 ^ 43 + pa) (List.replicate 64 (some 0)) ((c.laneAt 1 l).pair a) false false)
        c d (.performed [t.nextId] 0))))


namespace Sys2Proof.Claims

/-- The lanes' accesses through an unbound record succeed: their addresses are formed (R51), each in-bounds one is translated (R377), and none
lies in a stalagmite line. `s₁` is the state with its TLBs filled. -/
structure Reaches (s : State) (c : Issue) (q : RecReg) (x : Reg) (z : Nat) (lanes : List Nat) (k : Access)
    (s₁ : State) (at_ : List (Nat × Option Nat)) (ts : List LaneTarget) : Prop where
  unbound : (c.record q).bound = false
  size : Fmt.size (c.record q).format = z
  formed : c.laneAddrs 1 (c.record q) x z lanes = .ok at_
  translated : State.laneTargets c.team (c.record q) k at_ (s.issued c 1) = (s₁, ts)
  good : ∀ t ∈ ts, ∃ g, t.pa = .ok g ∧ ¬ (devOf g = s₁.ownDev ∧ s₁.inWindow (localOf g) = true)

/-- The fabric-global address of a lane's element, none when it is out of bounds under clamp-to-zero. -/
def globalOf (ts : List LaneTarget) (l : Nat) : Option Nat := (ts.find? fun t => t.lane == l).bind fun t => t.pa.toOption

/-- The fabric-global address of a posted write. -/
def postedAt (s : State) (p : Posted) : Nat := if p.remote then p.pa else s.devnum.toNat % 512 * 2 ^ 43 + p.pa

/-- The byte that the last of a list of writes to an address gives it; none when there is none. A write may leave out bytes between its
first and its last one. -/
def lastByte (ws : List (Nat × List (Option Byte))) (a : Nat) : Option Byte :=
  ((ws.filterMap fun w => if w.1 ≤ a then (w.2[a - w.1]?).join else none)).getLast?

/-- What an atomic word does: the operation and whether the old value is returned (R310). -/
def atomicForm : Instr → Option (RmwOp × Bool × Pred × Reg × RecReg × Reg × BitVec 3)
  | .atomAdd k d q x s => some (.add, true, k, d, q, x, s)
  | .redAdd k d q x s => some (.add, false, k, d, q, x, s)
  | .atomMin k d q x s => some (.min, true, k, d, q, x, s)
  | .redMin k d q x s => some (.min, false, k, d, q, x, s)
  | .atomMax k d q x s => some (.max, true, k, d, q, x, s)
  | .redMax k d q x s => some (.max, false, k, d, q, x, s)
  | .atomAnd k d q x s => some (.and, true, k, d, q, x, s)
  | .redAnd k d q x s => some (.and, false, k, d, q, x, s)
  | .atomOr k d q x s => some (.or, true, k, d, q, x, s)
  | .redOr k d q x s => some (.or, false, k, d, q, x, s)
  | .atomXor k d q x s => some (.xor, true, k, d, q, x, s)
  | .redXor k d q x s => some (.xor, false, k, d, q, x, s)
  | .atomXchg k d q x s => some (.xchg, true, k, d, q, x, s)
  | .cas k d q x s => some (.cas, true, k, d, q, x, s)
  | _ => none

/-- The operand and, for CAS, the comparand of an atomic (R310). -/
def atomicData (op : RmwOp) (z : Nat) (x : LaneCtx) (d : Reg) : DWord × DWord :=
  match op, decide (z = 8) with
  | .cas, false => ((x.grp d 1).setWidth 64, (x.grp d 0).setWidth 64)
  | .cas, true => (x.grp d 3 ++ x.grp d 2, x.pair d)
  | _, false => ((x.reg d).setWidth 64, 0)
  | _, true => (x.pair d, 0)

end Sys2Proof.Claims

/-- R97 and R98: RECLD of an aligned address of the space asks for the record, which its arrival places; RECSET places the record of eight
registers for the next run. A bad address, a bad version or a reserved code raises its fault and places nothing. -/
def Sys2Proof.Claims.Records : Prop :=
  ∀ (s : State) (c : Issue) (d : RecReg) (a : Reg) (l : Nat), s.issues c → c.lowest = some l →
    let x := c.laneAt 1 l
    let va := (x.pair a).toNat
    let r := BufRec.ofBytes ((List.range 8).flatMap fun i => bytesLE 4 (x.grp a i).toNat)
    (∀ s₁ g, va < 2 ^ 56 → va % 32 = 0 → (s.issued c 1).translateFor c.team va .read = (s₁, .ok g) →
      exec (.recld d a) s = .next (({ s₁ with nextId := s₁.nextId + 1 } : State).updCur fun w => { w with
        recLoads := w.recLoads ++ [{ seq := s₁.nextId, reg := d, pa := g, pc := c.pc, va := x.pair a, mask := c.run.mask,
                                     redo := { instr := .recld d a, winb := c.run.winb, pc := c.pc, ctxs := [x], recs := c.recs } }] })) ∧
    (va < 2 ^ 56 → va % 32 ≠ 0 → exec (.recld d a) s = .next (s.raise c { code := .align, lane := l, addr := some (x.pair a) })) ∧
    (r.check = none → exec (.recset d a) s = .next ((s.issued c 1).updCur fun w => { w with recNext := w.recNext ++ [(d.toNat, r)] })) ∧
    ∀ f, r.check = some f → exec (.recset d a) s = .next (s.raise c { code := f, lane := l })

/-- R99 and R100: LD through an unbound record completes: every active lane waits for the element at its address, or receives 0 when it is
out of bounds under clamp-to-zero; nothing is written yet. -/
def Obligations.Loads : Prop :=
  ∀ (s s₁ : State) (c : Issue) (d : Reg) (q : RecReg) (x : Reg) (h : Hint) (z : Size) (at_ : List (Nat × Option Nat)) (ts : List LaneTarget),
    s.issues c → c.lanes ≠ [] → Reaches s c q x (Size.bytes z) c.lanes .read s₁ at_ ts →
    let r := c.record q
    exec (.ld d q x h z) s = .next (({ s₁ with nextId := s₁.nextId + 1 } : State).updCur fun w => { w with
      loads := w.loads ++ [{ seq := s₁.nextId, pc := c.pc, whole := none, named := c.named, items := at_.map fun p =>
        { lane := p.1, dst := if d.toNat < 120 then some (c.run.winb + d.toNat) else none, pair := decide (z = .d),
          va := BitVec.ofNat 64 (p.2.getD 0),
          src := match p.2.bind fun _ => globalOf ts p.1 with
            | none => .value 0
            | some g => if devOf g = s₁.ownDev then .memory (localOf g) r.format h else .remote (BitVec.ofNat 64 g) r.format h none } }] })

/-- R54, R99 and R101: ST through an unbound record completes: the bytes of the lanes whose guard passes are posted, at each address those of
the highest-numbered lane that writes it, and no other address is posted to; the lanes of a slice that share a line share one request; nothing
reaches memory yet. -/
def Obligations.Stores : Prop :=
  ∀ (s s₁ : State) (c : Issue) (k : Pred) (d : Reg) (q : RecReg) (x : Reg) (h : Hint) (z : Size) (at_ : List (Nat × Option Nat))
    (ts : List LaneTarget), s.issues c → c.lanes ≠ [] →
    Reaches s c q x (Size.bytes z) (c.lanes.filter fun l => (c.laneAt 1 l).pred k) .write s₁ at_ ts →
    let stores := ts.filterMap fun t => (globalOf ts t.lane).map fun g =>
      (g, whole <| bytesLE (Size.bytes z) (if z = .d then ((c.laneAt 1 t.lane).pair d).toNat else ((c.laneAt 1 t.lane).reg d).toNat))
    ∃ t new, exec (.st k d q x h z) s = .next t ∧ t.posted = s.posted ++ new ∧ t.mem = s.mem ∧
      (∀ p ∈ new, p.team = c.team.id ∧ p.wave = c.wave.idx ∧ p.core = c.team.core ∧ p.applied = false) ∧
      new.length = ((List.range 4).map fun k => (distinct ((ts.filter fun t => decide (t.lane / 16 = k)).filterMap fun t =>
        (globalOf ts t.lane).map fun g => g / 64)).length).sum ∧
      ∀ a, lastByte (new.map fun p => (postedAt t p, p.bytes)) a = lastByte stores a

/-- R102 and R366: LD, ST and the atomics raise ILLEGAL through a record whose element size or type they do not take, before any access. -/
def Sys2Proof.Claims.AccessTypes : Prop :=
  ∀ (s : State) (c : Issue), s.issues c → c.lanes ≠ [] →
    let bad := Host.Outcome.next (s.raise c { code := .illegal, lane := c.lowest.getD 0 })
    (∀ d q x h z, Fmt.size (c.record q).format ≠ Size.bytes z →
      (s.stalls c (.ld d q x h z) = false → exec (.ld d q x h z) s = bad) ∧ ∀ k, exec (.st k d q x h z) s = bad) ∧
    ∀ i op ret k d q x sc, atomicForm i = some (op, ret, k, d, q, x, sc) →
      Fmt.size (c.record q).format = 0 ∨ ((c.record q).format ∈ [Fmt.e4m3, .e5m2] ∧ op ∉ [RmwOp.xchg, .cas]) ∨
        ((c.record q).format ∈ [Fmt.f32, .f16, .bf16] ∧ op ∈ [RmwOp.and, .or, .xor]) →
      exec i s = bad

/-- R310 and R311: an atomic through an unbound record completes: each lane whose guard passes sends its operation on the element at its
address to the home, in lane order; ATOM, xchg and CAS wait for the old value, an out-of-bounds lane receiving 0, and RED for nothing. -/
def Sys2Proof.Claims.Atomics : Prop :=
  ∀ (s s₁ : State) (c : Issue) (i : Instr) (op : RmwOp) (ret : Bool) (k : Pred) (d : Reg) (q : RecReg) (x : Reg) (sc : BitVec 3)
    (at_ : List (Nat × Option Nat)) (ts : List LaneTarget), s.issues c → c.lanes ≠ [] → atomicForm i = some (op, ret, k, d, q, x, sc) →
    let f := (c.record q).format
    RmwOp.takes op f = true → RmwOp.dataOk op f d = true → c.dFits d (Fmt.regs f * if op = .cas then 2 else 1) = true →
    Reaches s c q x (Fmt.size f) (c.lanes.filter fun l => (c.laneAt 1 l).pred k) .rmw s₁ at_ ts →
    ∃ t new, exec i s = .next t ∧ t.rmws = s.rmws ++ new ∧ t.mem = s.mem ∧ t.posted = s.posted ∧
      (new.map fun m => (m.lane, if m.remote then m.pa else t.devnum.toNat % 512 * 2 ^ 43 + m.pa, m.operand, m.comparand)) =
        ts.filterMap (fun y => (globalOf ts y.lane).map fun g =>
          (y.lane, g, (atomicData op (Fmt.size f) (c.laneAt 1 y.lane) d).1, (atomicData op (Fmt.size f) (c.laneAt 1 y.lane) d).2)) ∧
      (∀ m ∈ new, m.op = op ∧ m.fmt = f ∧ m.level = sc.toNat ∧ m.load = if ret then some s₁.nextId else none) ∧
      ∃ w, t.wave? s.cur.1 s.cur.2 = some w ∧
        w.loads.map (·.seq) = c.wave.loads.map (·.seq) ++ (if ret = true ∧ at_ ≠ [] then [s₁.nextId] else []) ∧
        (ret = true → at_ ≠ [] → w.loads.getLast?.map (fun y => y.items.map fun j => (j.lane, j.src)) =
          some (at_.map fun p => (p.1, if p.2.isSome then .rmw else .value 0)))

/-- Atomics through an unbound record, and the element types of an access, all in one. -/
def Obligations.AtomicWords : Prop :=
  Sys2Proof.Claims.Atomics ∧ Sys2Proof.Claims.AccessTypes

/-- R294, R295, R228 and R396: SLD within the scratchpad completes when no FENCE, ACQ or tag of the wave holds it back (R267): each active lane's
bytes are written 24 cycles after the last port cycle of the last slice. Bytes that hold an uncorrectable error are ECC_UNCORR. -/
def Sys2Proof.Claims.ScratchpadLoads : Prop :=
  ∀ (s : State) (c : Issue) (n : Bool) (d a : Reg) (o : BitVec 7) (z : Size), s.goes c (.sld n d a o z) → c.lanes ≠ [] →
    let zb := Size.bytes z
    let addr := fun l => ((c.laneAt 1 l).reg a).toNat + o.toInt * zb
    let bad := fun l => c.team.spadError (addr l).toNat zb
    (∀ l ∈ c.lanes, 0 ≤ addr l ∧ addr l + zb ≤ c.team.spadSize ∧ (addr l).toNat % zb = 0) →
    (∀ l, c.lanes.find? bad = some l → exec (.sld n d a o z) s = .next (s.raise c { code := .eccUncorr, lane := l, aux := 2 })) ∧ (
    (∀ l ∈ c.lanes, bad l = false) →
    let port := ((List.range (c.wave.width / 16)).map fun k =>
      (c.run.cycle + k, bankCost ((c.lanes.filter fun l => l / 16 == k).map fun l => (addr l).toNat) zb)).foldl
        (fun f x => Nat.max x.1 f + x.2) c.run.spadPort
    exec (.sld n d a o z) s = .next (((s.issued c 1).updRun fun r => { r with spadPort := port }).putLanes c (fun _ => port - 1 + 24) fun l =>
      let v := natLE (Memory.readN c.team.spad (addr l).toNat zb)
      if z = .d then outPair (c.laneAt 1 l) d (BitVec.ofNat 64 v) else outReg (c.laneAt 1 l) n d (BitVec.ofNat 32 v)))

/-- R222, R294 and R297: SST within the scratchpad completes: each byte of the team's scratchpad is that of the highest-numbered lane that
writes it, and every other byte reads as before, in the scratchpad and in memory. A lane outside it, or misaligned, faults before any store. -/
def Sys2Proof.Claims.ScratchpadStores : Prop :=
  ∀ (s : State) (c : Issue) (d a : Reg) (o : BitVec 7) (z : Size), s.goes c (.sst d a o z) → c.lanes ≠ [] → Memory.wf c.team.spad = true →
    let zb := Size.bytes z
    let addr := fun l => ((c.laneAt 1 l).reg a).toNat + o.toInt * zb
    let ok := fun l => 0 ≤ addr l ∧ addr l + zb ≤ c.team.spadSize ∧ (addr l).toNat % zb = 0
    ((∀ l ∈ c.lanes, ok l) → ∃ t u, exec (.sst d a o z) s = .next t ∧ t.team? s.cur.1 = some u ∧ t.mem = s.mem ∧ t.posted = s.posted ∧
      ∀ b, Memory.read u.spad b = (lastByte (c.lanes.map fun l =>
        ((addr l).toNat, whole <| bytesLE zb (if z = .d then ((c.laneAt 1 l).pair d).toNat else ((c.laneAt 1 l).reg d).toNat))) b).getD
          (Memory.read c.team.spad b)) ∧
    ∀ l, c.lanes.find? (fun l => decide (¬ ok l)) = some l →
      exec (.sst d a o z) s = .next (s.raise c { code := if 0 ≤ addr l ∧ addr l + zb ≤ c.team.spadSize then .align else .bounds, lane := l })

/-- SLD and SST, all in one. -/
def Obligations.ScratchpadAccesses : Prop :=
  Sys2Proof.Claims.ScratchpadLoads ∧ Sys2Proof.Claims.ScratchpadStores


namespace Sys2Proof.Claims

/-- The entries formed at the run's trailer will be Blocked on more (R87). -/
def blocksOn (s : State) (ys : List BlockWhy) : State := s.updRun fun r => { r with blocks := r.blocks ++ ys }

/-- The gang member that a lane of SLDM or SSTM addresses, by its logical index, and the offset in its scratchpad (R223, R296). -/
def memberOf (c : Issue) (a : Reg) (o : BitVec 7) (zb l : Nat) : Nat × Int :=
  let v := ((c.laneAt 1 l).reg a).toNat
  (c.team.gangBase + v / 2 ^ 20 % 16, v % 2 ^ 20 + o.toInt * zb)

/-- Whether a lane's member access meets no check (R223). -/
def memberOk (c : Issue) (a : Reg) (o : BitVec 7) (zb l : Nat) : Bool :=
  let v := ((c.laneAt 1 l).reg a).toNat
  let k := (memberOf c a o zb l).2
  decide (v / 2 ^ 24 = 0 ∧ v / 2 ^ 20 % 16 < c.team.gangSize ∧ 0 ≤ k ∧ k + zb ≤ c.team.spadSize ∧ k.toNat % zb = 0)

/-- The bytes that a lane stores (R294). -/
def laneBytes (c : Issue) (d : Reg) (z : Size) (l : Nat) : List Byte :=
  bytesLE (Size.bytes z) (if z = .d then ((c.laneAt 1 l).pair d).toNat else ((c.laneAt 1 l).reg d).toNat)

/-- The lanes of a WAITC that none of its lanes polls, with what they have seen: the compare of the element at its home with the lane's register
(R252, R309), once the wave's earlier writes of the element have reached it (R272). An out-of-bounds lane compares 0. -/
def waitLanes (s : State) (c : Issue) (d : Reg) (f : Fmt) (seq : Nat) (look : LaneCtx → DWord → Bool) (at_ : List (Nat × Option Nat))
    (ts : List LaneTarget) : List WaitLane :=
  at_.map fun p =>
    let g := p.2.bind fun _ => globalOf ts p.1
    let x := c.laneAt 1 p.1
    let got := (g.map fun a => extendElem f (s.peek (localOf a) (Fmt.size f))).getD 0
    let own := (g.map fun a => s.writesBefore c.team.id c.wave seq (localOf a) (Fmt.size f)).getD []
    { lane := p.1, pa := g, va := BitVec.ofNat 64 (p.2.getD 0), val := if Fmt.size f = 8 then x.pair d else (x.reg d).setWidth 64,
      seen := s.performed own && look x got, poll := none, after := own }

end Sys2Proof.Claims

/-- R223 and R296: SLDM completes when each lane's member and offset are in range: each active lane waits for the bytes of its member's
scratchpad, and the entry is blocked on each member that has not started. -/
def Sys2Proof.Claims.MemberLoads : Prop :=
  ∀ (s : State) (c : Issue) (d a : Reg) (o : BitVec 7) (z : Size), s.issues c → c.lanes ≠ [] →
    let zb := Size.bytes z
    (∀ l ∈ c.lanes, memberOk c a o zb l = true) →
    let absent := distinct ((c.lanes.filter fun l => (s.member? c.team (memberOf c a o zb l).1).isNone).map fun l => (memberOf c a o zb l).1)
    let t := s.issued c 1
    exec (.sldm d a o z) s = .next (blocksOn (({ t with nextId := t.nextId + 1 } : State).updCur fun w => { w with
      loads := w.loads ++ [{ seq := t.nextId, pc := c.pc, whole := none, items := c.lanes.map fun l =>
        { lane := l, dst := if d.toNat < 120 then some (c.run.winb + d.toNat) else none, pair := decide (z = .d), va := 0,
          src := .member (memberOf c a o zb l).1 (memberOf c a o zb l).2.toNat zb } }] }) (absent.map fun m => .member m 0 []))

/-- R223, R296 and R297: SSTM completes when each lane's member has started and not exited: the lanes store into their members' scratchpads
in ascending order. A lane whose member has exited raises GANG_GONE, if no lower lane faults. -/
def Sys2Proof.Claims.MemberStores : Prop :=
  ∀ (s : State) (c : Issue) (d a : Reg) (o : BitVec 7) (z : Size), s.goes c (.sstm d a o z) → c.lanes ≠ [] →
    let zb := Size.bytes z
    let who := fun l => s.member? c.team (memberOf c a o zb l).1
    (∀ l ∈ c.lanes, memberOk c a o zb l = true) →
    ((∀ l ∈ c.lanes, ∃ u, who l = some u ∧ u.hasExited = false) →
      exec (.sstm d a o z) s = .next (c.lanes.foldl (fun t l => t.updTeam (((who l).map (·.id)).getD 0) fun u =>
        u.spadStore (memberOf c a o zb l).2.toNat (laneBytes c d z l)) (s.issued c 1))) ∧
    ∀ l, (c.lanes.find? fun l => ((who l).map Team.hasExited).getD false) = some l →
      exec (.sstm d a o z) s = .next (s.raise c { code := .gangGone, lane := l })

/-- SLDM and SSTM, all in one. -/
def Obligations.MemberAccesses : Prop :=
  Sys2Proof.Claims.MemberLoads ∧ Sys2Proof.Claims.MemberStores

/-- R298: PREF completes and is no access: no register, memory, posted write or report changes, whatever its lanes address; a bound record
makes it do nothing, and an element size that is not the record's is ILLEGAL. A line of this device that it reaches is brought into the L2 of
the core's die. -/
def Sys2Proof.Claims.Prefetches : Prop :=
  ∀ (s : State) (c : Issue) (q : RecReg) (x : Reg) (h : Hint) (z : Size), s.issues c → c.lanes ≠ [] →
    let r := c.record q
    let block := decide (Fmt.blockBytes r.format ≠ 0)
    let fits := if block then z = .b else Fmt.size r.format = Size.bytes z
    (¬ fits → exec (.pref q x h z) s = .next (s.raise c { code := .illegal, lane := c.lowest.getD 0 })) ∧
    (fits → r.bound = true → exec (.pref q x h z) s = .next (s.issued c 1)) ∧
    (fits → r.bound = false → ∃ t, exec (.pref q x h z) s = .next t ∧ t.teams = (s.issued c 1).teams ∧ t.mem = s.mem ∧ t.posted = s.posted ∧
      t.reports = s.reports ∧
      ∀ l va u g, c.lanes = [l] → block = false → r.addr ((c.laneAt 1 l).reg x) (Fmt.size r.format) = .ok (some va) →
        (s.issued c 1).translateFor c.team va .read = (u, .ok g) → devOf g = s.ownDev → inHbm (localOf g) = true →
        u.lineFault (localOf g) = none → u.heldAway (lineOf (localOf g)) = false → u.lineLocked (lineOf (localOf g)) = false → dieOf c.team.core ≠ homeDie (localOf g) →
        u.inWindow (localOf g) = false → (t.l2Copy (dieOf c.team.core) (lineOf (localOf g))).isSome = true)

/-- RECLD, RECSET and PREF, all in one. -/
def Obligations.RecordsAndPrefetches : Prop :=
  Sys2Proof.Claims.Records ∧ Sys2Proof.Claims.Prefetches

/-- R252, R253 and R309: WAITC on elements of this device completes: each lane's compare is made at once at the element's home; when all hold
the entry does not wait, else it is Blocked from the trailer with what has been seen. While a FENCE, an ACQ or a tag of the wave holds its read
back (R267) no compare is made yet. A format that is no integer is ILLEGAL. Fewer than 256 monitors are armed, so that no lane is polled. -/
def Obligations.Waits : Prop :=
  ∀ (s s₁ : State) (c : Issue) (d : Reg) (q : RecReg) (x : Reg) (cnd : WCond) (at_ : List (Nat × Option Nat)) (ts : List LaneTarget),
    s.issues c → c.lanes ≠ [] →
    let i := Instr.waitc d q x cnd
    let f := (c.record q).format
    (f ∉ [Fmt.s8, .z8, .s16, .z16, .s32, .z32, .s64, .z64] →
      exec i s = .next (s.raise c { code := .illegal, lane := c.lowest.getD 0 })) ∧
    (f ∈ [Fmt.s8, .z8, .s16, .z16, .s32, .z32, .s64, .z64] → (Fmt.size f = 8 → d.toNat % 2 = 0 ∨ 120 ≤ d.toNat) →
      (d.toNat < 120 → c.run.winb + d.toNat + Fmt.regs f ≤ c.wave.nregs) →
      Reaches s c q x (Fmt.size f) c.lanes .read s₁ at_ ts →
      (∀ t ∈ ts, ∃ g, t.pa = .ok g ∧ devOf g = s₁.ownDev ∧ s₁.lineFault (localOf g) = none) →
      s₁.unmonitored [] (distinct (ts.filterMap fun t => (globalOf ts t.lane).map fun g => lineOf (localOf g))) = [] →
      let look := fun (y : LaneCtx) (got : DWord) =>
        wcondHolds cnd (if Fmt.size f = 8 then 64 else 32) got (if Fmt.size f = 8 then y.pair d else (y.reg d).setWidth 64)
      let wait := fun (b : Bool) (ws : List WaitLane) => BlockWhy.waitc
        { seq := s₁.nextId, armed := b, fmt := f, cond := cnd, lanes := ws, redo := c.redo i 1 c.lanes }
      let t := nextIdentity s₁
      if c.wave.gates s₁.nextId = true then
        exec i s = .next (blocksOn t [wait false (waitLanes s₁ c d f s₁.nextId (fun _ _ => false) at_ ts)])
      else
        let ws := waitLanes s₁ c d f s₁.nextId look at_ ts
        let u := t.observed c.team c.wave.idx (Fmt.size f) ((ws.filter (·.seen)).filterMap (·.pa))
        exec i s = .next (if ws.all (·.seen) then u else blocksOn u [wait true ws]))


/-- R234, R235 and R300: BDECL of a descriptor that can be read and is well formed completes: the lowest free entry of the partition's table
takes its extents and D receives the handle, FULL when no entry is free. A bundle larger than every die's budget is BUNDLE_TOO_BIG. -/
def Sys2Proof.Claims.BundleDeclarations : Prop :=
  ∀ (s s₁ s₂ : State) (c : Issue) (d a : Reg) (l : Nat) (head bs : List Byte) (es : List Extent), s.goes c (.bdecl d a) →
    c.lowest = some l →
    let x := c.laneAt 1 l
    let va := (x.pair a).toNat
    let n := fieldLE head 1 1
    let part := s.partOf c.team
    va % 16 = 0 → (s.issued c 1).readVirtual c.team c.wave.idx va 16 = (s₁, .ok head) → versionOk (head.getD 0 0) = true → 1 ≤ n → n ≤ 16 →
    s₁.readVirtual c.team c.wave.idx va (16 + 16 * n) = (s₂, .ok bs) → descriptorOf bs = .ok es → s₂.partOf c.team = part →
    ((∃ i < 4, lineCount es ≤ s₂.bundleBudget part i) →
      exec (.bdecl d a) s = .next (match (List.range 1024).find? fun i => !((s₂.part part).decls.any fun e => e.live && e.idx == i) with
        | none => givesStatus s₂ c d (.value 4)
        | some i =>
          let gen := (((s₂.part part).decls.find? fun e => e.idx == i).map (·.gen)).getD 1
          givesStatus (s₂.updPart part fun p => { p with
            decls := { idx := i, gen := gen, live := true, extents := es } :: p.decls.filter fun e => e.idx != i }) c d
            (.value (BitVec.setWidth 64 (BitVec.ofNat 32 (part * 2 ^ 28 + gen * 2 ^ 10 + i)))))) ∧
    ((∀ i < 4, s₂.bundleBudget part i < lineCount es) → 0 < lineCount es →
      exec (.bdecl d a) s = .next (s.raise c { code := .bundleTooBig, lane := l, addr := some (x.pair a) }))

/-- R299 and R301 to R304: BENTER, BWAIT, BLEAVE and BDROP complete on a valid handle list, and are ILLEGAL on any other. BENTER of held
instances answers ENTERED; of none held it waits for admission; a holder that already holds one and whose request does not fit is refused.
BWAIT waits for the fills of held instances, and answers 3 when one is not held. BLEAVE releases the team's entries, at once when the wave has
no bound write under way. BDROP of a bundle that no one holds or fills ends its instances, but for Orphaned ones, and its declaration. -/
def Sys2Proof.Claims.BundleWords : Prop :=
  ∀ (s : State) (c : Issue) (d a b : Reg) (l : Nat), s.issues c → c.lowest = some l →
    let k := c.slots 1 (some (a, b))
    let t := s.issued c k
    let x := c.laneAt k l
    let part := t.partOf c.team
    let die := dieOf c.team.core
    let u := s.issued c 1
    let h := (c.laneAt 1 l).reg a
    let bad := Host.Outcome.next (s.raise c { code := .illegal, lane := l })
    (t.handleList c x a b = none → exec (.benter d a b) s = bad ∧ exec (.bwait d a b) s = bad ∧ exec (.bleave a b) s = bad) ∧
    (∀ hs, t.handleList c x a b = some hs →
      ((∀ h ∈ hs, (t.heldInst c.team part h).isSome = true) →
        exec (.benter d a b) s = .next (givesStatus { t with insts := t.insts.map fun i => if i.part = part ∧ i.die = die ∧ i.handle ∈ hs then
          { i with leaving := i.leaving.filter fun y => y.1 != .team c.team.id } else i } c d (.status 0)) ∧
        ((∀ h ∈ hs, ∀ i, t.heldInst c.team part h = some i → i.failure = none) →
          exec (.bwait d a b) s = .next (givesStatus t c d (.fill ((hs.filterMap (t.heldInst c.team part)).map (·.id)))
            (some { instr := .bwait d a b, winb := c.run.winb, pc := c.pc, ctxs := [x], recs := c.recs })))) ∧
      ((∃ h ∈ hs, t.heldInst c.team part h = none) →
        exec (.bwait d a b) s = .next (givesStatus t c d (.status 3)) ∧
        ((∀ h ∈ hs, t.tooBig part die (t.asidOf c.team) h = false ∧ ∀ i, t.liveInst part die h = some i → i.st ≠ .failed) →
          (t.holdsAny c.team = false → (∀ q ∈ t.admissions, ¬ (q.die = die ∧ q.holder = .team c.team.id)) →
            ∃ q, exec (.benter d a b) s = .next { givesStatus t c d .admission with admissions := t.admissions ++ [q] } ∧
              q.die = die ∧ q.part = part ∧ q.holder = .team c.team.id ∧ q.handles = hs ∧ q.reply = some (c.team.id, c.wave.idx, t.nextId)) ∧
          (t.holdsAny c.team = true →
            (t.tryFit part die (.team c.team.id) (hs.filter fun h => (t.heldInst c.team part h).isNone)) = none →
            exec (.benter d a b) s = .next (givesStatus t c d (.status 1))))) ∧
      exec (.bleave a b) s = .next (({ t with insts := t.insts.map fun i =>
        if i.part = part ∧ i.die = die ∧ i.handle ∈ hs ∧ Holder.team c.team.id ∈ i.entries then
          { i with leaving := i.leaving ++ [(.team c.team.id, t.boundPending c.team.id c.wave.idx)] } else i } : State).settleLeaves)) ∧
    (u.declOf part h = none → exec (.bdrop d a) s = bad) ∧
    ∀ e, u.declOf part h = some e →
      ((∃ i ∈ u.insts, i.part = part ∧ i.handle = h ∧ (i.st = .filling ∨ i.entries ≠ [])) →
        exec (.bdrop d a) s = .next (givesStatus u c d (.value 1))) ∧
      ((∀ i ∈ u.insts, i.part = part → i.handle = h → i.st ≠ .filling ∧ i.entries = []) →
        exec (.bdrop d a) s = .next (givesStatus (({ u with insts := u.insts.filter fun i => !(i.part == part && i.handle == h && i.st != .orphaned) } : State).trimCopies.updPart
          part fun p => { p with decls := p.decls.map fun f => if f.idx = e.idx then { f with live := false, gen := nextGen f.gen } else f })
          c d (.value 0)))

/-- BDECL, BENTER, BWAIT, BLEAVE and BDROP, all in one. -/
def Obligations.BundleInstructions : Prop :=
  Sys2Proof.Claims.BundleDeclarations ∧ Sys2Proof.Claims.BundleWords

/-- R264 to R267 and R306 to R308: ACQ, REL and FENCE complete. An ACQ whose object has reached its value, with no earlier write of the wave to
it under way and no FENCE, ACQ or tag of the wave before it, has acquired, and any other one blocks its entry; a REL with no write to wait for
sends its increment of 1 at once, and else blocks its entry first; a FENCE with nothing under way completes at once, and else blocks its entry;
with no read outstanding and no write unperformed, of the wave or before it, nothing is under way. A fault of the object is taken instead. -/
def Obligations.OrderingWords : Prop :=
  ∀ (s s₁ : State) (c : Issue) (sc : BitVec 3) (a b : Reg) (l obj : Nat), s.issues c → c.lowest = some l →
    let t := s.issued c 1
    let x := c.laneAt 1 l
    let index := (x.reg a).toNat
    let k := c.slots 1 (some (a, b))
    let y := c.laneAt k l
    let u := nextIdentity s₁
    ((s.issued c k).objectFor c.team (y.reg a).toNat .read = (s₁, .ok obj) →
      let q : AcqWait :=
        { seq := s₁.nextId, armed := false, obj := obj, va := BitVec.ofNat 64 ((u.syncObject c.team (y.reg a).toNat).getD 0),
          val := (y.reg b).setWidth 64, level := sc.toNat, index := (y.reg a).toNat,
          poll := if devOf obj ≠ u.ownDev ∨ u.unmonitored [] [lineOf (localOf obj)] ≠ [] then some u.time else none,
          redo := c.redo (.acq sc a b) k [l] }
      (c.wave.gates s₁.nextId = true ∨ (devOf obj = u.ownDev ∧ u.writesBefore c.team.id c.wave s₁.nextId (localOf obj) 8 ≠ []) →
        exec (.acq sc a b) s = .next (blocksOn u [.acq q])) ∧
      (c.wave.gates s₁.nextId = false → (devOf obj = u.ownDev → u.writesBefore c.team.id c.wave s₁.nextId (localOf obj) 8 = []) →
        ∀ s₂ v, u.objectValue obj = (s₂, .ok v) →
          exec (.acq sc a b) s = .next (if (y.reg b).toNat ≤ v.toNat then s₂.acquire c.team c.wave.idx obj sc.toNat (y.reg a).toNat
            else blocksOn s₂ [.acq { q with armed := true }]))) ∧
    (t.syncObject c.team index = none → exec (.rel sc a) s = .next (s.raise c { code := .illegal, lane := l })) ∧
    (t.syncObject c.team (y.reg a).toNat = none → exec (.acq sc a b) s = .next (s.raise c { code := .illegal, lane := l })) ∧
    (t.objectFor c.team index .rmw = (s₁, .ok obj) →
      let ids := u.relWaits c.team c.wave s₁.nextId sc.toNat index
      (ids ≠ [] ∨ c.wave.gates s₁.nextId = true → exec (.rel sc a) s = .next (blocksOn u [.rel s₁.nextId obj sc.toNat index ids none])) ∧
      (ids = [] → c.wave.gates s₁.nextId = false →
        ∃ v m, exec (.rel sc a) s = .next v ∧ v.rmws = s₁.rmws ++ [m] ∧ m.op = .add ∧ m.fmt = .z64 ∧ m.operand = 1 ∧ m.load = none ∧
          m.pa = (if devOf obj ≠ s₁.ownDev then obj else localOf obj) ∧ v.mem = s₁.mem ∧
          ∀ w, s₁.wave? s.cur.1 s.cur.2 = some w → ∃ w', v.wave? s.cur.1 s.cur.2 = some w' ∧
            w'.run.map (·.blocks) = w.run.map fun r => r.blocks ++ [.rel s₁.nextId obj sc.toNat index [] (some m.id)])) ∧
    let f := nextIdentity t
    exec (.fence sc) s = .next (if f.fenceHolds c.team.id c.wave s.nextId sc.toNat then
        blocksOn f [.fence s.nextId sc.toNat (f.fencePending c.team.id c.wave s.nextId)]
      else f.completeFence c.team c.wave s.nextId sc.toNat) ∧
    (f.wavePending c.team.id c.wave = [] → c.wave.deps.readFrom = [] → c.wave.deps.carried = [] → c.wave.readsOut s.nextId = false →
      exec (.fence sc) s = .next (f.completeFence c.team c.wave s.nextId sc.toNat))

namespace Sys2Proof.Claims

/-- The barrier after an arrival of wave `w` with the count `e` while `live` waves of the team have not exited, and whether it releases
(R212). -/
def arrived (b : Barrier) (w e live : Nat) : Barrier × Bool :=
  let ex := if b.count = 0 then e else b.expected
  let n := if w ∈ b.arrived then b.count else b.count + 1
  if 0 < n ∧ (if ex = 0 then live ≤ n else ex ≤ n) then ({ expected := ex, count := 0, arrived := [], phase := !b.phase }, true)
  else ({ expected := ex, count := n, arrived := if w ∈ b.arrived then b.arrived else w :: b.arrived, phase := b.phase }, false)

end Sys2Proof.Claims

/-- R211 to R214: BAR and BARA complete: the wave arrives, the arrival that fulfils the count turns the phase, and the turn ends and the
lantern passes at the trailer; BAR's entry waits for the phase to turn. A count above WAVES is ILLEGAL. BARW waits only when the wave has
arrived and the phase has not turned. -/
def Sys2Proof.Claims.BarrierWords : Prop :=
  ∀ (s : State) (c : Issue) (a : Reg) (n : BitVec 4) (l : Nat) (b : Barrier), s.issues c → c.lowest = some l →
    c.team.barriers[n.toNat]? = some b → (∀ t ∈ s.saved, t.id ≠ c.team.id) →
    let t := s.issued c 1
    let e := ((c.laneAt 1 l).reg a).toNat
    (s.wavesOf c.team < e → ∀ i ∈ [Instr.bar a n, .bara a n], exec i s = .next (s.raise c { code := .illegal, lane := l })) ∧
    (e ≤ s.wavesOf c.team → s.cur.1 = c.team.id → s.cur.2 = c.wave.idx → ∀ i ∈ [Instr.bar a n, .bara a n],
      ∃ u v w r, exec i s = .next u ∧ u.team? s.cur.1 = some v ∧ v.waves[s.cur.2]? = some w ∧ w.run = some r ∧ u.mem = s.mem ∧ u.posted = s.posted ∧
        v.barriers = c.team.barriers.set n.toNat (arrived b c.wave.idx e c.team.liveWaves).1 ∧ r.lpass = true ∧ r.turnEnds = true ∧
        r.blocks = (c.run.blocks ++ if i = Instr.bar a n then [BlockWhy.barrier n.toNat b.phase] else []).filter (fun y =>
          decide (y ≠ BlockWhy.barrier n.toNat b.phase) || !(arrived b c.wave.idx e c.team.liveWaves).2)) ∧
    exec (.barw n) s = .next (match (c.wave.armed[n.toNat]?).join with
      | none => t
      | some ph => if b.phase = ph then blocksOn t [.barrier n.toNat ph] else t.updCur fun w => { w with armed := w.armed.set n.toNat none })

/-- R215: GBAR completes: the wave has joined its team's arrival, the first one of a phase sets the expected count, its entry is Blocked and
its turn ends; then the gang's arrivals are counted and the phase is released if it may be. A count above the gang's size is ILLEGAL. -/
def Sys2Proof.Claims.GangBarriers : Prop :=
  ∀ (s : State) (c : Issue) (a : Reg) (l : Nat) (k : Launch), s.issues c → c.lowest = some l → s.launchOf c.team = some k →
    let e := ((c.laneAt 1 l).reg a).toNat
    let g := k.gangOf c.team
    (c.team.gangSize < e → exec (.gbar a) s = .next (s.raise c { code := .illegal, lane := l })) ∧
    (e ≤ c.team.gangSize → ∃ u, exec (.gbar a) s = .next ((u.checkGang c.team).releaseGang c.team) ∧
      u = (((s.issued c 1).updLaunch k.id fun x => x.setGang { g with expected := some (g.expected.getD e) }).updCur fun w => { w with
        gbarDone := true, run := w.run.map fun r => { r with
          lpass := true, turnEnds := true, blocks := r.blocks ++ [.gangBarrier (decide (g.phases % 2 = 1))] } }))

/-- BAR, BARA, BARW and GBAR, all in one. -/
def Obligations.BarrierInstructions : Prop :=
  Sys2Proof.Claims.BarrierWords ∧ Sys2Proof.Claims.GangBarriers


namespace Sys2Proof.Claims

/-- Every tag that a selector names belongs to the new owner, and its ready bit is clear (R329). -/
def tagTaken (s : State) (team : Nat) (tag : Option Nat) (owner : Nat) : State :=
  match tag with
  | none => s
  | some k => s.updTeam team fun t => { t with tags := t.tags.modify k fun g => { g with ready := false, owner := some owner } }

/-- The state after an engine word of lane `l` has issued a command to queue `q` of its core: the command stands at the end of the queue and owns
its tag; it waits for what its wave has under way (R280) and starts after what a QFENCE has put before it (R279). -/
def queued (s : State) (c : Issue) (l q : Nat) (tag : Option Nat) (kind : CmdKind) (shared : Bool) : State :=
  let w := (s.wave? c.team.id c.wave.idx).getD c.wave
  (tagTaken (nextIdentity s) c.team.id tag s.nextId).updQueue c.team.core q fun x => { x with cmds := x.cmds ++ [
    { id := s.nextId, team := c.team.id, wave := c.wave.idx, lane := l, tag := tag, pc := c.pc, kind := kind,
      waits := s.wavePending c.team.id w ++ w.loads.map (·.seq) ++ w.recLoads.map (·.seq) ++ w.blocks.filterMap BlockWhy.seq?,
      after := ((s.queue? c.team.core q).map (·.fence)).getD [], started := false, flags := 0, fault := none, page := none, writes := [],
      fetches := [], shared := shared }] }

end Sys2Proof.Claims

/-- R278 to R280, R327, R329, R352, R353 and R356: COPY completes on a compute core when its operands hold no reserved value, its ranges lie in
the scratchpad and its tag selector may be used. It is a lantern operation when its destination meets a shared range of an ordered launch
(R355). -/
def Sys2Proof.Claims.Copies : Prop :=
  ∀ (s : State) (c : Issue) (f : BitVec 2) (a b : Reg) (l : Nat) (k : CopyArgs) (tag : Option Nat), s.issues c → c.lowest = some l →
    c.team.isSup = false →
    let t := s.issued c (c.slots 1 (some (a, b)))
    let x := c.laneAt (c.slots 1 (some (a, b))) l
    copyArgs c.wave (x.grp a 0) (x.grp a 1) (x.grp a 2) (x.grp a 3) = some k → k.check c.team.spadSize = none →
    c.team.tagOf (x.reg b) = .ok tag →
    exec (.copy f a b) s = .next (queued t c l f.toNat tag (.copy k 0)
      (((s.launchOf c.team).map fun l => l.region.ord && k.shared l.region).getD false))

/-- R278 to R280, R327, R329, R353, R359 and R360: VFILL of a set of vaults and an aligned source inside the scratchpad, and MLOOP with a set, an
aligned A range inside the scratchpad and a ring of its die and partition that has room for its slots, complete on a compute core. -/
def Sys2Proof.Claims.MatrixWords : Prop :=
  ∀ (s : State) (c : Issue) (d a b : Reg) (l : Nat) (tag : Option Nat), s.issues c → c.lowest = some l → c.team.isSup = false →
    let t := s.issued c (c.slots 1 (some (a, b)))
    let x := c.laneAt (c.slots 1 (some (a, b))) l
    let q := 4 + c.wave.idx % 4
    c.team.tagOf (x.reg b) = .ok tag →
    (∀ v, vaultSet (x.reg d) = some v → (x.reg a).toNat % 64 = 0 →
      (x.reg a).toNat + v.chain * v.groups * Fmt.vaultBytes v.bf ≤ c.team.spadSize →
      exec (.vfill d a b) s = .next (queued t c l q tag (.vfill v (x.reg a).toNat) false)) ∧
    ∀ k, mloopArgs (x.reg d) (x.grp a 0) (x.grp a 1) (x.grp a 2) (x.grp a 3) = some k →
      k.check (s.liveRing? (dieOf c.team.core) k.ring) (s.partOf c.team) c.team.spadSize = none →
      exec (.mloop d a b) s = .next (queued t c l q tag (.mloop k 0) false)

/-- R278 to R280, R327, R329, R353, R355, R361 and R362: ARING completes on a compute core, setting up or releasing as its D word says; EPI
completes when its ring exists, its descriptor can be read and is well formed and m is not 0, and ends the wave's turn. A tag selector that may
not be used is ILLEGAL. -/
def Sys2Proof.Claims.FlowstoneWords : Prop :=
  ∀ (s : State) (c : Issue) (d a b : Reg) (l : Nat), s.issues c → c.lowest = some l → c.team.isSup = false →
    let t := s.issued c (c.slots 1 (some (a, b)))
    let x := c.laneAt (c.slots 1 (some (a, b))) l
    let w := (x.reg d).toNat
    let die := dieOf c.team.core
    let ring := CmdKind.aring (decide (w / 2 ^ 31 % 2 = 1)) (decide (w / 2 ^ 30 % 2 = 1)) (w / 2 ^ 24 % 64) (w / 2 ^ 12 % 4096 + 1) (w % 4096 + 1)
      (x.pair a)
    (∀ tag, c.team.tagOf (x.reg b) = .ok tag → exec (.aring d a b) s = .next (queued t c l 8 tag ring false) ∧
      exec (.aringRelease d a b) s = .next (queued t c l 8 tag ring false) ∧
      ∀ r s₁ bs e, s.stalls c (.epi d a b) = false → s.liveRing? die (w / 2 ^ 16 % 64) = some r → w / 2 ^ 22 = 0 → w % 2 ^ 16 ≠ 0 →
        (x.pair a).toNat % 64 = 0 → t.readVirtual c.team c.wave.idx (x.pair a).toNat 64 = (s₁, .ok bs) → epilogueOf (x.pair a) bs r.int = .ok e →
        exec (.epi d a b) s = .next (queued (s₁.updRun fun r => { r with turnEnds := true }) c l 8 tag
          (.epi die (w / 2 ^ 16 % 64) (w % 2 ^ 16) e) (s₁.epiShared c.team (w / 2 ^ 16 % 64) (w % 2 ^ 16) r e))) ∧
    ∀ f, c.team.tagOf (x.reg b) = .error f →
      let bad := Host.Outcome.next (s.raise c { code := f, lane := l, aux := x.reg b })
      exec (.aring d a b) s = bad ∧ exec (.aringRelease d a b) s = bad ∧ (s.stalls c (.epi d a b) = false → exec (.epi d a b) s = bad)

/-- COPY, VFILL, MLOOP, ARING with or without REL, and EPI complete, each with its command at the end of its queue; no memory changes yet; all in
one. -/
def Obligations.EngineCommands : Prop :=
  Sys2Proof.Claims.Copies ∧ Sys2Proof.Claims.MatrixWords ∧ Sys2Proof.Claims.FlowstoneWords

/-- R352 and R357: WTAG, WTANY and TFIRST complete on a mask whose tags each are ready or owned: WTAG and WTANY leave the run to wait until all,
or any, are ready, with the report of the lowest tag, and TFIRST gives it at once. Any other mask, and WTANY's empty one, is ILLEGAL. -/
def Sys2Proof.Claims.TagWaits : Prop :=
  ∀ (s : State) (c : Issue) (d a : Reg) (l : Nat), s.issues c → c.lowest = some l →
    let t := s.issued c 1
    let u := nextIdentity t
    let m := (c.laneAt 1 l).pair a
    let tags := (c.team.tags.mapIdx fun i g => (i, g)).filter fun p => m.getLsbD p.1
    let good := m.toNat < 2 ^ c.team.tags.length ∧ ∀ p ∈ tags, p.2.ready = true ∨ p.2.owner ≠ none
    let word := fun p : Nat × Tag => BitVec.ofNat 32 (p.2.status.toNat * 256 + p.1)
    let report := fun all : Bool => ((tags.find? fun p => if all then p.2.status != 0 else p.2.ready).map word).getD 0x80000000
    let far := tags.any fun p => p.2.far && p.2.ready
    let dst := if d.toNat < 120 then some (c.run.winb + d.toNat) else none
    let bad := Host.Outcome.next (s.raise c { code := .illegal, lane := l })
    (¬ good → exec (.wtag d a) s = bad ∧ exec (.wtany d a) s = bad ∧ exec (.tfirst d a) s = bad) ∧
    (m = 0 → exec (.wtany d a) s = bad) ∧
    (good → far = false →
      exec (.wtag d a) s = .next (blocksOn u [.tags s.nextId true m dst (if ∀ p ∈ tags, p.2.ready = true then some (report true) else none)]) ∧
      (m ≠ 0 → exec (.wtany d a) s =
        .next (blocksOn u [.tags s.nextId false m dst (if ∃ p ∈ tags, p.2.ready = true then some (report false) else none)])) ∧
      exec (.tfirst d a) s = .next (t.putLanes c (c.dueAt 1 4) fun l => outReg (c.laneAt 1 l) false d (report false)))

/-- R279 and R363: QFENCE on a compute core completes: what stands in a named queue, and what it already waited for and still stands, is to
complete before anything that enters a named queue later starts. QSEQ gives the completion counter. A mask bit above queue 8 and a queue number
above 8 are ILLEGAL. -/
def Sys2Proof.Claims.QueueWords : Prop :=
  ∀ (s : State) (c : Issue) (d a : Reg) (l : Nat) (k : Core), s.issues c → c.lowest = some l → c.team.isSup = false →
    s.core? c.team.core = some k → k.queues.length = 9 →
    let m := (c.laneAt 1 l).reg a
    let t := s.issued c 1
    let live := s.liveCommands
    (2 ^ 9 ≤ m.toNat → exec (.qfence a) s = .next (s.raise c { code := .illegal, lane := l })) ∧
    (m.toNat < 2 ^ 9 → ∃ ids, exec (.qfence a) s = .next (t.updCore c.team.core fun k => { k with
        queues := k.queues.mapIdx fun i q => if m.getLsbD i then { q with fence := ids } else q }) ∧
      ∀ x, x ∈ ids ↔ ∃ i q, k.queues[i]? = some q ∧ m.getLsbD i = true ∧ ((x ∈ q.fence ∧ x ∈ live) ∨ ∃ y ∈ q.cmds, y.id = x)) ∧
    (9 ≤ m.toNat → exec (.qseq d a) s = .next (s.raise c { code := .illegal, lane := l })) ∧
    ∀ q, k.queues[m.toNat]? = some q →
      exec (.qseq d a) s = .next (t.putLanes c (c.dueAt 1 4) fun l => outReg (c.laneAt 1 l) false d q.counter)

/-- WTAG, WTANY, TFIRST, QFENCE and QSEQ, all in one. -/
def Obligations.TagAndQueueWords : Prop :=
  Sys2Proof.Claims.TagWaits ∧ Sys2Proof.Claims.QueueWords


/-- R190 and R217: FORK in a task region completes when its record can be read and is well formed: the record is the youngest of the core's
deque, after which D receives 0 while the deque has room. Elsewhere FORK, TAKE and JOIN are ILLEGAL. -/
def Sys2Proof.Claims.Forks : Prop :=
  ∀ (s : State) (c : Issue) (d a : Reg) (l : Nat), s.issues c → c.lowest = some l →
    let va := ((c.laneAt 1 l).pair a).toNat
    (s.inTask c.team = false → ∀ i ∈ [Instr.take d a, .join d], exec i s = .next (s.raise c { code := .illegal, lane := l })) ∧
    (s.stalls c (.fork d a) = false →
    (s.inTask c.team = false → exec (.fork d a) s = .next (s.raise c { code := .illegal, lane := l })) ∧
    (s.inTask c.team = true → va % 64 ≠ 0 → exec (.fork d a) s =
      .next (s.raise c { code := .align, lane := l, addr := some ((c.laneAt 1 l).pair a) })) ∧
    ∀ s₁ bs x k, s.inTask c.team = true → va % 64 = 0 → (s.issued c 1).readVirtual c.team c.wave.idx va 64 = (s₁, .ok bs) →
      Task.ofBytes bs (s₁.fencePending c.team.id c.wave s₁.nextId) = .ok x → s₁.core? c.team.core = some k → s₁.launchOf c.team ≠ none →
      k.deque.length < 512 →
      exec (.fork d a) s = .next (givesStatus (s₁.updCore k.id fun k => { k with deque := x :: k.deque }) c d (.value 0)))

/-- R190, R193, R216, R218 and R219: TAKE and JOIN in a task region complete. TAKE of the youngest record of the core's own deque sends the
lanes to the record's entry at the trailer, with its ten arguments and status 0 in their registers and its join cell in the wave; with no record
it answers 2 when no other member exists, and else waits for the steal unit. JOIN sends the decrement of the wave's join cell to its home, and
answers 2 when the wave has none. -/
def Sys2Proof.Claims.TakesAndJoins : Prop :=
  ∀ (s : State) (c : Issue) (d a : Reg) (l : Nat), s.issues c → c.lowest = some l → s.inTask c.team = true →
    let t := s.issued c 1
    let due := fun _ : Nat => c.run.cycle + c.wave.width / 16 - 1 + 1
    let status := fun v : Word => if a.toNat < 120 then [(c.run.winb + a.toNat, v)] else []
    (∀ k x rest, s.core? c.team.core = some k → k.deque = x :: rest → x.after = [] →
      let u := (t.updCore c.team.core fun k => { k with deque := rest }).dropCopies c.team.core 2 fun _ => true
      exec (.take d a) s = .next (((u.putLanes c due fun _ =>
          { regs := x.args.mapIdx (fun i v => (c.run.winb + d.toNat + i, v)) ++ status 0 }).updCur fun w => { w with
            joinCell := x.joinc }).updRun fun r => { r with jump := some (x.entry.setWidth 32, .here) })) ∧
    (∀ k, s.core? c.team.core = some k → k.deque = [] → k.spill = [] →
      exec (.take d a) s = .next (if t.stealSet c.team = [] then t.putLanes c due fun _ => { regs := status 2 }
        else blocksOn t [.steal (c.run.winb + d.toNat) (if a.toNat < 120 then some (c.run.winb + a.toNat) else none)])) ∧
    (c.wave.joinCell = 0 → exec (.join d) s = .next (givesStatus t c d (.value 2))) ∧
    ∀ s₁ g, c.wave.joinCell ≠ 0 → c.wave.joinCell.toNat % 8 = 0 → t.translateFor c.team c.wave.joinCell.toNat .rmw = (s₁, .ok g) →
      devOf g = s₁.ownDev → s₁.inWindow (localOf g) = false → s₁.lineFault (localOf g) = none →
      ∃ u m, exec (.join d) s = .next u ∧ u.rmws = s₁.rmws ++ [m] ∧ m.op = .join ∧ m.pa = localOf g ∧ m.remote = false ∧ m.fmt = .s64 ∧
        m.load = some s₁.nextId ∧ u.mem = s₁.mem ∧ u.posted = s₁.posted

/-- R220: LAUNCH completes: the template is offered to the distributor of the wave's partition, after the writes that the wave has under way, and
the launch owns the tag that the selector names. A selector that may not be used is ILLEGAL. -/
def Sys2Proof.Claims.LaunchWords : Prop :=
  ∀ (s : State) (c : Issue) (a b : Reg) (l : Nat), s.issues c → c.lowest = some l →
    let t := s.issued c 1
    let x := c.laneAt 1 l
    (∀ f, c.team.tagOf (x.reg b) = .error f → exec (.launch a b) s = .next (s.raise c { code := f, lane := l, aux := x.reg b })) ∧
    ∀ tag, c.team.tagOf (x.reg b) = .ok tag →
      ∃ o, exec (.launch a b) s = .next (tagTaken { t with nextId := t.nextId + 1, offers := t.offers ++ [o] } c.team.id tag o.id) ∧
        o.id = t.nextId ∧ o.part = t.partOf c.team ∧ o.template = x.pair a ∧ o.source = .instr c.team.id tag ∧
        o.after = t.wavePending c.team.id c.wave ∧ o.args = none ∧ o.prio = none

/-- FORK, TAKE, JOIN and LAUNCH, all in one. -/
def Obligations.TaskAndLaunchWords : Prop :=
  Sys2Proof.Claims.Forks ∧ Sys2Proof.Claims.TakesAndJoins ∧ Sys2Proof.Claims.LaunchWords

/-- R347, R348 and R364: SUMPW to a block that the partition may use completes: D waits for the record, which takes the sequence number TAIL, and
TAIL rises by one; a full block answers 1. On a block of another device it completes with an open status (log entry 33, the model's choice).
Record bytes in error are ECC_UNCORR (R396). -/
def Sys2Proof.Claims.SumpAppends : Prop :=
  ∀ (s s₁ : State) (c : Issue) (d a b : Reg) (l pa : Nat), s.goes c (.sumpw d a b) → c.lowest = some l →
    let k := c.slots 1 (some (a, b))
    let x := c.laneAt k l
    let va := (x.pair a).toNat
    let off := (x.reg b).toNat
    let s₂ := s₁.flushLine c.team.core pa
    let n := s₂.node pa
    (va % 64 ≠ 0 → exec (.sumpw d a b) s = .next (s.raise c { code := .align, lane := l, addr := some (x.pair a) })) ∧
    (va % 64 = 0 → off % 64 ≠ 0 → exec (.sumpw d a b) s = .next (s.raise c { code := .align, lane := l })) ∧
    (va % 64 = 0 → off % 64 = 0 → (s.issued c k).nodeFor c.team va = (s₁, .ok none) → ∃ v : Word, v.toNat < 2 ∧
      exec (.sumpw d a b) s = .next (givesStatus { s₁ with ticks := s₁.ticks + 1 } c d (.status (v.setWidth 64)))) ∧
    (va % 64 = 0 → off % 64 = 0 → (s.issued c k).nodeFor c.team va = (s₁, .ok (some pa)) → blockFault (s₂.peek pa 64) = none →
      (n.owned = true → n.part = s₂.partOf c.team) → off + n.size ≤ c.team.spadSize →
      (n.cap ≤ n.tail - n.head → exec (.sumpw d a b) s = .next (givesStatus s₂ c d (.status 1))) ∧
      (n.tail - n.head < n.cap → c.team.spadError off n.size = true →
        exec (.sumpw d a b) s = .next (s.raise c { code := .eccUncorr, lane := l, aux := 2 })) ∧
      (n.tail - n.head < n.cap → c.team.spadError off n.size = false →
        ∃ t y, exec (.sumpw d a b) s = .next t ∧ t.sumpWrites.getLast? = some y ∧ y.node = pa ∧ y.seqno = n.tail ∧
          y.bytes = Memory.readN c.team.spad off n.size ∧ y.written = false ∧ y.team = c.team.id ∧ y.wave = c.wave.idx ∧
          (Memory.wf s₂.mem = true → Memory.readN t.mem (pa + 48) 8 = bytesLE 8 (n.tail + 1)) ∧
          ∃ w, t.wave? s.cur.1 s.cur.2 = some w ∧ ∃ ld, w.loads.getLast? = some ld ∧ ld.seq = y.load ∧
            ld.items.map (fun i => (i.lane, i.dst, i.src)) = c.lanes.map fun l =>
              (l, if d.toNat < 120 then some (c.run.winb + d.toNat) else none, .sump y.id)))

/-- R350 and R365: SUMPX from a sump launch of the node at the address completes: the records are released and D receives how many are still
held. A team that is no sump launch of that node raises ILLEGAL, whatever lies there. -/
def Sys2Proof.Claims.SumpReleases : Prop :=
  ∀ (s : State) (c : Issue) (d a b : Reg) (l : Nat), s.goes c (.sumpx d a b) → c.lowest = some l →
    let k := c.slots 1 (some (a, b))
    let x := c.laneAt k l
    let bad := Host.Outcome.next (s.raise c { code := .illegal, lane := l, addr := some (x.pair a) })
    ((s.launchOf c.team).bind (·.range) = none → exec (.sumpx d a b) s = bad) ∧
    ∀ r s₁ g, (s.launchOf c.team).bind (·.range) = some r → (s.issued c k).translateFor c.team (x.pair a).toNat .rmw = (s₁, .ok g) →
      (g ≠ s₁.ownDev * 2 ^ 43 + r.node → exec (.sumpx d a b) s = bad) ∧
      (g = s₁.ownDev * 2 ^ 43 + r.node → s₁.lineFault r.node = none → let u := s₁.releaseRange r (x.reg b).toNat
        exec (.sumpx d a b) s = .next (givesStatus u c d (.status (((((u.sumps.find? fun m => m.pa == r.node).bind fun m =>
          m.ranges.find? fun y => y.start == r.start).map fun y => BitVec.ofNat 32 (y.count - y.released)).getD 0).setWidth 64))))

/-- SUMPW and SUMPX, all in one. -/
def Obligations.SumpWords : Prop :=
  Sys2Proof.Claims.SumpAppends ∧ Sys2Proof.Claims.SumpReleases

namespace Sys2Proof.Claims

/-- The token row header of FRAME (R438, R447): device and die, the fields of A and B, and the CRC-8 of the low seven bytes. -/
def rowHeader (dev die a b : Nat) : DWord :=
  let h := dev * 4 + die + a % 2 ^ 18 * 2 ^ 11 + a / 2 ^ 18 % 8 * 2 ^ 29 + a / 2 ^ 21 % 256 * 2 ^ 32 + b % 2 ^ 16 * 2 ^ 40
  BitVec.ofNat 64 (h + (crc8 (bytesLE 7 h)).toNat * 2 ^ 56)

end Sys2Proof.Claims

/-- R396, R438 and R444 to R448: INVOKE of a well-formed packet completes: it owns its tag and the entry is Blocked until the packet is handed over.
FRAME gives the header of a token row, FCHK whether its check matches. EVT writes a trace record on a compute core and nothing on a supervisor
core. -/
def Obligations.FabricWords : Prop :=
  ∀ (s : State) (c : Issue) (a b d : Reg) (p : Pred) (n : BitVec 10) (l : Nat), s.issues c → c.lowest = some l →
    let k := c.slots 1 (some (a, b))
    let t := s.issued c k
    let off := ((c.laneAt k l).reg a).toNat
    let pkt := Memory.readN c.team.spad off 64
    (s.stalls c (.invoke a b) = false →
    (off % 64 ≠ 0 → exec (.invoke a b) s = .next (s.raise c { code := .align, lane := l })) ∧
    (off % 64 = 0 → c.team.spadSize < off + 64 → exec (.invoke a b) s = .next (s.raise c { code := .bounds, lane := l })) ∧
    (off % 64 = 0 → off + 64 ≤ c.team.spadSize → c.team.spadError off 64 = true →
      exec (.invoke a b) s = .next (s.raise c { code := .eccUncorr, lane := l, aux := 2 })) ∧
    (off % 64 = 0 → off + 64 ≤ c.team.spadSize → c.team.spadError off 64 = false → versionOk (pkt.getD 0 0) = true → pktClean pkt = true → pktUnwritten pkt = true →
      ∀ tag, c.team.tagOf ((c.laneAt k l).reg b) = .ok tag →
        exec (.invoke a b) s = .next (blocksOn (tagTaken { t with nextId := t.nextId + 1 } c.team.id tag t.nextId) [.port t.nextId
          (t.scopeWaits (if pktDev pkt = s.ownDev then 2 else 3) (t.wavePending c.team.id c.wave)) pkt tag]))) ∧
    exec (.frame d a b) s = .next ((s.putLanes c (c.dueAt k 6) fun l => let x := c.laneAt k l
      outPair x d (rowHeader (s.devnum.toNat % 512) (c.team.core / 100) (x.reg a).toNat (x.reg b).toNat)).issued c k) ∧
    exec (.fchk p a) s = .next ((s.putLanes c (c.dueAt 1 6) fun l =>
      let v := ((c.laneAt 1 l).pair a).toNat
      outPred p (decide (v / 2 ^ 56 = (crc8 (bytesLE 7 v)).toNat))).issued c 1) ∧
    exec (.evt a n) s = .next (if c.team.isSup = true then s.issued c 1
      else (s.issued c 1).trace (s.partOf c.team) (traceRecord 0 n.toNat (s.partOf c.team) c.team.core s.time c.team.linear c.wave.idx
        ((c.laneAt 1 l).pair a)))


namespace Sys2Proof.Claims

/-- The words that only compute in the registers of their own lanes. -/
def computes (i : Instr) : Bool :=
  (intRow i).isSome || (pairRow i).isSome || (predRow i).isSome || (floatRow i).isSome || (crossRow i).isSome ||
    match i with
    | .frame .. | .fchk .. | .gets .. | .nop => true
    | _ => false

/-- The words that end runahead (R136, R200, R292, R351, R380, R443). -/
def endsRunahead : Instr → Bool
  | .recld .. | .recset .. | .bar .. | .bara .. | .barw .. | .rcb | .yield | .exit | .lpass | .fork .. | .join .. | .take .. | .launch .. | .gbar ..
  | .bdecl .. | .benter .. | .bwait .. | .bleave .. | .bdrop .. | .acq .. | .rel .. | .fence .. | .copy .. | .wtag .. | .wtany .. | .tfirst ..
  | .vfill .. | .mloop .. | .aring .. | .epi .. | .qfence .. | .qseq .. | .sumpw .. | .sumpx .. | .trap .. | .eret | .wfi | .tlbi .. | .partEnq ..
  | .partAdd .. | .partRemove .. | .partReset .. | .halt | .lostclr .. | .invoke .. | .evt .. => true
  | _ => false

/-- The words that are issued in runahead mode and do nothing (R292, R380). -/
def idleAhead : Instr → Bool
  | .st .. | .sst .. | .sstm .. | .waitc .. | .redAdd .. | .redMin .. | .redMax .. | .redAnd .. | .redOr .. | .redXor .. => true
  | _ => false

/-- The words that are compare points of a DUAL copy, whatever it has buffered (R393). -/
def comparesAt : Instr → Bool
  | .bar .. | .bara .. | .barw .. | .gbar .. | .exit | .rel .. | .join .. | .copy .. | .vfill .. | .mloop .. | .aring .. | .epi .. | .sumpw ..
  | .sumpx .. | .invoke .. | .launch .. => true
  | i => (atomicForm i).isSome

end Sys2Proof.Claims

/-- R15, R74 and R380: a word that only computes in registers leaves everything outside its own wave as it was, in every mode: every byte of
memory, every other wave and team, and every register of partitions, dies, supervisor cores and the device. (A register in error is ECC_UNCORR instead, R396.) -/
def Obligations.ComputingWordsFrame : Prop :=
  ∀ (s t : State) (i : Instr), computes i = true → (∀ c, s.issuer = some c → ∀ l ∈ c.wave.lanes, l.badRegs = []) → exec i s = .next t →
    s.keepsDevice t ∧ t.mem = s.mem ∧ (∀ a, t.byteAt a = s.byteAt a) ∧ t.posted = s.posted ∧ t.sups = s.sups ∧ t.parts = s.parts ∧
    ∀ j w, (j, w) ≠ s.cur → (s.cur.1 ≠ j → t.team? j = s.team? j) ∧ t.wave? j w = s.wave? j w

/-- R43, R380 and R381: in runahead mode a word that ends runahead has no other effect: the wave's registers, loop stack, window, rounding
mode and frontier are those of the checkpoint and its run is gone, and the fetch of its run takes four cycles; so does any word after 256 have
issued. Stores, REDs and WAITC issue before and do nothing. -/
def Obligations.RunaheadWords : Prop :=
  ∀ (s : State) (c : Issue) (k : Checkpoint) (i : Instr), s.issuer = some c → c.wave.runahead = some k → c.team.dual = none →
    (endsRunahead i = true ∨ (∃ n d r, 0x200 ≤ r.toNat ∧ (i = .gets n d r ∨ i = .sets d r)) →
      exec i s = .next (s.updCur Wave.restore)) ∧
    c.wave.restore = { c.wave with
      lanes := k.lanes.map Lane.drain, loops := k.loops, winb := k.winb, rmode := k.rmode, rmodePend := [], frontier := k.frontier,
      progress := k.progress, run := none, runahead := none, drain := 4 } ∧
    (256 ≤ k.issued → computes i = true ∨ idleAhead i = true → exec i s = .next (s.updCur Wave.restore)) ∧
    (idleAhead i = true → k.issued < 256 → (∀ l ∈ c.wave.lanes, l.badRegs = []) → exec i s = .next (s.issued c 1))

/-- R393: a DUAL copy outside runahead that has not passed the comparison stalls at a compare point: the word has none of its effect and the
copy stands there until DUAL_COMPARE. (An access that has to wait for a FENCE, an ACQ or a tag of its wave waits before it, R267.) -/
def Obligations.ComparePoints : Prop :=
  ∀ (s : State) (c : Issue) (d : Dual) (i : Instr), s.issuer = some c → c.wave.runahead = none → c.team.dual = some d → comparesAt i = true →
    s.stalls c i = false → ¬ (d.passed = true ∧ d.atPoint = some c.wave.idx) →
    exec i s = .next (s.updTeam c.team.id fun t => { t with dual := t.dual.map fun d => { d with atPoint := some (d.atPoint.getD c.wave.idx) } })

/-- R25, R27, R29, R57 and R62: on a running device with an empty agenda, a wave that stands in a run issues its next word: the step is exec of
that word at the state in which time has passed, and then the turn goes on unless the run does. When a supervisor core stands between runs, its
one entry's run, read from the bytes at its PC, starts in that step and its first word is the one that is issued. -/
def Obligations.StepRunsDecoded : Prop :=
  ∀ (s : State), s.boot = .running → s.agenda = [] →
    (∀ c i, s.issuer = some c → c.run.words[c.run.idx]? = some i → c.wave.holds = 0 →
      step s = match exec i s.tick with
        | .next t => .next (t.afterIssue c.run.idx)
        | o => o) ∧
    ∀ (t : Team) (w : Wave) (e : Entry) (i tr : Instr),
      s.team? s.cur.1 = some t → t.isSup = true → t.waves = [w] → s.cur.2 = 0 → w.idx = 0 → w.run = none → w.runahead = none → w.sel = none →
      w.skip = none → w.frontier = [e] → w.loops = [] → w.marks = [] → w.recLoads = [] → w.holds = 0 → e.st = .runnable → e.mask ≠ 0 → e.land = .here →
      e.redo = none → e.after = [] → t.ending = false → t.preempt = false → t.restoring = false → t.dual = none → t.launch = none → w.drain = 0 →
      (∀ m ∈ s.rmws, m.team ≠ t.id) →
      (∀ x ∈ s.teams, x.core = t.core → x = t) → (∀ x ∈ s.teams, x.id = t.id → x = t) →
      (s.sup t.supIdx).halted = false → (s.sup t.supIdx).wakes = false → s.turn % 2 = 0 →
      (∀ x ∈ [e.pc, e.pc + 1], inHbm (4 * x.toNat) = true ∧ s.inWindow (4 * x.toNat) = false ∧ s.lineFault (4 * x.toNat) = none) →
      (let word := field32 (s.peek (4 * e.pc.toNat) 4) 0; decode word = some i ∧ checkWord w.priv word = .ok i) → Instr.isTrail i = false →
      placeOk w.winb w.nregs [] i = true → Instr.queueOf 0 i = none →
      decode (field32 (s.peek (4 * (e.pc + 1).toNat) 4) 0) = some tr → Instr.isTrail tr = true → placeOk w.winb w.nregs [i] tr = true →
      let start := s.tick.updWave t.id 0 fun w => w.start e [i, tr]
      step s = match exec i start with
        | .next t => .next (t.afterIssue 0)
        | o => o

/-- R57, R63 and the opcode tables: decoding inverts encoding on every well-formed word, so that no bit of an operand is dropped. -/
def Sys2Proof.Claims.DecodeOfEncode : Prop := ∀ i : Instr, i.wf = true → decode (encode i) = some i

/-- R63: a word that decodes is well formed, and each instruction has one word: every other pattern of its reserved bits is ILLEGAL. -/
def Sys2Proof.Claims.EncodeOfDecode : Prop := ∀ (w : Word) (i : Instr), decode w = some i → i.wf = true ∧ encode i = w

/-- Decoding and encoding are inverse, all in one. -/
def Obligations.DecodeAndEncode : Prop :=
  Sys2Proof.Claims.DecodeOfEncode ∧ Sys2Proof.Claims.EncodeOfDecode

/-- R57 to R65, by example: words of every family, written out from the encodings of the spec (02_encoding.md, "Words worked out", and the
examples of the instructions' own rules), decode to what they stand for, and words that break R35, R59, R63 or R65 to nothing. -/
def Obligations.WordsDecode : Prop :=
  decode 0b0000001_0000000001100000010000010 = some (.add false 3 1 2) ∧
  decode 0b0000101_0000000010100010000001100 = some (.mul false 5 8 12) ∧
  decode 0b0001011_0000010000000010000010000 = some (.addi false 4 1 16) ∧
  decode 0b0010001_0000100000100100011010001 = some (.movhi 4 0x48D1) ∧
  decode 0b0100000_0010000000100001000000101 = some (.cmp .lt 1 4 5) ∧
  decode 0b0100011_0010000100000000010000010 = some (.sel false 2 8 1 2) ∧
  decode 0b0110000_0011000000000000000000010 = some (.br 1 true 2) ∧
  decode 0b0110011_0000000000010010000000110 = some (.loop 9 6) ∧
  decode 0b0111000_0001010000000000000100000 = some (.gets false 20 0x20) ∧
  decode 0b1111111_0001000011001010000100111 = some (.trail 8 3 20 1 true true true) ∧
  decode 0b1100000_0000000100001000001110010 = some (.ld 4 2 7 .dflt .w) ∧
  decode 0b1100001_0010000100001100001110010 = some (.st 1 4 3 7 .dflt .w) ∧
  decode 0b1100011_0000100000000111111110110 = some (.sld false 8 3 (-2) .d) ∧
  decode 0b1000010_0001000010000001010000110 = some (.fmul false .bf16x2 4 5 6) ∧
  decode 0b1001001_0000010100001000001000110 = some (.fcvt false 5 4 .f32 .bf16) ∧
  decode 0b1010011_0000100100001000000000000 = some (.pack false 9 4 .bf16x2) ∧
  decode 0b1011000_0011000010100001000001001 = some (.shfl false .xor 5 4 9) ∧
  decode 0b1011100_0000000000010100100000011 = some (.bara 10 3) ∧
  decode 0b1011110_0010000000000010100000000 = some (.take 0 10) ∧
  decode 0b1100110_0001000010100010000001100 = some (.benter 5 8 12) ∧
  decode 0b1100111_0010000010000000000000000 = some (.fence 4) ∧
  decode 0b1101111_0000000110001100000100010 = some (.cas 0 6 3 2 2) ∧
  decode 0b1110000_0001000000000100000000101 = some (.copy 1 16 5) ∧
  decode 0b1110100_0001000011000101000000101 = some (.epi 6 20 5) ∧
  decode 0b1111000_0000000000000000000000101 = some (.trap 5) ∧
  decode 0b1111001_0011000010000101000000101 = some (.partEnq 4 20 5) ∧
  decode 0b1111011_0000001010000000110000100 = some (.frame 20 3 4) ∧
  decode 0xFC000000 = none ∧
  decode 0x02E00000 = none ∧
  decode 0x17080410 = none ∧
  decode 0xFE000008 = none

/-- R474 and R453: each supervisor register has its reset value on every core, core 0 of die 0 alone is not halted, no partition holds a compute
core; the invariant of every step holds; and, by log entry 7, memory reads as 0. -/
def Obligations.ResetRegisters : Prop :=
  (∀ i < 16,
    (∀ n ∈ [0x200, 0x201, 0x202, 0x203, 0x204, 0x205, 0x210, 0x211, 0x212, 0x214, 0x215, 0x216, 0x21A, 0x21B, 0x21C, 0x21D, 0x21E, 0x21F, 0x220,
      0x221, 0x222, 0x223, 0x224, 0x226, 0x227, 0x228, 0x230, 0x233], State.reset.getSup i n = 0) ∧
    State.reset.getSup i 0x206 = 0xFFFFFFFFFFFFFFFF ∧ State.reset.getSup i 0x208 = 0xFFFE ∧ State.reset.getSup i 0x213 = 6 ∧
    State.reset.getSup i 0x218 = 1000 ∧ State.reset.getSup i 0x219 = 4000 ∧ State.reset.getSup i 0x225 = 6 ∧ State.reset.getSup i 0x231 = 1 ∧
    (State.reset.sup i).halted = decide (i ≠ 0)) ∧
  (∀ c ∈ State.reset.cores, c.part = none) ∧ State.reset.wellKept ∧ ∀ a, State.reset.byteAt a = 0

/-- R225, R408 and log entry 7: every step keeps the invariant: memory in its canonical form, HBM and the scratchpads of all teams, saved ones
too; the registers of sixteen supervisor cores; and those of sixteen partitions, each with a bundle budget for every die. -/
def Obligations.StepsKeepTheState : Prop :=
  ∀ s t : State, s.wellKept → step s = .next t → t.wellKept


namespace Sys2Proof.Claims

/-- The waves of a core that wait in a TAKE, in the order of its teams and waves (R192). -/
def takersOf (s : State) (core : Nat) : List (Nat × Nat) :=
  s.teams.flatMap fun t => if t.core = core then (t.waves.filter fun w => w.stealWait.isSome).map fun w => (t.id, w.idx) else []

end Sys2Proof.Claims

/-- R27, R28 and R183: the selection of a wave between runs that has drained, and whose entries may all run: the oldest entry at the fairness
interval, else the one with the lowest PC. A selected entry's run starts when nothing it names is pending, its queues have room, no FENCE, ACQ or tag
of an earlier run holds its accesses, it needs no lantern that the wave lacks and the quadrant chooses the wave: the entry leaves the frontier, the
run's words are issued from the first, the trailer's registers are marked, and what the wave had still to drain has passed for the quadrant. -/
def Obligations.SelectionAndRunStart : Prop :=
  ∀ (s : State) (i k : Nat) (t : Team) (w : Wave) (e : Entry), s.team? i = some t → t.id = i → s.wave? i k = some w → w.idx = k →
    w.run = none → w.runahead = none → s.mayRun t w = true →
    (w.drain = 0 → t.restoring = false → w.loops = [] → w.sel = none → w.skip = none →
      (∀ x ∈ w.frontier, x.st = .runnable ∧ x.after = [] ∧ x.mask ≠ 0) → (w.frontier.Pairwise fun x y => x.pc ≠ y.pc) → e ∈ w.frontier →
      (match s.fairness t with
        | some n => if w.frontier.any fun x => decide (n ≤ x.age)
            then n ≤ e.age ∧ ∀ x ∈ w.frontier, x.age ≤ e.age ∧ (x.age = e.age → e.pc.toNat ≤ x.pc.toNat)
            else ∀ x ∈ w.frontier, e.pc.toNat ≤ x.pc.toNat
        | none => ∀ x ∈ w.frontier, e.pc.toNat ≤ x.pc.toNat) →
      ∃ u v, exec (.frontierSelect i k) s = .next u ∧ u.wave? i k = some v ∧ v.sel = some e.pc ∧ v.frontier = w.frontier) ∧
    ∀ s₁ ws, s.selected t w = some e → e.redo = none → s.chosen t w = true → s.runOf t w e = (s₁, .ok ws) → w.waits ws = false →
      s₁.queueRoom t w ws = true → s₁.accessHolds t w ws = false → s₁.lanternHolds t w e ws = false →
      ∃ u, exec (.runStart i k) s = .next u ∧
        u = { ((s₁.takeTurn t k).passCycles t.core (k % 4) w.drain none).updWave i k fun v => v.start e ws with cur := (i, k) } ∧
        u.wave? i k = some { w with
          run := some (Run.begin e.pc ws e.mask w.winb), sel := none, skip := none, drain := 0, frontier := w.frontier.filter (· ≠ e),
          marks := unionIds w.marks ((ws.getLast?.map (trailerRegs w.winb)).getD []) }

/-- R37, R39 and R99: a lane's word that a load waits for arrives, for the lanes that the event names: from its home, with the core's own posted
stores, when no cache of the core or its die holds the line, the line's home is the core's own die, nothing that goes before the read holds it back,
and no write that must not be read is under way (R101, R272). Its register takes the element, extended, and nothing else of the lane changes; memory
stays. -/
def Obligations.DataArrives : Prop :=
  ∀ (s : State) (i k seq pa p : Nat) (t : Team) (w : Wave) (ld : Load) (it : LoadItem) (f : Fmt) (h : Hint) (ln : Lane) (lanes : BitVec 64),
    s.team? i = some t → t.id = i → s.wave? i k = some w → w.idx = k → w.runahead = none → t.dual = none →
    w.recLoads = [] → w.loads.find? (fun l => l.seq == seq) = some ld → ld.items = [it] → it.src = .memory pa f h → it.dst = some p →
    it.pair = false → laneIn lanes it.lane = true → laneIn w.liveMask it.lane = true → w.gates seq = false → s.inWindow pa = false →
    s.lineFault pa = none → s.heldAway (lineOf pa) = false → homeDie pa = dieOf t.core → s.l2Copy (dieOf t.core) (lineOf pa) = none →
    s.l1Copy t.core (lineOf pa) = none → w.lanes[it.lane]? = some ln →
    let g := s.ownDev * 2 ^ 43 + pa
    s.readHeld t w seq g (Fmt.size f) = false → s.laterWrite i k seq ld.upTo g (Fmt.size f) = none →
    let v := lo32 (extendElem f ((s.postedOf t.core).foldl (fun b q => patchBytes pa b q.pa q.bytes) (s.peek pa (Fmt.size f))))
    ∃ u x, exec (.loadDataArrival i k ⟨seq, lanes⟩) s = .next u ∧ u.wave? i k = some x ∧ u.mem = s.mem ∧
      x.lanes = w.lanes.set it.lane { ln with regs := ln.regs.set p v, badRegs := ln.badRegs.filter (· != p) } ∧
      (∀ l ∈ x.loads, l.seq = seq → it ∉ l.items) ∧
      ((∀ l ∈ w.loads, l ≠ ld → ∀ j ∈ l.items, p ∉ j.regs) → p ∉ x.marks)

/-- R41, R192, R252, R253, R376 and R381: a hold adds one cause and HOLD_CLEAR takes one away; RUNAHEAD_END restores the checkpoint once its
registers have arrived, 256 instructions have issued or the team is pre-empted; a walk that finds a leaf fills both TLBs; a poll, of lanes last
polled 1 microsecond ago, releases a WAITC whose lanes all see their condition, and no other; one STEAL probe takes the older half of a victim's records, or notes an empty victim. -/
def Obligations.WaveEvents : Prop :=
  ∀ (s : State) (i k : Nat) (t : Team) (w : Wave), s.team? i = some t → t.id = i → s.wave? i k = some w → w.idx = k →
    exec (.hold i k) s = .next (s.updWave i k fun v => { v with holds := v.holds + 1 }) ∧
    exec (.holdClear i k) s = .next (s.updWave i k fun v => { v with holds := v.holds - 1 }) ∧
    (∀ c, w.runahead = some c → ((∀ p ∈ c.waitsOn, p ∉ w.marks) ∨ 256 ≤ c.issued ∨ t.preempt = true) →
      exec (.runaheadEnd i k) s = .next (s.updWave i k Wave.restore)) ∧
    (∀ core asid (va : DWord) l, va.toNat < 2 ^ 56 → (∀ e ∈ s.tlb1, e.hits core asid va.toNat = false) →
      (∀ e ∈ s.tlb2, e.hits (dieOf core) asid va.toNat = false) → s.walk asid va.toNat = .ok l →
      exec (.pageWalk core asid va) s = .next { s with
        tlb1 := tlbAdd 256 (l.entry core asid va.toNat) s.tlb1, tlb2 := tlbAdd 32768 (l.entry (dieOf core) asid va.toNat) s.tlb2 }) ∧
    (∀ e a, w.run = none → w.runahead = none → w.frontier = [e] → e.st = .blocked [.waitc a] → e.after = [] → a.armed = true →
      (∀ l ∈ a.lanes, ∀ g, l.pa = some g → devOf g = s.ownDev ∧ s.lineFault (localOf g) = none) → (∃ l ∈ a.lanes, l.seen = false) →
      ∃ u v, exec (.monitorPoll i k) s = .next u ∧ u.wave? i k = some v ∧ u.mem = s.mem ∧
        (v.blocks = [] ↔ ∀ l ∈ a.lanes, l.seen = true ∨ ((∃ at_, l.poll = some at_ ∧ at_ + 1000 ≤ s.time) ∧
          s.waitSees a l ((l.pa.map fun g => extendElem a.fmt (s.peek (localOf g) (Fmt.size a.fmt))).getD 0) = true))) ∧
    ∀ core c v victim, s.core? core = some c → (takersOf s core).head? = some (i, k) → s.victim t c = some v → s.core? v = some victim →
      let stepped := s.updCore core fun c => { c with lfsr := lfsrStep c.lfsr }
      let rs := victim.records
      (rs = [] → (∃ x, (stepped.updCore core fun c => { c with probed := v :: c.probed }).victim t { c with
            lfsr := lfsrStep c.lfsr, probed := v :: c.probed } = some x) →
        exec (.steal core) s = .next (stepped.updCore core fun c => { c with probed := v :: c.probed })) ∧
      (rs ≠ [] → exec (.steal core) s = .next (((stepped.updCore v (Core.dropOldest ((rs.length + 1) / 2))).updCore core fun c =>
        let (d, bs) := spillDown ((rs.length + 1) / 2 / 256 + 1) (c.deque ++ rs.drop (rs.length - (rs.length + 1) / 2)) []
        { c with deque := d, spill := c.spill ++ bs, probed := [] }).serveTakes core false c.records.length (takersOf s core)))


/-- R263, R416, R421 and R423: a posted write that may be applied reaches its home. Without copies on other dies it is performed: memory takes
exactly the bytes it gives, and its line is no longer LOST. Else memory stays as it is while the write waits for each sharer, to which it is pushed
in update mode. A partial write of a LOST line is not performed and is reported. A write of another device's memory is sent to it. -/
def Obligations.WritesAtHome : Prop :=
  ∀ (s : State) (p : Posted), s.posted.find? (fun q => q.id == p.id) = some p →
    let line := lineOf p.pa
    let whole := p.pa = line ∧ p.bytes.length = 64 ∧ p.bytes.all Option.isSome = true
    (p.remote = false → s.mayApply p = true → s.heldAway line = false → line ∉ s.ecc → (line ∈ s.lost → whole) →
      ∃ t, exec (.homeWrite p.id) s = .next t ∧
        match (s.dirEntry line).map (fun e => (e, e.sharers)) with
        | none | some (_, []) => t.mem = Memory.writeSome s.mem p.pa p.bytes ∧ line ∉ t.lost ∧
            (s.memoryCanonical → ∀ a, t.byteAt a = (if p.pa ≤ a then (p.bytes[a - p.pa]?).join else none).getD (s.byteAt a)) ∧
            t.posted = s.posted.filter (fun q => q.id != p.id) ∧ t.pushes = s.pushes
        | some (e, ds) => t.mem = s.mem ∧ t.lost = s.lost ∧
            t.posted = s.posted.map (fun q => if q.id = p.id then { q with applied := true, appliedAt := s.time, acks := ds } else q) ∧
            t.pushes = s.pushes ++ (if s.pushes? e line then
                ds.map fun d => ({ posted := p.id, die := d, pa := p.pa, bytes := p.bytes, num := s.pushNum line } : Push) else [])) ∧
    (p.remote = false → s.mayApply p = true → line ∈ s.lost → ¬ whole →
      exec (.homeWrite p.id) s = .next ((s.dropPosted p).asyncFault p.team p.wave .lineLost p.va false)) ∧
    (p.remote = true → p.applied = false → s.hasRoute (devOf p.pa) = true → s.gated p.team p.wave p.id = false → s.performed p.after = true →
      s.farEarlier p.core p.id p.pa p.bytes.length false = false → s.farReadsFirst p.team p.wave p.id p.pa p.bytes.length = false →
      let body := FabricBody.access p.id (BitVec.ofNat 64 p.pa) (.store p.bytes)
      ∃ t n, exec (.homeWrite p.id) s = .next t ∧ t.mem = s.mem ∧
        t.sent = s.sent ++ [{ dev := devOf p.pa, die := dieOf p.core, cls := 2, seq := n, body := body }])

/-- R255, R273, R310, R311 and R416: an integer read-modify-write whose request no other request joins is performed at its home in one step: the
element takes the new value, every other byte is unchanged, the request is gone, and the lane that waits receives the old value. While other dies
hold the line, the new value is a write that waits for them. A CAS that finds another value than its comparand writes nothing. -/
def Obligations.AtomicsAtHome : Prop :=
  ∀ (s : State) (m : Rmw), s.rmws.find? (fun x => x.id == m.id) = some m → (s.rmws.filter fun x => x.req == m.req) = [m] → m.remote = false →
    s.mayPerform m = true → s.inWindow m.pa = false → s.lineFault m.pa = none → s.heldAway (lineOf m.pa) = false → Fmt.fp m.fmt = none →
    m.op ≠ .join → (∀ x ∈ s.rmws, x.result ≠ some s.nextId) →
    let z := Fmt.size m.fmt
    let n := 2 ^ (8 * z)
    let old := natLE (s.peek m.pa z)
    let d := m.operand.toNat % n
    let less := fun a b : Nat => if Fmt.signed m.fmt then (BitVec.ofNat (8 * z) a).toInt ≤ (BitVec.ofNat (8 * z) b).toInt else a ≤ b
    let new := match m.op with
      | .add => (old + d) % n
      | .min => if less old d then old else d
      | .max => if less old d then d else old
      | .and => Nat.land old d
      | .or => Nat.lor old d
      | .xor => Nat.xor old d
      | _ => d
    let fails := m.op = .cas ∧ old ≠ m.comparand.toNat % n
    let answered := fun t : State => ∀ q w l i, m.load = some q → s.wave? m.team m.wave = some w → w.runahead = none →
      w.loads.find? (fun l => l.seq == q) = some l → l.items.find? (fun i => i.lane == m.lane) = some i → i.src = .rmw →
      ∃ v x j, t.wave? m.team m.wave = some v ∧ v.loads.find? (fun l => l.seq == q) = some x ∧
        x.items.find? (fun i => i.lane == m.lane) = some j ∧ j.src = .value (extendElem m.fmt (bytesLE z old))
    (fails ∨ (∀ e, s.dirEntry (lineOf m.pa) = some e → e.sharers = []) →
      ∃ t, exec (.atomicAtHome [m.id]) s = .next t ∧ t.mem = (if fails then s.mem else Memory.writeN s.mem m.pa (bytesLE z new)) ∧
        t.rmws = s.rmws.filter (fun x => x.id != m.id) ∧ answered t) ∧
    ∀ e, ¬ fails → s.dirEntry (lineOf m.pa) = some e → e.sharers ≠ [] →
      ∃ t, exec (.atomicAtHome [m.id]) s = .next t ∧ t.mem = s.mem ∧ answered t ∧
        t.rmws = s.rmws.map (fun x => if x.id = m.id then { x with result := some s.nextId } else x) ∧
        ∃ p ∈ t.posted, p.id = s.nextId ∧ p.pa = m.pa ∧ p.bytes = (bytesLE z new).map some ∧ p.applied = true ∧ p.acks = e.sharers

/-- R415 to R421: the directory's events. A request brings the line's bytes into a die's L2 and puts the die into an entry that covers the line, or
is forwarded to the die that holds the modified copy; that die's answer, or its write-back, brings its bytes to the home. An invalidation drops a
die's copy, or finds none; a push reaches a die, which acknowledges it; the last acknowledgement performs the write, whose bytes are then in memory
and in the copies that stay, and splits a region that met a conflict. Two idle siblings merge. -/
def Obligations.DirectoryEvents : Prop :=
  ∀ (s : State) (die line : Nat),
    (∀ own, die < 4 → line % 64 = 0 → inHbm line = true → s.lineFault line = none → s.lineLocked line = false →
      (s.heldAway line = false → die ≠ homeDie line →
        ∃ t, exec (.directoryRequest die line own) s = .next t ∧ t.mem = s.mem ∧
          t.l2Copy die line = some { holder := die, line := line, data := Memory.readN s.mem line 64, modified := own && !s.pinned line } ∧
          (∃ e ∈ t.dir, e.covers line = true ∧ die ∈ e.sharers) ∧
          (own = true → s.pinned line = false → ∀ c ∈ t.l2, c.line = line → c.holder = die)) ∧
      ∀ c, s.modifiedCopy line = some c → c.holder ≠ die → (∀ f ∈ s.forwards, ¬ (f.1 = line ∧ f.2.1 = die)) →
        exec (.directoryRequest die line own) s = .next { s with forwards := (line, die, c.holder, s.time) :: s.forwards }) ∧
    (∀ f c, s.forwards.find? (fun f => f.1 == line && f.2.1 == die) = some f → s.modifiedCopy line = some c →
      ∃ t, exec (.forwardedRead line die) s = .next t ∧ t.mem = Memory.writeN s.mem line c.data ∧ t.modifiedCopy line = none ∧
        (inHbm line = true → s.lineFault line = none → s.lineLocked line = false → (∀ x ∈ s.writeBacks, x.line ≠ line) → die ≠ homeDie line →
          t.l2Copy die line = some { holder := die, line := line, data := Memory.readN t.mem line 64, modified := false })) ∧
    (∀ c, s.writeBacks.find? (fun c => c.line == line && c.holder == die) = none →
      s.l2.find? (fun c => c.line == line && c.holder == die && c.modified) = some c →
      exec (.writeBack line die) s = .next { s with l2 := s.l2.filter (· ≠ c), writeBacks := { c with modified := false } :: s.writeBacks }) ∧
    (∀ c, s.writeBacks.find? (fun c => c.line == line && c.holder == die) = some c →
      ∃ t, exec (.writeBack line die) s = .next t ∧ t.mem = Memory.writeN s.mem line c.data ∧ t.writeBacks = s.writeBacks.filter (· ≠ c)) ∧
    (∀ q p, minBy (fun q : Push => q.num) (s.pushes.filter fun q => q.die == die && lineOf q.pa == line) = some q →
      s.posted.find? (fun p => p.id == q.posted) = some p → lineOf p.pa ∉ s.ecc →
      let left := p.acks.filter (· != die)
      ∃ t, exec (.updatePush line die) s = .next t ∧ t.pushes = s.pushes.filter (· ≠ q) ∧
        t.mem = (if left = [] then Memory.writeSome s.mem p.pa p.bytes else s.mem) ∧
        t.l2 = (if left = [] then s.l2.map (fun c => if c.line = lineOf p.pa then c.patch p.pa p.bytes else c) else s.l2) ∧
        t.posted = if left = [] then s.posted.filter fun x => x.id != p.id
          else s.posted.map fun x => if x.id = p.id then { p with acks := left } else x) ∧
    (∀ p, s.posted.find? (fun q => q.id == p.id) = some p → s.invalidates p die = true →
      (die ∉ p.dropped → die ∉ p.noneHeld →
        ∃ t, exec (.invalidation p.id die) s = .next t ∧ t.mem = s.mem ∧
          t.l2 = s.l2.filter (fun c => !(c.holder == die && c.line == lineOf p.pa)) ∧
          t.posted = s.posted.map (fun q => if q.id = p.id then
            (if (s.l2Copy die (lineOf p.pa)).isSome then { q with dropped := die :: q.dropped } else { q with noneHeld := die :: q.noneHeld }) else q)) ∧
      (die ∈ p.dropped ∨ die ∈ p.noneHeld → lineOf p.pa ∉ s.ecc →
        let left := p.acks.filter (· != die)
        ∃ t, exec (.invalidationAck p.id die) s = .next t ∧ t.mem = (if left = [] then Memory.writeSome s.mem p.pa p.bytes else s.mem) ∧
          t.posted = (if left = [] then s.posted.filter fun q => q.id != p.id
            else s.posted.map fun q => if q.id = p.id then { p with acks := left } else q) ∧
          ∀ e, s.dirEntry (lineOf p.pa) = some e → t.dir = if left = [] ∧ e.j ≠ 0 ∧ p.noneHeld ≠ [] then
            s.dir.flatMap fun f => if f.base = e.base then
              e.halves.map fun h => if h.covers (lineOf p.pa) then { h with sharers := h.sharers.filter fun d =>
                !(p.noneHeld.contains d && !(s.l2.any fun c => c.holder == d && h.covers c.line)) } else h
            else [f] else s.dir)) ∧
    ∀ base e f, s.dir.find? (fun e => e.die == die && e.base == base) = some e →
      s.dir.find? (fun f => f.base == base + e.bytes && f.j == e.j) = some f → e.j < 10 → base % (2 * e.bytes) = 0 → s.pinned base = false →
      s.pinned f.base = false →
      (∀ x ∈ [e, f], x.update = false ∧ x.usedAt + mergeIdle ≤ s.time ∧ ∀ p ∈ s.posted, p.applied = true → p.remote = false → x.covers (lineOf p.pa) = false) →
      exec (.directoryMerge die base) s = .next { s with
        dir := { e with j := e.j + 1, sharers := unionIds e.sharers f.sharers, counter := 0, invalidated := [],
                        readSince := e.readSince || f.readSince, usedAt := s.time } ::
          s.dir.filter fun x => x.base != e.base && x.base != f.base }


/-- R162, R165, R169, R171 and R172: an offer whose earlier writes are performed is resolved: an accepted launch stands last in its queue with its
region, a refused one has its source told the fault, and a full queue takes nothing. Placement starts the next team of the first launch with an
eligible core: its waves stand at the region's entry with all lanes and the launch's arguments, in user mode. Queue heads that have waited an
interval rise one level. -/
def Obligations.LaunchEvents : Prop :=
  ∀ s : State,
    (∀ o, s.offers.find? (fun x => x.id == o.id) = some o → s.performed o.after = true → (s.part o.part).resetting = none →
      let s₀ := { s with offers := s.offers.filter fun x => x.id != o.id }
      match s₀.resolveLaunch o with
      | (s₁, _, .ok l) => ∃ t, exec (.launchAccept o.id) s = .next t ∧ t.mem = s.mem ∧ t.offers = s₀.offers ∧
          t.launches = if s₁.queueHasRoom l.part l.queue then s.launches ++ [{ l with id := s₁.nextId, agedAt := s₁.time }] else s.launches
      | (s₁, rcb, .error f) => exec (.launchAccept o.id) s = .next (s₁.tellRefused o rcb (some f))) ∧
    (∀ p l ls c k x y, (s.part p).resetting = none → s.tryOrder p = l :: ls → s.launch? l.id = some l → l.bundles = [] → l.savedTeams = [] →
      s.gangLeaving l = false → l.region.twice l.nextTeam = false → s.choose l (s.eligible l) = some c → l.region.nextStep (2 ^ 66) l.walk = some (k, x, y) →
      ∃ t u m, exec (.teamPlace p) s = .next t ∧ t.mem = s.mem ∧ t.teams = s.teams ++ [u] ∧ t.launch? l.id = some m ∧ m.nextTeam = l.nextTeam + 1 ∧
        m.walk = k + 1 ∧ u.core = c.id ∧ u.launch = some l.id ∧ u.logical = l.nextTeam ∧ u.linear = BitVec.ofNat 32 (y * l.region.gx + x) ∧
        u.spad = [] ∧ u.spadSize = l.region.spad ∧ u.waves.length = l.region.waves ∧
        ∀ w ∈ u.waves, w.priv = .user ∧ w.width = l.region.width ∧ w.nregs = l.region.nregs ∧ w.run = none ∧ w.frontier =
            [{ pc := l.region.entry, mask := allLanes l.region.width, st := .runnable, age := 0, land := .here }] ∧
          ∀ ln ∈ w.lanes, ∀ i < 12, i < l.region.nregs → ln.regs[i]? = some (l.args.getD i 0)) ∧
    ∀ p, let n := (s.part p).paging.toNat * 1000
      0 < n → ∃ t, exec (.agingInterval p) s = .next t ∧ t.mem = s.mem ∧
        t.launches = s.launches.map (fun l => if l.part ≠ p then l
          else if ((List.range 4).any fun q => (s.queueHead p q).map (·.id) == some l.id) then
            if l.agedAt + n ≤ s.time then { l with aged := Nat.min 3 (l.aged + 1), agedAt := s.time } else l
          else { l with agedAt := s.time }) ∧
        t.admissions = s.admissions.map fun q => if q.part = p ∧ q.since + n ≤ s.time then
          { q with level := Nat.min 3 (q.level + 1), atTop := if 3 ≤ q.level then q.atTop + 1 else q.atTop, since := s.time } else q

/-- R164, R196, R209, R239, R241 and R245: a team whose waves and commands have ended leaves its core and its launch counts it; a launch of a
supervisor whose last team ends leaves its queue and is counted in %pdone. The lantern passes to the next wave that has not exited. The die admits
the one request of its queue that fits. A fill places a line in a free slot of its die, reports a missing page or fails. -/
def Obligations.LaunchEndsAndBundleEvents : Prop :=
  ∀ s : State,
    (∀ t l, s.team? t.id = some t → t.launch = some l.id → s.launch? l.id = some l → s.teamDone t = true → t.ending = false → t.gangSize < 2 →
      t.dual = none → l.ending = none →
      (l.ended + 1 < l.region.gx * l.region.gy → ∃ u, exec (.teamEnd t.id) s = .next u ∧ (∀ x ∈ u.teams, x.id ≠ t.id) ∧
        u.launch? l.id = some { l with ended := l.ended + 1 }) ∧
      ∀ a b, l.region.gx * l.region.gy ≤ l.ended + 1 → l.source = .supervisor a b → l.part < s.parts.length → (s.part l.part).resetting = none →
        (∀ x ∈ s.teams, x.launch = some l.id → x.id = t.id) → (∀ x ∈ s.saved, x.launch ≠ some l.id) → (∀ r ∈ s.reports, r.launch ≠ some l.id) →
        ∃ u, exec (.teamEnd t.id) s = .next u ∧ (∀ x ∈ u.teams, x.id ≠ t.id) ∧ u.launch? l.id = none ∧
          (u.part l.part).pdone = satInc (s.part l.part).pdone 1) ∧
    (∀ l v, s.launch? l.id = some l → l.lantern = some (.passing v) →
      (∀ t ∈ s.teams ++ s.saved, t.launch = some l.id → t.logical = v / l.region.waves → t.gone = false → t.performs = true →
        s.lanternClear t (v % l.region.waves) = true) →
      match l.nextWave v with
      | none => exec (.lanternPass l.id) s = .next (s.updLaunch l.id fun l => { l with lantern := some .retired })
      | some u => (∃ t ∈ s.teams, t.launch = some l.id ∧ t.gone = false ∧ t.logical = u / l.region.waves) →
          exec (.lanternPass l.id) s = .next (s.updLaunch l.id fun l => { l with lantern := some (.at u) })) ∧
    (∀ die q s₁ t w k, s.ranked die = [q] → s.tryFit q.part q.die q.holder q.handles = some s₁ → q.holder = .team t → q.reply = some (t, w, k) →
      exec (.bundleAdmission die) s = .next ((({ s₁ with admissions := s₁.admissions.filter (· ≠ q) } : State).grant q.part q.die (.team t) w
        q.handles).answerLoad t w k 0)) ∧
    ∀ b v, s.insts.find? (fun x => x.id == b.id && x.failure.isNone && (x.st == .filling || x.st == .orphaned)) = some b →
      (∀ pl, s.fillNext b = some (v, .placed pl) → b.st = .filling → b.entries ≠ [] →
        s.slotFree b v pl = true → ∃ t c, exec (.bundleFillLine b.id) s = .next t ∧ t.mem = s.mem ∧ t.insts.find? (fun x => x.id == b.id) = some c ∧
          c.lines = b.lines.map (fun l => if l.1 = v then (v, some pl) else l) ∧ c.st = if c.lines.all (·.2.isSome) then .entered else .filling) ∧
      (s.fillNext b = some (v, .missing) →
        ∃ t r, exec (.bundleFillLine b.id) s = .next t ∧ t.mem = s.mem ∧ t.reports = s.reports ++ [r] ∧ r.kind = 0 ∧ r.code = 5 ∧
          r.addr = BitVec.ofNat 64 (v * 64) ∧ r.flg.getLsbD 3 = true) ∧
      ∀ f, s.fillNext b = some (v, .failed f) →
        exec (.bundleFillLine b.id) s = .next (s.failInst b (f, BitVec.ofNat 64 (v * 64))).endFailed


/-- R381 to R389 and R393: a request names the teams that may be pre-empted, whose runahead waves restore first; the limit of a barrier passes no
earlier than %pbarlim after the request; a halted team of at most 128 KiB leaves its core with all its state saved, its commands with it. A DUAL pair that stands at compare points with equal
streams and requests commits the primary's stores in order and empties both buffers; on a mismatch its launch ends with DUAL_MISMATCH. -/
def Obligations.PreemptionEvents : Prop :=
  ∀ s : State,
    (∀ ids, exec (.preemptRequest ids) s = .next { s with
      teams := s.teams.map fun t => if s.mayPreempt t && (ids.contains t.id || ((t.dual.map fun d => ids.contains d.peer).getD false))
        then { t with preempt := true, preemptAt := if t.preempt then t.preemptAt else s.time, waves := t.waves.map Wave.restore } else t }) ∧
    (∀ i, exec (.barrierLimit i) s = .next (s.updTeam i fun t =>
      if t.preempt = true ∧ t.preemptAt + (s.part (s.partOf t)).pbarlim.toNat ≤ s.time then { t with limitPassed := true } else t)) ∧
    (∀ t l, s.team? t.id = some t → t.launch = some l.id → s.launch? l.id = some l → s.halted t = true → t.spadSize ≤ 131072 →
      (∀ y ∈ s.saved, y.id ≠ t.id) →
      ∃ u ys x, exec (.teamSave t.id) s = .next u ∧ (∀ y ∈ u.teams, y.id ≠ t.id) ∧ u.saved = ys ++ [x] ∧ (∀ y ∈ ys, y.id ≠ t.id) ∧
        x = { t with preempt := false, limitPassed := false, echo := false, waves := t.waves.map Wave.saved, held := x.held,
                     heldFences := x.heldFences } ∧
        x.held.map (·.2) = (List.range 9).flatMap (fun q => ((s.queue? t.core q).map fun y => y.cmds.filter fun c => c.team = t.id).getD []) ∧
        (∀ c ∈ u.cores, c.id = t.core → ∀ q ∈ c.queues, ∀ y ∈ q.cmds, y.team ≠ t.id) ∧
        ∃ m, u.launch? l.id = some m ∧ t.logical ∈ m.savedTeams) ∧
    ∀ p q d e w v, s.team? p.id = some p → s.team? q.id = some q → p.dual = some d → q.dual = some e → d.peer = q.id → d.primary = true →
      d.atPoint = some w → e.atPoint = some v → d.passed = false → e.passed = false → p.ending = false →
      let stores := fun d : Dual => d.stream.map fun z => (z.pa, z.bytes)
      (stores d = stores e → p.requestAt w = q.requestAt v → p.id ≠ q.id → ∃ u x y, exec (.dualCompare p.id) s = .next u ∧ u.mem = s.mem ∧
        u.team? p.id = some x ∧ u.team? q.id = some y ∧ x.dual = some { d with stream := [], passed := true } ∧ y.dual = some { e with stream := [] } ∧
        ∃ new, u.posted = s.posted ++ new ∧ (new.map Posted.id) = (d.stream.map DualStore.id) ∧ (new.map fun z => (if z.remote then z.pa else s.devnum.toNat % 512 * 2 ^ 43 + z.pa, z.bytes)) =
          d.stream.map fun z => (if devOf z.pa = s.devnum.toNat % 512 then s.devnum.toNat % 512 * 2 ^ 43 + localOf z.pa else z.pa, z.bytes)) ∧
      ((stores d ≠ stores e ∨ p.requestAt w ≠ q.requestAt v) → exec (.dualCompare p.id) s = .next (s.dualMismatch p))

/-- R368, R370, R372, R373 and R390: a record that finds room is written to its ring, its tail advances and the supervisor cores are told; a fault
of a domain whose policy is 0 then waits for the handler. A KIND 4 record that finds its ring full is dropped and counted, the others wait for room;
without a ring any record is, and a fault of a domain then ends its launch alone. A handler launch enters queue 3 with the record's address. An expired watchdog resets its partition. -/
def Obligations.ReportEvents : Prop :=
  ∀ s : State,
    (∀ r, s.reports.find? (fun x => x.id == r.id && x.index.isNone) = some r → s.reportWaits r = false →
      (∀ p, r.ring = some p → p < s.parts.length →
        let q := s.part p
        let full := 2 ^ q.prsize.toNat ≤ (q.prtail - q.prhead).toNat
        let slot := q.prbase.toNat + 64 * (q.prtail.toNat % 2 ^ q.prsize.toNat)
        (q.prbase ≠ 0 → full → exec (.reportRecordWrite r.id) s = .next (if r.kind = 4 then
          (s.updPart p fun q => { q with prdrop := satInc q.prdrop 1 }).dropReport r.id else s)) ∧
        (q.prbase = 0 → r.kind ≠ 0 → exec (.reportRecordWrite r.id) s = .next
          ((s.updPart p fun q => { q with prdrop := satInc q.prdrop 1 }).dropReport r.id)) ∧
        (∀ l, q.prbase = 0 → s.domainOf r = some l → exec (.reportRecordWrite r.id) s = .next
          (((s.updPart p fun q => { q with prdrop := satInc q.prdrop 1 }).dropReport r.id).endLaunch l.id (faultOf r.code))) ∧
        (q.prbase ≠ 0 → q.prbase.toNat % 64 = 0 → ¬ full → s.domainOf r = none → ∃ t, exec (.reportRecordWrite r.id) s = .next t ∧
          t.mem = Memory.writeN s.mem slot (r.bytes s.time 0xFF) ∧ (t.part p).prtail = q.prtail + 1 ∧
          ∀ (i : Nat) (u : Sup), s.sups[i]? = some u → t.sups[i]? = some { u with sip := u.sip ||| 2 }) ∧
        ∀ l, q.prbase ≠ 0 → q.prbase.toNat % 64 = 0 → ¬ full → s.domainOf r = some l → l.ending = none → l.region.fdpol = 0 → ∃ t, exec (.reportRecordWrite r.id) s = .next t ∧
          t.mem = Memory.writeN s.mem slot (r.bytes s.time 0xFF) ∧ (t.part p).prtail = q.prtail + 1 ∧ t.handlers = s.handlers ++ [r.id] ∧
          ∃ x ∈ t.reports, x.id = r.id ∧ x.index = some q.prtail) ∧
      (r.ring = none → s.drbase ≠ 0 → s.drbase.toNat % 64 = 0 → (s.drtail - s.drhead).toNat < 2 ^ s.drsize.toNat → ∃ t, exec (.reportRecordWrite r.id) s = .next t ∧
        t.mem = Memory.writeN s.mem (s.drbase.toNat + 64 * (s.drtail.toNat % 2 ^ s.drsize.toNat)) (r.bytes s.time 0xFF) ∧
        t.drtail = s.drtail + 1 ∧ t.reports = s.reports.filter fun x => x.id != r.id)) ∧
    (∀ r p i l, s.reports.find? (fun x => x.id == r.id && s.handlers.contains x.id) = some r → r.ring = some p → r.index = some i →
      r.launch = some l.id → s.launch? l.id = some l → s.queueHasRoom p 3 = true →
      (s.handlers.find? fun j => (s.reports.find? fun x => x.id == j).bind (·.ring) == some p) = some r.id →
      l.ending = none → l.ended < l.region.gx * l.region.gy →
      ∃ t h, exec (.handlerLaunch r.id) s = .next t ∧ t.mem = s.mem ∧ t.launches = s.launches ++ [h] ∧
        t.handlers = s.handlers.filter (· != r.id) ∧ h.source = .handler r.id ∧ h.queue = 3 ∧ h.part = l.part ∧ h.region = l.region.handler ∧
        h.args = [BitVec.ofNat 32 (s.recordAddr p i), BitVec.ofNat 32 (s.recordAddr p i / 2 ^ 32)] ++ List.replicate 10 0) ∧
    ∀ p k l at_ ms, ((s.part p).timers[k]?).join = some (l, at_, ms) → at_ + ms * 1000000 ≤ s.time → (s.part p).resetting = none →
      exec (.watchdogExpiry p k) s = .next (s.beginReset p 17 (((s.queueLaunches p k).head?.map (·.region.block)).getD 0) none)


namespace Sys2Proof.Claims

/-- The boot state once the ROM asks a server for the image. -/
def asks (s : State) (port server : Nat) : Boot := .fetching { port := port, server := server, retries := 0, since := s.time, got := [] }

/-- The boot state once the ROM gives up a server: the next one in fuse order, or a pause (R450). -/
def givesUp (s : State) (f : Fetching) : Boot :=
  if f.server + 1 < bootServers then asks s f.port (f.server + 1) else .pausing f.port s.time

/-- The boot state once the ROM uses a port (R449). -/
def takesPort (s : State) (port : Nat) : Boot := if s.portUp.getD port false then asks s port 0 else .waitLink port s.time

end Sys2Proof.Claims

/-- R449 and R450: the dies power up one by one, and after the fourth the ROM uses port 0; after 5 s without a link it uses port 1; it repeats an
unanswered request after 1 s, gives a server up after five repetitions, and starts again 1 s after the last one; a port's link lets it go on. -/
def Sys2Proof.Claims.BootEvents : Prop :=
  ∀ s : State,
    (s.boot = .off → ∃ t, exec .powerOn s = .next t ∧ t.diesUp = s.diesUp + 1 ∧ t.boot = if s.diesUp + 1 < 4 then .off else takesPort s 0) ∧
    (∀ since, s.boot = .waitLink 0 since → since + 5000000000 ≤ s.time →
      ∃ t, exec .bootPortTimeout s = .next t ∧ t.boot = takesPort s 1 ∧ t.mem = s.mem) ∧
    (∀ f, s.boot = .fetching f → f.since + 1000000000 ≤ s.time →
      ∃ t, exec .tftpRetransmit s = .next t ∧ t.mem = s.mem ∧
        t.boot = if 5 ≤ f.retries then givesUp s f else .fetching { f with retries := f.retries + 1, since := s.time }) ∧
    (∀ port since, s.boot = .pausing port since → since + 1000000000 ≤ s.time →
      ∃ t, exec .bootRetry s = .next t ∧ t.boot = asks s port 0 ∧ t.romRequests = s.romRequests ++ [(port, 0)] ∧
        t.bootsrv = BitVec.ofNat 32 (Nat.min 255 (bitsOf s.bootsrv.toNat 8 8 + 1) * 256)) ∧
    ∀ port up, ∃ t, exec (.portLinkChange port up) s = .next t ∧ t.portUp = s.portUp.set port up ∧ t.mem = s.mem ∧
      t.boot = match s.boot with
        | .waitLink p _ => if p = port ∧ up = true then asks s port 0 else s.boot
        | _ => s.boot

/-- R450 to R453: image bytes that arrive are kept, and from byte 256 on written from LOAD up; a header that fails a check, or a complete body
whose hash does not match, makes the ROM give the server up. A complete image is measured, and core 0 of D0 starts at ENTRY in supervisor mode with
LOAD and the server in its registers. What SM2, SM3 and the fuses answer is open, and the statement holds for every answer. -/
def Sys2Proof.Claims.ImageArrives : Prop :=
  ∀ (s : State) (f : Fetching) (bytes : List Byte) (last : Bool), s.boot = .fetching f →
    let got := f.got ++ bytes
    let h := got.take 256
    let body := (got.drop 256).take (imgLen h)
    let seen := Nat.max f.got.length 256 - 256
    let goOn : Boot := if last then givesUp s f else .fetching { f with got := got, retries := 0, since := s.time }
    ∃ t, exec (.tftpData bytes last) s = .next t ∧
      if got.length < 256 then t.boot = goOn ∧ t.mem = s.mem
      else if headerOk h = false then t.boot = givesUp s f ∧ t.mem = s.mem
      else t.mem = Memory.writeN s.mem (imgLoad h + seen) (body.drop seen) ∧
        if body.length < imgLen h then t.boot = goOn
        else if bodyOk h body = false then t.boot = givesUp s f
        else t.boot = .running ∧ t.image = h ∧ t.cur = (0, 0) ∧
          (∀ u, s.sups[0]? = some u → t.sups[0]? = some { u with halted := false, sie := u.sie &&& 0x7FFFFFFF }) ∧
          ∀ w, s.wave? 0 0 = some w → ∃ v, t.wave? 0 0 = some v ∧ v.run = none ∧ v.winb = 0 ∧ v.priv = .supervisor ∧
            v.frontier = [{ pc := BitVec.ofNat 32 (imgLoad h / 4 + imgEntry h), mask := 1, st := .runnable, age := 0, land := .here }] ∧
            ∀ x y, w.lanes = [x] → v.lanes = [y] → y.regs = ((x.regs.set 0 (BitVec.ofNat 32 (imgLoad h))).set 1
              (hi32 (BitVec.ofNat 64 (imgLoad h)))).set 2 (BitVec.ofNat 32 f.server)

/-- Network boot: ports, servers, and the image, all in one. -/
def Obligations.BootAndImage : Prop :=
  Sys2Proof.Claims.BootEvents ∧ Sys2Proof.Claims.ImageArrives

/-- R395, R407, R454, R455 and R457: the timer sets its bit once %time has reached %stcmp; a supervisor core between runs takes its enabled pending
interrupt as a trap with CAUSE 0, whose return address is the run that would have started; eight cores of a partition start at once, 2 microseconds after the last eight; a quote is
written into its block, signed; the first PTP lock steps %time, a later one does not; a die's corrected errors of a second are reported. -/
def Obligations.PlatformEvents : Prop :=
  ∀ s : State,
    (∀ i < 16, exec (.timer i) s = .next (if (s.sup i).stcmp.toNat ≤ s.time then s.updSup i fun u => { u with sip := u.sip ||| 1 } else s)) ∧
    (∀ i t w e, s.team? i = some t → (∀ x ∈ s.teams, x.id = i → x = t) → t.isSup = true → t.supIdx = i → s.wave? i 0 = some w →
      w.run = none → w.runahead = none → w.frontier = [e] → e.st = .runnable → e.after = [] → w.loops = [] → w.skip = none →
      (s.sup i).halted = false → (s.sup i).sie.getLsbD 31 = true → (s.sup i).sip &&& (s.sup i).sie &&& 0x1F ≠ 0 →
      ∃ k < 5, (((s.sup i).sip &&& (s.sup i).sie).getLsbD k = true ∧ ∀ j < k, ((s.sup i).sip &&& (s.sup i).sie).getLsbD j = false) ∧
        exec (.interrupt i) s = .next (s.trapEntry t e.mask 0 e.pc 0 (BitVec.ofNat 32 k))) ∧
    (∀ p, let group := ((s.cores.filter fun c => c.part == some p && !c.started && !s.diesFailed.contains (dieOf c.id)).map (·.id)).take 8
      (∀ at_, (s.part p).groupAt = some at_ → s.time < at_ + 2000 → exec (.coreGroupStart p) s = .next s) ∧
      (group ≠ [] → (∀ at_, (s.part p).groupAt = some at_ → at_ + 2000 ≤ s.time) → exec (.coreGroupStart p) s = .next
        (({ s with cores := s.cores.map fun c => if c.id ∈ group then { c with started := true } else c } : State).updPart p fun q =>
          { q with groupAt := some s.time }))) ∧
    (s.atstat = 1 → (s.quotable s.atblk.toNat = false → exec .quoteComplete s = .next { s with atstat := 3 }) ∧
      (s.quotable s.atblk.toNat = true → s.memoryCanonical → (∀ c ∈ s.l2, c.modified = false) → s.writeBacks = [] → s.image.length = 256 →
        let a := s.atblk.toNat
        let said := Memory.readN s.mem a 40 ++ padTo 32 (Config.sm3 s.image) ++ padTo 8 Config.fuseSerial ++ (s.image.drop 20).take 4 ++
          List.replicate 12 0
        ∃ t, exec .quoteComplete s = .next t ∧ t.atstat = 2 ∧
          t.mem = Memory.writeN s.mem a (said ++ padTo 64 (Config.sm2Sign (Config.sm3 said)) ++ padTo 64 Config.identityKey ++ List.replicate 32 0))) ∧
    (∀ time : DWord, let st := (s.ptpst &&& 0xFFFFFFFC) ||| 2
      (s.locked = false → s.time ≤ time.toNat → exec (.ptpLock time) s = .next { s with
        time := time.toNat, locked := true, ptoff := time - BitVec.ofNat 64 s.time, ptpst := st }) ∧
      (s.locked = true → exec (.ptpLock time) s = .next { s with ptoff := time - BitVec.ofNat 64 s.time, ptpst := st })) ∧
    (bitsOf s.ptpst.toNat 0 2 = 2 → exec .holdover s = .next { s with ptpst := s.ptpst ||| 3 }) ∧
    ∀ die n since, s.corrected[die]? = some (n, since) → since + 1000000000 ≤ s.time → 0 < n →
      exec (.correctedErrorSummary ⟨die, []⟩) s = .next { s with
        ticks := s.ticks + 1, nextId := s.nextId + 1, corrected := s.corrected.set die (0, s.time),
        reports := s.reports ++ [{ Report.blank s.nextId none 4 0 with
          die := die, aux2 := BitVec.ofNat 64 (n + (Config.freeWord s.ticks).toNat) }] }

/-- R463 and R464: a frame that a port takes, and that the ring has room for, is written to the slot at %nrtail with its length, port and time,
%nrtail advances and the cores of %nrsize are told; any other frame is counted in %nrdrop. The slot at %nthead is sent, or refused with all ones in
its time field, and %nthead advances; it waits while the port has no link. -/
def Obligations.FrameEvents : Prop :=
  ∀ s : State, s.boot = .running →
    (∀ port bytes ok stamped, port < 2 →
      let k := bitsOf s.nrsize.toNat 0 4
      let good := ok = true ∧ takesFrame port bytes = true ∧ 14 ≤ bytes.length ∧ bytes.length ≤ 2032 ∧ s.nrbase ≠ 0 ∧
        (s.nrtail - s.nrhead).toNat < 2 ^ k
      (¬ good → exec (.frameReceive port bytes ok stamped) s = .next { s with nrdrop := satInc s.nrdrop 1 }) ∧
      (good → ∃ t, exec (.frameReceive port bytes ok stamped) s = .next t ∧ t.nrtail = s.nrtail + 1 ∧ t.nrdrop = s.nrdrop ∧
        t.mem = Memory.writeN s.mem (s.nrbase.toNat + 2048 * (s.nrtail.toNat % 2 ^ k))
          (bytesLE 2 bytes.length ++ [BitVec.ofNat 8 port, if stamped then 1 else 0, 0, 0, 0, 0] ++ bytesLE 8 (if stamped then s.time else 0) ++
            bytes ++ List.replicate (2032 - bytes.length) 0) ∧
        ∀ i < 16, ∀ u, s.sups[i]? = some u → t.sups[i]? = some (if (bitsOf s.nrsize.toNat 16 16).testBit i then { u with sip := u.sip ||| 4 } else u))) ∧
    (s.ntbase ≠ 0 → s.nthead ≠ s.nttail →
      let slot := s.ntbase.toNat + 2048 * (s.nthead.toNat % 2 ^ bitsOf s.ntsize.toNat 0 4)
      let h := s.peek slot 8
      let len := fieldLE h 0 2
      let port := fieldLE h 2 1
      let good := 14 ≤ len ∧ len ≤ 2032 ∧ port ≤ 1 ∧ fieldLE h 3 1 ≤ 1 ∧ zeroBytes h 4 4 = true
      (¬ good → ∃ t, exec .frameTransmit s = .next t ∧ t.nthead = s.nthead + 1 ∧ t.sentFrames = s.sentFrames ∧
        t.mem = Memory.writeN s.mem (slot + 8) (List.replicate 8 0xFF)) ∧
      (good → s.portUp.getD port false = false → exec .frameTransmit s = .next s) ∧
      (good → s.portUp.getD port false = true → ∃ t, exec .frameTransmit s = .next t ∧ t.nthead = s.nthead + 1 ∧
        (∃ frame, t.sentFrames = s.sentFrames ++ [(port, frame)] ∧
          frame.take (Nat.max 60 (s.peek (slot + 16) len).length) = s.peek (slot + 16) len ++ List.replicate (60 - (s.peek (slot + 16) len).length) 0) ∧
        t.mem = if fieldLE h 3 1 = 1 then Memory.writeN s.mem (slot + 8) (bytesLE 8 s.time) else s.mem))


namespace Sys2Proof.Claims

/-- The state in which a packet of an existing inbound flow has come and is held for its turn (R427, R428). -/
def holding (s : State) (dev die cls : Nat) (seq : Word) (body : FabricBody) : State :=
  { s with
    links := s.links.map fun l => { l with replays := 0 }
    flows := s.flows.map fun g => if g.inboundOf dev die cls then
      { g with lastAt := s.time, early := if (seq - g.next).msb || g.early.any (fun p => p.1 == seq) then g.early else g.early ++ [(seq, body)] }
      else g }

/-- The links that a packet for a device may take all have a feature. -/
def allHave (s : State) (dev bit : Nat) : Prop := ∀ l ∈ s.routeLinks dev, l.features.getLsbD bit = true

end Sys2Proof.Claims

/-- R427 to R430: the 64th replay in a row takes a link down; training brings one up with the lower version and the common features; a packet in
sequence is delivered and one that is early is held, one that has come before changes nothing; without a route a flow's held packets are
discarded after the port timeout, and posted writes, packets and invocations for the device are reported or ended. -/
def Obligations.LinksAndFlows : Prop :=
  ∀ s : State,
    (∀ k l, s.links[k]? = some l → l.up = true → exec (.linkReplay k) s = .next { s with
      links := s.links.set k (if 63 ≤ l.replays then { l with up := false, replays := 0 } else { l with replays := l.replays + 1 }) }) ∧
    (∀ k l peer v fs, s.links[k]? = some l → l.up = false → 1 ≤ BitVec.toNat (w := 8) v / 16 →
      ∃ t, exec (.linkTraining k peer v fs) s = .next t ∧ t.mem = s.mem ∧ t.noRoute = [] ∧ t.links = s.links.set k
        { up := true, peer := some peer, version := if v.toNat < 0x10 then v else 0x10, features := fs &&& 0xF, replays := 0 }) ∧
    (∀ dev die cls seq body f, dev ≠ s.ownDev → dev < 512 → die < 4 → cls < 4 → s.flows.find? (Flow.inboundOf dev die cls) = some f → f.early = [] →
      let held := holding s dev die cls seq body
      (seq ≠ f.next → exec (.packetArrival dev die cls seq body) s = .next held) ∧
      (seq = f.next → exec (.packetArrival dev die cls seq body) s = .next (match held.deliver dev body with
        | some u => u.updFlow dev die cls fun g => { g with next := g.next + 1, early := g.early.filter fun p => p.1 != seq }
        | none => held))) ∧
    (∀ dev, s.hasRoute dev = false → exec (.flowDiscard dev) s = .next { s with
      flows := s.flows.map fun f => if f.out = false ∧ f.dev = dev ∧ f.lastAt + s.portTimeout ≤ s.time then { f with early := [] } else f }) ∧
    ∀ dev, dev ≠ s.ownDev → ∃ t, exec (.routeLost dev) s = .next t ∧ t.mem = s.mem ∧ t.hasRoute dev = false ∧
      (∀ p ∈ t.posted, ¬ (p.remote = true ∧ devOf p.pa = dev)) ∧ (∀ x ∈ t.outPort, x.dev ≠ dev) ∧ (∀ v ∈ t.invocations, v.dev ≠ dev) ∧
      ∀ p ∈ s.posted, p.remote = true → devOf p.pa = dev → (∃ u ∈ s.teams ++ s.saved, u.id = p.team) →
        ∃ r ∈ t.reports, r.kind = 0 ∧ r.code = FaultCode.remoteTimeout.num ∧ r.addr = BitVec.ofNat 64 p.pa

/-- R414, R423, R424, R439 and R441: an access of another device that its home admits is performed there and answered, one that it does not is
refused with the code and reported; a read-modify-write that is not answered in time is refused with REMOTE_TIMEOUT, and so is a record's read or a
command's. A die that has not answered a directory request for 1 ms is reported with its line, its copies are gone, the lines whose only modified copy it held are LOST, and the partitions with cores of it are reset. -/
def Obligations.RemoteAccesses : Prop :=
  ∀ s : State,
    (∀ dev req (addr : DWord), let pa := localOf addr.toNat
      dev ≠ s.ownDev → devOf addr.toNat = s.ownDev → s.inboundStalls = false → s.lineLocked (lineOf pa) = false →
      s.inWindow pa = false →
      (inHbm pa = true → 2048 ≤ pa → lineOf pa ∉ s.lost → lineOf pa ∉ s.ecc →
        (∀ n, ∃ t q, exec (.inboundAccess dev req addr (.load n)) s = .next t ∧ t.mem = s.mem ∧
          t.sent = s.sent ++ [{ dev := dev, die := homeDie pa, cls := 1, seq := q, body := .response req addr (s.peek pa n) }]) ∧
        (∀ bs, ∃ t q, exec (.inboundAccess dev req addr (.store bs)) s = .next t ∧
          t.mem = Memory.writeN s.mem pa (bs.mapIdx fun i b => b.getD ((s.peek pa bs.length).getD i 0)) ∧
          t.sent = s.sent ++ [{ dev := dev, die := homeDie pa, cls := 1, seq := q, body := .ack req }]) ∧
        ∀ f (d c : DWord) ret, allHave s dev 0 → Fmt.fp f = none →
          let n := Fmt.size f
          let old := natLE (s.peek pa n)
          ∃ t q, exec (.inboundAccess dev req addr (.rmw .add f d c ret)) s = .next t ∧
            t.mem = Memory.writeN s.mem pa (bytesLE n ((old + d.toNat) % 2 ^ (8 * n))) ∧
            t.sent = s.sent ++ [{ dev := dev, die := homeDie pa, cls := 1, seq := q,
                                  body := if ret then .response req addr (bytesLE n old) else .ack req }]) ∧
      (∀ op, InboundOp.isRmw op = false → inHbm pa = false ∨ pa < 2048 →
        ∃ t q r, exec (.inboundAccess dev req addr op) s = .next t ∧ t.mem = s.mem ∧ r ∈ t.reports ∧ r.code = FaultCode.prot.num ∧ r.addr = addr ∧
          t.sent = s.sent ++ [{ dev := dev, die := homeDie pa, cls := 1, seq := q, body := .refused req addr FaultCode.prot.num }])) ∧
    (∀ m k at_, s.rmws.find? (fun x => x.id == m.id && x.remote) = some m → m.load = some k → m.sentAt = some at_ → at_ + s.portTimeout ≤ s.time →
      exec (.remoteTimeout m.id) s = .next (s.refuseRmw .remoteTimeout m)) ∧
    (∀ req t w r at_, (∀ x ∈ s.rmws, x.id ≠ req) → s.loadOf req = none → s.recLoadOf req = some (t, w, r) → r.sent = some at_ →
      at_ + s.portTimeout ≤ s.time → exec (.remoteTimeout req) s = .next (s.recordAnswered t w r (.error .remoteTimeout))) ∧
    (∀ req, (∀ x ∈ s.rmws, x.id ≠ req) → s.loadOf req = none → s.recLoadOf req = none →
      (∃ c ∈ s.cores, ∃ q ∈ c.queues, ∃ x ∈ q.cmds, ∃ f ∈ x.fetches, f.id = req ∧ f.data = none ∧ f.sentAt + s.portTimeout ≤ s.time) →
      exec (.remoteTimeout req) s = .next (s.fetchEnds req (.error .remoteTimeout))) ∧
    ∀ die < 4, die ∉ s.diesFailed → ∀ q, minBy (fun q : Nat × Nat => q.2) (s.unanswered die) = some q → q.2 + 1000000 ≤ s.time →
      ∃ u, u.diesFailed = s.diesFailed ++ [die] ∧ (∀ c ∈ u.l2, c.holder ≠ die) ∧ ((∀ p ∈ s.posted, die ∉ p.acks) → u.mem = s.mem) ∧
      (∀ c ∈ s.l2, c.holder = die → c.modified = true → c.line ∈ u.lost) ∧
      (∃ r ∈ u.reports, r.ring = none ∧ r.kind = 0 ∧ r.code = 0 ∧ r.die = die ∧ r.addr = BitVec.ofNat 64 q.1) ∧
      exec (.dieFailure die) s = .next (((List.range 16).filter fun p => s.cores.any fun c => c.part == some p && dieOf c.id == die).foldl
        (fun s p => s.beginReset p 0 0 none) u)

namespace Sys2Proof.Claims

/-- A tag that an ended request has set (R329). -/
def setBy (st : Nat) (done : Bool) : Tag := { ready := true, status := BitVec.ofNat 8 st, owner := none, far := done }

end Sys2Proof.Claims

/-- R432 to R435, R442, R444 and R445: a packet of a known version for a valid handler enters the lowest-numbered free place of its partition's
queue and is ACCEPTED unless it waits for the end; another one is refused with its status. The oldest packet enters the launch queue. A reply, or a
port timeout, sets the invocation's tag. A die's outbound port gives its oldest packet to the links. A host's packet is filled in and handled as one
from the fabric; what is no whole packet is counted. -/
def Obligations.InvocationEvents : Prop :=
  ∀ s : State,
    (∀ p : List Byte, p.length = 64 →
      (versionOk (p.getD 0 0) = false → exec (.invocationArrival p) s = .next (s.replyPacket p (FaultCode.status .version))) ∧
      (versionOk (p.getD 0 0) = true → s.fcbOk = false →
        exec (.invocationArrival p) s = .next (s.noteBlock.replyPacket p (FaultCode.status .noHandler))) ∧
      (versionOk (p.getD 0 0) = true → s.fcbOk = true → s.badHtab = [] → s.handlerOf (pktHidx p) = none →
        exec (.invocationArrival p) s = .next (s.replyPacket p (FaultCode.status .noHandler))) ∧
      ∀ h, versionOk (p.getD 0 0) = true → s.handlerOf (pktHidx p) = some h → pktClean p = true → (pktHost p = true → h.hosts = true) →
        let q := 4 * h.part + Nat.min (pktPrio p) h.maxp
        s.badQueue q = [] →
        ((s.invQueue q).slots.length < 64 → (s.invQueue q).head = (s.invQueue q).tail →
          let put := s.updInv q fun v => { v with slots := v.slots ++ [p] }
          exec (.invocationArrival p) s = .next (if pktWend p then put else put.replyPacket p 2)) ∧
        (64 ≤ (s.invQueue q).slots.length → s.overflowRing q = none →
          exec (.invocationArrival p) s = .next (s.replyPacket p (FaultCode.status .remoteRefused)))) ∧
    (∀ q p rest h, (s.invQueue q).slots = p :: rest → s.queueHasRoom (q / 4) (q % 4) = true → s.handlerOf (pktHidx p) = some h →
      let o : Offer := { id := 0, part := q / 4, template := h.tmpl, source := pktSource p, after := [], args := some (pktArgs p), prio := some (q % 4) }
      exec (.invocationSlotHead q) s = .next (match s.accept o with
        | (u, .full) => u
        | (u, .refused rcb f) => (u.freeInvSlot q).tellRefused o rcb (some f)
        | (u, .accepted) => u.freeInvSlot q)) ∧
    (∀ v st, s.invocations.find? (fun x => x.id == v.id && x.takes st) = some v → ∀ t g, s.team? v.team = some t → t.tags[v.tag]? = some g →
      ∃ u x, exec (.invokeReply v.id st) s = .next u ∧ u.mem = s.mem ∧ u.invocations = s.invocations.filter (fun y => y.id != v.id) ∧
        u.team? v.team = some x ∧ x.tags[v.tag]? = some (setBy st (st == 0))) ∧
    (∀ v, s.invocations.find? (fun x => x.id == v.id && !x.wend && decide (x.sentAt + s.portTimeout ≤ s.time)) = some v →
      ∀ t g, s.team? v.team = some t → t.tags[v.tag]? = some g →
      ∃ u x, exec (.invokeLinkTimeout v.id) s = .next u ∧ u.mem = s.mem ∧ u.invocations = s.invocations.filter (fun y => y.id != v.id) ∧
        u.team? v.team = some x ∧ x.tags[v.tag]? = some (setBy 3 false)) ∧
    (∀ die x, s.outPort.find? (fun x => x.die == die) = some x → s.hasRoute x.dev = true →
      exec (.outboundPortFree die) s = .next { s with
        outPort := s.outPort.erase x,
        sent := s.sent ++ [{ dev := x.dev, die := die, cls := 3, seq := pktSeq x.bytes, body := .invocation x.bytes }] }) ∧
    ∀ whole (p : List Byte),
      (whole = false ∨ p.length ≠ 64 → exec (.hostSubmission whole p) s = .next { s with hostpw := satInc s.hostpw 1 }) ∧
      (whole = true → p.length = 64 → ∃ (q : Word) (u : State), q = ((s.flows.find? fun f => f.out && f.dev == 512 && f.die == 0 && f.cls == 3).map (·.next)).getD 0 ∧
        u.mem = s.mem ∧ u.invQueues = s.invQueues ∧
        exec (.hostSubmission whole p) s = .next (u.invocationArrives (pktFill p true s.ownDev 0 q 0xFF (p.getD 13 0))))


/-- R279, R280, R327 to R330, R336 and R363: the head of a queue starts once what it waits for is done; a COPY then makes its chunks. It completes
when nothing is left to do and its writes are performed: the next command is at the head, the queue's counter rises and the tag takes the status.
A VFILL gives each vault of its set its bytes of the scratchpad and its format; an ARING acts when it completes; a fault ends its command. -/
def Obligations.CommandEvents : Prop :=
  ∀ (s : State) (k q : Nat) (c : Command) (t : Team), s.headCmd k q = some c → s.team? c.team = some t → t.dual = none → t.ending = false →
    (∀ n, c.started = false → s.mayStart c = true → (∀ d r l e, c.kind ≠ .epi d r l e) → (∀ d r, c.ringOf k = some (d, r) → s.isSaved d r = false) →
      exec (.commandStart k q n) s = .next (State.copyRun k q n (s.updHead k q fun c => { c with started := true }))) ∧
    (∀ n d r l e ring, c.started = false → s.mayStart c = true → c.kind = .epi d r l e → s.isSaved d r = false → s.ring? d r = some ring → ring.epi = none →
      exec (.commandStart k q n) s = .next ((s.updRing ring fun r => { r with
        epi := some { addr := e.addr, drained := 0, core := k, cmd := some c.id } }).updHead k 8 fun c => { c with started := true })) ∧
    (c.started = true → c.page = none → s.performed c.writes = true →
      (∀ f a, c.fault = some (f, a) → f ≠ .page → (∀ d r l e, c.kind ≠ .epi d r l e) →
        exec (.commandComplete k q) s = .next (s.failCommand k q f a)) ∧
      (c.fault = none →
        let ends := ((∃ a p, c.kind = .copy a p ∧ a.total ≤ p) ∨ (∃ d r e, c.kind = .epi d r 0 e ∧ s.ring? d r = none) ∨
          ∃ a p, c.kind = .mloop a p ∧ a.steps ≤ p ∧ ∀ x ∈ s.arrivals, x.cmd = some c.id → x.held = true)
        (ends → ∃ u v y, exec (.commandComplete k q) s = .next u ∧ u.mem = s.mem ∧ u.queue? k q = some y ∧
          (∀ x, s.queue? k q = some x → y.cmds = x.cmds.drop 1 ∧ y.counter = x.counter + 1) ∧ u.team? c.team = some v ∧
          ∀ i g, c.tag = some i → t.tags[i]? = some g → v.tags[i]? = some { ready := true, status := 0, owner := none, far := false }) ∧
        (∀ set off core, c.kind = .vfill set off → s.core? k = some core → core.asleep set = false → s.vaultsBusy core set = false →
          off + set.chain * set.groups * Fmt.vaultBytes set.bf ≤ t.spadSize → t.spadError off (set.chain * set.groups * Fmt.vaultBytes set.bf) = false →
          ∃ u x, exec (.commandComplete k q) s = .next u ∧ u.mem = s.mem ∧ u.core? k = some x ∧
            (∀ i ∈ set.vaults, ∀ o, core.vaults[i]? = some o → ∃ y, x.vaults[i]? = some y ∧ y.bf = some set.bf ∧ y.bad = false ∧
              y.b = Memory.readN t.spad (off + (i - set.v0) * Fmt.vaultBytes set.bf) (Fmt.vaultBytes set.bf)) ∧
            ∀ i ∉ set.vaults, x.vaults[i]? = core.vaults[i]?) ∧
        ∀ rel int num target n base, c.kind = .aring rel int num target n base →
          exec (.commandComplete k q) s = .next (s.runAring k t rel int num target n base)))

/-- R248, R337, R338, R342, R345, R346, R455 and R456: an MLOOP's step takes its vaults once none that goes before it waits for one, and then sends its slots' adds and moves on; a
free launch's partial reaches some slices before others; a partial that its slot takes is added
and counted, and the last one completes the slot. The tail slot of an EPI's ring is drained to its rows, or its error is reported; either way it is
freed. A vault that has served nothing for 100 microseconds is retained, and the lowest group that a command needs wakes. -/
def Obligations.MatrixAndFlowstoneEvents : Prop :=
  ∀ (s : State) (k : Nat) (core : Core), s.core? k = some core →
    (∀ quad c a p t, quad < 4 → s.headCmd k (4 + quad) = some c → c.kind = .mloop a p → s.team? c.team = some t → c.started = true → c.fault = none →
      t.ending = false → p < a.steps → core.asleep a.set = false → (∀ x ∈ s.arrivals, x.cmd = some c.id → x.held = true) →
      (∀ i ∈ a.set.vaults, ∀ v, core.vaults[i]? = some v → (v.bf = none ∨ v.bf = some a.set.bf) ∧ v.bad = false) →
      (c.stepping = false → s.stepWaits core quad a.set = false →
        exec (.matrixStep k quad) s = .next (s.updHead k (4 + quad) fun c => { c with stepping := true })) ∧
      ∀ r, c.stepping = true → s.ring? (dieOf k) a.ring = some r → t.spadError (a.abase + p * a.ainc) (a.rowsOf p * a.rowBytes) = false →
        let n := a.rowsOf p
        let out := core.step a ((List.range n).map fun i => s.spadBytes t (a.abase + p * a.ainc + i * a.rowBytes) a.rowBytes)
        ∃ u x new, exec (.matrixStep k quad) s = .next u ∧ u.mem = s.mem ∧ u.headCmd k (4 + quad) = some x ∧ x.kind = .mloop a (p + 1) ∧ x.stepping = false ∧
          u.arrivals = s.arrivals ++ new ∧ (∀ y ∈ new, y.die = dieOf k ∧ y.ring = a.ring ∧ y.rows = n ∧ y.ktag = a.ktag ∧ y.cmd = some c.id ∧
            y.ordered = s.ordered t ∧ y.held = false) ∧
          new.map (fun y => (y.slot, y.adds)) = out.1.zipIdx.map fun y => ((a.first + p * a.perStep + y.2) % r.slots.length, y.1)) ∧
    (∀ slices a r x, s.arrivals.find? (fun b => b.id == a.id) = some a → a.held = false → a.cmd.isSome = true → s.ring? a.die a.ring = some r →
      r.slots[a.slot]? = some x → x.meets r.target a = .apply → x.count < r.target → (∀ b ∈ s.arrivals, b.id ≠ a.id → b.isFor r a.slot = false) →
      let here := fun p : Nat × Word => laneIn slices (r.sliceOfElem a.slot p.1)
      (a.ordered = true ∨ a.adds.all here = true →
        ∃ u v y, exec (.matrixPartial ⟨a.id, slices⟩) s = .next u ∧ u.mem = s.mem ∧ u.arrivals = s.arrivals.filter (fun b => b.id != a.id) ∧
        u.ring? a.die a.ring = some v ∧ v.slots[a.slot]? = some y ∧ y.count = x.count + 1 ∧ y.vr = Nat.max x.vr a.rows ∧
        y.data = (x.add r.int a.adds).data ∧ y.flags = (x.add r.int a.adds).flags ∧
        y.st = if r.target ≤ x.count + 1 then .complete else .armed) ∧
      (a.ordered = false → a.adds.all here = false →
        exec (.matrixPartial ⟨a.id, slices⟩) s = .next { s.updSlot r a.slot (fun x => x.add r.int (a.adds.filter here)) with
          arrivals := s.arrivals.map fun b => if b.id = a.id then { b with adds := b.adds.filter fun p => !here p } else b })) ∧
    (∀ c die num left e t r x a, s.headCmd k 8 = some c → c.kind = .epi die num left e → s.team? c.team = some t → s.ring? die num = some r →
      c.started = true → t.ending = false → c.fault = none → c.page = none → 0 < left → r.slots[r.tail]? = some x → r.epi = some a → x.st ≠ .armed → a.cmd = some c.id →
      (∀ f p, x.err = some (f, p) → exec (.slotDrain k) s = .next ((s.ringReport r k f p).drained k r x.flags)) ∧
      let s₁ := (s.updSlot r r.tail fun x => { x with st := .draining }).updHead k 8 fun c => { c with ringFault := false }
      let out := e.rows r x a.drained [] []
      ∀ u ws, x.err = none → e.svec = false → e.bias = false → State.drainTargets t out.1 s₁ = (u, .ok ws) → u.lostPart ws = none →
        exec (.slotDrain k) s = .next ((u.engineWrites k 8 t false c.shared ws).drained k r (x.flags ||| out.2))) ∧
    (∀ i v, core.vaults[i]? = some v → v.usedAt + 100000 ≤ s.time →
      exec (.vaultRetention k i) s = .next (s.updVault k i fun v => { v with retained := true })) ∧
    ∀ g, core.wanted.head? = some g → ∃ u x, exec (.vaultWake k g) s = .next u ∧ u.core? k = some x ∧
      x = { core with vaults := core.vaults.mapIdx fun i v => if i / 4 = g then { v with retained := false, usedAt := s.time } else v }

/-- R283, R348 to R350, R364 and R424: a record is written to its slot, line by line, once the writes before it are performed: in this device's
memory its lanes receive 0 and the node's ARR moves on; for a slot on another device its lines are sent, or REMOTE_TIMEOUT is met where no route
leads there. A missing page is reported for the supervisor and the write waits. The checks of a node are made while a trigger is pending,
every 10 microseconds, and by its flush timer; a check that finds a range due and its queue full leaves the trigger pending. -/
def Obligations.SumpEvents : Prop :=
  ∀ s : State,
    (∀ x t w, s.sumpWrites.find? (fun y => y.id == x.id && !y.written && y.blocked.isNone && y.sent.isNone) = some x → s.team? x.team = some t →
      s.wave? x.team x.wave = some w → s.secondaryLags x.team = false → s.performed ((s.wavePending t.id w).filter fun i => decide (i < x.id)) = true →
      (∀ e a, x.fault = some (e, a) → exec (.sumpRecordWrite x.id) s = .next (s.sumpFault x e a)) ∧ (x.fault = none →
      let n := s.node x.node
      let va := n.qbase + x.seqno % n.cap * n.size
      let line := fun k => sliceBytes x.bytes (64 * k) 64
      (∀ u g, s.sumpTarget t va = (u, .ok g) → devOf g = u.ownDev → exec (.sumpRecordWrite x.id) s = .next (
        let put := ((List.range (x.bytes.length / 64)).foldl (fun s k => s.writeHome (localOf (g + 64 * k)) (line k)) u).updSump x.id fun y =>
          { y with written := true, sent := none }
        ((put.copiesOf x.team).foldl (fun s i => s.answerLoad i x.wave x.load 0) put).sumpAdvance x.node)) ∧
      (∀ u g, s.sumpTarget t va = (u, .ok g) → devOf g ≠ u.ownDev → u.hasRoute (devOf g) = false → exec (.sumpRecordWrite x.id) s = .next (
        u.updSump x.id fun y => { y with fault := some (.remoteTimeout, BitVec.ofNat 64 va) })) ∧
      (∀ u g, s.sumpTarget t va = (u, .ok g) → devOf g ≠ u.ownDev → u.hasRoute (devOf g) = true → ∃ z new, exec (.sumpRecordWrite x.id) s = .next z ∧
        z.mem = u.mem ∧ z.sent = u.sent ++ new ∧ new.map (fun p => (p.dev, p.die, p.cls)) = List.replicate (x.bytes.length / 64) (devOf g, homeDie x.node, 2) ∧
        new.map (fun p => p.body) = (List.range (x.bytes.length / 64)).map (fun k =>
          FabricBody.access u.nextId (BitVec.ofNat 64 (g + 64 * k)) (.store ((line k).map some))) ∧
        z.sumpWrites = u.sumpWrites.map fun y => if y.id = x.id then { y with sent := some (u.nextId, g, x.bytes.length / 64) } else y) ∧
      ∀ u, s.sumpTarget t va = (u, .error .page) → t.isSup = false → ∃ z r, exec (.sumpRecordWrite x.id) s = .next z ∧ z.mem = s.mem ∧
        z.reports = s.reports ++ [r] ∧ r.code = FaultCode.page.num ∧ r.addr = BitVec.ofNat 64 va ∧ r.flg.getLsbD 3 = true ∧
        ∀ y ∈ z.sumpWrites, y.id = x.id → y.blocked = some r.id)) ∧
    ∀ m, s.sumps.find? (fun y => y.pa == m.pa) = some m →
      (m.pending = true → exec (.sumpCheck m.pa) s = .next (s.sumpChecks m.pa)) ∧
      (m.pending = false → m.checkedAt + 10000 ≤ s.time → exec (.sumpCheck m.pa) s = .next (({ s with
        sumps := s.sumps.map fun y => if y.pa = m.pa then { y with checkedAt := s.time } else y } : State).sumpChecks m.pa)) ∧
      (m.timed = true → exec (.sumpFlush m.pa) s = .next (s.sumpChecks m.pa)) ∧
      ((s.node m.pa).owned = true → ∀ r u, s.sumpDue m (s.node m.pa) = some r →
        s.accept { id := 0, part := (s.node m.pa).part, template := (s.node m.pa).tmpl, source := .sump r, after := [], args := none,
                   prio := some (s.node m.pa).prio } = (u, .full) →
        s.sumpChecks m.pa = { u with sumps := u.sumps.map fun y => if y.pa = m.pa then { y with pending := true } else y })


/-- R372, R376, R407 to R409, R454, R463 to R466 and R474: what a supervisor core's write of each register with an effect of its own does, in its
partition where the register is a partition's: pending bits that are written 1 are cleared; a halted core is woken and a doorbell rung; a quote
begins; a carve or a device number in its range is taken while nothing of it is in use; heads move, and a ring's head and tail start again at 0 with
a new base or size. -/
def Obligations.RegisterWriteSteps : Prop :=
  ∀ (s : State) (i : Nat) (v : DWord) (w : Word), i < 16 →
    let p := (s.sup i).psel.toNat % 16
    exec (.presolve i w) s = .next ((s.resolveReport p w).endFailed) ∧
    (w.toNat < 32 → exec (.sip i w) s = .next (s.updSup i fun u => { u with sip := u.sip &&& ~~~w })) ∧
    (v.toNat < 2 ^ 36 → ∀ x u, (x = v.toNat / 2 ^ 32) → s.wave? x 0 = some u → x < s.sups.length →
      ∃ t, exec (.scwake i v) s = .next t ∧ if (s.sup x).halted then (t.sup x).halted = false ∧
        t.wave? x 0 = some { u with frontier := [{ pc := v.setWidth 32, mask := 1, st := .runnable, age := 0, land := .here }], loops := [], winb := 0,
                                    run := none, sel := none, skip := none, priv := .supervisor }
        else t = s) ∧
    (w.toNat < 65536 → ∃ t, exec (.sdbell i w) s = .next t ∧ ∀ (j : Nat) (u : Sup), s.sups[j]? = some u → j < 16 →
      t.sups[j]? = some (if w.getLsbD j = true ∧ j ≠ i then { u with sip := u.sip ||| 4 } else u)) ∧
    exec (.atblk i v) s = .next (if s.atstat = 1 then s else { s with atblk := v, atstat := 1 }) ∧
    (∀ die, die = w.toNat / 2 ^ 28 → die < 4 → w.toNat % 2 ^ 28 < 2 ^ 13 → w.toNat % 16 ≤ 8 → w.toNat / 16 % 16 = 0 → w.toNat / 256 % 32 ≤ 16 →
      (∀ b ∈ s.insts, b.die ≠ die) → (∀ r ∈ s.rings, r.die ≠ die) →
      exec (.carve i w) s = .next { s with carves := s.carves.set die w, carveDie := die }) ∧
    (w.toNat < 512 → (∀ l ∈ s.links, l.up = false) → (∀ c ∈ s.cores, c.part = none) →
      exec (.devnum i w) s = .next { s with devnum := w, scopes := scopesFor s.devnum w s.scopes }) ∧
    exec (.prhead i w) s = .next (s.updPart p fun q => { q with prhead := w }) ∧
    exec (.drhead i w) s = .next { s with drhead := w } ∧
    (v.toNat % (32 * 2 ^ ((s.part p).ptsize.toNat % 32)) = 0 →
      exec (.ptbase i v) s = .next (s.updPart p fun q => { q with ptbase := v, pthead := 0, pttail := 0 })) ∧
    (w.toNat < 512 → w.toNat / 32 % 8 = 0 → 6 ≤ w.toNat % 32 → w.toNat % 32 ≤ 20 →
      exec (.ptsize i w) s = .next (s.updPart p fun q => { q with ptsize := w, pthead := 0, pttail := 0 })) ∧
    (v.toNat % (2048 * 2 ^ (s.nrsize.toNat % 16)) = 0 → exec (.nrbase i v) s = .next { s with nrbase := v, nrhead := 0, nrtail := 0 }) ∧
    (w.toNat / 16 % 4096 = 0 → 4 ≤ w.toNat % 16 → w.toNat % 16 ≤ 12 →
      exec (.nrsize i w) s = .next { s with nrsize := w, nrhead := 0, nrtail := 0 }) ∧
    exec (.nrhead i w) s = .next { s with nrhead := w } ∧
    (v.toNat % (2048 * 2 ^ (s.ntsize.toNat % 16)) = 0 → exec (.ntbase i v) s = .next { s with ntbase := v, nthead := 0, nttail := 0 }) ∧
    (4 ≤ w.toNat → w.toNat ≤ 12 → exec (.ntsize i w) s = .next { s with ntsize := w, nthead := 0, nttail := 0 }) ∧
    ((w - s.nthead).toNat ≤ 2 ^ (s.ntsize.toNat % 16) → (s.nttail - s.nthead).toNat ≤ (w - s.nthead).toNat →
      exec (.nttail i w) s = .next { s with nttail := w })
end

