-- ==== Sys2Proof/Laws/Decode.lean ====
section
/-!
SUPPORT. The fields of an encoded word read back (R57), one lemma per format and field, and the code tables invert.
-/

namespace Sys2Proof.Laws

open Sys2Proof

/-- Reading a field of a concatenation's lower part. -/
theorem extract_append_right {n m : Nat} (x : BitVec n) (y : BitVec m) (s l : Nat) (h : s + l ≤ m) :
    (x ++ y).extractLsb' s l = y.extractLsb' s l := by
  ext i hi
  simp [BitVec.getLsbD_append, show s + i < m by omega]

/-- Reading a field of a concatenation's upper part. -/
theorem extract_append_left {n m : Nat} (x : BitVec n) (y : BitVec m) (s l : Nat) (h : m ≤ s) :
    (x ++ y).extractLsb' s l = x.extractLsb' (s - m) l := by
  ext i hi
  simp [BitVec.getLsbD_append, show ¬ s + i < m by omega, show s + i - m = s - m + i by omega]

/-- The fields of a word of the R format (R57). -/
theorem encR_fields (op : BitVec 7) (n : Bool) (f : BitVec 3) (d a b : BitVec 7) :
    fMajor (encR op n f d a b) = op ∧ fNW (encR op n f d a b) = n ∧ fF (encR op n f d a b) = f ∧ fDR (encR op n f d a b) = d ∧ fAR (encR op n f d a b) = a ∧ fBR (encR op n f d a b) = b := by
  refine ⟨?_, ?_, ?_, ?_, ?_, ?_⟩
  · change @BitVec.extractLsb' (7 + 1 + 3 + 7 + 7 + 7) 25 7 (op ++ BitVec.ofBool n ++ f ++ d ++ a ++ b) = op
    simp [extract_append_left, extract_append_right, -Nat.reduceAdd]
  · change @BitVec.getLsbD (7 + 1 + 3 + 7 + 7 + 7) (op ++ BitVec.ofBool n ++ f ++ d ++ a ++ b) 24 = n
    simp only [BitVec.getLsbD_append]; simp
  · change @BitVec.extractLsb' (7 + 1 + 3 + 7 + 7 + 7) 21 3 (op ++ BitVec.ofBool n ++ f ++ d ++ a ++ b) = f
    simp [extract_append_left, extract_append_right, -Nat.reduceAdd]
  · change @BitVec.extractLsb' (7 + 1 + 3 + 7 + 7 + 7) 14 7 (op ++ BitVec.ofBool n ++ f ++ d ++ a ++ b) = d
    simp [extract_append_left, extract_append_right, -Nat.reduceAdd]
  · change @BitVec.extractLsb' (7 + 1 + 3 + 7 + 7 + 7) 7 7 (op ++ BitVec.ofBool n ++ f ++ d ++ a ++ b) = a
    simp [extract_append_left, extract_append_right, -Nat.reduceAdd]
  · change @BitVec.extractLsb' (7 + 1 + 3 + 7 + 7 + 7) 0 7 (op ++ BitVec.ofBool n ++ f ++ d ++ a ++ b) = b
    simp [extract_append_left, extract_append_right, -Nat.reduceAdd]

/-- The fields of a word of the I format (R57). -/
theorem encI_fields (op : BitVec 7) (n : Bool) (d a : BitVec 7) (i : BitVec 10) :
    fMajor (encI op n d a i) = op ∧ fNW (encI op n d a i) = n ∧ fDI (encI op n d a i) = d ∧ fAI (encI op n d a i) = a ∧ fImm10 (encI op n d a i) = i := by
  refine ⟨?_, ?_, ?_, ?_, ?_⟩
  · change @BitVec.extractLsb' (7 + 1 + 7 + 7 + 10) 25 7 (op ++ BitVec.ofBool n ++ d ++ a ++ i) = op
    simp [extract_append_left, extract_append_right, -Nat.reduceAdd]
  · change @BitVec.getLsbD (7 + 1 + 7 + 7 + 10) (op ++ BitVec.ofBool n ++ d ++ a ++ i) 24 = n
    simp only [BitVec.getLsbD_append]; simp
  · change @BitVec.extractLsb' (7 + 1 + 7 + 7 + 10) 17 7 (op ++ BitVec.ofBool n ++ d ++ a ++ i) = d
    simp [extract_append_left, extract_append_right, -Nat.reduceAdd]
  · change @BitVec.extractLsb' (7 + 1 + 7 + 7 + 10) 10 7 (op ++ BitVec.ofBool n ++ d ++ a ++ i) = a
    simp [extract_append_left, extract_append_right, -Nat.reduceAdd]
  · change @BitVec.extractLsb' (7 + 1 + 7 + 7 + 10) 0 10 (op ++ BitVec.ofBool n ++ d ++ a ++ i) = i
    simp [extract_append_left, extract_append_right, -Nat.reduceAdd]

/-- The fields of a word of the L format (R57). -/
theorem encL_fields (op : BitVec 7) (d : BitVec 7) (i : BitVec 18) :
    fMajor (encL op d i) = op ∧ fDL (encL op d i) = d ∧ fImm18 (encL op d i) = i := by
  refine ⟨?_, ?_, ?_⟩
  · change @BitVec.extractLsb' (7 + 7 + 18) 25 7 (op ++ d ++ i) = op
    simp [extract_append_left, extract_append_right, -Nat.reduceAdd]
  · change @BitVec.extractLsb' (7 + 7 + 18) 18 7 (op ++ d ++ i) = d
    simp [extract_append_left, extract_append_right, -Nat.reduceAdd]
  · change @BitVec.extractLsb' (7 + 7 + 18) 0 18 (op ++ d ++ i) = i
    simp [extract_append_left, extract_append_right, -Nat.reduceAdd]

/-- The fields of a word of the B format (R57). -/
theorem encB_fields (op : BitVec 7) (k : BitVec 3) (s : Bool) (a : BitVec 7) (o : BitVec 14) :
    fMajor (encB op k s a o) = op ∧ fK (encB op k s a o) = k ∧ fS (encB op k s a o) = s ∧ fDR (encB op k s a o) = a ∧ fOff14 (encB op k s a o) = o := by
  refine ⟨?_, ?_, ?_, ?_, ?_⟩
  · change @BitVec.extractLsb' (7 + 3 + 1 + 7 + 14) 25 7 (op ++ k ++ BitVec.ofBool s ++ a ++ o) = op
    simp [extract_append_left, extract_append_right, -Nat.reduceAdd]
  · change @BitVec.extractLsb' (7 + 3 + 1 + 7 + 14) 22 3 (op ++ k ++ BitVec.ofBool s ++ a ++ o) = k
    simp [extract_append_left, extract_append_right, -Nat.reduceAdd]
  · change @BitVec.getLsbD (7 + 3 + 1 + 7 + 14) (op ++ k ++ BitVec.ofBool s ++ a ++ o) 21 = s
    simp only [BitVec.getLsbD_append]; simp
  · change @BitVec.extractLsb' (7 + 3 + 1 + 7 + 14) 14 7 (op ++ k ++ BitVec.ofBool s ++ a ++ o) = a
    simp [extract_append_left, extract_append_right, -Nat.reduceAdd]
  · change @BitVec.extractLsb' (7 + 3 + 1 + 7 + 14) 0 14 (op ++ k ++ BitVec.ofBool s ++ a ++ o) = o
    simp [extract_append_left, extract_append_right, -Nat.reduceAdd]

/-- The fields of a word of the M format (R57). -/
theorem encM_fields (op : BitVec 7) (k : BitVec 3) (d : BitVec 7) (q : BitVec 4) (x : BitVec 7) (sub : BitVec 4) :
    fMajor (encM op k d q x sub) = op ∧ fK (encM op k d q x sub) = k ∧ fDM (encM op k d q x sub) = d ∧ fQ (encM op k d q x sub) = q ∧ fX (encM op k d q x sub) = x ∧ fSub (encM op k d q x sub) = sub := by
  refine ⟨?_, ?_, ?_, ?_, ?_, ?_⟩
  · change @BitVec.extractLsb' (7 + 3 + 7 + 4 + 7 + 4) 25 7 (op ++ k ++ d ++ q ++ x ++ sub) = op
    simp [extract_append_left, extract_append_right, -Nat.reduceAdd]
  · change @BitVec.extractLsb' (7 + 3 + 7 + 4 + 7 + 4) 22 3 (op ++ k ++ d ++ q ++ x ++ sub) = k
    simp [extract_append_left, extract_append_right, -Nat.reduceAdd]
  · change @BitVec.extractLsb' (7 + 3 + 7 + 4 + 7 + 4) 15 7 (op ++ k ++ d ++ q ++ x ++ sub) = d
    simp [extract_append_left, extract_append_right, -Nat.reduceAdd]
  · change @BitVec.extractLsb' (7 + 3 + 7 + 4 + 7 + 4) 11 4 (op ++ k ++ d ++ q ++ x ++ sub) = q
    simp [extract_append_left, extract_append_right, -Nat.reduceAdd]
  · change @BitVec.extractLsb' (7 + 3 + 7 + 4 + 7 + 4) 4 7 (op ++ k ++ d ++ q ++ x ++ sub) = x
    simp [extract_append_left, extract_append_right, -Nat.reduceAdd]
  · change @BitVec.extractLsb' (7 + 3 + 7 + 4 + 7 + 4) 0 4 (op ++ k ++ d ++ q ++ x ++ sub) = sub
    simp [extract_append_left, extract_append_right, -Nat.reduceAdd]

/-- The fields of a word of the T format (R57). -/
theorem encT_fields (b : BitVec 7) (c : BitVec 3) (e : BitVec 7) (f : BitVec 3) (y u v : Bool) :
    fMajor (encT b c e f y u v) = 0x7F ∧ fDL (encT b c e f y u v) = b ∧ fCnt1 (encT b c e f y u v) = c ∧ fBase2 (encT b c e f y u v) = e ∧ fCnt2 (encT b c e f y u v) = f := by
  refine ⟨?_, ?_, ?_, ?_, ?_⟩
  · change @BitVec.extractLsb' (7 + 7 + 3 + 7 + 3 + 2 + 1 + 1 + 1) 25 7 ((0x7F : BitVec 7) ++ b ++ c ++ e ++ f ++ (0 : BitVec 2) ++ BitVec.ofBool y ++ BitVec.ofBool u ++ BitVec.ofBool v) = 0x7F
    simp [extract_append_left, extract_append_right, -Nat.reduceAdd]
  · change @BitVec.extractLsb' (7 + 7 + 3 + 7 + 3 + 2 + 1 + 1 + 1) 18 7 ((0x7F : BitVec 7) ++ b ++ c ++ e ++ f ++ (0 : BitVec 2) ++ BitVec.ofBool y ++ BitVec.ofBool u ++ BitVec.ofBool v) = b
    simp [extract_append_left, extract_append_right, -Nat.reduceAdd]
  · change @BitVec.extractLsb' (7 + 7 + 3 + 7 + 3 + 2 + 1 + 1 + 1) 15 3 ((0x7F : BitVec 7) ++ b ++ c ++ e ++ f ++ (0 : BitVec 2) ++ BitVec.ofBool y ++ BitVec.ofBool u ++ BitVec.ofBool v) = c
    simp [extract_append_left, extract_append_right, -Nat.reduceAdd]
  · change @BitVec.extractLsb' (7 + 7 + 3 + 7 + 3 + 2 + 1 + 1 + 1) 8 7 ((0x7F : BitVec 7) ++ b ++ c ++ e ++ f ++ (0 : BitVec 2) ++ BitVec.ofBool y ++ BitVec.ofBool u ++ BitVec.ofBool v) = e
    simp [extract_append_left, extract_append_right, -Nat.reduceAdd]
  · change @BitVec.extractLsb' (7 + 7 + 3 + 7 + 3 + 2 + 1 + 1 + 1) 5 3 ((0x7F : BitVec 7) ++ b ++ c ++ e ++ f ++ (0 : BitVec 2) ++ BitVec.ofBool y ++ BitVec.ofBool u ++ BitVec.ofBool v) = f
    simp [extract_append_left, extract_append_right, -Nat.reduceAdd]

end Sys2Proof.Laws
end

