-- ==== Sys2Proof/Laws/Issue.lean ====
section
/-!
SUPPORT. What the shared ways of issuing a word do: `issue`, `laneOp`, `waveOp`, `lanesOp`, and everything that `issue`, `State.raise` and
`step` can answer.
-/

namespace Sys2Proof.Laws

open Sys2Proof Sys2Proof.Machine

/-! ## The issuing wave -/

/-- An issuing wave is a wave of the current team, and stands in a run. -/
theorem issuer_wave {s : State} {c : Issue} (h : s.issuer = some c) :
    s.team? s.cur.1 = some c.team ∧ c.team.waves[s.cur.2]? = some c.wave ∧ c.wave.run = some c.run := by
  unfold State.issuer at h
  split at h
  · cases h
  · rename_i t ht
    split at h
    · cases h
    · rename_i w hw
      split at h
      · cases h
      · rename_i r hr
        cases h
        exact ⟨ht, hw, hr⟩

/-- Without an issuing wave a word stops. -/
theorem issue_noIssuer {s : State} (h : s.issuer = none) (i : Instr) (go : Issue → State) : issue i s go = .fault .noIssuer := by
  simp [issue, h]

/-- Everything that issuing a word can answer: the end of runahead, the wait of an access, the stall at a compare point, the fault of a register
in error, or the word's effect. -/
theorem issue_cases {s t : State} {i : Instr} {go : Issue → State} (h : issue i s go = .next t) :
    ∃ c, s.issuer = some c ∧
      ((∃ k, c.wave.runahead = some k ∧ (Instr.runaheadClass i = .ending ∨ 256 ≤ k.issued) ∧ t = s.endRunahead) ∨
       (c.wave.runahead = none ∧ s.stalls c i = true ∧ t = s.stall) ∨
       (c.wave.runahead = none ∧ c.dualStalls i = true ∧ t = s.standAtPoint c) ∨
       (∃ l, c.readsError i = some l ∧ t = s.raise c { code := .eccUncorr, lane := l, aux := 1 }) ∨
       t = (go c).leavePoint c i) := by
  unfold issue at h
  split at h
  · cases h
  · rename_i c hc
    refine ⟨c, hc, ?_⟩
    split at h
    · rename_i hr
      cases h
      obtain ⟨k, hk, h⟩ := (Option.any_eq_true ..).mp hr
      exact .inl ⟨k, hk, by simpa using h, rfl⟩
    · split at h
      · rename_i hd
        cases h
        exact .inr (.inl ⟨by simp_all, by simp_all, rfl⟩)
      · split at h
        · rename_i hd
          cases h
          exact .inr (.inr (.inl ⟨by simp_all, by simp_all, rfl⟩))
        · split at h
          · rename_i l hl
            cases h
            exact .inr (.inr (.inr (.inl ⟨l, hl, rfl⟩)))
          · cases h
            exact .inr (.inr (.inr (.inr rfl)))

/-- A wave without errors in its registers reads none. -/
theorem readsError_none {c : Issue} (h : ∀ l ∈ c.wave.lanes, l.badRegs = []) (i : Instr) : c.readsError i = none := by
  unfold Issue.readsError
  have : c.wave.lanes.all (fun l => l.badRegs.isEmpty) = true := List.all_eq_true.mpr fun l hl => by simp [h l hl]
  simp [this]

/-- A word that makes no access as it issues does not wait. -/
theorem stalls_plain (s : State) (c : Issue) {i : Instr} (h : Instr.accesses c.recs i = false) (hr : Instr.readsWhole i = false) :
    s.stalls c i = false := by
  simp [State.stalls, h, hr]

/-- So it takes its whole effect wherever a word issues. -/
theorem issues_goes {s : State} {c : Issue} {i : Instr} (h : s.issues c) (ha : Instr.accesses c.recs i = false)
    (hr : Instr.readsWhole i = false) : s.goes c i := ⟨h, stalls_plain s c ha hr⟩

/-- Outside runahead and DUAL a word that need not wait has its effect. -/
theorem issue_goes {s : State} {c : Issue} {i : Instr} (h : s.goes c i) (go : Issue → State) : issue i s go = .next (go c) := by
  obtain ⟨⟨h1, h2, h3, h4⟩, h5⟩ := h
  simp [issue, h1, h2, h5, Issue.dualStalls, State.leavePoint, h3, readsError_none h4]

/-! ## Issue cycles -/

/-- The cycles of a slice, written with the fields that the bank rule compares. -/
theorem cost_slots (c : Issue) (i : Instr) (b : Nat) {bk : Option (Reg × Reg)} (h : Instr.bankPair i = bk) : c.cost i b = c.slots b bk := by
  subst h
  unfold Issue.slots Issue.cost bankConflict
  cases Instr.bankPair i with
  | none => simp
  | some p =>
    obtain ⟨a, b⟩ := p
    by_cases h : a.toNat < 120 ∧ b.toNat < 120 ∧ (c.run.winb + a.toNat) % 4 = (c.run.winb + b.toNat) % 4 <;> simp [h]

theorem slots_none (c : Issue) (b : Nat) : c.slots b none = b := rfl

theorem advance_issued (s : State) (c : Issue) (k : Nat) : s.advance c k = s.issued c k := rfl

/-! ## Words that act in each lane -/

/-- A word that computes in each lane: its results are put into the active lanes, and it is issued. -/
theorem laneOp_next {s : State} {c : Issue} {i : Instr} (h : s.goes c i) (base lat : Nat) (f : Issue → LaneCtx → LaneOut)
    {bk : Option (Reg × Reg)} (hb : Instr.bankPair i = bk) :
    laneOp i base lat f s =
      .next ((s.putLanes c (c.dueAt (c.slots base bk) lat) fun l => f c (c.laneAt (c.slots base bk) l)).issued c (c.slots base bk)) := by
  unfold laneOp
  rw [issue_goes h]
  simp only [cost_slots c i base hb, State.putLanes, State.issued, State.advance, Issue.slices, Lane.issued, h.1.2.1]
  rfl

/-- The same for a word with one register result, whose value may be written in another way. -/
theorem laneOp_reg {s : State} {c : Issue} {i : Instr} (h : s.goes c i) {base lat : Nat} {bk : Option (Reg × Reg)}
    (hb : Instr.bankPair i = bk) {n : Bool} {d : Reg} (g g' : LaneCtx → Word) (hg : ∀ x, g x = g' x) :
    laneOp i base lat (fun _ x => outReg x n d (g x)) s =
      .next ((s.putLanes c (c.dueAt (c.slots base bk) lat) fun l =>
        outReg (c.laneAt (c.slots base bk) l) n d (g' (c.laneAt (c.slots base bk) l))).issued c (c.slots base bk)) := by
  rw [laneOp_next h _ _ _ hb]
  simp only [hg]

/-! ## Words that act once -/

/-- A wave-scoped word with an active lane: its effect, or its fault. -/
theorem waveOp_next {s : State} {c : Issue} {i : Instr} (h : s.goes c i) (f : Issue → LaneCtx → State → Acted) {l : Nat}
    (hl : c.lowest = some l) :
    waveOp i f s = .next (s.settleActed c (f c (c.ctx (c.cost i 1) l) (s.issued c (c.cost i 1)))) := by
  unfold waveOp
  rw [issue_goes h]
  simp only [hl]
  rfl

/-- A wave-scoped word without an active lane only issues (R74). -/
theorem waveOp_empty {s : State} {c : Issue} {i : Instr} (h : s.goes c i) (f : Issue → LaneCtx → State → Acted) (hl : c.lowest = none) :
    waveOp i f s = .next (s.issued c (c.cost i 1)) := by
  unfold waveOp
  rw [issue_goes h]
  simp only [hl]
  rfl

/-- A word that acts on all active lanes together. -/
theorem lanesOp_next {s : State} {c : Issue} {i : Instr} (h : s.goes c i) (f : Issue → Nat → State → Acted) (hl : c.lanes ≠ []) :
    lanesOp i f s = .next (s.settleActed c (f c (c.cost i 1) (s.issued c (c.cost i 1)))) := by
  unfold lanesOp
  rw [issue_goes h]
  have : c.lanes.isEmpty = false := by simpa using hl
  simp only [this]
  rfl

/-- Without an active lane it only issues. -/
theorem lanesOp_empty {s : State} {c : Issue} {i : Instr} (h : s.goes c i) (f : Issue → Nat → State → Acted) (hl : c.lanes = []) :
    lanesOp i f s = .next (s.issued c (c.cost i 1)) := by
  unfold lanesOp
  rw [issue_goes h]
  simp only [hl]
  rfl

/-! ## Faults -/

/-- Everything that a fault at execution can do: it ends runahead, enters the trap of a supervisor core, or parks the entry. -/
theorem raise_cases (s : State) (c : Issue) (f : FaultInfo) :
    (c.wave.runahead.isSome = true ∧ s.raise c f = s.endRunahead) ∨
    (c.team.isSup = true ∧ s.raise c f = ((s.drains c).updCur fun w => w.endRun c.run).trapEntry c.team c.run.mask f.code.num (c.trailerPc + 1)
      (f.addr.getD 0) (if f.code = .trap then f.aux else c.pc)) ∨
    (c.team.isSup = false ∧ s.raise c f = s.parkWhole c { f with pc := c.pc }) := by
  unfold State.raise
  by_cases hr : c.wave.runahead.isSome = true
  · simp [hr]
  · by_cases hs : c.team.isSup = true
    · simp [hr, hs]
    · simp [hr, hs]

/-! ## The step -/

/-- Everything that a step can do: it drops a word of an instruction from the agenda, performs the agenda's event, the ROM's, or one of a
running device. -/
theorem step_cases {s t : State} (h : step s = .next t) :
    (∃ i rest, s.agenda = i :: rest ∧ Instr.hasWord i = true ∧ t = { s.tick with agenda := rest }) ∨
    (∃ i rest, s.agenda = i :: rest ∧ Instr.hasWord i = false ∧ exec i { s.tick with agenda := rest } = .next t) ∨
    (s.agenda = [] ∧ s.boot ≠ .running ∧ exec s.tick.romWork s.tick = .next t) ∨
    (s.agenda = [] ∧ s.boot = .running ∧ s.tick.runStep = .next t) := by
  unfold step at h
  have ha : s.tick.agenda = s.agenda := rfl
  have hb : s.tick.boot = s.boot := rfl
  simp only [ha, hb] at h
  split at h
  · rename_i i rest he
    split at h
    · cases h
      exact .inl ⟨i, rest, he, by assumption, rfl⟩
    · exact .inr (.inl ⟨i, rest, he, by simp_all, h⟩)
  · split at h
    · exact .inr (.inr (.inr ⟨by assumption, by assumption, h⟩))
    · exact .inr (.inr (.inl ⟨by assumption, by assumption, h⟩))

/-- Everything that the current wave's issue can do. -/
theorem issueOne_cases {s t : State} {i : Instr} (h : s.issueOne i = .next t) :
    ∃ u, exec i s = .next u ∧ (t = u ∨ t = u.rotate) := by
  unfold State.issueOne at h
  split at h
  · rename_i u hu
    cases h
    refine ⟨u, hu, ?_⟩
    unfold State.afterIssue
    split
    · split <;> simp
    · simp
  · simp_all

end Sys2Proof.Laws
end

