-- ==== Sys2Proof/Laws/Memory.lean ====
section
/-!
SUPPORT. What the memory operations do: a byte written reads back, every other byte reads as before, and every
operation keeps the canonical form.
-/

namespace Sys2Proof.Laws

open Sys2Proof Sys2Proof.Machine

theorem wfAbove_mono {lo lo' : Option Nat} {m : List Host.Cell}
    (h : ∀ b ∈ lo', ∃ c ∈ lo, b ≤ c) (hm : Memory.wfAbove lo m = true) : Memory.wfAbove lo' m = true := by
  cases m with
  | nil => rfl
  | cons c m =>
    obtain ⟨a, v⟩ := c
    cases lo' with
    | none => simp_all [Memory.wfAbove]
    | some b =>
      obtain ⟨c, hc, hbc⟩ := h b rfl
      cases hc
      simp [Memory.wfAbove] at hm ⊢
      exact ⟨⟨by omega, hm.1.2⟩, hm.2⟩

theorem wfAbove_cons_op {lo : Option Nat} {a : Nat} {v : Byte} {m : List Host.Cell}
    (hlo : ∀ b ∈ lo, b < a) (hm : Memory.wfAbove (some a) m = true) :
    Memory.wfAbove lo (Memory.cons a v m) = true := by
  unfold Memory.cons
  split
  · exact wfAbove_mono (fun b hb => ⟨a, rfl, Nat.le_of_lt (hlo b hb)⟩) hm
  · cases lo with
    | none => simp_all [Memory.wfAbove]
    | some b => simp_all [Memory.wfAbove]

/-- Writing a byte keeps the canonical form. -/
theorem wfAbove_write {lo : Option Nat} {m : List Host.Cell} {a : Nat} {v : Byte}
    (hlo : ∀ b ∈ lo, b < a) (hm : Memory.wfAbove lo m = true) : Memory.wfAbove lo (Memory.write m a v) = true := by
  induction m generalizing lo with
  | nil => exact wfAbove_cons_op hlo rfl
  | cons c m ih =>
    obtain ⟨b, u⟩ := c
    simp only [Memory.write]
    have htail : Memory.wfAbove (some b) m = true := by simp [Memory.wfAbove] at hm; exact hm.2
    split
    · apply wfAbove_cons_op hlo
      simp [Memory.wfAbove] at hm ⊢
      exact ⟨⟨by assumption, hm.1.2⟩, hm.2⟩
    · split
      · subst_vars
        exact wfAbove_cons_op hlo htail
      · have hab : b < a := by omega
        have := ih (lo := some b) (by simpa using hab) htail
        simp [Memory.wfAbove] at hm ⊢
        exact ⟨hm.1, this⟩

theorem wf_write {m : List Host.Cell} (a : Nat) (v : Byte) (hm : Memory.wf m = true) :
    Memory.wf (Memory.write m a v) = true :=
  wfAbove_write (by simp) hm

theorem wf_writeN {m : List Host.Cell} (a : Nat) (vs : List Byte) (hm : Memory.wf m = true) :
    Memory.wf (Memory.writeN m a vs) = true := by
  induction vs generalizing m a with
  | nil => exact hm
  | cons v vs ih => exact ih _ (wf_write a v hm)

theorem wf_writeSome {m : List Host.Cell} (a : Nat) (vs : List (Option Byte)) (hm : Memory.wf m = true) :
    Memory.wf (Memory.writeSome m a vs) = true := by
  induction vs generalizing m a with
  | nil => exact hm
  | cons v vs ih =>
    cases v with
    | none => exact ih _ hm
    | some b => exact ih _ (wf_write a b hm)

/-- A write that gives every byte is a write of those bytes. -/
theorem writeSome_whole (m : List Host.Cell) (a : Nat) (vs : List Byte) :
    Memory.writeSome m a (vs.map some) = Memory.writeN m a vs := by
  induction vs generalizing m a with
  | nil => rfl
  | cons v vs ih => exact ih _ _

theorem read_of_lt {lo : Nat} {m : List Host.Cell} {a : Nat} (hm : Memory.wfAbove (some lo) m = true) (h : a ≤ lo) :
    Memory.read m a = Memory.background := by
  cases m with
  | nil => rfl
  | cons c m =>
    obtain ⟨b, u⟩ := c
    simp [Memory.wfAbove] at hm
    have : ¬ b = a := by omega
    have : a < b := by omega
    simp_all [Memory.read]

theorem read_cons_op {a x : Nat} {v : Byte} {m : List Host.Cell} (hm : Memory.wfAbove (some a) m = true) :
    Memory.read (Memory.cons a v m) x = if x = a then v else Memory.read m x := by
  unfold Memory.cons
  split
  · split
    · subst_vars; exact read_of_lt hm (Nat.le_refl _)
    · rfl
  · simp only [Memory.read]
    by_cases h : a = x
    · simp [h]
    · have h' : ¬ x = a := fun e => h e.symm
      simp only [h, h', if_false]
      split
      · rename_i hlt; exact (read_of_lt hm (Nat.le_of_lt hlt)).symm
      · rfl

/-- A byte written reads back, and every other byte reads as before. -/
theorem read_write {lo : Option Nat} {m : List Host.Cell} {a x : Nat} {v : Byte} (hm : Memory.wfAbove lo m = true) :
    Memory.read (Memory.write m a v) x = if x = a then v else Memory.read m x := by
  induction m generalizing lo with
  | nil =>
    simp only [Memory.write]
    rw [read_cons_op (by rfl)]
  | cons c m ih =>
    obtain ⟨b, u⟩ := c
    have htail : Memory.wfAbove (some b) m = true := by simp [Memory.wfAbove] at hm; exact hm.2
    have hu : (u != Memory.background) = true := by simp [Memory.wfAbove] at hm ⊢; exact hm.1.2
    simp only [Memory.write]
    split
    · rename_i hab
      rw [read_cons_op (by simp [Memory.wfAbove] at hu ⊢; exact ⟨⟨hab, hu⟩, htail⟩)]
    · split
      · subst_vars
        rw [read_cons_op htail]
        by_cases h : x = b
        · simp [h]
        · have h' : ¬ b = x := fun e => h e.symm
          simp only [h, if_false, Memory.read, h']
          split
          · rename_i hlt; exact read_of_lt htail (Nat.le_of_lt hlt)
          · rfl
      · have := ih htail
        simp only [Memory.read]
        by_cases hbx : b = x
        · have : ¬ x = a := by omega
          simp [hbx, this]
        · simp only [hbx, if_false]
          by_cases hxb : x < b
          · have : ¬ x = a := by omega
            simp [hxb, this]
          · simp only [hxb, if_false]; exact this

/-- The bytes written read back in order, and every other byte reads as before. -/
theorem read_writeN {m : List Host.Cell} (hm : Memory.wf m = true) (a x : Nat) (vs : List Byte) :
    Memory.read (Memory.writeN m a vs) x = if a ≤ x ∧ x < a + vs.length then vs.getD (x - a) 0 else Memory.read m x := by
  induction vs generalizing m a with
  | nil => simp [Memory.writeN]
  | cons v vs ih =>
    rw [show Memory.writeN m a (v :: vs) = Memory.writeN (Memory.write m a v) (a + 1) vs from rfl, ih (wf_write a v hm),
      read_write (lo := none) hm]
    by_cases h : x = a
    · subst h
      simp
    · by_cases h2 : a + 1 ≤ x ∧ x < a + 1 + vs.length
      · have h3 : a ≤ x ∧ x < a + (v :: vs).length := by simp; omega
        have h4 : x - a = x - (a + 1) + 1 := by omega
        rw [if_pos h2, if_pos h3, h4, List.getD_cons_succ]
      · have h3 : ¬ (a ≤ x ∧ x < a + (v :: vs).length) := by simp; omega
        simp only [h2, h3, h, if_false]

/-- The bytes that a write gives read back, and every other byte reads as before. -/
theorem read_writeSome {m : List Host.Cell} (hm : Memory.wf m = true) (a x : Nat) (vs : List (Option Byte)) :
    Memory.read (Memory.writeSome m a vs) x = ((if a ≤ x then (vs[x - a]?).join else none).getD (Memory.read m x)) := by
  induction vs generalizing m a with
  | nil => simp [Memory.writeSome]
  | cons v vs ih =>
    have step : ∀ k : List Host.Cell, Memory.wf k = true → Memory.read (Memory.writeSome k (a + 1) vs) x =
        (if a + 1 ≤ x then (vs[x - (a + 1)]?).join else none).getD (Memory.read k x) := fun k hk => ih hk (a + 1)
    by_cases h : x = a
    · subst h
      cases v <;> simp [Memory.writeSome, step, hm, wf_write, read_write (lo := none) hm]
    · by_cases h2 : a ≤ x
      · have h3 : a + 1 ≤ x := by omega
        have h4 : x - a = x - (a + 1) + 1 := by omega
        cases v <;> simp [Memory.writeSome, step, hm, wf_write, read_write (lo := none) hm, h, h2, h3, h4]
      · have h3 : ¬ a + 1 ≤ x := by omega
        cases v <;> simp [Memory.writeSome, step, hm, wf_write, read_write (lo := none) hm, h, h2, h3]

end Sys2Proof.Laws
end

