-- ==== Sys2Proof/Laws/Keep.lean ====
section
/-!
SUPPORT. The shared updates of the state keep the invariant of a step (`State.wellKept`), one lemma each.
-/

namespace Sys2Proof.Laws

open Sys2Proof Sys2Proof.Machine

/-- The invariant reads only memory, the teams, the supervisor cores and the partitions. -/
theorem wellKept_congr {s t : State} (hm : t.mem = s.mem) (ht : t.teams = s.teams) (hv : t.saved = s.saved) (hu : t.sups = s.sups)
    (hp : t.parts = s.parts) (h : s.wellKept) : t.wellKept := by
  unfold State.wellKept State.memoryCanonical at *
  rw [hm, ht, hv, hu, hp]
  exact h

/-- Reset memory lists nothing, and is in the canonical form. -/
theorem reset_mem : State.reset.mem = [] ∧ Memory.wf State.reset.mem = true := ⟨rfl, rfl⟩

theorem wellKept_updTeam {s : State} (i : Nat) {f : Team → Team} (hf : ∀ t, Memory.wf t.spad = true → Memory.wf (f t).spad = true)
    (h : s.wellKept) : (s.updTeam i f).wellKept := by
  obtain ⟨⟨hm, ht⟩, hr⟩ := h
  refine ⟨⟨hm, ?_⟩, hr⟩
  intro t hmem
  rcases List.mem_append.mp hmem with hx | hx
  · obtain ⟨u, hu, rfl⟩ := List.mem_map.mp hx
    have := ht u (List.mem_append.mpr (.inl hu))
    split
    · exact hf u this
    · exact this
  · exact ht t (List.mem_append.mpr (.inr hx))

theorem wellKept_updWave {s : State} (i w : Nat) (f : Wave → Wave) (h : s.wellKept) : (s.updWave i w f).wellKept :=
  wellKept_updTeam i (fun _ h => h) h

theorem wellKept_updCur {s : State} (f : Wave → Wave) (h : s.wellKept) : (s.updCur f).wellKept := wellKept_updWave _ _ f h

theorem wellKept_updRun {s : State} (f : Run → Run) (h : s.wellKept) : (s.updRun f).wellKept := wellKept_updCur _ h

theorem wellKept_advance {s : State} (c : Issue) (n : Nat) (h : s.wellKept) : (s.advance c n).wellKept := wellKept_updCur _ h

theorem wellKept_endRunahead {s : State} (h : s.wellKept) : s.endRunahead.wellKept := wellKept_updCur _ h

theorem wellKept_updPart {s : State} (p : Nat) {f : Part → Part} (hf : ∀ q, q.pbud.length = 4 → (f q).pbud.length = 4) (h : s.wellKept) :
    (s.updPart p f).wellKept := by
  obtain ⟨hm, hs, hl, hp⟩ := h
  refine ⟨hm, hs, by simp [State.updPart, hl], ?_⟩
  intro q hq
  obtain ⟨k, hk⟩ := List.mem_iff_getElem?.mp hq
  simp only [State.updPart, List.getElem?_modify] at hk
  cases hg : s.parts[k]? with
  | none => simp [hg] at hk
  | some r =>
    have hr := hp r (List.mem_of_getElem? hg)
    simp only [hg, Option.map_eq_map, Option.map_some, Option.some.injEq] at hk
    subst hk
    split
    · exact hf r hr
    · exact hr

theorem wellKept_updSup {s : State} (i : Nat) (f : Sup → Sup) (h : s.wellKept) : (s.updSup i f).wellKept := by
  obtain ⟨hm, hs, hp⟩ := h
  exact ⟨hm, by simp [State.updSup, hs], hp⟩

theorem wellKept_latchAll {s : State} (b : Nat) (h : s.wellKept) : (s.latchAll b).wellKept := by
  obtain ⟨hm, hs, hp⟩ := h
  exact ⟨hm, by simp [State.latchAll, hs], hp⟩

theorem wellKept_haltSup {s : State} (i : Nat) (h : s.wellKept) : (s.haltSup i).wellKept := wellKept_latchAll 4 (wellKept_updSup i _ h)

theorem wellKept_storeNow {s : State} (pa : Nat) (bs : List Byte) (h : s.wellKept) : (s.storeNow pa bs).wellKept := by
  obtain ⟨⟨hm, ht⟩, hr⟩ := h
  exact ⟨⟨wf_writeN pa bs hm, ht⟩, hr⟩

theorem wellKept_frameStore {s : State} (t : Team) (pa : Nat) (bs : List Byte) (h : s.wellKept) : (s.frameStore t pa bs).wellKept :=
  wellKept_congr rfl rfl rfl rfl rfl h

theorem wellKept_addReport {s : State} (r : Report) (h : s.wellKept) : (s.addReport r).wellKept := wellKept_congr rfl rfl rfl rfl rfl h

theorem wellKept_updLaunch {s : State} (i : Nat) (f : Launch → Launch) (h : s.wellKept) : (s.updLaunch i f).wellKept :=
  wellKept_congr rfl rfl rfl rfl rfl h

theorem wellKept_updCore {s : State} (i : Nat) (f : Core → Core) (h : s.wellKept) : (s.updCore i f).wellKept :=
  wellKept_congr rfl rfl rfl rfl rfl h

theorem wellKept_tick {s : State} (h : s.wellKept) : s.tick.wellKept := wellKept_congr rfl rfl rfl rfl rfl h

theorem wellKept_rotate {s : State} (h : s.wellKept) : s.rotate.wellKept := wellKept_congr rfl rfl rfl rfl rfl h

/-- The host's placement of an instruction keeps the invariant. -/
theorem wellKept_withFetchWord {s : State} (n w : Nat) (h : s.wellKept) : (s.withFetchWord n w).wellKept := by
  unfold State.withFetchWord
  refine wellKept_updWave _ _ _ (wellKept_updSup _ _ ?_)
  obtain ⟨⟨hm, ht⟩, hr⟩ := h
  exact ⟨⟨wf_writeN _ _ hm, ht⟩, hr⟩

end Sys2Proof.Laws
end

