-- ==== Sys2Proof/Laws/PerInstr.lean ====
section
/-!
SUPPORT. Per-instruction laws. Family Encoding: the word that the encoder gives an instruction has the major opcode of the opcode map (R65),
and the device's own steps have no word.
-/

namespace Sys2Proof.Laws

open Sys2Proof

namespace Encoding

/-- The major opcode of an instruction's word (R65), none for a step of the device. -/
def major : Instr → Option (BitVec 7)
  | .add .. | .sub .. | .and .. | .or .. | .xor .. => some 0x01
  | .min .. | .max .. | .minu .. | .maxu .. => some 0x02
  | .shl .. | .shr .. | .sra .. | .rot .. => some 0x03
  | .clz .. | .popc .. | .brev .. | .mov .. => some 0x04
  | .mul .. | .mulh .. | .mulhu .. => some 0x05
  | .mad .. => some 0x06
  | .div .. | .divu .. | .rem .. | .remu .. => some 0x07
  | .addw .. | .subw .. | .mulw .. => some 0x08
  | .bfx .. => some 0x09
  | .bfi .. => some 0x0A
  | .addi .. => some 0x0B
  | .andi .. => some 0x0C
  | .ori .. => some 0x0D
  | .xori .. => some 0x0E
  | .movi .. => some 0x10
  | .movhi .. => some 0x11
  | .cmp .. => some 0x20
  | .cmpi .. => some 0x21
  | .kop .. => some 0x22
  | .sel .. => some 0x23
  | .br .. => some 0x30
  | .brl .. => some 0x31
  | .jr .. => some 0x32
  | .loop .. => some 0x33
  | .loopi .. => some 0x34
  | .leave => some 0x35
  | .nop => some 0x36
  | .winb .. => some 0x37
  | .gets .. => some 0x38
  | .sets .. => some 0x39
  | .recld .. | .recset .. => some 0x62
  | .ld .. => some 0x60
  | .st .. => some 0x61
  | .trail .. => some 0x7F
  | .fadd .. => some 0x40
  | .fsub .. => some 0x41
  | .fmul .. => some 0x42
  | .ffma .. => some 0x43
  | .fmin .. => some 0x44
  | .fmax .. => some 0x45
  | .fsgn .. => some 0x46
  | .fcmp .. => some 0x47
  | .fclass .. => some 0x48
  | .fcvt .. => some 0x49
  | .frnd .. => some 0x4A
  | .sfn .. => some 0x50
  | .maxex .. | .scalb .. | .exp2m .. => some 0x51
  | .dot4 .. => some 0x52
  | .pack .. => some 0x53
  | .unpk .. => some 0x54
  | .topki .. => some 0x55
  | .rand .. => some 0x56
  | .shfl .. => some 0x58
  | .vote .. => some 0x59
  | .lred .. => some 0x5A
  | .scan .. => some 0x5B
  | .bar .. | .bara .. | .barw .. => some 0x5C
  | .rcb | .yield | .exit | .lpass => some 0x5D
  | .fork .. | .join .. | .take .. => some 0x5E
  | .launch .. | .gbar .. => some 0x5F
  | .sld .. | .sldm .. => some 0x63
  | .sst .. | .sstm .. => some 0x64
  | .pref .. => some 0x65
  | .bdecl .. | .benter .. | .bwait .. | .bleave .. | .bdrop .. => some 0x66
  | .acq .. | .rel .. | .fence .. => some 0x67
  | .waitc .. => some 0x68
  | .atomAdd .. | .redAdd .. => some 0x69
  | .atomMin .. | .redMin .. => some 0x6A
  | .atomMax .. | .redMax .. => some 0x6B
  | .atomAnd .. | .redAnd .. => some 0x6C
  | .atomOr .. | .redOr .. => some 0x6D
  | .atomXor .. | .redXor .. => some 0x6E
  | .atomXchg .. | .cas .. => some 0x6F
  | .copy .. => some 0x70
  | .wtag .. | .wtany .. | .tfirst .. => some 0x71
  | .vfill .. => some 0x72
  | .mloop .. => some 0x73
  | .aring .. | .aringRelease .. | .epi .. => some 0x74
  | .qfence .. | .qseq .. => some 0x75
  | .sumpw .. | .sumpx .. => some 0x76
  | .trap .. => some 0x78
  | .eret | .wfi | .tlbi .. | .partEnq .. | .partAdd .. | .partRemove .. | .partReset .. | .halt | .lostclr .. => some 0x79
  | .invoke .. => some 0x7A
  | .frame .. | .fchk .. => some 0x7B
  | .evt .. => some 0x7C
  | _ => none

/-- The encoder's word has the major opcode of the map. -/
def Statement (i : Instr) : Prop :=
  match major i with
  | some m => fMajor (encode i) = m
  | none => encode i = 0

theorem add (n : Bool) (d a b : Reg) : Statement (.add n d a b) := (encR_fields ..).1
theorem sub (n : Bool) (d a b : Reg) : Statement (.sub n d a b) := (encR_fields ..).1
theorem and (n : Bool) (d a b : Reg) : Statement (.and n d a b) := (encR_fields ..).1
theorem or (n : Bool) (d a b : Reg) : Statement (.or n d a b) := (encR_fields ..).1
theorem xor (n : Bool) (d a b : Reg) : Statement (.xor n d a b) := (encR_fields ..).1
theorem min (n : Bool) (d a b : Reg) : Statement (.min n d a b) := (encR_fields ..).1
theorem max (n : Bool) (d a b : Reg) : Statement (.max n d a b) := (encR_fields ..).1
theorem minu (n : Bool) (d a b : Reg) : Statement (.minu n d a b) := (encR_fields ..).1
theorem maxu (n : Bool) (d a b : Reg) : Statement (.maxu n d a b) := (encR_fields ..).1
theorem shl (n : Bool) (d a b : Reg) : Statement (.shl n d a b) := (encR_fields ..).1
theorem shr (n : Bool) (d a b : Reg) : Statement (.shr n d a b) := (encR_fields ..).1
theorem sra (n : Bool) (d a b : Reg) : Statement (.sra n d a b) := (encR_fields ..).1
theorem rot (n : Bool) (d a b : Reg) : Statement (.rot n d a b) := (encR_fields ..).1
theorem clz (n : Bool) (d a : Reg) : Statement (.clz n d a) := (encR_fields ..).1
theorem popc (n : Bool) (d a : Reg) : Statement (.popc n d a) := (encR_fields ..).1
theorem brev (n : Bool) (d a : Reg) : Statement (.brev n d a) := (encR_fields ..).1
theorem mov (n : Bool) (d a : Reg) : Statement (.mov n d a) := (encR_fields ..).1
theorem mul (n : Bool) (d a b : Reg) : Statement (.mul n d a b) := (encR_fields ..).1
theorem mulh (n : Bool) (d a b : Reg) : Statement (.mulh n d a b) := (encR_fields ..).1
theorem mulhu (n : Bool) (d a b : Reg) : Statement (.mulhu n d a b) := (encR_fields ..).1
theorem mad (n : Bool) (d a b : Reg) : Statement (.mad n d a b) := (encR_fields ..).1
theorem div (n : Bool) (d a b : Reg) : Statement (.div n d a b) := (encR_fields ..).1
theorem divu (n : Bool) (d a b : Reg) : Statement (.divu n d a b) := (encR_fields ..).1
theorem rem (n : Bool) (d a b : Reg) : Statement (.rem n d a b) := (encR_fields ..).1
theorem remu (n : Bool) (d a b : Reg) : Statement (.remu n d a b) := (encR_fields ..).1
theorem addw (d a b : Reg) : Statement (.addw d a b) := (encR_fields ..).1
theorem subw (d a b : Reg) : Statement (.subw d a b) := (encR_fields ..).1
theorem mulw (d a b : Reg) : Statement (.mulw d a b) := (encR_fields ..).1
theorem bfx (n : Bool) (d a : Reg) (w p : BitVec 5) : Statement (.bfx n d a w p) := (encI_fields ..).1
theorem bfi (n : Bool) (d a : Reg) (w p : BitVec 5) : Statement (.bfi n d a w p) := (encI_fields ..).1
theorem addi (n : Bool) (d a : Reg) (i : BitVec 10) : Statement (.addi n d a i) := (encI_fields ..).1
theorem andi (n : Bool) (d a : Reg) (i : BitVec 10) : Statement (.andi n d a i) := (encI_fields ..).1
theorem ori (n : Bool) (d a : Reg) (i : BitVec 10) : Statement (.ori n d a i) := (encI_fields ..).1
theorem xori (n : Bool) (d a : Reg) (i : BitVec 10) : Statement (.xori n d a i) := (encI_fields ..).1
theorem movi (d : Reg) (i : BitVec 18) : Statement (.movi d i) := (encL_fields ..).1
theorem movhi (d : Reg) (i : BitVec 18) : Statement (.movhi d i) := (encL_fields ..).1
theorem cmp (c : Cond) (d : Pred) (a b : Reg) : Statement (.cmp c d a b) := (encR_fields ..).1
theorem cmpi (c : Cond) (d : Pred) (a : Reg) (i : BitVec 10) : Statement (.cmpi c d a i) := (encI_fields ..).1
theorem kop (f : KFn) (d a b : Pred) : Statement (.kop f d a b) := (encR_fields ..).1
theorem sel (n : Bool) (g : Pred) (d a b : Reg) : Statement (.sel n g d a b) := (encR_fields ..).1
theorem br (k : Pred) (s : Bool) (o : BitVec 14) : Statement (.br k s o) := (encB_fields ..).1
theorem brl (k : Pred) (s : Bool) (a : Reg) (o : BitVec 14) : Statement (.brl k s a o) := (encB_fields ..).1
theorem jr (k : Pred) (s : Bool) (a : Reg) (o : BitVec 14) : Statement (.jr k s a o) := (encB_fields ..).1
theorem loop (a : Reg) (e : BitVec 10) : Statement (.loop a e) := (encI_fields ..).1
theorem loopi (e : BitVec 10) (c : BitVec 8) : Statement (.loopi e c) := (encL_fields ..).1
theorem leave : Statement (.leave) := (encR_fields ..).1
theorem nop : Statement (.nop) := (encR_fields ..).1
theorem winb (i : BitVec 10) : Statement (.winb i) := (encI_fields ..).1
theorem gets (n : Bool) (d : Reg) (i : BitVec 10) : Statement (.gets n d i) := (encI_fields ..).1
theorem sets (a : Reg) (i : BitVec 10) : Statement (.sets a i) := (encI_fields ..).1
theorem recld (d : RecReg) (a : Reg) : Statement (.recld d a) := (encR_fields ..).1
theorem recset (d : RecReg) (a : Reg) : Statement (.recset d a) := (encR_fields ..).1
theorem ld (d : Reg) (q : RecReg) (x : Reg) (h : Hint) (z : Size) : Statement (.ld d q x h z) := (encM_fields ..).1
theorem st (k : Pred) (d : Reg) (q : RecReg) (x : Reg) (h : Hint) (z : Size) : Statement (.st k d q x h z) := (encM_fields ..).1
theorem trail (b : Reg) (c : BitVec 3) (e : Reg) (f : BitVec 3) (y u v : Bool) : Statement (.trail b c e f y u v) := (encT_fields ..).1
theorem fadd (n : Bool) (f : FFmt) (d a b : Reg) : Statement (.fadd n f d a b) := (encR_fields ..).1
theorem fsub (n : Bool) (f : FFmt) (d a b : Reg) : Statement (.fsub n f d a b) := (encR_fields ..).1
theorem fmul (n : Bool) (f : FFmt) (d a b : Reg) : Statement (.fmul n f d a b) := (encR_fields ..).1
theorem ffma (n : Bool) (f : FFmt) (d a b : Reg) : Statement (.ffma n f d a b) := (encR_fields ..).1
theorem fmin (n : Bool) (prop : Bool) (f : FFmt) (d a b : Reg) : Statement (.fmin n prop f d a b) := (encR_fields ..).1
theorem fmax (n : Bool) (prop : Bool) (f : FFmt) (d a b : Reg) : Statement (.fmax n prop f d a b) := (encR_fields ..).1
theorem fsgn (n : Bool) (f : SgnFn) (d a b : Reg) : Statement (.fsgn n f d a b) := (encR_fields ..).1
theorem fcmp (c : FCond) (d : Pred) (a b : Reg) : Statement (.fcmp c d a b) := (encR_fields ..).1
theorem fclass (n : Bool) (d a : Reg) : Statement (.fclass n d a) := (encR_fields ..).1
theorem fcvt (n : Bool) (d a : Reg) (s t : CvtTy) : Statement (.fcvt n d a s t) := (encI_fields ..).1
theorem frnd (n : Bool) (d a : Reg) (m : RndSel) : Statement (.frnd n d a m) := (encI_fields ..).1
theorem sfn (n : Bool) (f : SfnFn) (d a : Reg) : Statement (.sfn n f d a) := (encR_fields ..).1
theorem maxex (n : Bool) (d a b : Reg) : Statement (.maxex n d a b) := (encR_fields ..).1
theorem scalb (n : Bool) (d a b : Reg) : Statement (.scalb n d a b) := (encR_fields ..).1
theorem exp2m (n : Bool) (d a b : Reg) : Statement (.exp2m n d a b) := (encR_fields ..).1
theorem dot4 (n : Bool) (f : DotTy) (d a b : Reg) : Statement (.dot4 n f d a b) := (encR_fields ..).1
theorem pack (n : Bool) (d a : Reg) (c : PackFn) : Statement (.pack n d a c) := (encI_fields ..).1
theorem unpk (d a : Reg) (c : PackFn) : Statement (.unpk d a c) := (encI_fields ..).1
theorem topki (k : BitVec 3) (d a b : Reg) : Statement (.topki k d a b) := (encR_fields ..).1
theorem rand (n : Bool) (f : RandFn) (d : Reg) : Statement (.rand n f d) := (encR_fields ..).1
theorem shfl (n : Bool) (f : ShflFn) (d a b : Reg) : Statement (.shfl n f d a b) := (encR_fields ..).1
theorem vote (f : VoteFn) (d : Reg) (a : Pred) : Statement (.vote f d a) := (encR_fields ..).1
theorem lred (n : Bool) (f : LredFn) (d a : Reg) : Statement (.lred n f d a) := (encR_fields ..).1
theorem scan (n : Bool) (f : ScanFn) (d a : Reg) : Statement (.scan n f d a) := (encR_fields ..).1
theorem bar (a : Reg) (b : BitVec 4) : Statement (.bar a b) := (encI_fields ..).1
theorem bara (a : Reg) (b : BitVec 4) : Statement (.bara a b) := (encI_fields ..).1
theorem barw (b : BitVec 4) : Statement (.barw b) := (encI_fields ..).1
theorem rcb : Statement (.rcb) := (encR_fields ..).1
theorem yield : Statement (.yield) := (encR_fields ..).1
theorem exit : Statement (.exit) := (encR_fields ..).1
theorem lpass : Statement (.lpass) := (encR_fields ..).1
theorem fork (d a : Reg) : Statement (.fork d a) := (encR_fields ..).1
theorem join (d : Reg) : Statement (.join d) := (encR_fields ..).1
theorem take (d a : Reg) : Statement (.take d a) := (encR_fields ..).1
theorem launch (a b : Reg) : Statement (.launch a b) := (encR_fields ..).1
theorem gbar (a : Reg) : Statement (.gbar a) := (encR_fields ..).1
theorem sld (n : Bool) (d a : Reg) (o : BitVec 7) (z : Size) : Statement (.sld n d a o z) := (encI_fields ..).1
theorem sldm (d a : Reg) (o : BitVec 7) (z : Size) : Statement (.sldm d a o z) := (encI_fields ..).1
theorem sst (d a : Reg) (o : BitVec 7) (z : Size) : Statement (.sst d a o z) := (encI_fields ..).1
theorem sstm (d a : Reg) (o : BitVec 7) (z : Size) : Statement (.sstm d a o z) := (encI_fields ..).1
theorem pref (q : RecReg) (x : Reg) (h : Hint) (z : Size) : Statement (.pref q x h z) := (encM_fields ..).1
theorem bdecl (d a : Reg) : Statement (.bdecl d a) := (encR_fields ..).1
theorem benter (d a b : Reg) : Statement (.benter d a b) := (encR_fields ..).1
theorem bwait (d a b : Reg) : Statement (.bwait d a b) := (encR_fields ..).1
theorem bleave (a b : Reg) : Statement (.bleave a b) := (encR_fields ..).1
theorem bdrop (d a : Reg) : Statement (.bdrop d a) := (encR_fields ..).1
theorem acq (s : BitVec 3) (a b : Reg) : Statement (.acq s a b) := (encR_fields ..).1
theorem rel (s : BitVec 3) (a : Reg) : Statement (.rel s a) := (encR_fields ..).1
theorem fence (s : BitVec 3) : Statement (.fence s) := (encR_fields ..).1
theorem waitc (d : Reg) (q : RecReg) (x : Reg) (c : WCond) : Statement (.waitc d q x c) := (encM_fields ..).1
theorem atomAdd (k : Pred) (d : Reg) (q : RecReg) (x : Reg) (s : BitVec 3) : Statement (.atomAdd k d q x s) := (encM_fields ..).1
theorem redAdd (k : Pred) (d : Reg) (q : RecReg) (x : Reg) (s : BitVec 3) : Statement (.redAdd k d q x s) := (encM_fields ..).1
theorem atomMin (k : Pred) (d : Reg) (q : RecReg) (x : Reg) (s : BitVec 3) : Statement (.atomMin k d q x s) := (encM_fields ..).1
theorem redMin (k : Pred) (d : Reg) (q : RecReg) (x : Reg) (s : BitVec 3) : Statement (.redMin k d q x s) := (encM_fields ..).1
theorem atomMax (k : Pred) (d : Reg) (q : RecReg) (x : Reg) (s : BitVec 3) : Statement (.atomMax k d q x s) := (encM_fields ..).1
theorem redMax (k : Pred) (d : Reg) (q : RecReg) (x : Reg) (s : BitVec 3) : Statement (.redMax k d q x s) := (encM_fields ..).1
theorem atomAnd (k : Pred) (d : Reg) (q : RecReg) (x : Reg) (s : BitVec 3) : Statement (.atomAnd k d q x s) := (encM_fields ..).1
theorem redAnd (k : Pred) (d : Reg) (q : RecReg) (x : Reg) (s : BitVec 3) : Statement (.redAnd k d q x s) := (encM_fields ..).1
theorem atomOr (k : Pred) (d : Reg) (q : RecReg) (x : Reg) (s : BitVec 3) : Statement (.atomOr k d q x s) := (encM_fields ..).1
theorem redOr (k : Pred) (d : Reg) (q : RecReg) (x : Reg) (s : BitVec 3) : Statement (.redOr k d q x s) := (encM_fields ..).1
theorem atomXor (k : Pred) (d : Reg) (q : RecReg) (x : Reg) (s : BitVec 3) : Statement (.atomXor k d q x s) := (encM_fields ..).1
theorem redXor (k : Pred) (d : Reg) (q : RecReg) (x : Reg) (s : BitVec 3) : Statement (.redXor k d q x s) := (encM_fields ..).1
theorem atomXchg (k : Pred) (d : Reg) (q : RecReg) (x : Reg) (s : BitVec 3) : Statement (.atomXchg k d q x s) := (encM_fields ..).1
theorem cas (k : Pred) (d : Reg) (q : RecReg) (x : Reg) (s : BitVec 3) : Statement (.cas k d q x s) := (encM_fields ..).1
theorem copy (f : BitVec 2) (a b : Reg) : Statement (.copy f a b) := (encR_fields ..).1
theorem wtag (d a : Reg) : Statement (.wtag d a) := (encR_fields ..).1
theorem wtany (d a : Reg) : Statement (.wtany d a) := (encR_fields ..).1
theorem tfirst (d a : Reg) : Statement (.tfirst d a) := (encR_fields ..).1
theorem vfill (d a b : Reg) : Statement (.vfill d a b) := (encR_fields ..).1
theorem mloop (d a b : Reg) : Statement (.mloop d a b) := (encR_fields ..).1
theorem aring (d a b : Reg) : Statement (.aring d a b) := (encR_fields ..).1
theorem aringRelease (d a b : Reg) : Statement (.aringRelease d a b) := (encR_fields ..).1
theorem epi (d a b : Reg) : Statement (.epi d a b) := (encR_fields ..).1
theorem qfence (a : Reg) : Statement (.qfence a) := (encR_fields ..).1
theorem qseq (d a : Reg) : Statement (.qseq d a) := (encR_fields ..).1
theorem sumpw (d a b : Reg) : Statement (.sumpw d a b) := (encR_fields ..).1
theorem sumpx (d a b : Reg) : Statement (.sumpx d a b) := (encR_fields ..).1
theorem trap (i : BitVec 10) : Statement (.trap i) := (encI_fields ..).1
theorem eret : Statement (.eret) := (encR_fields ..).1
theorem wfi : Statement (.wfi) := (encR_fields ..).1
theorem tlbi (a b : Reg) : Statement (.tlbi a b) := (encR_fields ..).1
theorem partEnq (d a b : Reg) : Statement (.partEnq d a b) := (encR_fields ..).1
theorem partAdd (d a b : Reg) : Statement (.partAdd d a b) := (encR_fields ..).1
theorem partRemove (d a b : Reg) : Statement (.partRemove d a b) := (encR_fields ..).1
theorem partReset (d a b : Reg) : Statement (.partReset d a b) := (encR_fields ..).1
theorem halt : Statement (.halt) := (encR_fields ..).1
theorem lostclr (d a : Reg) : Statement (.lostclr d a) := (encR_fields ..).1
theorem invoke (a b : Reg) : Statement (.invoke a b) := (encR_fields ..).1
theorem frame (d a b : Reg) : Statement (.frame d a b) := (encR_fields ..).1
theorem fchk (d : Pred) (a : Reg) : Statement (.fchk d a) := (encR_fields ..).1
theorem evt (a : Reg) (i : BitVec 10) : Statement (.evt a i) := (encI_fields ..).1
theorem runStart (team wave : Nat) : Statement (.runStart team wave) := rfl
theorem frontierSelect (team wave : Nat) : Statement (.frontierSelect team wave) := rfl
theorem loadDataArrival (team wave : Nat) (part : LoadPart) : Statement (.loadDataArrival team wave part) := rfl
theorem hold (team wave : Nat) : Statement (.hold team wave) := rfl
theorem launchAccept (offer : Nat) : Statement (.launchAccept offer) := rfl
theorem agingInterval (part : Nat) : Statement (.agingInterval part) := rfl
theorem teamPlace (part : Nat) : Statement (.teamPlace part) := rfl
theorem teamEnd (team : Nat) : Statement (.teamEnd team) := rfl
theorem steal (core : Nat) : Statement (.steal core) := rfl
theorem lanternPass (launch : Nat) : Statement (.lanternPass launch) := rfl
theorem bundleAdmission (die : Nat) : Statement (.bundleAdmission die) := rfl
theorem bundleFillLine (inst : Nat) : Statement (.bundleFillLine inst) := rfl
theorem monitorPoll (team wave : Nat) : Statement (.monitorPoll team wave) := rfl
theorem atomicAtHome (rmws : List Nat) : Statement (.atomicAtHome rmws) := rfl
theorem directoryRequest (die line : Nat) (own : Bool) : Statement (.directoryRequest die line own) := rfl
theorem homeWrite (posted : Nat) : Statement (.homeWrite posted) := rfl
theorem invalidation (posted die : Nat) : Statement (.invalidation posted die) := rfl
theorem invalidationAck (posted die : Nat) : Statement (.invalidationAck posted die) := rfl
theorem directoryMerge (die base : Nat) : Statement (.directoryMerge die base) := rfl
theorem updatePush (line die : Nat) : Statement (.updatePush line die) := rfl
theorem forwardedRead (line die : Nat) : Statement (.forwardedRead line die) := rfl
theorem writeBack (line die : Nat) : Statement (.writeBack line die) := rfl
theorem dieFailure (die : Nat) : Statement (.dieFailure die) := rfl
theorem linkReplay (link : Nat) : Statement (.linkReplay link) := rfl
theorem linkTraining (link : Nat) (peer : Nat) (version : Byte) (features : Word) : Statement (.linkTraining link peer version features) := rfl
theorem packetArrival (dev die cls : Nat) (seq : Word) (body : FabricBody) : Statement (.packetArrival dev die cls seq body) := rfl
theorem flowDiscard (dev : Nat) : Statement (.flowDiscard dev) := rfl
theorem routeLost (dev : Nat) : Statement (.routeLost dev) := rfl
theorem inboundAccess (dev req : Nat) (addr : DWord) (op : InboundOp) : Statement (.inboundAccess dev req addr op) := rfl
theorem remoteTimeout (req : Nat) : Statement (.remoteTimeout req) := rfl
theorem invocationArrival (packet : List Byte) : Statement (.invocationArrival packet) := rfl
theorem invocationSlotHead (queue : Nat) : Statement (.invocationSlotHead queue) := rfl
theorem invokeReply (inv : Nat) (status : Nat) : Statement (.invokeReply inv status) := rfl
theorem invokeLinkTimeout (inv : Nat) : Statement (.invokeLinkTimeout inv) := rfl
theorem hostSubmission (whole : Bool) (packet : List Byte) : Statement (.hostSubmission whole packet) := rfl
theorem commandStart (core queue chunks : Nat) : Statement (.commandStart core queue chunks) := rfl
theorem commandComplete (core queue : Nat) : Statement (.commandComplete core queue) := rfl
theorem matrixStep (core quadrant : Nat) : Statement (.matrixStep core quadrant) := rfl
theorem matrixPartial (part : PartialPart) : Statement (.matrixPartial part) := rfl
theorem slotDrain (core : Nat) : Statement (.slotDrain core) := rfl
theorem vaultRetention (core vault : Nat) : Statement (.vaultRetention core vault) := rfl
theorem vaultWake (core group : Nat) : Statement (.vaultWake core group) := rfl
theorem sumpRecordWrite (write : Nat) : Statement (.sumpRecordWrite write) := rfl
theorem sumpCheck (node : Nat) : Statement (.sumpCheck node) := rfl
theorem sumpFlush (node : Nat) : Statement (.sumpFlush node) := rfl
theorem reportRecordWrite (report : Nat) : Statement (.reportRecordWrite report) := rfl
theorem handlerLaunch (handler : Nat) : Statement (.handlerLaunch handler) := rfl
theorem pageWalk (core asid : Nat) (va : DWord) : Statement (.pageWalk core asid va) := rfl
theorem runaheadEnd (team wave : Nat) : Statement (.runaheadEnd team wave) := rfl
theorem preemptRequest (teams : List Nat) : Statement (.preemptRequest teams) := rfl
theorem barrierLimit (team : Nat) : Statement (.barrierLimit team) := rfl
theorem teamSave (team : Nat) : Statement (.teamSave team) := rfl
theorem watchdogExpiry (part prio : Nat) : Statement (.watchdogExpiry part prio) := rfl
theorem dualCompare (team : Nat) : Statement (.dualCompare team) := rfl
theorem correctedErrorSummary (errors : DieErrors) : Statement (.correctedErrorSummary errors) := rfl
theorem timer (sup : Nat) : Statement (.timer sup) := rfl
theorem interrupt (sup : Nat) : Statement (.interrupt sup) := rfl
theorem powerOn : Statement (.powerOn) := rfl
theorem bootPortTimeout : Statement (.bootPortTimeout) := rfl
theorem tftpRetransmit : Statement (.tftpRetransmit) := rfl
theorem bootRetry : Statement (.bootRetry) := rfl
theorem tftpData (bytes : List Byte) (last : Bool) : Statement (.tftpData bytes last) := rfl
theorem quoteComplete : Statement (.quoteComplete) := rfl
theorem coreGroupStart (part : Nat) : Statement (.coreGroupStart part) := rfl
theorem frameReceive (port : Nat) (bytes : List Byte) (fcsOk stamped : Bool) : Statement (.frameReceive port bytes fcsOk stamped) := rfl
theorem frameTransmit : Statement (.frameTransmit) := rfl
theorem sip (sup : Nat) (v : Word) : Statement (.sip sup v) := rfl
theorem presolve (sup : Nat) (v : Word) : Statement (.presolve sup v) := rfl
theorem scwake (sup : Nat) (v : DWord) : Statement (.scwake sup v) := rfl
theorem sdbell (sup : Nat) (v : Word) : Statement (.sdbell sup v) := rfl
theorem atblk (sup : Nat) (v : DWord) : Statement (.atblk sup v) := rfl
theorem carve (sup : Nat) (v : Word) : Statement (.carve sup v) := rfl
theorem devnum (sup : Nat) (v : Word) : Statement (.devnum sup v) := rfl
theorem prhead (sup : Nat) (v : Word) : Statement (.prhead sup v) := rfl
theorem drhead (sup : Nat) (v : Word) : Statement (.drhead sup v) := rfl
theorem ptbase (sup : Nat) (v : DWord) : Statement (.ptbase sup v) := rfl
theorem ptsize (sup : Nat) (v : Word) : Statement (.ptsize sup v) := rfl
theorem nrbase (sup : Nat) (v : DWord) : Statement (.nrbase sup v) := rfl
theorem nrsize (sup : Nat) (v : Word) : Statement (.nrsize sup v) := rfl
theorem nrhead (sup : Nat) (v : Word) : Statement (.nrhead sup v) := rfl
theorem ntbase (sup : Nat) (v : DWord) : Statement (.ntbase sup v) := rfl
theorem ntsize (sup : Nat) (v : Word) : Statement (.ntsize sup v) := rfl
theorem nttail (sup : Nat) (v : Word) : Statement (.nttail sup v) := rfl
theorem holdClear (team wave : Nat) : Statement (.holdClear team wave) := rfl
theorem outboundPortFree (die : Nat) : Statement (.outboundPortFree die) := rfl
theorem ptpLock (time : DWord) : Statement (.ptpLock time) := rfl
theorem holdover : Statement (.holdover) := rfl
theorem portLinkChange (port : Nat) (up : Bool) : Statement (.portLinkChange port up) := rfl

end Encoding

end Sys2Proof.Laws
end

