-- ==== Sys2Proof/Laws/State.lean ====
section
/-!
SUPPORT. What the shared updates of the state leave: one lemma for each field and update, true by unfolding, so that no proof unfolds a
record update.
-/

namespace Sys2Proof.Laws

open Sys2Proof Sys2Proof.Machine

/-! ### State.updTeam -/

@[simp] theorem updTeam_time (s : State) (i : Nat) (f : Team → Team) : (s.updTeam i f).time = s.time := rfl
@[simp] theorem updTeam_ticks (s : State) (i : Nat) (f : Team → Team) : (s.updTeam i f).ticks = s.ticks := rfl
@[simp] theorem updTeam_nextId (s : State) (i : Nat) (f : Team → Team) : (s.updTeam i f).nextId = s.nextId := rfl
@[simp] theorem updTeam_agenda (s : State) (i : Nat) (f : Team → Team) : (s.updTeam i f).agenda = s.agenda := rfl
@[simp] theorem updTeam_cur (s : State) (i : Nat) (f : Team → Team) : (s.updTeam i f).cur = s.cur := rfl
@[simp] theorem updTeam_turn (s : State) (i : Nat) (f : Team → Team) : (s.updTeam i f).turn = s.turn := rfl
@[simp] theorem updTeam_boot (s : State) (i : Nat) (f : Team → Team) : (s.updTeam i f).boot = s.boot := rfl
@[simp] theorem updTeam_diesUp (s : State) (i : Nat) (f : Team → Team) : (s.updTeam i f).diesUp = s.diesUp := rfl
@[simp] theorem updTeam_diesFailed (s : State) (i : Nat) (f : Team → Team) : (s.updTeam i f).diesFailed = s.diesFailed := rfl
@[simp] theorem updTeam_romRequests (s : State) (i : Nat) (f : Team → Team) : (s.updTeam i f).romRequests = s.romRequests := rfl
@[simp] theorem updTeam_image (s : State) (i : Nat) (f : Team → Team) : (s.updTeam i f).image = s.image := rfl
@[simp] theorem updTeam_mem (s : State) (i : Nat) (f : Team → Team) : (s.updTeam i f).mem = s.mem := rfl
@[simp] theorem updTeam_lost (s : State) (i : Nat) (f : Team → Team) : (s.updTeam i f).lost = s.lost := rfl
@[simp] theorem updTeam_ecc (s : State) (i : Nat) (f : Team → Team) : (s.updTeam i f).ecc = s.ecc := rfl
@[simp] theorem updTeam_corrected (s : State) (i : Nat) (f : Team → Team) : (s.updTeam i f).corrected = s.corrected := rfl
@[simp] theorem updTeam_l1 (s : State) (i : Nat) (f : Team → Team) : (s.updTeam i f).l1 = s.l1 := rfl
@[simp] theorem updTeam_l2 (s : State) (i : Nat) (f : Team → Team) : (s.updTeam i f).l2 = s.l2 := rfl
@[simp] theorem updTeam_scopedCopies (s : State) (i : Nat) (f : Team → Team) : (s.updTeam i f).scopedCopies = s.scopedCopies := rfl
@[simp] theorem updTeam_bundleCopies (s : State) (i : Nat) (f : Team → Team) : (s.updTeam i f).bundleCopies = s.bundleCopies := rfl
@[simp] theorem updTeam_dir (s : State) (i : Nat) (f : Team → Team) : (s.updTeam i f).dir = s.dir := rfl
@[simp] theorem updTeam_pushes (s : State) (i : Nat) (f : Team → Team) : (s.updTeam i f).pushes = s.pushes := rfl
@[simp] theorem updTeam_overlays (s : State) (i : Nat) (f : Team → Team) : (s.updTeam i f).overlays = s.overlays := rfl
@[simp] theorem updTeam_pushNums (s : State) (i : Nat) (f : Team → Team) : (s.updTeam i f).pushNums = s.pushNums := rfl
@[simp] theorem updTeam_forwards (s : State) (i : Nat) (f : Team → Team) : (s.updTeam i f).forwards = s.forwards := rfl
@[simp] theorem updTeam_writeBacks (s : State) (i : Nat) (f : Team → Team) : (s.updTeam i f).writeBacks = s.writeBacks := rfl
@[simp] theorem updTeam_posted (s : State) (i : Nat) (f : Team → Team) : (s.updTeam i f).posted = s.posted := rfl
@[simp] theorem updTeam_rmws (s : State) (i : Nat) (f : Team → Team) : (s.updTeam i f).rmws = s.rmws := rfl
@[simp] theorem updTeam_past (s : State) (i : Nat) (f : Team → Team) : (s.updTeam i f).past = s.past := rfl
@[simp] theorem updTeam_objects (s : State) (i : Nat) (f : Team → Team) : (s.updTeam i f).objects = s.objects := rfl
@[simp] theorem updTeam_tlb1 (s : State) (i : Nat) (f : Team → Team) : (s.updTeam i f).tlb1 = s.tlb1 := rfl
@[simp] theorem updTeam_tlb2 (s : State) (i : Nat) (f : Team → Team) : (s.updTeam i f).tlb2 = s.tlb2 := rfl
@[simp] theorem updTeam_saved (s : State) (i : Nat) (f : Team → Team) : (s.updTeam i f).saved = s.saved := rfl
@[simp] theorem updTeam_launches (s : State) (i : Nat) (f : Team → Team) : (s.updTeam i f).launches = s.launches := rfl
@[simp] theorem updTeam_offers (s : State) (i : Nat) (f : Team → Team) : (s.updTeam i f).offers = s.offers := rfl
@[simp] theorem updTeam_parts (s : State) (i : Nat) (f : Team → Team) : (s.updTeam i f).parts = s.parts := rfl
@[simp] theorem updTeam_cores (s : State) (i : Nat) (f : Team → Team) : (s.updTeam i f).cores = s.cores := rfl
@[simp] theorem updTeam_sups (s : State) (i : Nat) (f : Team → Team) : (s.updTeam i f).sups = s.sups := rfl
@[simp] theorem updTeam_insts (s : State) (i : Nat) (f : Team → Team) : (s.updTeam i f).insts = s.insts := rfl
@[simp] theorem updTeam_admissions (s : State) (i : Nat) (f : Team → Team) : (s.updTeam i f).admissions = s.admissions := rfl
@[simp] theorem updTeam_rings (s : State) (i : Nat) (f : Team → Team) : (s.updTeam i f).rings = s.rings := rfl
@[simp] theorem updTeam_savedRings (s : State) (i : Nat) (f : Team → Team) : (s.updTeam i f).savedRings = s.savedRings := rfl
@[simp] theorem updTeam_arrivals (s : State) (i : Nat) (f : Team → Team) : (s.updTeam i f).arrivals = s.arrivals := rfl
@[simp] theorem updTeam_sumpWrites (s : State) (i : Nat) (f : Team → Team) : (s.updTeam i f).sumpWrites = s.sumpWrites := rfl
@[simp] theorem updTeam_sumps (s : State) (i : Nat) (f : Team → Team) : (s.updTeam i f).sumps = s.sumps := rfl
@[simp] theorem updTeam_reports (s : State) (i : Nat) (f : Team → Team) : (s.updTeam i f).reports = s.reports := rfl
@[simp] theorem updTeam_handlers (s : State) (i : Nat) (f : Team → Team) : (s.updTeam i f).handlers = s.handlers := rfl
@[simp] theorem updTeam_drbase (s : State) (i : Nat) (f : Team → Team) : (s.updTeam i f).drbase = s.drbase := rfl
@[simp] theorem updTeam_drsize (s : State) (i : Nat) (f : Team → Team) : (s.updTeam i f).drsize = s.drsize := rfl
@[simp] theorem updTeam_drhead (s : State) (i : Nat) (f : Team → Team) : (s.updTeam i f).drhead = s.drhead := rfl
@[simp] theorem updTeam_drtail (s : State) (i : Nat) (f : Team → Team) : (s.updTeam i f).drtail = s.drtail := rfl
@[simp] theorem updTeam_drdrop (s : State) (i : Nat) (f : Team → Team) : (s.updTeam i f).drdrop = s.drdrop := rfl
@[simp] theorem updTeam_asidt (s : State) (i : Nat) (f : Team → Team) : (s.updTeam i f).asidt = s.asidt := rfl
@[simp] theorem updTeam_scopes (s : State) (i : Nat) (f : Team → Team) : (s.updTeam i f).scopes = s.scopes := rfl
@[simp] theorem updTeam_carves (s : State) (i : Nat) (f : Team → Team) : (s.updTeam i f).carves = s.carves := rfl
@[simp] theorem updTeam_carveDie (s : State) (i : Nat) (f : Team → Team) : (s.updTeam i f).carveDie = s.carveDie := rfl
@[simp] theorem updTeam_ptpst (s : State) (i : Nat) (f : Team → Team) : (s.updTeam i f).ptpst = s.ptpst := rfl
@[simp] theorem updTeam_ptoff (s : State) (i : Nat) (f : Team → Team) : (s.updTeam i f).ptoff = s.ptoff := rfl
@[simp] theorem updTeam_locked (s : State) (i : Nat) (f : Team → Team) : (s.updTeam i f).locked = s.locked := rfl
@[simp] theorem updTeam_bootsrv (s : State) (i : Nat) (f : Team → Team) : (s.updTeam i f).bootsrv = s.bootsrv := rfl
@[simp] theorem updTeam_hostpw (s : State) (i : Nat) (f : Team → Team) : (s.updTeam i f).hostpw = s.hostpw := rfl
@[simp] theorem updTeam_atblk (s : State) (i : Nat) (f : Team → Team) : (s.updTeam i f).atblk = s.atblk := rfl
@[simp] theorem updTeam_atstat (s : State) (i : Nat) (f : Team → Team) : (s.updTeam i f).atstat = s.atstat := rfl
@[simp] theorem updTeam_devnum (s : State) (i : Nat) (f : Team → Team) : (s.updTeam i f).devnum = s.devnum := rfl
@[simp] theorem updTeam_nrbase (s : State) (i : Nat) (f : Team → Team) : (s.updTeam i f).nrbase = s.nrbase := rfl
@[simp] theorem updTeam_nrsize (s : State) (i : Nat) (f : Team → Team) : (s.updTeam i f).nrsize = s.nrsize := rfl
@[simp] theorem updTeam_nrhead (s : State) (i : Nat) (f : Team → Team) : (s.updTeam i f).nrhead = s.nrhead := rfl
@[simp] theorem updTeam_nrtail (s : State) (i : Nat) (f : Team → Team) : (s.updTeam i f).nrtail = s.nrtail := rfl
@[simp] theorem updTeam_nrdrop (s : State) (i : Nat) (f : Team → Team) : (s.updTeam i f).nrdrop = s.nrdrop := rfl
@[simp] theorem updTeam_ntbase (s : State) (i : Nat) (f : Team → Team) : (s.updTeam i f).ntbase = s.ntbase := rfl
@[simp] theorem updTeam_ntsize (s : State) (i : Nat) (f : Team → Team) : (s.updTeam i f).ntsize = s.ntsize := rfl
@[simp] theorem updTeam_nthead (s : State) (i : Nat) (f : Team → Team) : (s.updTeam i f).nthead = s.nthead := rfl
@[simp] theorem updTeam_nttail (s : State) (i : Nat) (f : Team → Team) : (s.updTeam i f).nttail = s.nttail := rfl
@[simp] theorem updTeam_portUp (s : State) (i : Nat) (f : Team → Team) : (s.updTeam i f).portUp = s.portUp := rfl
@[simp] theorem updTeam_sentFrames (s : State) (i : Nat) (f : Team → Team) : (s.updTeam i f).sentFrames = s.sentFrames := rfl
@[simp] theorem updTeam_links (s : State) (i : Nat) (f : Team → Team) : (s.updTeam i f).links = s.links := rfl
@[simp] theorem updTeam_flows (s : State) (i : Nat) (f : Team → Team) : (s.updTeam i f).flows = s.flows := rfl
@[simp] theorem updTeam_outPort (s : State) (i : Nat) (f : Team → Team) : (s.updTeam i f).outPort = s.outPort := rfl
@[simp] theorem updTeam_noRoute (s : State) (i : Nat) (f : Team → Team) : (s.updTeam i f).noRoute = s.noRoute := rfl
@[simp] theorem updTeam_sent (s : State) (i : Nat) (f : Team → Team) : (s.updTeam i f).sent = s.sent := rfl
@[simp] theorem updTeam_invocations (s : State) (i : Nat) (f : Team → Team) : (s.updTeam i f).invocations = s.invocations := rfl
@[simp] theorem updTeam_invQueues (s : State) (i : Nat) (f : Team → Team) : (s.updTeam i f).invQueues = s.invQueues := rfl
@[simp] theorem updTeam_replyWords (s : State) (i : Nat) (f : Team → Team) : (s.updTeam i f).replyWords = s.replyWords := rfl

/-! ### State.updWave -/

@[simp] theorem updWave_time (s : State) (i w : Nat) (f : Wave → Wave) : (s.updWave i w f).time = s.time := rfl
@[simp] theorem updWave_ticks (s : State) (i w : Nat) (f : Wave → Wave) : (s.updWave i w f).ticks = s.ticks := rfl
@[simp] theorem updWave_nextId (s : State) (i w : Nat) (f : Wave → Wave) : (s.updWave i w f).nextId = s.nextId := rfl
@[simp] theorem updWave_agenda (s : State) (i w : Nat) (f : Wave → Wave) : (s.updWave i w f).agenda = s.agenda := rfl
@[simp] theorem updWave_cur (s : State) (i w : Nat) (f : Wave → Wave) : (s.updWave i w f).cur = s.cur := rfl
@[simp] theorem updWave_turn (s : State) (i w : Nat) (f : Wave → Wave) : (s.updWave i w f).turn = s.turn := rfl
@[simp] theorem updWave_boot (s : State) (i w : Nat) (f : Wave → Wave) : (s.updWave i w f).boot = s.boot := rfl
@[simp] theorem updWave_diesUp (s : State) (i w : Nat) (f : Wave → Wave) : (s.updWave i w f).diesUp = s.diesUp := rfl
@[simp] theorem updWave_diesFailed (s : State) (i w : Nat) (f : Wave → Wave) : (s.updWave i w f).diesFailed = s.diesFailed := rfl
@[simp] theorem updWave_romRequests (s : State) (i w : Nat) (f : Wave → Wave) : (s.updWave i w f).romRequests = s.romRequests := rfl
@[simp] theorem updWave_image (s : State) (i w : Nat) (f : Wave → Wave) : (s.updWave i w f).image = s.image := rfl
@[simp] theorem updWave_mem (s : State) (i w : Nat) (f : Wave → Wave) : (s.updWave i w f).mem = s.mem := rfl
@[simp] theorem updWave_lost (s : State) (i w : Nat) (f : Wave → Wave) : (s.updWave i w f).lost = s.lost := rfl
@[simp] theorem updWave_ecc (s : State) (i w : Nat) (f : Wave → Wave) : (s.updWave i w f).ecc = s.ecc := rfl
@[simp] theorem updWave_corrected (s : State) (i w : Nat) (f : Wave → Wave) : (s.updWave i w f).corrected = s.corrected := rfl
@[simp] theorem updWave_l1 (s : State) (i w : Nat) (f : Wave → Wave) : (s.updWave i w f).l1 = s.l1 := rfl
@[simp] theorem updWave_l2 (s : State) (i w : Nat) (f : Wave → Wave) : (s.updWave i w f).l2 = s.l2 := rfl
@[simp] theorem updWave_scopedCopies (s : State) (i w : Nat) (f : Wave → Wave) : (s.updWave i w f).scopedCopies = s.scopedCopies := rfl
@[simp] theorem updWave_bundleCopies (s : State) (i w : Nat) (f : Wave → Wave) : (s.updWave i w f).bundleCopies = s.bundleCopies := rfl
@[simp] theorem updWave_dir (s : State) (i w : Nat) (f : Wave → Wave) : (s.updWave i w f).dir = s.dir := rfl
@[simp] theorem updWave_pushes (s : State) (i w : Nat) (f : Wave → Wave) : (s.updWave i w f).pushes = s.pushes := rfl
@[simp] theorem updWave_overlays (s : State) (i w : Nat) (f : Wave → Wave) : (s.updWave i w f).overlays = s.overlays := rfl
@[simp] theorem updWave_pushNums (s : State) (i w : Nat) (f : Wave → Wave) : (s.updWave i w f).pushNums = s.pushNums := rfl
@[simp] theorem updWave_forwards (s : State) (i w : Nat) (f : Wave → Wave) : (s.updWave i w f).forwards = s.forwards := rfl
@[simp] theorem updWave_writeBacks (s : State) (i w : Nat) (f : Wave → Wave) : (s.updWave i w f).writeBacks = s.writeBacks := rfl
@[simp] theorem updWave_posted (s : State) (i w : Nat) (f : Wave → Wave) : (s.updWave i w f).posted = s.posted := rfl
@[simp] theorem updWave_rmws (s : State) (i w : Nat) (f : Wave → Wave) : (s.updWave i w f).rmws = s.rmws := rfl
@[simp] theorem updWave_past (s : State) (i w : Nat) (f : Wave → Wave) : (s.updWave i w f).past = s.past := rfl
@[simp] theorem updWave_objects (s : State) (i w : Nat) (f : Wave → Wave) : (s.updWave i w f).objects = s.objects := rfl
@[simp] theorem updWave_tlb1 (s : State) (i w : Nat) (f : Wave → Wave) : (s.updWave i w f).tlb1 = s.tlb1 := rfl
@[simp] theorem updWave_tlb2 (s : State) (i w : Nat) (f : Wave → Wave) : (s.updWave i w f).tlb2 = s.tlb2 := rfl
@[simp] theorem updWave_saved (s : State) (i w : Nat) (f : Wave → Wave) : (s.updWave i w f).saved = s.saved := rfl
@[simp] theorem updWave_launches (s : State) (i w : Nat) (f : Wave → Wave) : (s.updWave i w f).launches = s.launches := rfl
@[simp] theorem updWave_offers (s : State) (i w : Nat) (f : Wave → Wave) : (s.updWave i w f).offers = s.offers := rfl
@[simp] theorem updWave_parts (s : State) (i w : Nat) (f : Wave → Wave) : (s.updWave i w f).parts = s.parts := rfl
@[simp] theorem updWave_cores (s : State) (i w : Nat) (f : Wave → Wave) : (s.updWave i w f).cores = s.cores := rfl
@[simp] theorem updWave_sups (s : State) (i w : Nat) (f : Wave → Wave) : (s.updWave i w f).sups = s.sups := rfl
@[simp] theorem updWave_insts (s : State) (i w : Nat) (f : Wave → Wave) : (s.updWave i w f).insts = s.insts := rfl
@[simp] theorem updWave_admissions (s : State) (i w : Nat) (f : Wave → Wave) : (s.updWave i w f).admissions = s.admissions := rfl
@[simp] theorem updWave_rings (s : State) (i w : Nat) (f : Wave → Wave) : (s.updWave i w f).rings = s.rings := rfl
@[simp] theorem updWave_savedRings (s : State) (i w : Nat) (f : Wave → Wave) : (s.updWave i w f).savedRings = s.savedRings := rfl
@[simp] theorem updWave_arrivals (s : State) (i w : Nat) (f : Wave → Wave) : (s.updWave i w f).arrivals = s.arrivals := rfl
@[simp] theorem updWave_sumpWrites (s : State) (i w : Nat) (f : Wave → Wave) : (s.updWave i w f).sumpWrites = s.sumpWrites := rfl
@[simp] theorem updWave_sumps (s : State) (i w : Nat) (f : Wave → Wave) : (s.updWave i w f).sumps = s.sumps := rfl
@[simp] theorem updWave_reports (s : State) (i w : Nat) (f : Wave → Wave) : (s.updWave i w f).reports = s.reports := rfl
@[simp] theorem updWave_handlers (s : State) (i w : Nat) (f : Wave → Wave) : (s.updWave i w f).handlers = s.handlers := rfl
@[simp] theorem updWave_drbase (s : State) (i w : Nat) (f : Wave → Wave) : (s.updWave i w f).drbase = s.drbase := rfl
@[simp] theorem updWave_drsize (s : State) (i w : Nat) (f : Wave → Wave) : (s.updWave i w f).drsize = s.drsize := rfl
@[simp] theorem updWave_drhead (s : State) (i w : Nat) (f : Wave → Wave) : (s.updWave i w f).drhead = s.drhead := rfl
@[simp] theorem updWave_drtail (s : State) (i w : Nat) (f : Wave → Wave) : (s.updWave i w f).drtail = s.drtail := rfl
@[simp] theorem updWave_drdrop (s : State) (i w : Nat) (f : Wave → Wave) : (s.updWave i w f).drdrop = s.drdrop := rfl
@[simp] theorem updWave_asidt (s : State) (i w : Nat) (f : Wave → Wave) : (s.updWave i w f).asidt = s.asidt := rfl
@[simp] theorem updWave_scopes (s : State) (i w : Nat) (f : Wave → Wave) : (s.updWave i w f).scopes = s.scopes := rfl
@[simp] theorem updWave_carves (s : State) (i w : Nat) (f : Wave → Wave) : (s.updWave i w f).carves = s.carves := rfl
@[simp] theorem updWave_carveDie (s : State) (i w : Nat) (f : Wave → Wave) : (s.updWave i w f).carveDie = s.carveDie := rfl
@[simp] theorem updWave_ptpst (s : State) (i w : Nat) (f : Wave → Wave) : (s.updWave i w f).ptpst = s.ptpst := rfl
@[simp] theorem updWave_ptoff (s : State) (i w : Nat) (f : Wave → Wave) : (s.updWave i w f).ptoff = s.ptoff := rfl
@[simp] theorem updWave_locked (s : State) (i w : Nat) (f : Wave → Wave) : (s.updWave i w f).locked = s.locked := rfl
@[simp] theorem updWave_bootsrv (s : State) (i w : Nat) (f : Wave → Wave) : (s.updWave i w f).bootsrv = s.bootsrv := rfl
@[simp] theorem updWave_hostpw (s : State) (i w : Nat) (f : Wave → Wave) : (s.updWave i w f).hostpw = s.hostpw := rfl
@[simp] theorem updWave_atblk (s : State) (i w : Nat) (f : Wave → Wave) : (s.updWave i w f).atblk = s.atblk := rfl
@[simp] theorem updWave_atstat (s : State) (i w : Nat) (f : Wave → Wave) : (s.updWave i w f).atstat = s.atstat := rfl
@[simp] theorem updWave_devnum (s : State) (i w : Nat) (f : Wave → Wave) : (s.updWave i w f).devnum = s.devnum := rfl
@[simp] theorem updWave_nrbase (s : State) (i w : Nat) (f : Wave → Wave) : (s.updWave i w f).nrbase = s.nrbase := rfl
@[simp] theorem updWave_nrsize (s : State) (i w : Nat) (f : Wave → Wave) : (s.updWave i w f).nrsize = s.nrsize := rfl
@[simp] theorem updWave_nrhead (s : State) (i w : Nat) (f : Wave → Wave) : (s.updWave i w f).nrhead = s.nrhead := rfl
@[simp] theorem updWave_nrtail (s : State) (i w : Nat) (f : Wave → Wave) : (s.updWave i w f).nrtail = s.nrtail := rfl
@[simp] theorem updWave_nrdrop (s : State) (i w : Nat) (f : Wave → Wave) : (s.updWave i w f).nrdrop = s.nrdrop := rfl
@[simp] theorem updWave_ntbase (s : State) (i w : Nat) (f : Wave → Wave) : (s.updWave i w f).ntbase = s.ntbase := rfl
@[simp] theorem updWave_ntsize (s : State) (i w : Nat) (f : Wave → Wave) : (s.updWave i w f).ntsize = s.ntsize := rfl
@[simp] theorem updWave_nthead (s : State) (i w : Nat) (f : Wave → Wave) : (s.updWave i w f).nthead = s.nthead := rfl
@[simp] theorem updWave_nttail (s : State) (i w : Nat) (f : Wave → Wave) : (s.updWave i w f).nttail = s.nttail := rfl
@[simp] theorem updWave_portUp (s : State) (i w : Nat) (f : Wave → Wave) : (s.updWave i w f).portUp = s.portUp := rfl
@[simp] theorem updWave_sentFrames (s : State) (i w : Nat) (f : Wave → Wave) : (s.updWave i w f).sentFrames = s.sentFrames := rfl
@[simp] theorem updWave_links (s : State) (i w : Nat) (f : Wave → Wave) : (s.updWave i w f).links = s.links := rfl
@[simp] theorem updWave_flows (s : State) (i w : Nat) (f : Wave → Wave) : (s.updWave i w f).flows = s.flows := rfl
@[simp] theorem updWave_outPort (s : State) (i w : Nat) (f : Wave → Wave) : (s.updWave i w f).outPort = s.outPort := rfl
@[simp] theorem updWave_noRoute (s : State) (i w : Nat) (f : Wave → Wave) : (s.updWave i w f).noRoute = s.noRoute := rfl
@[simp] theorem updWave_sent (s : State) (i w : Nat) (f : Wave → Wave) : (s.updWave i w f).sent = s.sent := rfl
@[simp] theorem updWave_invocations (s : State) (i w : Nat) (f : Wave → Wave) : (s.updWave i w f).invocations = s.invocations := rfl
@[simp] theorem updWave_invQueues (s : State) (i w : Nat) (f : Wave → Wave) : (s.updWave i w f).invQueues = s.invQueues := rfl
@[simp] theorem updWave_replyWords (s : State) (i w : Nat) (f : Wave → Wave) : (s.updWave i w f).replyWords = s.replyWords := rfl

/-! ### State.updCur -/

@[simp] theorem updCur_time (s : State) (f : Wave → Wave) : (s.updCur f).time = s.time := rfl
@[simp] theorem updCur_ticks (s : State) (f : Wave → Wave) : (s.updCur f).ticks = s.ticks := rfl
@[simp] theorem updCur_nextId (s : State) (f : Wave → Wave) : (s.updCur f).nextId = s.nextId := rfl
@[simp] theorem updCur_agenda (s : State) (f : Wave → Wave) : (s.updCur f).agenda = s.agenda := rfl
@[simp] theorem updCur_cur (s : State) (f : Wave → Wave) : (s.updCur f).cur = s.cur := rfl
@[simp] theorem updCur_turn (s : State) (f : Wave → Wave) : (s.updCur f).turn = s.turn := rfl
@[simp] theorem updCur_boot (s : State) (f : Wave → Wave) : (s.updCur f).boot = s.boot := rfl
@[simp] theorem updCur_diesUp (s : State) (f : Wave → Wave) : (s.updCur f).diesUp = s.diesUp := rfl
@[simp] theorem updCur_diesFailed (s : State) (f : Wave → Wave) : (s.updCur f).diesFailed = s.diesFailed := rfl
@[simp] theorem updCur_romRequests (s : State) (f : Wave → Wave) : (s.updCur f).romRequests = s.romRequests := rfl
@[simp] theorem updCur_image (s : State) (f : Wave → Wave) : (s.updCur f).image = s.image := rfl
@[simp] theorem updCur_mem (s : State) (f : Wave → Wave) : (s.updCur f).mem = s.mem := rfl
@[simp] theorem updCur_lost (s : State) (f : Wave → Wave) : (s.updCur f).lost = s.lost := rfl
@[simp] theorem updCur_ecc (s : State) (f : Wave → Wave) : (s.updCur f).ecc = s.ecc := rfl
@[simp] theorem updCur_corrected (s : State) (f : Wave → Wave) : (s.updCur f).corrected = s.corrected := rfl
@[simp] theorem updCur_l1 (s : State) (f : Wave → Wave) : (s.updCur f).l1 = s.l1 := rfl
@[simp] theorem updCur_l2 (s : State) (f : Wave → Wave) : (s.updCur f).l2 = s.l2 := rfl
@[simp] theorem updCur_scopedCopies (s : State) (f : Wave → Wave) : (s.updCur f).scopedCopies = s.scopedCopies := rfl
@[simp] theorem updCur_bundleCopies (s : State) (f : Wave → Wave) : (s.updCur f).bundleCopies = s.bundleCopies := rfl
@[simp] theorem updCur_dir (s : State) (f : Wave → Wave) : (s.updCur f).dir = s.dir := rfl
@[simp] theorem updCur_pushes (s : State) (f : Wave → Wave) : (s.updCur f).pushes = s.pushes := rfl
@[simp] theorem updCur_overlays (s : State) (f : Wave → Wave) : (s.updCur f).overlays = s.overlays := rfl
@[simp] theorem updCur_pushNums (s : State) (f : Wave → Wave) : (s.updCur f).pushNums = s.pushNums := rfl
@[simp] theorem updCur_forwards (s : State) (f : Wave → Wave) : (s.updCur f).forwards = s.forwards := rfl
@[simp] theorem updCur_writeBacks (s : State) (f : Wave → Wave) : (s.updCur f).writeBacks = s.writeBacks := rfl
@[simp] theorem updCur_posted (s : State) (f : Wave → Wave) : (s.updCur f).posted = s.posted := rfl
@[simp] theorem updCur_rmws (s : State) (f : Wave → Wave) : (s.updCur f).rmws = s.rmws := rfl
@[simp] theorem updCur_past (s : State) (f : Wave → Wave) : (s.updCur f).past = s.past := rfl
@[simp] theorem updCur_objects (s : State) (f : Wave → Wave) : (s.updCur f).objects = s.objects := rfl
@[simp] theorem updCur_tlb1 (s : State) (f : Wave → Wave) : (s.updCur f).tlb1 = s.tlb1 := rfl
@[simp] theorem updCur_tlb2 (s : State) (f : Wave → Wave) : (s.updCur f).tlb2 = s.tlb2 := rfl
@[simp] theorem updCur_saved (s : State) (f : Wave → Wave) : (s.updCur f).saved = s.saved := rfl
@[simp] theorem updCur_launches (s : State) (f : Wave → Wave) : (s.updCur f).launches = s.launches := rfl
@[simp] theorem updCur_offers (s : State) (f : Wave → Wave) : (s.updCur f).offers = s.offers := rfl
@[simp] theorem updCur_parts (s : State) (f : Wave → Wave) : (s.updCur f).parts = s.parts := rfl
@[simp] theorem updCur_cores (s : State) (f : Wave → Wave) : (s.updCur f).cores = s.cores := rfl
@[simp] theorem updCur_sups (s : State) (f : Wave → Wave) : (s.updCur f).sups = s.sups := rfl
@[simp] theorem updCur_insts (s : State) (f : Wave → Wave) : (s.updCur f).insts = s.insts := rfl
@[simp] theorem updCur_admissions (s : State) (f : Wave → Wave) : (s.updCur f).admissions = s.admissions := rfl
@[simp] theorem updCur_rings (s : State) (f : Wave → Wave) : (s.updCur f).rings = s.rings := rfl
@[simp] theorem updCur_savedRings (s : State) (f : Wave → Wave) : (s.updCur f).savedRings = s.savedRings := rfl
@[simp] theorem updCur_arrivals (s : State) (f : Wave → Wave) : (s.updCur f).arrivals = s.arrivals := rfl
@[simp] theorem updCur_sumpWrites (s : State) (f : Wave → Wave) : (s.updCur f).sumpWrites = s.sumpWrites := rfl
@[simp] theorem updCur_sumps (s : State) (f : Wave → Wave) : (s.updCur f).sumps = s.sumps := rfl
@[simp] theorem updCur_reports (s : State) (f : Wave → Wave) : (s.updCur f).reports = s.reports := rfl
@[simp] theorem updCur_handlers (s : State) (f : Wave → Wave) : (s.updCur f).handlers = s.handlers := rfl
@[simp] theorem updCur_drbase (s : State) (f : Wave → Wave) : (s.updCur f).drbase = s.drbase := rfl
@[simp] theorem updCur_drsize (s : State) (f : Wave → Wave) : (s.updCur f).drsize = s.drsize := rfl
@[simp] theorem updCur_drhead (s : State) (f : Wave → Wave) : (s.updCur f).drhead = s.drhead := rfl
@[simp] theorem updCur_drtail (s : State) (f : Wave → Wave) : (s.updCur f).drtail = s.drtail := rfl
@[simp] theorem updCur_drdrop (s : State) (f : Wave → Wave) : (s.updCur f).drdrop = s.drdrop := rfl
@[simp] theorem updCur_asidt (s : State) (f : Wave → Wave) : (s.updCur f).asidt = s.asidt := rfl
@[simp] theorem updCur_scopes (s : State) (f : Wave → Wave) : (s.updCur f).scopes = s.scopes := rfl
@[simp] theorem updCur_carves (s : State) (f : Wave → Wave) : (s.updCur f).carves = s.carves := rfl
@[simp] theorem updCur_carveDie (s : State) (f : Wave → Wave) : (s.updCur f).carveDie = s.carveDie := rfl
@[simp] theorem updCur_ptpst (s : State) (f : Wave → Wave) : (s.updCur f).ptpst = s.ptpst := rfl
@[simp] theorem updCur_ptoff (s : State) (f : Wave → Wave) : (s.updCur f).ptoff = s.ptoff := rfl
@[simp] theorem updCur_locked (s : State) (f : Wave → Wave) : (s.updCur f).locked = s.locked := rfl
@[simp] theorem updCur_bootsrv (s : State) (f : Wave → Wave) : (s.updCur f).bootsrv = s.bootsrv := rfl
@[simp] theorem updCur_hostpw (s : State) (f : Wave → Wave) : (s.updCur f).hostpw = s.hostpw := rfl
@[simp] theorem updCur_atblk (s : State) (f : Wave → Wave) : (s.updCur f).atblk = s.atblk := rfl
@[simp] theorem updCur_atstat (s : State) (f : Wave → Wave) : (s.updCur f).atstat = s.atstat := rfl
@[simp] theorem updCur_devnum (s : State) (f : Wave → Wave) : (s.updCur f).devnum = s.devnum := rfl
@[simp] theorem updCur_nrbase (s : State) (f : Wave → Wave) : (s.updCur f).nrbase = s.nrbase := rfl
@[simp] theorem updCur_nrsize (s : State) (f : Wave → Wave) : (s.updCur f).nrsize = s.nrsize := rfl
@[simp] theorem updCur_nrhead (s : State) (f : Wave → Wave) : (s.updCur f).nrhead = s.nrhead := rfl
@[simp] theorem updCur_nrtail (s : State) (f : Wave → Wave) : (s.updCur f).nrtail = s.nrtail := rfl
@[simp] theorem updCur_nrdrop (s : State) (f : Wave → Wave) : (s.updCur f).nrdrop = s.nrdrop := rfl
@[simp] theorem updCur_ntbase (s : State) (f : Wave → Wave) : (s.updCur f).ntbase = s.ntbase := rfl
@[simp] theorem updCur_ntsize (s : State) (f : Wave → Wave) : (s.updCur f).ntsize = s.ntsize := rfl
@[simp] theorem updCur_nthead (s : State) (f : Wave → Wave) : (s.updCur f).nthead = s.nthead := rfl
@[simp] theorem updCur_nttail (s : State) (f : Wave → Wave) : (s.updCur f).nttail = s.nttail := rfl
@[simp] theorem updCur_portUp (s : State) (f : Wave → Wave) : (s.updCur f).portUp = s.portUp := rfl
@[simp] theorem updCur_sentFrames (s : State) (f : Wave → Wave) : (s.updCur f).sentFrames = s.sentFrames := rfl
@[simp] theorem updCur_links (s : State) (f : Wave → Wave) : (s.updCur f).links = s.links := rfl
@[simp] theorem updCur_flows (s : State) (f : Wave → Wave) : (s.updCur f).flows = s.flows := rfl
@[simp] theorem updCur_outPort (s : State) (f : Wave → Wave) : (s.updCur f).outPort = s.outPort := rfl
@[simp] theorem updCur_noRoute (s : State) (f : Wave → Wave) : (s.updCur f).noRoute = s.noRoute := rfl
@[simp] theorem updCur_sent (s : State) (f : Wave → Wave) : (s.updCur f).sent = s.sent := rfl
@[simp] theorem updCur_invocations (s : State) (f : Wave → Wave) : (s.updCur f).invocations = s.invocations := rfl
@[simp] theorem updCur_invQueues (s : State) (f : Wave → Wave) : (s.updCur f).invQueues = s.invQueues := rfl
@[simp] theorem updCur_replyWords (s : State) (f : Wave → Wave) : (s.updCur f).replyWords = s.replyWords := rfl

/-! ### State.updRun -/

@[simp] theorem updRun_time (s : State) (f : Run → Run) : (s.updRun f).time = s.time := rfl
@[simp] theorem updRun_ticks (s : State) (f : Run → Run) : (s.updRun f).ticks = s.ticks := rfl
@[simp] theorem updRun_nextId (s : State) (f : Run → Run) : (s.updRun f).nextId = s.nextId := rfl
@[simp] theorem updRun_agenda (s : State) (f : Run → Run) : (s.updRun f).agenda = s.agenda := rfl
@[simp] theorem updRun_cur (s : State) (f : Run → Run) : (s.updRun f).cur = s.cur := rfl
@[simp] theorem updRun_turn (s : State) (f : Run → Run) : (s.updRun f).turn = s.turn := rfl
@[simp] theorem updRun_boot (s : State) (f : Run → Run) : (s.updRun f).boot = s.boot := rfl
@[simp] theorem updRun_diesUp (s : State) (f : Run → Run) : (s.updRun f).diesUp = s.diesUp := rfl
@[simp] theorem updRun_diesFailed (s : State) (f : Run → Run) : (s.updRun f).diesFailed = s.diesFailed := rfl
@[simp] theorem updRun_romRequests (s : State) (f : Run → Run) : (s.updRun f).romRequests = s.romRequests := rfl
@[simp] theorem updRun_image (s : State) (f : Run → Run) : (s.updRun f).image = s.image := rfl
@[simp] theorem updRun_mem (s : State) (f : Run → Run) : (s.updRun f).mem = s.mem := rfl
@[simp] theorem updRun_lost (s : State) (f : Run → Run) : (s.updRun f).lost = s.lost := rfl
@[simp] theorem updRun_ecc (s : State) (f : Run → Run) : (s.updRun f).ecc = s.ecc := rfl
@[simp] theorem updRun_corrected (s : State) (f : Run → Run) : (s.updRun f).corrected = s.corrected := rfl
@[simp] theorem updRun_l1 (s : State) (f : Run → Run) : (s.updRun f).l1 = s.l1 := rfl
@[simp] theorem updRun_l2 (s : State) (f : Run → Run) : (s.updRun f).l2 = s.l2 := rfl
@[simp] theorem updRun_scopedCopies (s : State) (f : Run → Run) : (s.updRun f).scopedCopies = s.scopedCopies := rfl
@[simp] theorem updRun_bundleCopies (s : State) (f : Run → Run) : (s.updRun f).bundleCopies = s.bundleCopies := rfl
@[simp] theorem updRun_dir (s : State) (f : Run → Run) : (s.updRun f).dir = s.dir := rfl
@[simp] theorem updRun_pushes (s : State) (f : Run → Run) : (s.updRun f).pushes = s.pushes := rfl
@[simp] theorem updRun_overlays (s : State) (f : Run → Run) : (s.updRun f).overlays = s.overlays := rfl
@[simp] theorem updRun_pushNums (s : State) (f : Run → Run) : (s.updRun f).pushNums = s.pushNums := rfl
@[simp] theorem updRun_forwards (s : State) (f : Run → Run) : (s.updRun f).forwards = s.forwards := rfl
@[simp] theorem updRun_writeBacks (s : State) (f : Run → Run) : (s.updRun f).writeBacks = s.writeBacks := rfl
@[simp] theorem updRun_posted (s : State) (f : Run → Run) : (s.updRun f).posted = s.posted := rfl
@[simp] theorem updRun_rmws (s : State) (f : Run → Run) : (s.updRun f).rmws = s.rmws := rfl
@[simp] theorem updRun_past (s : State) (f : Run → Run) : (s.updRun f).past = s.past := rfl
@[simp] theorem updRun_objects (s : State) (f : Run → Run) : (s.updRun f).objects = s.objects := rfl
@[simp] theorem updRun_tlb1 (s : State) (f : Run → Run) : (s.updRun f).tlb1 = s.tlb1 := rfl
@[simp] theorem updRun_tlb2 (s : State) (f : Run → Run) : (s.updRun f).tlb2 = s.tlb2 := rfl
@[simp] theorem updRun_saved (s : State) (f : Run → Run) : (s.updRun f).saved = s.saved := rfl
@[simp] theorem updRun_launches (s : State) (f : Run → Run) : (s.updRun f).launches = s.launches := rfl
@[simp] theorem updRun_offers (s : State) (f : Run → Run) : (s.updRun f).offers = s.offers := rfl
@[simp] theorem updRun_parts (s : State) (f : Run → Run) : (s.updRun f).parts = s.parts := rfl
@[simp] theorem updRun_cores (s : State) (f : Run → Run) : (s.updRun f).cores = s.cores := rfl
@[simp] theorem updRun_sups (s : State) (f : Run → Run) : (s.updRun f).sups = s.sups := rfl
@[simp] theorem updRun_insts (s : State) (f : Run → Run) : (s.updRun f).insts = s.insts := rfl
@[simp] theorem updRun_admissions (s : State) (f : Run → Run) : (s.updRun f).admissions = s.admissions := rfl
@[simp] theorem updRun_rings (s : State) (f : Run → Run) : (s.updRun f).rings = s.rings := rfl
@[simp] theorem updRun_savedRings (s : State) (f : Run → Run) : (s.updRun f).savedRings = s.savedRings := rfl
@[simp] theorem updRun_arrivals (s : State) (f : Run → Run) : (s.updRun f).arrivals = s.arrivals := rfl
@[simp] theorem updRun_sumpWrites (s : State) (f : Run → Run) : (s.updRun f).sumpWrites = s.sumpWrites := rfl
@[simp] theorem updRun_sumps (s : State) (f : Run → Run) : (s.updRun f).sumps = s.sumps := rfl
@[simp] theorem updRun_reports (s : State) (f : Run → Run) : (s.updRun f).reports = s.reports := rfl
@[simp] theorem updRun_handlers (s : State) (f : Run → Run) : (s.updRun f).handlers = s.handlers := rfl
@[simp] theorem updRun_drbase (s : State) (f : Run → Run) : (s.updRun f).drbase = s.drbase := rfl
@[simp] theorem updRun_drsize (s : State) (f : Run → Run) : (s.updRun f).drsize = s.drsize := rfl
@[simp] theorem updRun_drhead (s : State) (f : Run → Run) : (s.updRun f).drhead = s.drhead := rfl
@[simp] theorem updRun_drtail (s : State) (f : Run → Run) : (s.updRun f).drtail = s.drtail := rfl
@[simp] theorem updRun_drdrop (s : State) (f : Run → Run) : (s.updRun f).drdrop = s.drdrop := rfl
@[simp] theorem updRun_asidt (s : State) (f : Run → Run) : (s.updRun f).asidt = s.asidt := rfl
@[simp] theorem updRun_scopes (s : State) (f : Run → Run) : (s.updRun f).scopes = s.scopes := rfl
@[simp] theorem updRun_carves (s : State) (f : Run → Run) : (s.updRun f).carves = s.carves := rfl
@[simp] theorem updRun_carveDie (s : State) (f : Run → Run) : (s.updRun f).carveDie = s.carveDie := rfl
@[simp] theorem updRun_ptpst (s : State) (f : Run → Run) : (s.updRun f).ptpst = s.ptpst := rfl
@[simp] theorem updRun_ptoff (s : State) (f : Run → Run) : (s.updRun f).ptoff = s.ptoff := rfl
@[simp] theorem updRun_locked (s : State) (f : Run → Run) : (s.updRun f).locked = s.locked := rfl
@[simp] theorem updRun_bootsrv (s : State) (f : Run → Run) : (s.updRun f).bootsrv = s.bootsrv := rfl
@[simp] theorem updRun_hostpw (s : State) (f : Run → Run) : (s.updRun f).hostpw = s.hostpw := rfl
@[simp] theorem updRun_atblk (s : State) (f : Run → Run) : (s.updRun f).atblk = s.atblk := rfl
@[simp] theorem updRun_atstat (s : State) (f : Run → Run) : (s.updRun f).atstat = s.atstat := rfl
@[simp] theorem updRun_devnum (s : State) (f : Run → Run) : (s.updRun f).devnum = s.devnum := rfl
@[simp] theorem updRun_nrbase (s : State) (f : Run → Run) : (s.updRun f).nrbase = s.nrbase := rfl
@[simp] theorem updRun_nrsize (s : State) (f : Run → Run) : (s.updRun f).nrsize = s.nrsize := rfl
@[simp] theorem updRun_nrhead (s : State) (f : Run → Run) : (s.updRun f).nrhead = s.nrhead := rfl
@[simp] theorem updRun_nrtail (s : State) (f : Run → Run) : (s.updRun f).nrtail = s.nrtail := rfl
@[simp] theorem updRun_nrdrop (s : State) (f : Run → Run) : (s.updRun f).nrdrop = s.nrdrop := rfl
@[simp] theorem updRun_ntbase (s : State) (f : Run → Run) : (s.updRun f).ntbase = s.ntbase := rfl
@[simp] theorem updRun_ntsize (s : State) (f : Run → Run) : (s.updRun f).ntsize = s.ntsize := rfl
@[simp] theorem updRun_nthead (s : State) (f : Run → Run) : (s.updRun f).nthead = s.nthead := rfl
@[simp] theorem updRun_nttail (s : State) (f : Run → Run) : (s.updRun f).nttail = s.nttail := rfl
@[simp] theorem updRun_portUp (s : State) (f : Run → Run) : (s.updRun f).portUp = s.portUp := rfl
@[simp] theorem updRun_sentFrames (s : State) (f : Run → Run) : (s.updRun f).sentFrames = s.sentFrames := rfl
@[simp] theorem updRun_links (s : State) (f : Run → Run) : (s.updRun f).links = s.links := rfl
@[simp] theorem updRun_flows (s : State) (f : Run → Run) : (s.updRun f).flows = s.flows := rfl
@[simp] theorem updRun_outPort (s : State) (f : Run → Run) : (s.updRun f).outPort = s.outPort := rfl
@[simp] theorem updRun_noRoute (s : State) (f : Run → Run) : (s.updRun f).noRoute = s.noRoute := rfl
@[simp] theorem updRun_sent (s : State) (f : Run → Run) : (s.updRun f).sent = s.sent := rfl
@[simp] theorem updRun_invocations (s : State) (f : Run → Run) : (s.updRun f).invocations = s.invocations := rfl
@[simp] theorem updRun_invQueues (s : State) (f : Run → Run) : (s.updRun f).invQueues = s.invQueues := rfl
@[simp] theorem updRun_replyWords (s : State) (f : Run → Run) : (s.updRun f).replyWords = s.replyWords := rfl

/-! ### State.updLaunch -/

@[simp] theorem updLaunch_time (s : State) (i : Nat) (f : Launch → Launch) : (s.updLaunch i f).time = s.time := rfl
@[simp] theorem updLaunch_ticks (s : State) (i : Nat) (f : Launch → Launch) : (s.updLaunch i f).ticks = s.ticks := rfl
@[simp] theorem updLaunch_nextId (s : State) (i : Nat) (f : Launch → Launch) : (s.updLaunch i f).nextId = s.nextId := rfl
@[simp] theorem updLaunch_agenda (s : State) (i : Nat) (f : Launch → Launch) : (s.updLaunch i f).agenda = s.agenda := rfl
@[simp] theorem updLaunch_cur (s : State) (i : Nat) (f : Launch → Launch) : (s.updLaunch i f).cur = s.cur := rfl
@[simp] theorem updLaunch_turn (s : State) (i : Nat) (f : Launch → Launch) : (s.updLaunch i f).turn = s.turn := rfl
@[simp] theorem updLaunch_boot (s : State) (i : Nat) (f : Launch → Launch) : (s.updLaunch i f).boot = s.boot := rfl
@[simp] theorem updLaunch_diesUp (s : State) (i : Nat) (f : Launch → Launch) : (s.updLaunch i f).diesUp = s.diesUp := rfl
@[simp] theorem updLaunch_diesFailed (s : State) (i : Nat) (f : Launch → Launch) : (s.updLaunch i f).diesFailed = s.diesFailed := rfl
@[simp] theorem updLaunch_romRequests (s : State) (i : Nat) (f : Launch → Launch) : (s.updLaunch i f).romRequests = s.romRequests := rfl
@[simp] theorem updLaunch_image (s : State) (i : Nat) (f : Launch → Launch) : (s.updLaunch i f).image = s.image := rfl
@[simp] theorem updLaunch_mem (s : State) (i : Nat) (f : Launch → Launch) : (s.updLaunch i f).mem = s.mem := rfl
@[simp] theorem updLaunch_lost (s : State) (i : Nat) (f : Launch → Launch) : (s.updLaunch i f).lost = s.lost := rfl
@[simp] theorem updLaunch_ecc (s : State) (i : Nat) (f : Launch → Launch) : (s.updLaunch i f).ecc = s.ecc := rfl
@[simp] theorem updLaunch_corrected (s : State) (i : Nat) (f : Launch → Launch) : (s.updLaunch i f).corrected = s.corrected := rfl
@[simp] theorem updLaunch_l1 (s : State) (i : Nat) (f : Launch → Launch) : (s.updLaunch i f).l1 = s.l1 := rfl
@[simp] theorem updLaunch_l2 (s : State) (i : Nat) (f : Launch → Launch) : (s.updLaunch i f).l2 = s.l2 := rfl
@[simp] theorem updLaunch_scopedCopies (s : State) (i : Nat) (f : Launch → Launch) : (s.updLaunch i f).scopedCopies = s.scopedCopies := rfl
@[simp] theorem updLaunch_bundleCopies (s : State) (i : Nat) (f : Launch → Launch) : (s.updLaunch i f).bundleCopies = s.bundleCopies := rfl
@[simp] theorem updLaunch_dir (s : State) (i : Nat) (f : Launch → Launch) : (s.updLaunch i f).dir = s.dir := rfl
@[simp] theorem updLaunch_pushes (s : State) (i : Nat) (f : Launch → Launch) : (s.updLaunch i f).pushes = s.pushes := rfl
@[simp] theorem updLaunch_overlays (s : State) (i : Nat) (f : Launch → Launch) : (s.updLaunch i f).overlays = s.overlays := rfl
@[simp] theorem updLaunch_pushNums (s : State) (i : Nat) (f : Launch → Launch) : (s.updLaunch i f).pushNums = s.pushNums := rfl
@[simp] theorem updLaunch_forwards (s : State) (i : Nat) (f : Launch → Launch) : (s.updLaunch i f).forwards = s.forwards := rfl
@[simp] theorem updLaunch_writeBacks (s : State) (i : Nat) (f : Launch → Launch) : (s.updLaunch i f).writeBacks = s.writeBacks := rfl
@[simp] theorem updLaunch_posted (s : State) (i : Nat) (f : Launch → Launch) : (s.updLaunch i f).posted = s.posted := rfl
@[simp] theorem updLaunch_rmws (s : State) (i : Nat) (f : Launch → Launch) : (s.updLaunch i f).rmws = s.rmws := rfl
@[simp] theorem updLaunch_past (s : State) (i : Nat) (f : Launch → Launch) : (s.updLaunch i f).past = s.past := rfl
@[simp] theorem updLaunch_objects (s : State) (i : Nat) (f : Launch → Launch) : (s.updLaunch i f).objects = s.objects := rfl
@[simp] theorem updLaunch_tlb1 (s : State) (i : Nat) (f : Launch → Launch) : (s.updLaunch i f).tlb1 = s.tlb1 := rfl
@[simp] theorem updLaunch_tlb2 (s : State) (i : Nat) (f : Launch → Launch) : (s.updLaunch i f).tlb2 = s.tlb2 := rfl
@[simp] theorem updLaunch_teams (s : State) (i : Nat) (f : Launch → Launch) : (s.updLaunch i f).teams = s.teams := rfl
@[simp] theorem updLaunch_saved (s : State) (i : Nat) (f : Launch → Launch) : (s.updLaunch i f).saved = s.saved := rfl
@[simp] theorem updLaunch_offers (s : State) (i : Nat) (f : Launch → Launch) : (s.updLaunch i f).offers = s.offers := rfl
@[simp] theorem updLaunch_parts (s : State) (i : Nat) (f : Launch → Launch) : (s.updLaunch i f).parts = s.parts := rfl
@[simp] theorem updLaunch_cores (s : State) (i : Nat) (f : Launch → Launch) : (s.updLaunch i f).cores = s.cores := rfl
@[simp] theorem updLaunch_sups (s : State) (i : Nat) (f : Launch → Launch) : (s.updLaunch i f).sups = s.sups := rfl
@[simp] theorem updLaunch_insts (s : State) (i : Nat) (f : Launch → Launch) : (s.updLaunch i f).insts = s.insts := rfl
@[simp] theorem updLaunch_admissions (s : State) (i : Nat) (f : Launch → Launch) : (s.updLaunch i f).admissions = s.admissions := rfl
@[simp] theorem updLaunch_rings (s : State) (i : Nat) (f : Launch → Launch) : (s.updLaunch i f).rings = s.rings := rfl
@[simp] theorem updLaunch_savedRings (s : State) (i : Nat) (f : Launch → Launch) : (s.updLaunch i f).savedRings = s.savedRings := rfl
@[simp] theorem updLaunch_arrivals (s : State) (i : Nat) (f : Launch → Launch) : (s.updLaunch i f).arrivals = s.arrivals := rfl
@[simp] theorem updLaunch_sumpWrites (s : State) (i : Nat) (f : Launch → Launch) : (s.updLaunch i f).sumpWrites = s.sumpWrites := rfl
@[simp] theorem updLaunch_sumps (s : State) (i : Nat) (f : Launch → Launch) : (s.updLaunch i f).sumps = s.sumps := rfl
@[simp] theorem updLaunch_reports (s : State) (i : Nat) (f : Launch → Launch) : (s.updLaunch i f).reports = s.reports := rfl
@[simp] theorem updLaunch_handlers (s : State) (i : Nat) (f : Launch → Launch) : (s.updLaunch i f).handlers = s.handlers := rfl
@[simp] theorem updLaunch_drbase (s : State) (i : Nat) (f : Launch → Launch) : (s.updLaunch i f).drbase = s.drbase := rfl
@[simp] theorem updLaunch_drsize (s : State) (i : Nat) (f : Launch → Launch) : (s.updLaunch i f).drsize = s.drsize := rfl
@[simp] theorem updLaunch_drhead (s : State) (i : Nat) (f : Launch → Launch) : (s.updLaunch i f).drhead = s.drhead := rfl
@[simp] theorem updLaunch_drtail (s : State) (i : Nat) (f : Launch → Launch) : (s.updLaunch i f).drtail = s.drtail := rfl
@[simp] theorem updLaunch_drdrop (s : State) (i : Nat) (f : Launch → Launch) : (s.updLaunch i f).drdrop = s.drdrop := rfl
@[simp] theorem updLaunch_asidt (s : State) (i : Nat) (f : Launch → Launch) : (s.updLaunch i f).asidt = s.asidt := rfl
@[simp] theorem updLaunch_scopes (s : State) (i : Nat) (f : Launch → Launch) : (s.updLaunch i f).scopes = s.scopes := rfl
@[simp] theorem updLaunch_carves (s : State) (i : Nat) (f : Launch → Launch) : (s.updLaunch i f).carves = s.carves := rfl
@[simp] theorem updLaunch_carveDie (s : State) (i : Nat) (f : Launch → Launch) : (s.updLaunch i f).carveDie = s.carveDie := rfl
@[simp] theorem updLaunch_ptpst (s : State) (i : Nat) (f : Launch → Launch) : (s.updLaunch i f).ptpst = s.ptpst := rfl
@[simp] theorem updLaunch_ptoff (s : State) (i : Nat) (f : Launch → Launch) : (s.updLaunch i f).ptoff = s.ptoff := rfl
@[simp] theorem updLaunch_locked (s : State) (i : Nat) (f : Launch → Launch) : (s.updLaunch i f).locked = s.locked := rfl
@[simp] theorem updLaunch_bootsrv (s : State) (i : Nat) (f : Launch → Launch) : (s.updLaunch i f).bootsrv = s.bootsrv := rfl
@[simp] theorem updLaunch_hostpw (s : State) (i : Nat) (f : Launch → Launch) : (s.updLaunch i f).hostpw = s.hostpw := rfl
@[simp] theorem updLaunch_atblk (s : State) (i : Nat) (f : Launch → Launch) : (s.updLaunch i f).atblk = s.atblk := rfl
@[simp] theorem updLaunch_atstat (s : State) (i : Nat) (f : Launch → Launch) : (s.updLaunch i f).atstat = s.atstat := rfl
@[simp] theorem updLaunch_devnum (s : State) (i : Nat) (f : Launch → Launch) : (s.updLaunch i f).devnum = s.devnum := rfl
@[simp] theorem updLaunch_nrbase (s : State) (i : Nat) (f : Launch → Launch) : (s.updLaunch i f).nrbase = s.nrbase := rfl
@[simp] theorem updLaunch_nrsize (s : State) (i : Nat) (f : Launch → Launch) : (s.updLaunch i f).nrsize = s.nrsize := rfl
@[simp] theorem updLaunch_nrhead (s : State) (i : Nat) (f : Launch → Launch) : (s.updLaunch i f).nrhead = s.nrhead := rfl
@[simp] theorem updLaunch_nrtail (s : State) (i : Nat) (f : Launch → Launch) : (s.updLaunch i f).nrtail = s.nrtail := rfl
@[simp] theorem updLaunch_nrdrop (s : State) (i : Nat) (f : Launch → Launch) : (s.updLaunch i f).nrdrop = s.nrdrop := rfl
@[simp] theorem updLaunch_ntbase (s : State) (i : Nat) (f : Launch → Launch) : (s.updLaunch i f).ntbase = s.ntbase := rfl
@[simp] theorem updLaunch_ntsize (s : State) (i : Nat) (f : Launch → Launch) : (s.updLaunch i f).ntsize = s.ntsize := rfl
@[simp] theorem updLaunch_nthead (s : State) (i : Nat) (f : Launch → Launch) : (s.updLaunch i f).nthead = s.nthead := rfl
@[simp] theorem updLaunch_nttail (s : State) (i : Nat) (f : Launch → Launch) : (s.updLaunch i f).nttail = s.nttail := rfl
@[simp] theorem updLaunch_portUp (s : State) (i : Nat) (f : Launch → Launch) : (s.updLaunch i f).portUp = s.portUp := rfl
@[simp] theorem updLaunch_sentFrames (s : State) (i : Nat) (f : Launch → Launch) : (s.updLaunch i f).sentFrames = s.sentFrames := rfl
@[simp] theorem updLaunch_links (s : State) (i : Nat) (f : Launch → Launch) : (s.updLaunch i f).links = s.links := rfl
@[simp] theorem updLaunch_flows (s : State) (i : Nat) (f : Launch → Launch) : (s.updLaunch i f).flows = s.flows := rfl
@[simp] theorem updLaunch_outPort (s : State) (i : Nat) (f : Launch → Launch) : (s.updLaunch i f).outPort = s.outPort := rfl
@[simp] theorem updLaunch_noRoute (s : State) (i : Nat) (f : Launch → Launch) : (s.updLaunch i f).noRoute = s.noRoute := rfl
@[simp] theorem updLaunch_sent (s : State) (i : Nat) (f : Launch → Launch) : (s.updLaunch i f).sent = s.sent := rfl
@[simp] theorem updLaunch_invocations (s : State) (i : Nat) (f : Launch → Launch) : (s.updLaunch i f).invocations = s.invocations := rfl
@[simp] theorem updLaunch_invQueues (s : State) (i : Nat) (f : Launch → Launch) : (s.updLaunch i f).invQueues = s.invQueues := rfl
@[simp] theorem updLaunch_replyWords (s : State) (i : Nat) (f : Launch → Launch) : (s.updLaunch i f).replyWords = s.replyWords := rfl

/-! ### State.updPart -/

@[simp] theorem updPart_time (s : State) (p : Nat) (f : Part → Part) : (s.updPart p f).time = s.time := rfl
@[simp] theorem updPart_ticks (s : State) (p : Nat) (f : Part → Part) : (s.updPart p f).ticks = s.ticks := rfl
@[simp] theorem updPart_nextId (s : State) (p : Nat) (f : Part → Part) : (s.updPart p f).nextId = s.nextId := rfl
@[simp] theorem updPart_agenda (s : State) (p : Nat) (f : Part → Part) : (s.updPart p f).agenda = s.agenda := rfl
@[simp] theorem updPart_cur (s : State) (p : Nat) (f : Part → Part) : (s.updPart p f).cur = s.cur := rfl
@[simp] theorem updPart_turn (s : State) (p : Nat) (f : Part → Part) : (s.updPart p f).turn = s.turn := rfl
@[simp] theorem updPart_boot (s : State) (p : Nat) (f : Part → Part) : (s.updPart p f).boot = s.boot := rfl
@[simp] theorem updPart_diesUp (s : State) (p : Nat) (f : Part → Part) : (s.updPart p f).diesUp = s.diesUp := rfl
@[simp] theorem updPart_diesFailed (s : State) (p : Nat) (f : Part → Part) : (s.updPart p f).diesFailed = s.diesFailed := rfl
@[simp] theorem updPart_romRequests (s : State) (p : Nat) (f : Part → Part) : (s.updPart p f).romRequests = s.romRequests := rfl
@[simp] theorem updPart_image (s : State) (p : Nat) (f : Part → Part) : (s.updPart p f).image = s.image := rfl
@[simp] theorem updPart_mem (s : State) (p : Nat) (f : Part → Part) : (s.updPart p f).mem = s.mem := rfl
@[simp] theorem updPart_lost (s : State) (p : Nat) (f : Part → Part) : (s.updPart p f).lost = s.lost := rfl
@[simp] theorem updPart_ecc (s : State) (p : Nat) (f : Part → Part) : (s.updPart p f).ecc = s.ecc := rfl
@[simp] theorem updPart_corrected (s : State) (p : Nat) (f : Part → Part) : (s.updPart p f).corrected = s.corrected := rfl
@[simp] theorem updPart_l1 (s : State) (p : Nat) (f : Part → Part) : (s.updPart p f).l1 = s.l1 := rfl
@[simp] theorem updPart_l2 (s : State) (p : Nat) (f : Part → Part) : (s.updPart p f).l2 = s.l2 := rfl
@[simp] theorem updPart_scopedCopies (s : State) (p : Nat) (f : Part → Part) : (s.updPart p f).scopedCopies = s.scopedCopies := rfl
@[simp] theorem updPart_bundleCopies (s : State) (p : Nat) (f : Part → Part) : (s.updPart p f).bundleCopies = s.bundleCopies := rfl
@[simp] theorem updPart_dir (s : State) (p : Nat) (f : Part → Part) : (s.updPart p f).dir = s.dir := rfl
@[simp] theorem updPart_pushes (s : State) (p : Nat) (f : Part → Part) : (s.updPart p f).pushes = s.pushes := rfl
@[simp] theorem updPart_overlays (s : State) (p : Nat) (f : Part → Part) : (s.updPart p f).overlays = s.overlays := rfl
@[simp] theorem updPart_pushNums (s : State) (p : Nat) (f : Part → Part) : (s.updPart p f).pushNums = s.pushNums := rfl
@[simp] theorem updPart_forwards (s : State) (p : Nat) (f : Part → Part) : (s.updPart p f).forwards = s.forwards := rfl
@[simp] theorem updPart_writeBacks (s : State) (p : Nat) (f : Part → Part) : (s.updPart p f).writeBacks = s.writeBacks := rfl
@[simp] theorem updPart_posted (s : State) (p : Nat) (f : Part → Part) : (s.updPart p f).posted = s.posted := rfl
@[simp] theorem updPart_rmws (s : State) (p : Nat) (f : Part → Part) : (s.updPart p f).rmws = s.rmws := rfl
@[simp] theorem updPart_past (s : State) (p : Nat) (f : Part → Part) : (s.updPart p f).past = s.past := rfl
@[simp] theorem updPart_objects (s : State) (p : Nat) (f : Part → Part) : (s.updPart p f).objects = s.objects := rfl
@[simp] theorem updPart_tlb1 (s : State) (p : Nat) (f : Part → Part) : (s.updPart p f).tlb1 = s.tlb1 := rfl
@[simp] theorem updPart_tlb2 (s : State) (p : Nat) (f : Part → Part) : (s.updPart p f).tlb2 = s.tlb2 := rfl
@[simp] theorem updPart_teams (s : State) (p : Nat) (f : Part → Part) : (s.updPart p f).teams = s.teams := rfl
@[simp] theorem updPart_saved (s : State) (p : Nat) (f : Part → Part) : (s.updPart p f).saved = s.saved := rfl
@[simp] theorem updPart_launches (s : State) (p : Nat) (f : Part → Part) : (s.updPart p f).launches = s.launches := rfl
@[simp] theorem updPart_offers (s : State) (p : Nat) (f : Part → Part) : (s.updPart p f).offers = s.offers := rfl
@[simp] theorem updPart_cores (s : State) (p : Nat) (f : Part → Part) : (s.updPart p f).cores = s.cores := rfl
@[simp] theorem updPart_sups (s : State) (p : Nat) (f : Part → Part) : (s.updPart p f).sups = s.sups := rfl
@[simp] theorem updPart_insts (s : State) (p : Nat) (f : Part → Part) : (s.updPart p f).insts = s.insts := rfl
@[simp] theorem updPart_admissions (s : State) (p : Nat) (f : Part → Part) : (s.updPart p f).admissions = s.admissions := rfl
@[simp] theorem updPart_rings (s : State) (p : Nat) (f : Part → Part) : (s.updPart p f).rings = s.rings := rfl
@[simp] theorem updPart_savedRings (s : State) (p : Nat) (f : Part → Part) : (s.updPart p f).savedRings = s.savedRings := rfl
@[simp] theorem updPart_arrivals (s : State) (p : Nat) (f : Part → Part) : (s.updPart p f).arrivals = s.arrivals := rfl
@[simp] theorem updPart_sumpWrites (s : State) (p : Nat) (f : Part → Part) : (s.updPart p f).sumpWrites = s.sumpWrites := rfl
@[simp] theorem updPart_sumps (s : State) (p : Nat) (f : Part → Part) : (s.updPart p f).sumps = s.sumps := rfl
@[simp] theorem updPart_reports (s : State) (p : Nat) (f : Part → Part) : (s.updPart p f).reports = s.reports := rfl
@[simp] theorem updPart_handlers (s : State) (p : Nat) (f : Part → Part) : (s.updPart p f).handlers = s.handlers := rfl
@[simp] theorem updPart_drbase (s : State) (p : Nat) (f : Part → Part) : (s.updPart p f).drbase = s.drbase := rfl
@[simp] theorem updPart_drsize (s : State) (p : Nat) (f : Part → Part) : (s.updPart p f).drsize = s.drsize := rfl
@[simp] theorem updPart_drhead (s : State) (p : Nat) (f : Part → Part) : (s.updPart p f).drhead = s.drhead := rfl
@[simp] theorem updPart_drtail (s : State) (p : Nat) (f : Part → Part) : (s.updPart p f).drtail = s.drtail := rfl
@[simp] theorem updPart_drdrop (s : State) (p : Nat) (f : Part → Part) : (s.updPart p f).drdrop = s.drdrop := rfl
@[simp] theorem updPart_asidt (s : State) (p : Nat) (f : Part → Part) : (s.updPart p f).asidt = s.asidt := rfl
@[simp] theorem updPart_scopes (s : State) (p : Nat) (f : Part → Part) : (s.updPart p f).scopes = s.scopes := rfl
@[simp] theorem updPart_carves (s : State) (p : Nat) (f : Part → Part) : (s.updPart p f).carves = s.carves := rfl
@[simp] theorem updPart_carveDie (s : State) (p : Nat) (f : Part → Part) : (s.updPart p f).carveDie = s.carveDie := rfl
@[simp] theorem updPart_ptpst (s : State) (p : Nat) (f : Part → Part) : (s.updPart p f).ptpst = s.ptpst := rfl
@[simp] theorem updPart_ptoff (s : State) (p : Nat) (f : Part → Part) : (s.updPart p f).ptoff = s.ptoff := rfl
@[simp] theorem updPart_locked (s : State) (p : Nat) (f : Part → Part) : (s.updPart p f).locked = s.locked := rfl
@[simp] theorem updPart_bootsrv (s : State) (p : Nat) (f : Part → Part) : (s.updPart p f).bootsrv = s.bootsrv := rfl
@[simp] theorem updPart_hostpw (s : State) (p : Nat) (f : Part → Part) : (s.updPart p f).hostpw = s.hostpw := rfl
@[simp] theorem updPart_atblk (s : State) (p : Nat) (f : Part → Part) : (s.updPart p f).atblk = s.atblk := rfl
@[simp] theorem updPart_atstat (s : State) (p : Nat) (f : Part → Part) : (s.updPart p f).atstat = s.atstat := rfl
@[simp] theorem updPart_devnum (s : State) (p : Nat) (f : Part → Part) : (s.updPart p f).devnum = s.devnum := rfl
@[simp] theorem updPart_nrbase (s : State) (p : Nat) (f : Part → Part) : (s.updPart p f).nrbase = s.nrbase := rfl
@[simp] theorem updPart_nrsize (s : State) (p : Nat) (f : Part → Part) : (s.updPart p f).nrsize = s.nrsize := rfl
@[simp] theorem updPart_nrhead (s : State) (p : Nat) (f : Part → Part) : (s.updPart p f).nrhead = s.nrhead := rfl
@[simp] theorem updPart_nrtail (s : State) (p : Nat) (f : Part → Part) : (s.updPart p f).nrtail = s.nrtail := rfl
@[simp] theorem updPart_nrdrop (s : State) (p : Nat) (f : Part → Part) : (s.updPart p f).nrdrop = s.nrdrop := rfl
@[simp] theorem updPart_ntbase (s : State) (p : Nat) (f : Part → Part) : (s.updPart p f).ntbase = s.ntbase := rfl
@[simp] theorem updPart_ntsize (s : State) (p : Nat) (f : Part → Part) : (s.updPart p f).ntsize = s.ntsize := rfl
@[simp] theorem updPart_nthead (s : State) (p : Nat) (f : Part → Part) : (s.updPart p f).nthead = s.nthead := rfl
@[simp] theorem updPart_nttail (s : State) (p : Nat) (f : Part → Part) : (s.updPart p f).nttail = s.nttail := rfl
@[simp] theorem updPart_portUp (s : State) (p : Nat) (f : Part → Part) : (s.updPart p f).portUp = s.portUp := rfl
@[simp] theorem updPart_sentFrames (s : State) (p : Nat) (f : Part → Part) : (s.updPart p f).sentFrames = s.sentFrames := rfl
@[simp] theorem updPart_links (s : State) (p : Nat) (f : Part → Part) : (s.updPart p f).links = s.links := rfl
@[simp] theorem updPart_flows (s : State) (p : Nat) (f : Part → Part) : (s.updPart p f).flows = s.flows := rfl
@[simp] theorem updPart_outPort (s : State) (p : Nat) (f : Part → Part) : (s.updPart p f).outPort = s.outPort := rfl
@[simp] theorem updPart_noRoute (s : State) (p : Nat) (f : Part → Part) : (s.updPart p f).noRoute = s.noRoute := rfl
@[simp] theorem updPart_sent (s : State) (p : Nat) (f : Part → Part) : (s.updPart p f).sent = s.sent := rfl
@[simp] theorem updPart_invocations (s : State) (p : Nat) (f : Part → Part) : (s.updPart p f).invocations = s.invocations := rfl
@[simp] theorem updPart_invQueues (s : State) (p : Nat) (f : Part → Part) : (s.updPart p f).invQueues = s.invQueues := rfl
@[simp] theorem updPart_replyWords (s : State) (p : Nat) (f : Part → Part) : (s.updPart p f).replyWords = s.replyWords := rfl

/-! ### State.updCore -/

@[simp] theorem updCore_time (s : State) (i : Nat) (f : Core → Core) : (s.updCore i f).time = s.time := rfl
@[simp] theorem updCore_ticks (s : State) (i : Nat) (f : Core → Core) : (s.updCore i f).ticks = s.ticks := rfl
@[simp] theorem updCore_nextId (s : State) (i : Nat) (f : Core → Core) : (s.updCore i f).nextId = s.nextId := rfl
@[simp] theorem updCore_agenda (s : State) (i : Nat) (f : Core → Core) : (s.updCore i f).agenda = s.agenda := rfl
@[simp] theorem updCore_cur (s : State) (i : Nat) (f : Core → Core) : (s.updCore i f).cur = s.cur := rfl
@[simp] theorem updCore_turn (s : State) (i : Nat) (f : Core → Core) : (s.updCore i f).turn = s.turn := rfl
@[simp] theorem updCore_boot (s : State) (i : Nat) (f : Core → Core) : (s.updCore i f).boot = s.boot := rfl
@[simp] theorem updCore_diesUp (s : State) (i : Nat) (f : Core → Core) : (s.updCore i f).diesUp = s.diesUp := rfl
@[simp] theorem updCore_diesFailed (s : State) (i : Nat) (f : Core → Core) : (s.updCore i f).diesFailed = s.diesFailed := rfl
@[simp] theorem updCore_romRequests (s : State) (i : Nat) (f : Core → Core) : (s.updCore i f).romRequests = s.romRequests := rfl
@[simp] theorem updCore_image (s : State) (i : Nat) (f : Core → Core) : (s.updCore i f).image = s.image := rfl
@[simp] theorem updCore_mem (s : State) (i : Nat) (f : Core → Core) : (s.updCore i f).mem = s.mem := rfl
@[simp] theorem updCore_lost (s : State) (i : Nat) (f : Core → Core) : (s.updCore i f).lost = s.lost := rfl
@[simp] theorem updCore_ecc (s : State) (i : Nat) (f : Core → Core) : (s.updCore i f).ecc = s.ecc := rfl
@[simp] theorem updCore_corrected (s : State) (i : Nat) (f : Core → Core) : (s.updCore i f).corrected = s.corrected := rfl
@[simp] theorem updCore_l1 (s : State) (i : Nat) (f : Core → Core) : (s.updCore i f).l1 = s.l1 := rfl
@[simp] theorem updCore_l2 (s : State) (i : Nat) (f : Core → Core) : (s.updCore i f).l2 = s.l2 := rfl
@[simp] theorem updCore_scopedCopies (s : State) (i : Nat) (f : Core → Core) : (s.updCore i f).scopedCopies = s.scopedCopies := rfl
@[simp] theorem updCore_bundleCopies (s : State) (i : Nat) (f : Core → Core) : (s.updCore i f).bundleCopies = s.bundleCopies := rfl
@[simp] theorem updCore_dir (s : State) (i : Nat) (f : Core → Core) : (s.updCore i f).dir = s.dir := rfl
@[simp] theorem updCore_pushes (s : State) (i : Nat) (f : Core → Core) : (s.updCore i f).pushes = s.pushes := rfl
@[simp] theorem updCore_overlays (s : State) (i : Nat) (f : Core → Core) : (s.updCore i f).overlays = s.overlays := rfl
@[simp] theorem updCore_pushNums (s : State) (i : Nat) (f : Core → Core) : (s.updCore i f).pushNums = s.pushNums := rfl
@[simp] theorem updCore_forwards (s : State) (i : Nat) (f : Core → Core) : (s.updCore i f).forwards = s.forwards := rfl
@[simp] theorem updCore_writeBacks (s : State) (i : Nat) (f : Core → Core) : (s.updCore i f).writeBacks = s.writeBacks := rfl
@[simp] theorem updCore_posted (s : State) (i : Nat) (f : Core → Core) : (s.updCore i f).posted = s.posted := rfl
@[simp] theorem updCore_rmws (s : State) (i : Nat) (f : Core → Core) : (s.updCore i f).rmws = s.rmws := rfl
@[simp] theorem updCore_past (s : State) (i : Nat) (f : Core → Core) : (s.updCore i f).past = s.past := rfl
@[simp] theorem updCore_objects (s : State) (i : Nat) (f : Core → Core) : (s.updCore i f).objects = s.objects := rfl
@[simp] theorem updCore_tlb1 (s : State) (i : Nat) (f : Core → Core) : (s.updCore i f).tlb1 = s.tlb1 := rfl
@[simp] theorem updCore_tlb2 (s : State) (i : Nat) (f : Core → Core) : (s.updCore i f).tlb2 = s.tlb2 := rfl
@[simp] theorem updCore_teams (s : State) (i : Nat) (f : Core → Core) : (s.updCore i f).teams = s.teams := rfl
@[simp] theorem updCore_saved (s : State) (i : Nat) (f : Core → Core) : (s.updCore i f).saved = s.saved := rfl
@[simp] theorem updCore_launches (s : State) (i : Nat) (f : Core → Core) : (s.updCore i f).launches = s.launches := rfl
@[simp] theorem updCore_offers (s : State) (i : Nat) (f : Core → Core) : (s.updCore i f).offers = s.offers := rfl
@[simp] theorem updCore_parts (s : State) (i : Nat) (f : Core → Core) : (s.updCore i f).parts = s.parts := rfl
@[simp] theorem updCore_sups (s : State) (i : Nat) (f : Core → Core) : (s.updCore i f).sups = s.sups := rfl
@[simp] theorem updCore_insts (s : State) (i : Nat) (f : Core → Core) : (s.updCore i f).insts = s.insts := rfl
@[simp] theorem updCore_admissions (s : State) (i : Nat) (f : Core → Core) : (s.updCore i f).admissions = s.admissions := rfl
@[simp] theorem updCore_rings (s : State) (i : Nat) (f : Core → Core) : (s.updCore i f).rings = s.rings := rfl
@[simp] theorem updCore_savedRings (s : State) (i : Nat) (f : Core → Core) : (s.updCore i f).savedRings = s.savedRings := rfl
@[simp] theorem updCore_arrivals (s : State) (i : Nat) (f : Core → Core) : (s.updCore i f).arrivals = s.arrivals := rfl
@[simp] theorem updCore_sumpWrites (s : State) (i : Nat) (f : Core → Core) : (s.updCore i f).sumpWrites = s.sumpWrites := rfl
@[simp] theorem updCore_sumps (s : State) (i : Nat) (f : Core → Core) : (s.updCore i f).sumps = s.sumps := rfl
@[simp] theorem updCore_reports (s : State) (i : Nat) (f : Core → Core) : (s.updCore i f).reports = s.reports := rfl
@[simp] theorem updCore_handlers (s : State) (i : Nat) (f : Core → Core) : (s.updCore i f).handlers = s.handlers := rfl
@[simp] theorem updCore_drbase (s : State) (i : Nat) (f : Core → Core) : (s.updCore i f).drbase = s.drbase := rfl
@[simp] theorem updCore_drsize (s : State) (i : Nat) (f : Core → Core) : (s.updCore i f).drsize = s.drsize := rfl
@[simp] theorem updCore_drhead (s : State) (i : Nat) (f : Core → Core) : (s.updCore i f).drhead = s.drhead := rfl
@[simp] theorem updCore_drtail (s : State) (i : Nat) (f : Core → Core) : (s.updCore i f).drtail = s.drtail := rfl
@[simp] theorem updCore_drdrop (s : State) (i : Nat) (f : Core → Core) : (s.updCore i f).drdrop = s.drdrop := rfl
@[simp] theorem updCore_asidt (s : State) (i : Nat) (f : Core → Core) : (s.updCore i f).asidt = s.asidt := rfl
@[simp] theorem updCore_scopes (s : State) (i : Nat) (f : Core → Core) : (s.updCore i f).scopes = s.scopes := rfl
@[simp] theorem updCore_carves (s : State) (i : Nat) (f : Core → Core) : (s.updCore i f).carves = s.carves := rfl
@[simp] theorem updCore_carveDie (s : State) (i : Nat) (f : Core → Core) : (s.updCore i f).carveDie = s.carveDie := rfl
@[simp] theorem updCore_ptpst (s : State) (i : Nat) (f : Core → Core) : (s.updCore i f).ptpst = s.ptpst := rfl
@[simp] theorem updCore_ptoff (s : State) (i : Nat) (f : Core → Core) : (s.updCore i f).ptoff = s.ptoff := rfl
@[simp] theorem updCore_locked (s : State) (i : Nat) (f : Core → Core) : (s.updCore i f).locked = s.locked := rfl
@[simp] theorem updCore_bootsrv (s : State) (i : Nat) (f : Core → Core) : (s.updCore i f).bootsrv = s.bootsrv := rfl
@[simp] theorem updCore_hostpw (s : State) (i : Nat) (f : Core → Core) : (s.updCore i f).hostpw = s.hostpw := rfl
@[simp] theorem updCore_atblk (s : State) (i : Nat) (f : Core → Core) : (s.updCore i f).atblk = s.atblk := rfl
@[simp] theorem updCore_atstat (s : State) (i : Nat) (f : Core → Core) : (s.updCore i f).atstat = s.atstat := rfl
@[simp] theorem updCore_devnum (s : State) (i : Nat) (f : Core → Core) : (s.updCore i f).devnum = s.devnum := rfl
@[simp] theorem updCore_nrbase (s : State) (i : Nat) (f : Core → Core) : (s.updCore i f).nrbase = s.nrbase := rfl
@[simp] theorem updCore_nrsize (s : State) (i : Nat) (f : Core → Core) : (s.updCore i f).nrsize = s.nrsize := rfl
@[simp] theorem updCore_nrhead (s : State) (i : Nat) (f : Core → Core) : (s.updCore i f).nrhead = s.nrhead := rfl
@[simp] theorem updCore_nrtail (s : State) (i : Nat) (f : Core → Core) : (s.updCore i f).nrtail = s.nrtail := rfl
@[simp] theorem updCore_nrdrop (s : State) (i : Nat) (f : Core → Core) : (s.updCore i f).nrdrop = s.nrdrop := rfl
@[simp] theorem updCore_ntbase (s : State) (i : Nat) (f : Core → Core) : (s.updCore i f).ntbase = s.ntbase := rfl
@[simp] theorem updCore_ntsize (s : State) (i : Nat) (f : Core → Core) : (s.updCore i f).ntsize = s.ntsize := rfl
@[simp] theorem updCore_nthead (s : State) (i : Nat) (f : Core → Core) : (s.updCore i f).nthead = s.nthead := rfl
@[simp] theorem updCore_nttail (s : State) (i : Nat) (f : Core → Core) : (s.updCore i f).nttail = s.nttail := rfl
@[simp] theorem updCore_portUp (s : State) (i : Nat) (f : Core → Core) : (s.updCore i f).portUp = s.portUp := rfl
@[simp] theorem updCore_sentFrames (s : State) (i : Nat) (f : Core → Core) : (s.updCore i f).sentFrames = s.sentFrames := rfl
@[simp] theorem updCore_links (s : State) (i : Nat) (f : Core → Core) : (s.updCore i f).links = s.links := rfl
@[simp] theorem updCore_flows (s : State) (i : Nat) (f : Core → Core) : (s.updCore i f).flows = s.flows := rfl
@[simp] theorem updCore_outPort (s : State) (i : Nat) (f : Core → Core) : (s.updCore i f).outPort = s.outPort := rfl
@[simp] theorem updCore_noRoute (s : State) (i : Nat) (f : Core → Core) : (s.updCore i f).noRoute = s.noRoute := rfl
@[simp] theorem updCore_sent (s : State) (i : Nat) (f : Core → Core) : (s.updCore i f).sent = s.sent := rfl
@[simp] theorem updCore_invocations (s : State) (i : Nat) (f : Core → Core) : (s.updCore i f).invocations = s.invocations := rfl
@[simp] theorem updCore_invQueues (s : State) (i : Nat) (f : Core → Core) : (s.updCore i f).invQueues = s.invQueues := rfl
@[simp] theorem updCore_replyWords (s : State) (i : Nat) (f : Core → Core) : (s.updCore i f).replyWords = s.replyWords := rfl

/-! ### State.updSup -/

@[simp] theorem updSup_time (s : State) (i : Nat) (f : Sup → Sup) : (s.updSup i f).time = s.time := rfl
@[simp] theorem updSup_ticks (s : State) (i : Nat) (f : Sup → Sup) : (s.updSup i f).ticks = s.ticks := rfl
@[simp] theorem updSup_nextId (s : State) (i : Nat) (f : Sup → Sup) : (s.updSup i f).nextId = s.nextId := rfl
@[simp] theorem updSup_agenda (s : State) (i : Nat) (f : Sup → Sup) : (s.updSup i f).agenda = s.agenda := rfl
@[simp] theorem updSup_cur (s : State) (i : Nat) (f : Sup → Sup) : (s.updSup i f).cur = s.cur := rfl
@[simp] theorem updSup_turn (s : State) (i : Nat) (f : Sup → Sup) : (s.updSup i f).turn = s.turn := rfl
@[simp] theorem updSup_boot (s : State) (i : Nat) (f : Sup → Sup) : (s.updSup i f).boot = s.boot := rfl
@[simp] theorem updSup_diesUp (s : State) (i : Nat) (f : Sup → Sup) : (s.updSup i f).diesUp = s.diesUp := rfl
@[simp] theorem updSup_diesFailed (s : State) (i : Nat) (f : Sup → Sup) : (s.updSup i f).diesFailed = s.diesFailed := rfl
@[simp] theorem updSup_romRequests (s : State) (i : Nat) (f : Sup → Sup) : (s.updSup i f).romRequests = s.romRequests := rfl
@[simp] theorem updSup_image (s : State) (i : Nat) (f : Sup → Sup) : (s.updSup i f).image = s.image := rfl
@[simp] theorem updSup_mem (s : State) (i : Nat) (f : Sup → Sup) : (s.updSup i f).mem = s.mem := rfl
@[simp] theorem updSup_lost (s : State) (i : Nat) (f : Sup → Sup) : (s.updSup i f).lost = s.lost := rfl
@[simp] theorem updSup_ecc (s : State) (i : Nat) (f : Sup → Sup) : (s.updSup i f).ecc = s.ecc := rfl
@[simp] theorem updSup_corrected (s : State) (i : Nat) (f : Sup → Sup) : (s.updSup i f).corrected = s.corrected := rfl
@[simp] theorem updSup_l1 (s : State) (i : Nat) (f : Sup → Sup) : (s.updSup i f).l1 = s.l1 := rfl
@[simp] theorem updSup_l2 (s : State) (i : Nat) (f : Sup → Sup) : (s.updSup i f).l2 = s.l2 := rfl
@[simp] theorem updSup_scopedCopies (s : State) (i : Nat) (f : Sup → Sup) : (s.updSup i f).scopedCopies = s.scopedCopies := rfl
@[simp] theorem updSup_bundleCopies (s : State) (i : Nat) (f : Sup → Sup) : (s.updSup i f).bundleCopies = s.bundleCopies := rfl
@[simp] theorem updSup_dir (s : State) (i : Nat) (f : Sup → Sup) : (s.updSup i f).dir = s.dir := rfl
@[simp] theorem updSup_pushes (s : State) (i : Nat) (f : Sup → Sup) : (s.updSup i f).pushes = s.pushes := rfl
@[simp] theorem updSup_overlays (s : State) (i : Nat) (f : Sup → Sup) : (s.updSup i f).overlays = s.overlays := rfl
@[simp] theorem updSup_pushNums (s : State) (i : Nat) (f : Sup → Sup) : (s.updSup i f).pushNums = s.pushNums := rfl
@[simp] theorem updSup_forwards (s : State) (i : Nat) (f : Sup → Sup) : (s.updSup i f).forwards = s.forwards := rfl
@[simp] theorem updSup_writeBacks (s : State) (i : Nat) (f : Sup → Sup) : (s.updSup i f).writeBacks = s.writeBacks := rfl
@[simp] theorem updSup_posted (s : State) (i : Nat) (f : Sup → Sup) : (s.updSup i f).posted = s.posted := rfl
@[simp] theorem updSup_rmws (s : State) (i : Nat) (f : Sup → Sup) : (s.updSup i f).rmws = s.rmws := rfl
@[simp] theorem updSup_past (s : State) (i : Nat) (f : Sup → Sup) : (s.updSup i f).past = s.past := rfl
@[simp] theorem updSup_objects (s : State) (i : Nat) (f : Sup → Sup) : (s.updSup i f).objects = s.objects := rfl
@[simp] theorem updSup_tlb1 (s : State) (i : Nat) (f : Sup → Sup) : (s.updSup i f).tlb1 = s.tlb1 := rfl
@[simp] theorem updSup_tlb2 (s : State) (i : Nat) (f : Sup → Sup) : (s.updSup i f).tlb2 = s.tlb2 := rfl
@[simp] theorem updSup_teams (s : State) (i : Nat) (f : Sup → Sup) : (s.updSup i f).teams = s.teams := rfl
@[simp] theorem updSup_saved (s : State) (i : Nat) (f : Sup → Sup) : (s.updSup i f).saved = s.saved := rfl
@[simp] theorem updSup_launches (s : State) (i : Nat) (f : Sup → Sup) : (s.updSup i f).launches = s.launches := rfl
@[simp] theorem updSup_offers (s : State) (i : Nat) (f : Sup → Sup) : (s.updSup i f).offers = s.offers := rfl
@[simp] theorem updSup_parts (s : State) (i : Nat) (f : Sup → Sup) : (s.updSup i f).parts = s.parts := rfl
@[simp] theorem updSup_cores (s : State) (i : Nat) (f : Sup → Sup) : (s.updSup i f).cores = s.cores := rfl
@[simp] theorem updSup_insts (s : State) (i : Nat) (f : Sup → Sup) : (s.updSup i f).insts = s.insts := rfl
@[simp] theorem updSup_admissions (s : State) (i : Nat) (f : Sup → Sup) : (s.updSup i f).admissions = s.admissions := rfl
@[simp] theorem updSup_rings (s : State) (i : Nat) (f : Sup → Sup) : (s.updSup i f).rings = s.rings := rfl
@[simp] theorem updSup_savedRings (s : State) (i : Nat) (f : Sup → Sup) : (s.updSup i f).savedRings = s.savedRings := rfl
@[simp] theorem updSup_arrivals (s : State) (i : Nat) (f : Sup → Sup) : (s.updSup i f).arrivals = s.arrivals := rfl
@[simp] theorem updSup_sumpWrites (s : State) (i : Nat) (f : Sup → Sup) : (s.updSup i f).sumpWrites = s.sumpWrites := rfl
@[simp] theorem updSup_sumps (s : State) (i : Nat) (f : Sup → Sup) : (s.updSup i f).sumps = s.sumps := rfl
@[simp] theorem updSup_reports (s : State) (i : Nat) (f : Sup → Sup) : (s.updSup i f).reports = s.reports := rfl
@[simp] theorem updSup_handlers (s : State) (i : Nat) (f : Sup → Sup) : (s.updSup i f).handlers = s.handlers := rfl
@[simp] theorem updSup_drbase (s : State) (i : Nat) (f : Sup → Sup) : (s.updSup i f).drbase = s.drbase := rfl
@[simp] theorem updSup_drsize (s : State) (i : Nat) (f : Sup → Sup) : (s.updSup i f).drsize = s.drsize := rfl
@[simp] theorem updSup_drhead (s : State) (i : Nat) (f : Sup → Sup) : (s.updSup i f).drhead = s.drhead := rfl
@[simp] theorem updSup_drtail (s : State) (i : Nat) (f : Sup → Sup) : (s.updSup i f).drtail = s.drtail := rfl
@[simp] theorem updSup_drdrop (s : State) (i : Nat) (f : Sup → Sup) : (s.updSup i f).drdrop = s.drdrop := rfl
@[simp] theorem updSup_asidt (s : State) (i : Nat) (f : Sup → Sup) : (s.updSup i f).asidt = s.asidt := rfl
@[simp] theorem updSup_scopes (s : State) (i : Nat) (f : Sup → Sup) : (s.updSup i f).scopes = s.scopes := rfl
@[simp] theorem updSup_carves (s : State) (i : Nat) (f : Sup → Sup) : (s.updSup i f).carves = s.carves := rfl
@[simp] theorem updSup_carveDie (s : State) (i : Nat) (f : Sup → Sup) : (s.updSup i f).carveDie = s.carveDie := rfl
@[simp] theorem updSup_ptpst (s : State) (i : Nat) (f : Sup → Sup) : (s.updSup i f).ptpst = s.ptpst := rfl
@[simp] theorem updSup_ptoff (s : State) (i : Nat) (f : Sup → Sup) : (s.updSup i f).ptoff = s.ptoff := rfl
@[simp] theorem updSup_locked (s : State) (i : Nat) (f : Sup → Sup) : (s.updSup i f).locked = s.locked := rfl
@[simp] theorem updSup_bootsrv (s : State) (i : Nat) (f : Sup → Sup) : (s.updSup i f).bootsrv = s.bootsrv := rfl
@[simp] theorem updSup_hostpw (s : State) (i : Nat) (f : Sup → Sup) : (s.updSup i f).hostpw = s.hostpw := rfl
@[simp] theorem updSup_atblk (s : State) (i : Nat) (f : Sup → Sup) : (s.updSup i f).atblk = s.atblk := rfl
@[simp] theorem updSup_atstat (s : State) (i : Nat) (f : Sup → Sup) : (s.updSup i f).atstat = s.atstat := rfl
@[simp] theorem updSup_devnum (s : State) (i : Nat) (f : Sup → Sup) : (s.updSup i f).devnum = s.devnum := rfl
@[simp] theorem updSup_nrbase (s : State) (i : Nat) (f : Sup → Sup) : (s.updSup i f).nrbase = s.nrbase := rfl
@[simp] theorem updSup_nrsize (s : State) (i : Nat) (f : Sup → Sup) : (s.updSup i f).nrsize = s.nrsize := rfl
@[simp] theorem updSup_nrhead (s : State) (i : Nat) (f : Sup → Sup) : (s.updSup i f).nrhead = s.nrhead := rfl
@[simp] theorem updSup_nrtail (s : State) (i : Nat) (f : Sup → Sup) : (s.updSup i f).nrtail = s.nrtail := rfl
@[simp] theorem updSup_nrdrop (s : State) (i : Nat) (f : Sup → Sup) : (s.updSup i f).nrdrop = s.nrdrop := rfl
@[simp] theorem updSup_ntbase (s : State) (i : Nat) (f : Sup → Sup) : (s.updSup i f).ntbase = s.ntbase := rfl
@[simp] theorem updSup_ntsize (s : State) (i : Nat) (f : Sup → Sup) : (s.updSup i f).ntsize = s.ntsize := rfl
@[simp] theorem updSup_nthead (s : State) (i : Nat) (f : Sup → Sup) : (s.updSup i f).nthead = s.nthead := rfl
@[simp] theorem updSup_nttail (s : State) (i : Nat) (f : Sup → Sup) : (s.updSup i f).nttail = s.nttail := rfl
@[simp] theorem updSup_portUp (s : State) (i : Nat) (f : Sup → Sup) : (s.updSup i f).portUp = s.portUp := rfl
@[simp] theorem updSup_sentFrames (s : State) (i : Nat) (f : Sup → Sup) : (s.updSup i f).sentFrames = s.sentFrames := rfl
@[simp] theorem updSup_links (s : State) (i : Nat) (f : Sup → Sup) : (s.updSup i f).links = s.links := rfl
@[simp] theorem updSup_flows (s : State) (i : Nat) (f : Sup → Sup) : (s.updSup i f).flows = s.flows := rfl
@[simp] theorem updSup_outPort (s : State) (i : Nat) (f : Sup → Sup) : (s.updSup i f).outPort = s.outPort := rfl
@[simp] theorem updSup_noRoute (s : State) (i : Nat) (f : Sup → Sup) : (s.updSup i f).noRoute = s.noRoute := rfl
@[simp] theorem updSup_sent (s : State) (i : Nat) (f : Sup → Sup) : (s.updSup i f).sent = s.sent := rfl
@[simp] theorem updSup_invocations (s : State) (i : Nat) (f : Sup → Sup) : (s.updSup i f).invocations = s.invocations := rfl
@[simp] theorem updSup_invQueues (s : State) (i : Nat) (f : Sup → Sup) : (s.updSup i f).invQueues = s.invQueues := rfl
@[simp] theorem updSup_replyWords (s : State) (i : Nat) (f : Sup → Sup) : (s.updSup i f).replyWords = s.replyWords := rfl

/-! ### State.latchAll -/

@[simp] theorem latchAll_time (s : State) (b : Nat) : (s.latchAll b).time = s.time := rfl
@[simp] theorem latchAll_ticks (s : State) (b : Nat) : (s.latchAll b).ticks = s.ticks := rfl
@[simp] theorem latchAll_nextId (s : State) (b : Nat) : (s.latchAll b).nextId = s.nextId := rfl
@[simp] theorem latchAll_agenda (s : State) (b : Nat) : (s.latchAll b).agenda = s.agenda := rfl
@[simp] theorem latchAll_cur (s : State) (b : Nat) : (s.latchAll b).cur = s.cur := rfl
@[simp] theorem latchAll_turn (s : State) (b : Nat) : (s.latchAll b).turn = s.turn := rfl
@[simp] theorem latchAll_boot (s : State) (b : Nat) : (s.latchAll b).boot = s.boot := rfl
@[simp] theorem latchAll_diesUp (s : State) (b : Nat) : (s.latchAll b).diesUp = s.diesUp := rfl
@[simp] theorem latchAll_diesFailed (s : State) (b : Nat) : (s.latchAll b).diesFailed = s.diesFailed := rfl
@[simp] theorem latchAll_romRequests (s : State) (b : Nat) : (s.latchAll b).romRequests = s.romRequests := rfl
@[simp] theorem latchAll_image (s : State) (b : Nat) : (s.latchAll b).image = s.image := rfl
@[simp] theorem latchAll_mem (s : State) (b : Nat) : (s.latchAll b).mem = s.mem := rfl
@[simp] theorem latchAll_lost (s : State) (b : Nat) : (s.latchAll b).lost = s.lost := rfl
@[simp] theorem latchAll_ecc (s : State) (b : Nat) : (s.latchAll b).ecc = s.ecc := rfl
@[simp] theorem latchAll_corrected (s : State) (b : Nat) : (s.latchAll b).corrected = s.corrected := rfl
@[simp] theorem latchAll_l1 (s : State) (b : Nat) : (s.latchAll b).l1 = s.l1 := rfl
@[simp] theorem latchAll_l2 (s : State) (b : Nat) : (s.latchAll b).l2 = s.l2 := rfl
@[simp] theorem latchAll_scopedCopies (s : State) (b : Nat) : (s.latchAll b).scopedCopies = s.scopedCopies := rfl
@[simp] theorem latchAll_bundleCopies (s : State) (b : Nat) : (s.latchAll b).bundleCopies = s.bundleCopies := rfl
@[simp] theorem latchAll_dir (s : State) (b : Nat) : (s.latchAll b).dir = s.dir := rfl
@[simp] theorem latchAll_pushes (s : State) (b : Nat) : (s.latchAll b).pushes = s.pushes := rfl
@[simp] theorem latchAll_overlays (s : State) (b : Nat) : (s.latchAll b).overlays = s.overlays := rfl
@[simp] theorem latchAll_pushNums (s : State) (b : Nat) : (s.latchAll b).pushNums = s.pushNums := rfl
@[simp] theorem latchAll_forwards (s : State) (b : Nat) : (s.latchAll b).forwards = s.forwards := rfl
@[simp] theorem latchAll_writeBacks (s : State) (b : Nat) : (s.latchAll b).writeBacks = s.writeBacks := rfl
@[simp] theorem latchAll_posted (s : State) (b : Nat) : (s.latchAll b).posted = s.posted := rfl
@[simp] theorem latchAll_rmws (s : State) (b : Nat) : (s.latchAll b).rmws = s.rmws := rfl
@[simp] theorem latchAll_past (s : State) (b : Nat) : (s.latchAll b).past = s.past := rfl
@[simp] theorem latchAll_objects (s : State) (b : Nat) : (s.latchAll b).objects = s.objects := rfl
@[simp] theorem latchAll_tlb1 (s : State) (b : Nat) : (s.latchAll b).tlb1 = s.tlb1 := rfl
@[simp] theorem latchAll_tlb2 (s : State) (b : Nat) : (s.latchAll b).tlb2 = s.tlb2 := rfl
@[simp] theorem latchAll_teams (s : State) (b : Nat) : (s.latchAll b).teams = s.teams := rfl
@[simp] theorem latchAll_saved (s : State) (b : Nat) : (s.latchAll b).saved = s.saved := rfl
@[simp] theorem latchAll_launches (s : State) (b : Nat) : (s.latchAll b).launches = s.launches := rfl
@[simp] theorem latchAll_offers (s : State) (b : Nat) : (s.latchAll b).offers = s.offers := rfl
@[simp] theorem latchAll_parts (s : State) (b : Nat) : (s.latchAll b).parts = s.parts := rfl
@[simp] theorem latchAll_cores (s : State) (b : Nat) : (s.latchAll b).cores = s.cores := rfl
@[simp] theorem latchAll_insts (s : State) (b : Nat) : (s.latchAll b).insts = s.insts := rfl
@[simp] theorem latchAll_admissions (s : State) (b : Nat) : (s.latchAll b).admissions = s.admissions := rfl
@[simp] theorem latchAll_rings (s : State) (b : Nat) : (s.latchAll b).rings = s.rings := rfl
@[simp] theorem latchAll_savedRings (s : State) (b : Nat) : (s.latchAll b).savedRings = s.savedRings := rfl
@[simp] theorem latchAll_arrivals (s : State) (b : Nat) : (s.latchAll b).arrivals = s.arrivals := rfl
@[simp] theorem latchAll_sumpWrites (s : State) (b : Nat) : (s.latchAll b).sumpWrites = s.sumpWrites := rfl
@[simp] theorem latchAll_sumps (s : State) (b : Nat) : (s.latchAll b).sumps = s.sumps := rfl
@[simp] theorem latchAll_reports (s : State) (b : Nat) : (s.latchAll b).reports = s.reports := rfl
@[simp] theorem latchAll_handlers (s : State) (b : Nat) : (s.latchAll b).handlers = s.handlers := rfl
@[simp] theorem latchAll_drbase (s : State) (b : Nat) : (s.latchAll b).drbase = s.drbase := rfl
@[simp] theorem latchAll_drsize (s : State) (b : Nat) : (s.latchAll b).drsize = s.drsize := rfl
@[simp] theorem latchAll_drhead (s : State) (b : Nat) : (s.latchAll b).drhead = s.drhead := rfl
@[simp] theorem latchAll_drtail (s : State) (b : Nat) : (s.latchAll b).drtail = s.drtail := rfl
@[simp] theorem latchAll_drdrop (s : State) (b : Nat) : (s.latchAll b).drdrop = s.drdrop := rfl
@[simp] theorem latchAll_asidt (s : State) (b : Nat) : (s.latchAll b).asidt = s.asidt := rfl
@[simp] theorem latchAll_scopes (s : State) (b : Nat) : (s.latchAll b).scopes = s.scopes := rfl
@[simp] theorem latchAll_carves (s : State) (b : Nat) : (s.latchAll b).carves = s.carves := rfl
@[simp] theorem latchAll_carveDie (s : State) (b : Nat) : (s.latchAll b).carveDie = s.carveDie := rfl
@[simp] theorem latchAll_ptpst (s : State) (b : Nat) : (s.latchAll b).ptpst = s.ptpst := rfl
@[simp] theorem latchAll_ptoff (s : State) (b : Nat) : (s.latchAll b).ptoff = s.ptoff := rfl
@[simp] theorem latchAll_locked (s : State) (b : Nat) : (s.latchAll b).locked = s.locked := rfl
@[simp] theorem latchAll_bootsrv (s : State) (b : Nat) : (s.latchAll b).bootsrv = s.bootsrv := rfl
@[simp] theorem latchAll_hostpw (s : State) (b : Nat) : (s.latchAll b).hostpw = s.hostpw := rfl
@[simp] theorem latchAll_atblk (s : State) (b : Nat) : (s.latchAll b).atblk = s.atblk := rfl
@[simp] theorem latchAll_atstat (s : State) (b : Nat) : (s.latchAll b).atstat = s.atstat := rfl
@[simp] theorem latchAll_devnum (s : State) (b : Nat) : (s.latchAll b).devnum = s.devnum := rfl
@[simp] theorem latchAll_nrbase (s : State) (b : Nat) : (s.latchAll b).nrbase = s.nrbase := rfl
@[simp] theorem latchAll_nrsize (s : State) (b : Nat) : (s.latchAll b).nrsize = s.nrsize := rfl
@[simp] theorem latchAll_nrhead (s : State) (b : Nat) : (s.latchAll b).nrhead = s.nrhead := rfl
@[simp] theorem latchAll_nrtail (s : State) (b : Nat) : (s.latchAll b).nrtail = s.nrtail := rfl
@[simp] theorem latchAll_nrdrop (s : State) (b : Nat) : (s.latchAll b).nrdrop = s.nrdrop := rfl
@[simp] theorem latchAll_ntbase (s : State) (b : Nat) : (s.latchAll b).ntbase = s.ntbase := rfl
@[simp] theorem latchAll_ntsize (s : State) (b : Nat) : (s.latchAll b).ntsize = s.ntsize := rfl
@[simp] theorem latchAll_nthead (s : State) (b : Nat) : (s.latchAll b).nthead = s.nthead := rfl
@[simp] theorem latchAll_nttail (s : State) (b : Nat) : (s.latchAll b).nttail = s.nttail := rfl
@[simp] theorem latchAll_portUp (s : State) (b : Nat) : (s.latchAll b).portUp = s.portUp := rfl
@[simp] theorem latchAll_sentFrames (s : State) (b : Nat) : (s.latchAll b).sentFrames = s.sentFrames := rfl
@[simp] theorem latchAll_links (s : State) (b : Nat) : (s.latchAll b).links = s.links := rfl
@[simp] theorem latchAll_flows (s : State) (b : Nat) : (s.latchAll b).flows = s.flows := rfl
@[simp] theorem latchAll_outPort (s : State) (b : Nat) : (s.latchAll b).outPort = s.outPort := rfl
@[simp] theorem latchAll_noRoute (s : State) (b : Nat) : (s.latchAll b).noRoute = s.noRoute := rfl
@[simp] theorem latchAll_sent (s : State) (b : Nat) : (s.latchAll b).sent = s.sent := rfl
@[simp] theorem latchAll_invocations (s : State) (b : Nat) : (s.latchAll b).invocations = s.invocations := rfl
@[simp] theorem latchAll_invQueues (s : State) (b : Nat) : (s.latchAll b).invQueues = s.invQueues := rfl
@[simp] theorem latchAll_replyWords (s : State) (b : Nat) : (s.latchAll b).replyWords = s.replyWords := rfl

/-! ### State.haltSup -/

@[simp] theorem haltSup_time (s : State) (i : Nat) : (s.haltSup i).time = s.time := rfl
@[simp] theorem haltSup_ticks (s : State) (i : Nat) : (s.haltSup i).ticks = s.ticks := rfl
@[simp] theorem haltSup_nextId (s : State) (i : Nat) : (s.haltSup i).nextId = s.nextId := rfl
@[simp] theorem haltSup_agenda (s : State) (i : Nat) : (s.haltSup i).agenda = s.agenda := rfl
@[simp] theorem haltSup_cur (s : State) (i : Nat) : (s.haltSup i).cur = s.cur := rfl
@[simp] theorem haltSup_turn (s : State) (i : Nat) : (s.haltSup i).turn = s.turn := rfl
@[simp] theorem haltSup_boot (s : State) (i : Nat) : (s.haltSup i).boot = s.boot := rfl
@[simp] theorem haltSup_diesUp (s : State) (i : Nat) : (s.haltSup i).diesUp = s.diesUp := rfl
@[simp] theorem haltSup_diesFailed (s : State) (i : Nat) : (s.haltSup i).diesFailed = s.diesFailed := rfl
@[simp] theorem haltSup_romRequests (s : State) (i : Nat) : (s.haltSup i).romRequests = s.romRequests := rfl
@[simp] theorem haltSup_image (s : State) (i : Nat) : (s.haltSup i).image = s.image := rfl
@[simp] theorem haltSup_mem (s : State) (i : Nat) : (s.haltSup i).mem = s.mem := rfl
@[simp] theorem haltSup_lost (s : State) (i : Nat) : (s.haltSup i).lost = s.lost := rfl
@[simp] theorem haltSup_ecc (s : State) (i : Nat) : (s.haltSup i).ecc = s.ecc := rfl
@[simp] theorem haltSup_corrected (s : State) (i : Nat) : (s.haltSup i).corrected = s.corrected := rfl
@[simp] theorem haltSup_l1 (s : State) (i : Nat) : (s.haltSup i).l1 = s.l1 := rfl
@[simp] theorem haltSup_l2 (s : State) (i : Nat) : (s.haltSup i).l2 = s.l2 := rfl
@[simp] theorem haltSup_scopedCopies (s : State) (i : Nat) : (s.haltSup i).scopedCopies = s.scopedCopies := rfl
@[simp] theorem haltSup_bundleCopies (s : State) (i : Nat) : (s.haltSup i).bundleCopies = s.bundleCopies := rfl
@[simp] theorem haltSup_dir (s : State) (i : Nat) : (s.haltSup i).dir = s.dir := rfl
@[simp] theorem haltSup_pushes (s : State) (i : Nat) : (s.haltSup i).pushes = s.pushes := rfl
@[simp] theorem haltSup_overlays (s : State) (i : Nat) : (s.haltSup i).overlays = s.overlays := rfl
@[simp] theorem haltSup_pushNums (s : State) (i : Nat) : (s.haltSup i).pushNums = s.pushNums := rfl
@[simp] theorem haltSup_forwards (s : State) (i : Nat) : (s.haltSup i).forwards = s.forwards := rfl
@[simp] theorem haltSup_writeBacks (s : State) (i : Nat) : (s.haltSup i).writeBacks = s.writeBacks := rfl
@[simp] theorem haltSup_posted (s : State) (i : Nat) : (s.haltSup i).posted = s.posted := rfl
@[simp] theorem haltSup_rmws (s : State) (i : Nat) : (s.haltSup i).rmws = s.rmws := rfl
@[simp] theorem haltSup_past (s : State) (i : Nat) : (s.haltSup i).past = s.past := rfl
@[simp] theorem haltSup_objects (s : State) (i : Nat) : (s.haltSup i).objects = s.objects := rfl
@[simp] theorem haltSup_tlb1 (s : State) (i : Nat) : (s.haltSup i).tlb1 = s.tlb1 := rfl
@[simp] theorem haltSup_tlb2 (s : State) (i : Nat) : (s.haltSup i).tlb2 = s.tlb2 := rfl
@[simp] theorem haltSup_teams (s : State) (i : Nat) : (s.haltSup i).teams = s.teams := rfl
@[simp] theorem haltSup_saved (s : State) (i : Nat) : (s.haltSup i).saved = s.saved := rfl
@[simp] theorem haltSup_launches (s : State) (i : Nat) : (s.haltSup i).launches = s.launches := rfl
@[simp] theorem haltSup_offers (s : State) (i : Nat) : (s.haltSup i).offers = s.offers := rfl
@[simp] theorem haltSup_parts (s : State) (i : Nat) : (s.haltSup i).parts = s.parts := rfl
@[simp] theorem haltSup_cores (s : State) (i : Nat) : (s.haltSup i).cores = s.cores := rfl
@[simp] theorem haltSup_insts (s : State) (i : Nat) : (s.haltSup i).insts = s.insts := rfl
@[simp] theorem haltSup_admissions (s : State) (i : Nat) : (s.haltSup i).admissions = s.admissions := rfl
@[simp] theorem haltSup_rings (s : State) (i : Nat) : (s.haltSup i).rings = s.rings := rfl
@[simp] theorem haltSup_savedRings (s : State) (i : Nat) : (s.haltSup i).savedRings = s.savedRings := rfl
@[simp] theorem haltSup_arrivals (s : State) (i : Nat) : (s.haltSup i).arrivals = s.arrivals := rfl
@[simp] theorem haltSup_sumpWrites (s : State) (i : Nat) : (s.haltSup i).sumpWrites = s.sumpWrites := rfl
@[simp] theorem haltSup_sumps (s : State) (i : Nat) : (s.haltSup i).sumps = s.sumps := rfl
@[simp] theorem haltSup_reports (s : State) (i : Nat) : (s.haltSup i).reports = s.reports := rfl
@[simp] theorem haltSup_handlers (s : State) (i : Nat) : (s.haltSup i).handlers = s.handlers := rfl
@[simp] theorem haltSup_drbase (s : State) (i : Nat) : (s.haltSup i).drbase = s.drbase := rfl
@[simp] theorem haltSup_drsize (s : State) (i : Nat) : (s.haltSup i).drsize = s.drsize := rfl
@[simp] theorem haltSup_drhead (s : State) (i : Nat) : (s.haltSup i).drhead = s.drhead := rfl
@[simp] theorem haltSup_drtail (s : State) (i : Nat) : (s.haltSup i).drtail = s.drtail := rfl
@[simp] theorem haltSup_drdrop (s : State) (i : Nat) : (s.haltSup i).drdrop = s.drdrop := rfl
@[simp] theorem haltSup_asidt (s : State) (i : Nat) : (s.haltSup i).asidt = s.asidt := rfl
@[simp] theorem haltSup_scopes (s : State) (i : Nat) : (s.haltSup i).scopes = s.scopes := rfl
@[simp] theorem haltSup_carves (s : State) (i : Nat) : (s.haltSup i).carves = s.carves := rfl
@[simp] theorem haltSup_carveDie (s : State) (i : Nat) : (s.haltSup i).carveDie = s.carveDie := rfl
@[simp] theorem haltSup_ptpst (s : State) (i : Nat) : (s.haltSup i).ptpst = s.ptpst := rfl
@[simp] theorem haltSup_ptoff (s : State) (i : Nat) : (s.haltSup i).ptoff = s.ptoff := rfl
@[simp] theorem haltSup_locked (s : State) (i : Nat) : (s.haltSup i).locked = s.locked := rfl
@[simp] theorem haltSup_bootsrv (s : State) (i : Nat) : (s.haltSup i).bootsrv = s.bootsrv := rfl
@[simp] theorem haltSup_hostpw (s : State) (i : Nat) : (s.haltSup i).hostpw = s.hostpw := rfl
@[simp] theorem haltSup_atblk (s : State) (i : Nat) : (s.haltSup i).atblk = s.atblk := rfl
@[simp] theorem haltSup_atstat (s : State) (i : Nat) : (s.haltSup i).atstat = s.atstat := rfl
@[simp] theorem haltSup_devnum (s : State) (i : Nat) : (s.haltSup i).devnum = s.devnum := rfl
@[simp] theorem haltSup_nrbase (s : State) (i : Nat) : (s.haltSup i).nrbase = s.nrbase := rfl
@[simp] theorem haltSup_nrsize (s : State) (i : Nat) : (s.haltSup i).nrsize = s.nrsize := rfl
@[simp] theorem haltSup_nrhead (s : State) (i : Nat) : (s.haltSup i).nrhead = s.nrhead := rfl
@[simp] theorem haltSup_nrtail (s : State) (i : Nat) : (s.haltSup i).nrtail = s.nrtail := rfl
@[simp] theorem haltSup_nrdrop (s : State) (i : Nat) : (s.haltSup i).nrdrop = s.nrdrop := rfl
@[simp] theorem haltSup_ntbase (s : State) (i : Nat) : (s.haltSup i).ntbase = s.ntbase := rfl
@[simp] theorem haltSup_ntsize (s : State) (i : Nat) : (s.haltSup i).ntsize = s.ntsize := rfl
@[simp] theorem haltSup_nthead (s : State) (i : Nat) : (s.haltSup i).nthead = s.nthead := rfl
@[simp] theorem haltSup_nttail (s : State) (i : Nat) : (s.haltSup i).nttail = s.nttail := rfl
@[simp] theorem haltSup_portUp (s : State) (i : Nat) : (s.haltSup i).portUp = s.portUp := rfl
@[simp] theorem haltSup_sentFrames (s : State) (i : Nat) : (s.haltSup i).sentFrames = s.sentFrames := rfl
@[simp] theorem haltSup_links (s : State) (i : Nat) : (s.haltSup i).links = s.links := rfl
@[simp] theorem haltSup_flows (s : State) (i : Nat) : (s.haltSup i).flows = s.flows := rfl
@[simp] theorem haltSup_outPort (s : State) (i : Nat) : (s.haltSup i).outPort = s.outPort := rfl
@[simp] theorem haltSup_noRoute (s : State) (i : Nat) : (s.haltSup i).noRoute = s.noRoute := rfl
@[simp] theorem haltSup_sent (s : State) (i : Nat) : (s.haltSup i).sent = s.sent := rfl
@[simp] theorem haltSup_invocations (s : State) (i : Nat) : (s.haltSup i).invocations = s.invocations := rfl
@[simp] theorem haltSup_invQueues (s : State) (i : Nat) : (s.haltSup i).invQueues = s.invQueues := rfl
@[simp] theorem haltSup_replyWords (s : State) (i : Nat) : (s.haltSup i).replyWords = s.replyWords := rfl

/-! ### State.addReport -/

@[simp] theorem addReport_time (s : State) (r : Report) : (s.addReport r).time = s.time := rfl
@[simp] theorem addReport_ticks (s : State) (r : Report) : (s.addReport r).ticks = s.ticks := rfl
@[simp] theorem addReport_nextId (s : State) (r : Report) : (s.addReport r).nextId = s.nextId := rfl
@[simp] theorem addReport_agenda (s : State) (r : Report) : (s.addReport r).agenda = s.agenda := rfl
@[simp] theorem addReport_cur (s : State) (r : Report) : (s.addReport r).cur = s.cur := rfl
@[simp] theorem addReport_turn (s : State) (r : Report) : (s.addReport r).turn = s.turn := rfl
@[simp] theorem addReport_boot (s : State) (r : Report) : (s.addReport r).boot = s.boot := rfl
@[simp] theorem addReport_diesUp (s : State) (r : Report) : (s.addReport r).diesUp = s.diesUp := rfl
@[simp] theorem addReport_diesFailed (s : State) (r : Report) : (s.addReport r).diesFailed = s.diesFailed := rfl
@[simp] theorem addReport_romRequests (s : State) (r : Report) : (s.addReport r).romRequests = s.romRequests := rfl
@[simp] theorem addReport_image (s : State) (r : Report) : (s.addReport r).image = s.image := rfl
@[simp] theorem addReport_mem (s : State) (r : Report) : (s.addReport r).mem = s.mem := rfl
@[simp] theorem addReport_lost (s : State) (r : Report) : (s.addReport r).lost = s.lost := rfl
@[simp] theorem addReport_ecc (s : State) (r : Report) : (s.addReport r).ecc = s.ecc := rfl
@[simp] theorem addReport_corrected (s : State) (r : Report) : (s.addReport r).corrected = s.corrected := rfl
@[simp] theorem addReport_l1 (s : State) (r : Report) : (s.addReport r).l1 = s.l1 := rfl
@[simp] theorem addReport_l2 (s : State) (r : Report) : (s.addReport r).l2 = s.l2 := rfl
@[simp] theorem addReport_scopedCopies (s : State) (r : Report) : (s.addReport r).scopedCopies = s.scopedCopies := rfl
@[simp] theorem addReport_bundleCopies (s : State) (r : Report) : (s.addReport r).bundleCopies = s.bundleCopies := rfl
@[simp] theorem addReport_dir (s : State) (r : Report) : (s.addReport r).dir = s.dir := rfl
@[simp] theorem addReport_pushes (s : State) (r : Report) : (s.addReport r).pushes = s.pushes := rfl
@[simp] theorem addReport_overlays (s : State) (r : Report) : (s.addReport r).overlays = s.overlays := rfl
@[simp] theorem addReport_pushNums (s : State) (r : Report) : (s.addReport r).pushNums = s.pushNums := rfl
@[simp] theorem addReport_forwards (s : State) (r : Report) : (s.addReport r).forwards = s.forwards := rfl
@[simp] theorem addReport_writeBacks (s : State) (r : Report) : (s.addReport r).writeBacks = s.writeBacks := rfl
@[simp] theorem addReport_posted (s : State) (r : Report) : (s.addReport r).posted = s.posted := rfl
@[simp] theorem addReport_rmws (s : State) (r : Report) : (s.addReport r).rmws = s.rmws := rfl
@[simp] theorem addReport_past (s : State) (r : Report) : (s.addReport r).past = s.past := rfl
@[simp] theorem addReport_objects (s : State) (r : Report) : (s.addReport r).objects = s.objects := rfl
@[simp] theorem addReport_tlb1 (s : State) (r : Report) : (s.addReport r).tlb1 = s.tlb1 := rfl
@[simp] theorem addReport_tlb2 (s : State) (r : Report) : (s.addReport r).tlb2 = s.tlb2 := rfl
@[simp] theorem addReport_teams (s : State) (r : Report) : (s.addReport r).teams = s.teams := rfl
@[simp] theorem addReport_saved (s : State) (r : Report) : (s.addReport r).saved = s.saved := rfl
@[simp] theorem addReport_launches (s : State) (r : Report) : (s.addReport r).launches = s.launches := rfl
@[simp] theorem addReport_offers (s : State) (r : Report) : (s.addReport r).offers = s.offers := rfl
@[simp] theorem addReport_parts (s : State) (r : Report) : (s.addReport r).parts = s.parts := rfl
@[simp] theorem addReport_cores (s : State) (r : Report) : (s.addReport r).cores = s.cores := rfl
@[simp] theorem addReport_sups (s : State) (r : Report) : (s.addReport r).sups = s.sups := rfl
@[simp] theorem addReport_insts (s : State) (r : Report) : (s.addReport r).insts = s.insts := rfl
@[simp] theorem addReport_admissions (s : State) (r : Report) : (s.addReport r).admissions = s.admissions := rfl
@[simp] theorem addReport_rings (s : State) (r : Report) : (s.addReport r).rings = s.rings := rfl
@[simp] theorem addReport_savedRings (s : State) (r : Report) : (s.addReport r).savedRings = s.savedRings := rfl
@[simp] theorem addReport_arrivals (s : State) (r : Report) : (s.addReport r).arrivals = s.arrivals := rfl
@[simp] theorem addReport_sumpWrites (s : State) (r : Report) : (s.addReport r).sumpWrites = s.sumpWrites := rfl
@[simp] theorem addReport_sumps (s : State) (r : Report) : (s.addReport r).sumps = s.sumps := rfl
@[simp] theorem addReport_handlers (s : State) (r : Report) : (s.addReport r).handlers = s.handlers := rfl
@[simp] theorem addReport_drbase (s : State) (r : Report) : (s.addReport r).drbase = s.drbase := rfl
@[simp] theorem addReport_drsize (s : State) (r : Report) : (s.addReport r).drsize = s.drsize := rfl
@[simp] theorem addReport_drhead (s : State) (r : Report) : (s.addReport r).drhead = s.drhead := rfl
@[simp] theorem addReport_drtail (s : State) (r : Report) : (s.addReport r).drtail = s.drtail := rfl
@[simp] theorem addReport_drdrop (s : State) (r : Report) : (s.addReport r).drdrop = s.drdrop := rfl
@[simp] theorem addReport_asidt (s : State) (r : Report) : (s.addReport r).asidt = s.asidt := rfl
@[simp] theorem addReport_scopes (s : State) (r : Report) : (s.addReport r).scopes = s.scopes := rfl
@[simp] theorem addReport_carves (s : State) (r : Report) : (s.addReport r).carves = s.carves := rfl
@[simp] theorem addReport_carveDie (s : State) (r : Report) : (s.addReport r).carveDie = s.carveDie := rfl
@[simp] theorem addReport_ptpst (s : State) (r : Report) : (s.addReport r).ptpst = s.ptpst := rfl
@[simp] theorem addReport_ptoff (s : State) (r : Report) : (s.addReport r).ptoff = s.ptoff := rfl
@[simp] theorem addReport_locked (s : State) (r : Report) : (s.addReport r).locked = s.locked := rfl
@[simp] theorem addReport_bootsrv (s : State) (r : Report) : (s.addReport r).bootsrv = s.bootsrv := rfl
@[simp] theorem addReport_hostpw (s : State) (r : Report) : (s.addReport r).hostpw = s.hostpw := rfl
@[simp] theorem addReport_atblk (s : State) (r : Report) : (s.addReport r).atblk = s.atblk := rfl
@[simp] theorem addReport_atstat (s : State) (r : Report) : (s.addReport r).atstat = s.atstat := rfl
@[simp] theorem addReport_devnum (s : State) (r : Report) : (s.addReport r).devnum = s.devnum := rfl
@[simp] theorem addReport_nrbase (s : State) (r : Report) : (s.addReport r).nrbase = s.nrbase := rfl
@[simp] theorem addReport_nrsize (s : State) (r : Report) : (s.addReport r).nrsize = s.nrsize := rfl
@[simp] theorem addReport_nrhead (s : State) (r : Report) : (s.addReport r).nrhead = s.nrhead := rfl
@[simp] theorem addReport_nrtail (s : State) (r : Report) : (s.addReport r).nrtail = s.nrtail := rfl
@[simp] theorem addReport_nrdrop (s : State) (r : Report) : (s.addReport r).nrdrop = s.nrdrop := rfl
@[simp] theorem addReport_ntbase (s : State) (r : Report) : (s.addReport r).ntbase = s.ntbase := rfl
@[simp] theorem addReport_ntsize (s : State) (r : Report) : (s.addReport r).ntsize = s.ntsize := rfl
@[simp] theorem addReport_nthead (s : State) (r : Report) : (s.addReport r).nthead = s.nthead := rfl
@[simp] theorem addReport_nttail (s : State) (r : Report) : (s.addReport r).nttail = s.nttail := rfl
@[simp] theorem addReport_portUp (s : State) (r : Report) : (s.addReport r).portUp = s.portUp := rfl
@[simp] theorem addReport_sentFrames (s : State) (r : Report) : (s.addReport r).sentFrames = s.sentFrames := rfl
@[simp] theorem addReport_links (s : State) (r : Report) : (s.addReport r).links = s.links := rfl
@[simp] theorem addReport_flows (s : State) (r : Report) : (s.addReport r).flows = s.flows := rfl
@[simp] theorem addReport_outPort (s : State) (r : Report) : (s.addReport r).outPort = s.outPort := rfl
@[simp] theorem addReport_noRoute (s : State) (r : Report) : (s.addReport r).noRoute = s.noRoute := rfl
@[simp] theorem addReport_sent (s : State) (r : Report) : (s.addReport r).sent = s.sent := rfl
@[simp] theorem addReport_invocations (s : State) (r : Report) : (s.addReport r).invocations = s.invocations := rfl
@[simp] theorem addReport_invQueues (s : State) (r : Report) : (s.addReport r).invQueues = s.invQueues := rfl
@[simp] theorem addReport_replyWords (s : State) (r : Report) : (s.addReport r).replyWords = s.replyWords := rfl

/-! ### State.storeNow -/

@[simp] theorem storeNow_time (s : State) (pa : Nat) (bs : List Byte) : (s.storeNow pa bs).time = s.time := rfl
@[simp] theorem storeNow_ticks (s : State) (pa : Nat) (bs : List Byte) : (s.storeNow pa bs).ticks = s.ticks := rfl
@[simp] theorem storeNow_nextId (s : State) (pa : Nat) (bs : List Byte) : (s.storeNow pa bs).nextId = s.nextId := rfl
@[simp] theorem storeNow_agenda (s : State) (pa : Nat) (bs : List Byte) : (s.storeNow pa bs).agenda = s.agenda := rfl
@[simp] theorem storeNow_cur (s : State) (pa : Nat) (bs : List Byte) : (s.storeNow pa bs).cur = s.cur := rfl
@[simp] theorem storeNow_turn (s : State) (pa : Nat) (bs : List Byte) : (s.storeNow pa bs).turn = s.turn := rfl
@[simp] theorem storeNow_boot (s : State) (pa : Nat) (bs : List Byte) : (s.storeNow pa bs).boot = s.boot := rfl
@[simp] theorem storeNow_diesUp (s : State) (pa : Nat) (bs : List Byte) : (s.storeNow pa bs).diesUp = s.diesUp := rfl
@[simp] theorem storeNow_diesFailed (s : State) (pa : Nat) (bs : List Byte) : (s.storeNow pa bs).diesFailed = s.diesFailed := rfl
@[simp] theorem storeNow_romRequests (s : State) (pa : Nat) (bs : List Byte) : (s.storeNow pa bs).romRequests = s.romRequests := rfl
@[simp] theorem storeNow_image (s : State) (pa : Nat) (bs : List Byte) : (s.storeNow pa bs).image = s.image := rfl
@[simp] theorem storeNow_corrected (s : State) (pa : Nat) (bs : List Byte) : (s.storeNow pa bs).corrected = s.corrected := rfl
@[simp] theorem storeNow_l1 (s : State) (pa : Nat) (bs : List Byte) : (s.storeNow pa bs).l1 = s.l1 := rfl
@[simp] theorem storeNow_scopedCopies (s : State) (pa : Nat) (bs : List Byte) : (s.storeNow pa bs).scopedCopies = s.scopedCopies := rfl
@[simp] theorem storeNow_bundleCopies (s : State) (pa : Nat) (bs : List Byte) : (s.storeNow pa bs).bundleCopies = s.bundleCopies := rfl
@[simp] theorem storeNow_dir (s : State) (pa : Nat) (bs : List Byte) : (s.storeNow pa bs).dir = s.dir := rfl
@[simp] theorem storeNow_pushes (s : State) (pa : Nat) (bs : List Byte) : (s.storeNow pa bs).pushes = s.pushes := rfl
@[simp] theorem storeNow_overlays (s : State) (pa : Nat) (bs : List Byte) : (s.storeNow pa bs).overlays = s.overlays := rfl
@[simp] theorem storeNow_pushNums (s : State) (pa : Nat) (bs : List Byte) : (s.storeNow pa bs).pushNums = s.pushNums := rfl
@[simp] theorem storeNow_forwards (s : State) (pa : Nat) (bs : List Byte) : (s.storeNow pa bs).forwards = s.forwards := rfl
@[simp] theorem storeNow_posted (s : State) (pa : Nat) (bs : List Byte) : (s.storeNow pa bs).posted = s.posted := rfl
@[simp] theorem storeNow_rmws (s : State) (pa : Nat) (bs : List Byte) : (s.storeNow pa bs).rmws = s.rmws := rfl
@[simp] theorem storeNow_past (s : State) (pa : Nat) (bs : List Byte) : (s.storeNow pa bs).past = s.past := rfl
@[simp] theorem storeNow_objects (s : State) (pa : Nat) (bs : List Byte) : (s.storeNow pa bs).objects = s.objects := rfl
@[simp] theorem storeNow_tlb1 (s : State) (pa : Nat) (bs : List Byte) : (s.storeNow pa bs).tlb1 = s.tlb1 := rfl
@[simp] theorem storeNow_tlb2 (s : State) (pa : Nat) (bs : List Byte) : (s.storeNow pa bs).tlb2 = s.tlb2 := rfl
@[simp] theorem storeNow_teams (s : State) (pa : Nat) (bs : List Byte) : (s.storeNow pa bs).teams = s.teams := rfl
@[simp] theorem storeNow_saved (s : State) (pa : Nat) (bs : List Byte) : (s.storeNow pa bs).saved = s.saved := rfl
@[simp] theorem storeNow_launches (s : State) (pa : Nat) (bs : List Byte) : (s.storeNow pa bs).launches = s.launches := rfl
@[simp] theorem storeNow_offers (s : State) (pa : Nat) (bs : List Byte) : (s.storeNow pa bs).offers = s.offers := rfl
@[simp] theorem storeNow_parts (s : State) (pa : Nat) (bs : List Byte) : (s.storeNow pa bs).parts = s.parts := rfl
@[simp] theorem storeNow_cores (s : State) (pa : Nat) (bs : List Byte) : (s.storeNow pa bs).cores = s.cores := rfl
@[simp] theorem storeNow_sups (s : State) (pa : Nat) (bs : List Byte) : (s.storeNow pa bs).sups = s.sups := rfl
@[simp] theorem storeNow_insts (s : State) (pa : Nat) (bs : List Byte) : (s.storeNow pa bs).insts = s.insts := rfl
@[simp] theorem storeNow_admissions (s : State) (pa : Nat) (bs : List Byte) : (s.storeNow pa bs).admissions = s.admissions := rfl
@[simp] theorem storeNow_rings (s : State) (pa : Nat) (bs : List Byte) : (s.storeNow pa bs).rings = s.rings := rfl
@[simp] theorem storeNow_savedRings (s : State) (pa : Nat) (bs : List Byte) : (s.storeNow pa bs).savedRings = s.savedRings := rfl
@[simp] theorem storeNow_arrivals (s : State) (pa : Nat) (bs : List Byte) : (s.storeNow pa bs).arrivals = s.arrivals := rfl
@[simp] theorem storeNow_sumpWrites (s : State) (pa : Nat) (bs : List Byte) : (s.storeNow pa bs).sumpWrites = s.sumpWrites := rfl
@[simp] theorem storeNow_sumps (s : State) (pa : Nat) (bs : List Byte) : (s.storeNow pa bs).sumps = s.sumps := rfl
@[simp] theorem storeNow_reports (s : State) (pa : Nat) (bs : List Byte) : (s.storeNow pa bs).reports = s.reports := rfl
@[simp] theorem storeNow_handlers (s : State) (pa : Nat) (bs : List Byte) : (s.storeNow pa bs).handlers = s.handlers := rfl
@[simp] theorem storeNow_drbase (s : State) (pa : Nat) (bs : List Byte) : (s.storeNow pa bs).drbase = s.drbase := rfl
@[simp] theorem storeNow_drsize (s : State) (pa : Nat) (bs : List Byte) : (s.storeNow pa bs).drsize = s.drsize := rfl
@[simp] theorem storeNow_drhead (s : State) (pa : Nat) (bs : List Byte) : (s.storeNow pa bs).drhead = s.drhead := rfl
@[simp] theorem storeNow_drtail (s : State) (pa : Nat) (bs : List Byte) : (s.storeNow pa bs).drtail = s.drtail := rfl
@[simp] theorem storeNow_drdrop (s : State) (pa : Nat) (bs : List Byte) : (s.storeNow pa bs).drdrop = s.drdrop := rfl
@[simp] theorem storeNow_asidt (s : State) (pa : Nat) (bs : List Byte) : (s.storeNow pa bs).asidt = s.asidt := rfl
@[simp] theorem storeNow_scopes (s : State) (pa : Nat) (bs : List Byte) : (s.storeNow pa bs).scopes = s.scopes := rfl
@[simp] theorem storeNow_carves (s : State) (pa : Nat) (bs : List Byte) : (s.storeNow pa bs).carves = s.carves := rfl
@[simp] theorem storeNow_carveDie (s : State) (pa : Nat) (bs : List Byte) : (s.storeNow pa bs).carveDie = s.carveDie := rfl
@[simp] theorem storeNow_ptpst (s : State) (pa : Nat) (bs : List Byte) : (s.storeNow pa bs).ptpst = s.ptpst := rfl
@[simp] theorem storeNow_ptoff (s : State) (pa : Nat) (bs : List Byte) : (s.storeNow pa bs).ptoff = s.ptoff := rfl
@[simp] theorem storeNow_locked (s : State) (pa : Nat) (bs : List Byte) : (s.storeNow pa bs).locked = s.locked := rfl
@[simp] theorem storeNow_bootsrv (s : State) (pa : Nat) (bs : List Byte) : (s.storeNow pa bs).bootsrv = s.bootsrv := rfl
@[simp] theorem storeNow_hostpw (s : State) (pa : Nat) (bs : List Byte) : (s.storeNow pa bs).hostpw = s.hostpw := rfl
@[simp] theorem storeNow_atblk (s : State) (pa : Nat) (bs : List Byte) : (s.storeNow pa bs).atblk = s.atblk := rfl
@[simp] theorem storeNow_atstat (s : State) (pa : Nat) (bs : List Byte) : (s.storeNow pa bs).atstat = s.atstat := rfl
@[simp] theorem storeNow_devnum (s : State) (pa : Nat) (bs : List Byte) : (s.storeNow pa bs).devnum = s.devnum := rfl
@[simp] theorem storeNow_nrbase (s : State) (pa : Nat) (bs : List Byte) : (s.storeNow pa bs).nrbase = s.nrbase := rfl
@[simp] theorem storeNow_nrsize (s : State) (pa : Nat) (bs : List Byte) : (s.storeNow pa bs).nrsize = s.nrsize := rfl
@[simp] theorem storeNow_nrhead (s : State) (pa : Nat) (bs : List Byte) : (s.storeNow pa bs).nrhead = s.nrhead := rfl
@[simp] theorem storeNow_nrtail (s : State) (pa : Nat) (bs : List Byte) : (s.storeNow pa bs).nrtail = s.nrtail := rfl
@[simp] theorem storeNow_nrdrop (s : State) (pa : Nat) (bs : List Byte) : (s.storeNow pa bs).nrdrop = s.nrdrop := rfl
@[simp] theorem storeNow_ntbase (s : State) (pa : Nat) (bs : List Byte) : (s.storeNow pa bs).ntbase = s.ntbase := rfl
@[simp] theorem storeNow_ntsize (s : State) (pa : Nat) (bs : List Byte) : (s.storeNow pa bs).ntsize = s.ntsize := rfl
@[simp] theorem storeNow_nthead (s : State) (pa : Nat) (bs : List Byte) : (s.storeNow pa bs).nthead = s.nthead := rfl
@[simp] theorem storeNow_nttail (s : State) (pa : Nat) (bs : List Byte) : (s.storeNow pa bs).nttail = s.nttail := rfl
@[simp] theorem storeNow_portUp (s : State) (pa : Nat) (bs : List Byte) : (s.storeNow pa bs).portUp = s.portUp := rfl
@[simp] theorem storeNow_sentFrames (s : State) (pa : Nat) (bs : List Byte) : (s.storeNow pa bs).sentFrames = s.sentFrames := rfl
@[simp] theorem storeNow_links (s : State) (pa : Nat) (bs : List Byte) : (s.storeNow pa bs).links = s.links := rfl
@[simp] theorem storeNow_flows (s : State) (pa : Nat) (bs : List Byte) : (s.storeNow pa bs).flows = s.flows := rfl
@[simp] theorem storeNow_outPort (s : State) (pa : Nat) (bs : List Byte) : (s.storeNow pa bs).outPort = s.outPort := rfl
@[simp] theorem storeNow_noRoute (s : State) (pa : Nat) (bs : List Byte) : (s.storeNow pa bs).noRoute = s.noRoute := rfl
@[simp] theorem storeNow_sent (s : State) (pa : Nat) (bs : List Byte) : (s.storeNow pa bs).sent = s.sent := rfl
@[simp] theorem storeNow_invocations (s : State) (pa : Nat) (bs : List Byte) : (s.storeNow pa bs).invocations = s.invocations := rfl
@[simp] theorem storeNow_invQueues (s : State) (pa : Nat) (bs : List Byte) : (s.storeNow pa bs).invQueues = s.invQueues := rfl
@[simp] theorem storeNow_replyWords (s : State) (pa : Nat) (bs : List Byte) : (s.storeNow pa bs).replyWords = s.replyWords := rfl

/-! ### State.frameStore -/

@[simp] theorem frameStore_time (s : State) (t : Team) (pa : Nat) (bs : List Byte) : (s.frameStore t pa bs).time = s.time := rfl
@[simp] theorem frameStore_ticks (s : State) (t : Team) (pa : Nat) (bs : List Byte) : (s.frameStore t pa bs).ticks = s.ticks := rfl
@[simp] theorem frameStore_agenda (s : State) (t : Team) (pa : Nat) (bs : List Byte) : (s.frameStore t pa bs).agenda = s.agenda := rfl
@[simp] theorem frameStore_cur (s : State) (t : Team) (pa : Nat) (bs : List Byte) : (s.frameStore t pa bs).cur = s.cur := rfl
@[simp] theorem frameStore_turn (s : State) (t : Team) (pa : Nat) (bs : List Byte) : (s.frameStore t pa bs).turn = s.turn := rfl
@[simp] theorem frameStore_boot (s : State) (t : Team) (pa : Nat) (bs : List Byte) : (s.frameStore t pa bs).boot = s.boot := rfl
@[simp] theorem frameStore_diesUp (s : State) (t : Team) (pa : Nat) (bs : List Byte) : (s.frameStore t pa bs).diesUp = s.diesUp := rfl
@[simp] theorem frameStore_diesFailed (s : State) (t : Team) (pa : Nat) (bs : List Byte) : (s.frameStore t pa bs).diesFailed = s.diesFailed := rfl
@[simp] theorem frameStore_romRequests (s : State) (t : Team) (pa : Nat) (bs : List Byte) : (s.frameStore t pa bs).romRequests = s.romRequests := rfl
@[simp] theorem frameStore_image (s : State) (t : Team) (pa : Nat) (bs : List Byte) : (s.frameStore t pa bs).image = s.image := rfl
@[simp] theorem frameStore_mem (s : State) (t : Team) (pa : Nat) (bs : List Byte) : (s.frameStore t pa bs).mem = s.mem := rfl
@[simp] theorem frameStore_lost (s : State) (t : Team) (pa : Nat) (bs : List Byte) : (s.frameStore t pa bs).lost = s.lost := rfl
@[simp] theorem frameStore_ecc (s : State) (t : Team) (pa : Nat) (bs : List Byte) : (s.frameStore t pa bs).ecc = s.ecc := rfl
@[simp] theorem frameStore_corrected (s : State) (t : Team) (pa : Nat) (bs : List Byte) : (s.frameStore t pa bs).corrected = s.corrected := rfl
@[simp] theorem frameStore_l2 (s : State) (t : Team) (pa : Nat) (bs : List Byte) : (s.frameStore t pa bs).l2 = s.l2 := rfl
@[simp] theorem frameStore_scopedCopies (s : State) (t : Team) (pa : Nat) (bs : List Byte) : (s.frameStore t pa bs).scopedCopies = s.scopedCopies := rfl
@[simp] theorem frameStore_bundleCopies (s : State) (t : Team) (pa : Nat) (bs : List Byte) : (s.frameStore t pa bs).bundleCopies = s.bundleCopies := rfl
@[simp] theorem frameStore_dir (s : State) (t : Team) (pa : Nat) (bs : List Byte) : (s.frameStore t pa bs).dir = s.dir := rfl
@[simp] theorem frameStore_pushes (s : State) (t : Team) (pa : Nat) (bs : List Byte) : (s.frameStore t pa bs).pushes = s.pushes := rfl
@[simp] theorem frameStore_overlays (s : State) (t : Team) (pa : Nat) (bs : List Byte) : (s.frameStore t pa bs).overlays = s.overlays := rfl
@[simp] theorem frameStore_pushNums (s : State) (t : Team) (pa : Nat) (bs : List Byte) : (s.frameStore t pa bs).pushNums = s.pushNums := rfl
@[simp] theorem frameStore_forwards (s : State) (t : Team) (pa : Nat) (bs : List Byte) : (s.frameStore t pa bs).forwards = s.forwards := rfl
@[simp] theorem frameStore_writeBacks (s : State) (t : Team) (pa : Nat) (bs : List Byte) : (s.frameStore t pa bs).writeBacks = s.writeBacks := rfl
@[simp] theorem frameStore_rmws (s : State) (t : Team) (pa : Nat) (bs : List Byte) : (s.frameStore t pa bs).rmws = s.rmws := rfl
@[simp] theorem frameStore_past (s : State) (t : Team) (pa : Nat) (bs : List Byte) : (s.frameStore t pa bs).past = s.past := rfl
@[simp] theorem frameStore_objects (s : State) (t : Team) (pa : Nat) (bs : List Byte) : (s.frameStore t pa bs).objects = s.objects := rfl
@[simp] theorem frameStore_tlb1 (s : State) (t : Team) (pa : Nat) (bs : List Byte) : (s.frameStore t pa bs).tlb1 = s.tlb1 := rfl
@[simp] theorem frameStore_tlb2 (s : State) (t : Team) (pa : Nat) (bs : List Byte) : (s.frameStore t pa bs).tlb2 = s.tlb2 := rfl
@[simp] theorem frameStore_teams (s : State) (t : Team) (pa : Nat) (bs : List Byte) : (s.frameStore t pa bs).teams = s.teams := rfl
@[simp] theorem frameStore_saved (s : State) (t : Team) (pa : Nat) (bs : List Byte) : (s.frameStore t pa bs).saved = s.saved := rfl
@[simp] theorem frameStore_launches (s : State) (t : Team) (pa : Nat) (bs : List Byte) : (s.frameStore t pa bs).launches = s.launches := rfl
@[simp] theorem frameStore_offers (s : State) (t : Team) (pa : Nat) (bs : List Byte) : (s.frameStore t pa bs).offers = s.offers := rfl
@[simp] theorem frameStore_parts (s : State) (t : Team) (pa : Nat) (bs : List Byte) : (s.frameStore t pa bs).parts = s.parts := rfl
@[simp] theorem frameStore_cores (s : State) (t : Team) (pa : Nat) (bs : List Byte) : (s.frameStore t pa bs).cores = s.cores := rfl
@[simp] theorem frameStore_sups (s : State) (t : Team) (pa : Nat) (bs : List Byte) : (s.frameStore t pa bs).sups = s.sups := rfl
@[simp] theorem frameStore_insts (s : State) (t : Team) (pa : Nat) (bs : List Byte) : (s.frameStore t pa bs).insts = s.insts := rfl
@[simp] theorem frameStore_admissions (s : State) (t : Team) (pa : Nat) (bs : List Byte) : (s.frameStore t pa bs).admissions = s.admissions := rfl
@[simp] theorem frameStore_rings (s : State) (t : Team) (pa : Nat) (bs : List Byte) : (s.frameStore t pa bs).rings = s.rings := rfl
@[simp] theorem frameStore_savedRings (s : State) (t : Team) (pa : Nat) (bs : List Byte) : (s.frameStore t pa bs).savedRings = s.savedRings := rfl
@[simp] theorem frameStore_arrivals (s : State) (t : Team) (pa : Nat) (bs : List Byte) : (s.frameStore t pa bs).arrivals = s.arrivals := rfl
@[simp] theorem frameStore_sumpWrites (s : State) (t : Team) (pa : Nat) (bs : List Byte) : (s.frameStore t pa bs).sumpWrites = s.sumpWrites := rfl
@[simp] theorem frameStore_sumps (s : State) (t : Team) (pa : Nat) (bs : List Byte) : (s.frameStore t pa bs).sumps = s.sumps := rfl
@[simp] theorem frameStore_reports (s : State) (t : Team) (pa : Nat) (bs : List Byte) : (s.frameStore t pa bs).reports = s.reports := rfl
@[simp] theorem frameStore_handlers (s : State) (t : Team) (pa : Nat) (bs : List Byte) : (s.frameStore t pa bs).handlers = s.handlers := rfl
@[simp] theorem frameStore_drbase (s : State) (t : Team) (pa : Nat) (bs : List Byte) : (s.frameStore t pa bs).drbase = s.drbase := rfl
@[simp] theorem frameStore_drsize (s : State) (t : Team) (pa : Nat) (bs : List Byte) : (s.frameStore t pa bs).drsize = s.drsize := rfl
@[simp] theorem frameStore_drhead (s : State) (t : Team) (pa : Nat) (bs : List Byte) : (s.frameStore t pa bs).drhead = s.drhead := rfl
@[simp] theorem frameStore_drtail (s : State) (t : Team) (pa : Nat) (bs : List Byte) : (s.frameStore t pa bs).drtail = s.drtail := rfl
@[simp] theorem frameStore_drdrop (s : State) (t : Team) (pa : Nat) (bs : List Byte) : (s.frameStore t pa bs).drdrop = s.drdrop := rfl
@[simp] theorem frameStore_asidt (s : State) (t : Team) (pa : Nat) (bs : List Byte) : (s.frameStore t pa bs).asidt = s.asidt := rfl
@[simp] theorem frameStore_scopes (s : State) (t : Team) (pa : Nat) (bs : List Byte) : (s.frameStore t pa bs).scopes = s.scopes := rfl
@[simp] theorem frameStore_carves (s : State) (t : Team) (pa : Nat) (bs : List Byte) : (s.frameStore t pa bs).carves = s.carves := rfl
@[simp] theorem frameStore_carveDie (s : State) (t : Team) (pa : Nat) (bs : List Byte) : (s.frameStore t pa bs).carveDie = s.carveDie := rfl
@[simp] theorem frameStore_ptpst (s : State) (t : Team) (pa : Nat) (bs : List Byte) : (s.frameStore t pa bs).ptpst = s.ptpst := rfl
@[simp] theorem frameStore_ptoff (s : State) (t : Team) (pa : Nat) (bs : List Byte) : (s.frameStore t pa bs).ptoff = s.ptoff := rfl
@[simp] theorem frameStore_locked (s : State) (t : Team) (pa : Nat) (bs : List Byte) : (s.frameStore t pa bs).locked = s.locked := rfl
@[simp] theorem frameStore_bootsrv (s : State) (t : Team) (pa : Nat) (bs : List Byte) : (s.frameStore t pa bs).bootsrv = s.bootsrv := rfl
@[simp] theorem frameStore_hostpw (s : State) (t : Team) (pa : Nat) (bs : List Byte) : (s.frameStore t pa bs).hostpw = s.hostpw := rfl
@[simp] theorem frameStore_atblk (s : State) (t : Team) (pa : Nat) (bs : List Byte) : (s.frameStore t pa bs).atblk = s.atblk := rfl
@[simp] theorem frameStore_atstat (s : State) (t : Team) (pa : Nat) (bs : List Byte) : (s.frameStore t pa bs).atstat = s.atstat := rfl
@[simp] theorem frameStore_devnum (s : State) (t : Team) (pa : Nat) (bs : List Byte) : (s.frameStore t pa bs).devnum = s.devnum := rfl
@[simp] theorem frameStore_nrbase (s : State) (t : Team) (pa : Nat) (bs : List Byte) : (s.frameStore t pa bs).nrbase = s.nrbase := rfl
@[simp] theorem frameStore_nrsize (s : State) (t : Team) (pa : Nat) (bs : List Byte) : (s.frameStore t pa bs).nrsize = s.nrsize := rfl
@[simp] theorem frameStore_nrhead (s : State) (t : Team) (pa : Nat) (bs : List Byte) : (s.frameStore t pa bs).nrhead = s.nrhead := rfl
@[simp] theorem frameStore_nrtail (s : State) (t : Team) (pa : Nat) (bs : List Byte) : (s.frameStore t pa bs).nrtail = s.nrtail := rfl
@[simp] theorem frameStore_nrdrop (s : State) (t : Team) (pa : Nat) (bs : List Byte) : (s.frameStore t pa bs).nrdrop = s.nrdrop := rfl
@[simp] theorem frameStore_ntbase (s : State) (t : Team) (pa : Nat) (bs : List Byte) : (s.frameStore t pa bs).ntbase = s.ntbase := rfl
@[simp] theorem frameStore_ntsize (s : State) (t : Team) (pa : Nat) (bs : List Byte) : (s.frameStore t pa bs).ntsize = s.ntsize := rfl
@[simp] theorem frameStore_nthead (s : State) (t : Team) (pa : Nat) (bs : List Byte) : (s.frameStore t pa bs).nthead = s.nthead := rfl
@[simp] theorem frameStore_nttail (s : State) (t : Team) (pa : Nat) (bs : List Byte) : (s.frameStore t pa bs).nttail = s.nttail := rfl
@[simp] theorem frameStore_portUp (s : State) (t : Team) (pa : Nat) (bs : List Byte) : (s.frameStore t pa bs).portUp = s.portUp := rfl
@[simp] theorem frameStore_sentFrames (s : State) (t : Team) (pa : Nat) (bs : List Byte) : (s.frameStore t pa bs).sentFrames = s.sentFrames := rfl
@[simp] theorem frameStore_links (s : State) (t : Team) (pa : Nat) (bs : List Byte) : (s.frameStore t pa bs).links = s.links := rfl
@[simp] theorem frameStore_flows (s : State) (t : Team) (pa : Nat) (bs : List Byte) : (s.frameStore t pa bs).flows = s.flows := rfl
@[simp] theorem frameStore_outPort (s : State) (t : Team) (pa : Nat) (bs : List Byte) : (s.frameStore t pa bs).outPort = s.outPort := rfl
@[simp] theorem frameStore_noRoute (s : State) (t : Team) (pa : Nat) (bs : List Byte) : (s.frameStore t pa bs).noRoute = s.noRoute := rfl
@[simp] theorem frameStore_sent (s : State) (t : Team) (pa : Nat) (bs : List Byte) : (s.frameStore t pa bs).sent = s.sent := rfl
@[simp] theorem frameStore_invocations (s : State) (t : Team) (pa : Nat) (bs : List Byte) : (s.frameStore t pa bs).invocations = s.invocations := rfl
@[simp] theorem frameStore_invQueues (s : State) (t : Team) (pa : Nat) (bs : List Byte) : (s.frameStore t pa bs).invQueues = s.invQueues := rfl
@[simp] theorem frameStore_replyWords (s : State) (t : Team) (pa : Nat) (bs : List Byte) : (s.frameStore t pa bs).replyWords = s.replyWords := rfl

/-! ### State.tick -/

@[simp] theorem tick_nextId (s : State) : (s.tick).nextId = s.nextId := rfl
@[simp] theorem tick_agenda (s : State) : (s.tick).agenda = s.agenda := rfl
@[simp] theorem tick_cur (s : State) : (s.tick).cur = s.cur := rfl
@[simp] theorem tick_turn (s : State) : (s.tick).turn = s.turn := rfl
@[simp] theorem tick_boot (s : State) : (s.tick).boot = s.boot := rfl
@[simp] theorem tick_diesUp (s : State) : (s.tick).diesUp = s.diesUp := rfl
@[simp] theorem tick_diesFailed (s : State) : (s.tick).diesFailed = s.diesFailed := rfl
@[simp] theorem tick_romRequests (s : State) : (s.tick).romRequests = s.romRequests := rfl
@[simp] theorem tick_image (s : State) : (s.tick).image = s.image := rfl
@[simp] theorem tick_mem (s : State) : (s.tick).mem = s.mem := rfl
@[simp] theorem tick_lost (s : State) : (s.tick).lost = s.lost := rfl
@[simp] theorem tick_ecc (s : State) : (s.tick).ecc = s.ecc := rfl
@[simp] theorem tick_corrected (s : State) : (s.tick).corrected = s.corrected := rfl
@[simp] theorem tick_l1 (s : State) : (s.tick).l1 = s.l1 := rfl
@[simp] theorem tick_l2 (s : State) : (s.tick).l2 = s.l2 := rfl
@[simp] theorem tick_scopedCopies (s : State) : (s.tick).scopedCopies = s.scopedCopies := rfl
@[simp] theorem tick_bundleCopies (s : State) : (s.tick).bundleCopies = s.bundleCopies := rfl
@[simp] theorem tick_dir (s : State) : (s.tick).dir = s.dir := rfl
@[simp] theorem tick_pushes (s : State) : (s.tick).pushes = s.pushes := rfl
@[simp] theorem tick_overlays (s : State) : (s.tick).overlays = s.overlays := rfl
@[simp] theorem tick_pushNums (s : State) : (s.tick).pushNums = s.pushNums := rfl
@[simp] theorem tick_forwards (s : State) : (s.tick).forwards = s.forwards := rfl
@[simp] theorem tick_writeBacks (s : State) : (s.tick).writeBacks = s.writeBacks := rfl
@[simp] theorem tick_posted (s : State) : (s.tick).posted = s.posted := rfl
@[simp] theorem tick_rmws (s : State) : (s.tick).rmws = s.rmws := rfl
@[simp] theorem tick_past (s : State) : (s.tick).past = s.past := rfl
@[simp] theorem tick_objects (s : State) : (s.tick).objects = s.objects := rfl
@[simp] theorem tick_tlb1 (s : State) : (s.tick).tlb1 = s.tlb1 := rfl
@[simp] theorem tick_tlb2 (s : State) : (s.tick).tlb2 = s.tlb2 := rfl
@[simp] theorem tick_teams (s : State) : (s.tick).teams = s.teams := rfl
@[simp] theorem tick_saved (s : State) : (s.tick).saved = s.saved := rfl
@[simp] theorem tick_launches (s : State) : (s.tick).launches = s.launches := rfl
@[simp] theorem tick_offers (s : State) : (s.tick).offers = s.offers := rfl
@[simp] theorem tick_parts (s : State) : (s.tick).parts = s.parts := rfl
@[simp] theorem tick_cores (s : State) : (s.tick).cores = s.cores := rfl
@[simp] theorem tick_sups (s : State) : (s.tick).sups = s.sups := rfl
@[simp] theorem tick_insts (s : State) : (s.tick).insts = s.insts := rfl
@[simp] theorem tick_admissions (s : State) : (s.tick).admissions = s.admissions := rfl
@[simp] theorem tick_rings (s : State) : (s.tick).rings = s.rings := rfl
@[simp] theorem tick_savedRings (s : State) : (s.tick).savedRings = s.savedRings := rfl
@[simp] theorem tick_arrivals (s : State) : (s.tick).arrivals = s.arrivals := rfl
@[simp] theorem tick_sumpWrites (s : State) : (s.tick).sumpWrites = s.sumpWrites := rfl
@[simp] theorem tick_sumps (s : State) : (s.tick).sumps = s.sumps := rfl
@[simp] theorem tick_reports (s : State) : (s.tick).reports = s.reports := rfl
@[simp] theorem tick_handlers (s : State) : (s.tick).handlers = s.handlers := rfl
@[simp] theorem tick_drbase (s : State) : (s.tick).drbase = s.drbase := rfl
@[simp] theorem tick_drsize (s : State) : (s.tick).drsize = s.drsize := rfl
@[simp] theorem tick_drhead (s : State) : (s.tick).drhead = s.drhead := rfl
@[simp] theorem tick_drtail (s : State) : (s.tick).drtail = s.drtail := rfl
@[simp] theorem tick_drdrop (s : State) : (s.tick).drdrop = s.drdrop := rfl
@[simp] theorem tick_asidt (s : State) : (s.tick).asidt = s.asidt := rfl
@[simp] theorem tick_scopes (s : State) : (s.tick).scopes = s.scopes := rfl
@[simp] theorem tick_carves (s : State) : (s.tick).carves = s.carves := rfl
@[simp] theorem tick_carveDie (s : State) : (s.tick).carveDie = s.carveDie := rfl
@[simp] theorem tick_ptpst (s : State) : (s.tick).ptpst = s.ptpst := rfl
@[simp] theorem tick_ptoff (s : State) : (s.tick).ptoff = s.ptoff := rfl
@[simp] theorem tick_locked (s : State) : (s.tick).locked = s.locked := rfl
@[simp] theorem tick_bootsrv (s : State) : (s.tick).bootsrv = s.bootsrv := rfl
@[simp] theorem tick_hostpw (s : State) : (s.tick).hostpw = s.hostpw := rfl
@[simp] theorem tick_atblk (s : State) : (s.tick).atblk = s.atblk := rfl
@[simp] theorem tick_atstat (s : State) : (s.tick).atstat = s.atstat := rfl
@[simp] theorem tick_devnum (s : State) : (s.tick).devnum = s.devnum := rfl
@[simp] theorem tick_nrbase (s : State) : (s.tick).nrbase = s.nrbase := rfl
@[simp] theorem tick_nrsize (s : State) : (s.tick).nrsize = s.nrsize := rfl
@[simp] theorem tick_nrhead (s : State) : (s.tick).nrhead = s.nrhead := rfl
@[simp] theorem tick_nrtail (s : State) : (s.tick).nrtail = s.nrtail := rfl
@[simp] theorem tick_nrdrop (s : State) : (s.tick).nrdrop = s.nrdrop := rfl
@[simp] theorem tick_ntbase (s : State) : (s.tick).ntbase = s.ntbase := rfl
@[simp] theorem tick_ntsize (s : State) : (s.tick).ntsize = s.ntsize := rfl
@[simp] theorem tick_nthead (s : State) : (s.tick).nthead = s.nthead := rfl
@[simp] theorem tick_nttail (s : State) : (s.tick).nttail = s.nttail := rfl
@[simp] theorem tick_portUp (s : State) : (s.tick).portUp = s.portUp := rfl
@[simp] theorem tick_sentFrames (s : State) : (s.tick).sentFrames = s.sentFrames := rfl
@[simp] theorem tick_links (s : State) : (s.tick).links = s.links := rfl
@[simp] theorem tick_flows (s : State) : (s.tick).flows = s.flows := rfl
@[simp] theorem tick_outPort (s : State) : (s.tick).outPort = s.outPort := rfl
@[simp] theorem tick_noRoute (s : State) : (s.tick).noRoute = s.noRoute := rfl
@[simp] theorem tick_sent (s : State) : (s.tick).sent = s.sent := rfl
@[simp] theorem tick_invocations (s : State) : (s.tick).invocations = s.invocations := rfl
@[simp] theorem tick_invQueues (s : State) : (s.tick).invQueues = s.invQueues := rfl
@[simp] theorem tick_replyWords (s : State) : (s.tick).replyWords = s.replyWords := rfl

/-! ### State.rotate -/

@[simp] theorem rotate_time (s : State) : (s.rotate).time = s.time := rfl
@[simp] theorem rotate_ticks (s : State) : (s.rotate).ticks = s.ticks := rfl
@[simp] theorem rotate_nextId (s : State) : (s.rotate).nextId = s.nextId := rfl
@[simp] theorem rotate_agenda (s : State) : (s.rotate).agenda = s.agenda := rfl
@[simp] theorem rotate_boot (s : State) : (s.rotate).boot = s.boot := rfl
@[simp] theorem rotate_diesUp (s : State) : (s.rotate).diesUp = s.diesUp := rfl
@[simp] theorem rotate_diesFailed (s : State) : (s.rotate).diesFailed = s.diesFailed := rfl
@[simp] theorem rotate_romRequests (s : State) : (s.rotate).romRequests = s.romRequests := rfl
@[simp] theorem rotate_image (s : State) : (s.rotate).image = s.image := rfl
@[simp] theorem rotate_mem (s : State) : (s.rotate).mem = s.mem := rfl
@[simp] theorem rotate_lost (s : State) : (s.rotate).lost = s.lost := rfl
@[simp] theorem rotate_ecc (s : State) : (s.rotate).ecc = s.ecc := rfl
@[simp] theorem rotate_corrected (s : State) : (s.rotate).corrected = s.corrected := rfl
@[simp] theorem rotate_l1 (s : State) : (s.rotate).l1 = s.l1 := rfl
@[simp] theorem rotate_l2 (s : State) : (s.rotate).l2 = s.l2 := rfl
@[simp] theorem rotate_scopedCopies (s : State) : (s.rotate).scopedCopies = s.scopedCopies := rfl
@[simp] theorem rotate_bundleCopies (s : State) : (s.rotate).bundleCopies = s.bundleCopies := rfl
@[simp] theorem rotate_dir (s : State) : (s.rotate).dir = s.dir := rfl
@[simp] theorem rotate_pushes (s : State) : (s.rotate).pushes = s.pushes := rfl
@[simp] theorem rotate_overlays (s : State) : (s.rotate).overlays = s.overlays := rfl
@[simp] theorem rotate_pushNums (s : State) : (s.rotate).pushNums = s.pushNums := rfl
@[simp] theorem rotate_forwards (s : State) : (s.rotate).forwards = s.forwards := rfl
@[simp] theorem rotate_writeBacks (s : State) : (s.rotate).writeBacks = s.writeBacks := rfl
@[simp] theorem rotate_posted (s : State) : (s.rotate).posted = s.posted := rfl
@[simp] theorem rotate_rmws (s : State) : (s.rotate).rmws = s.rmws := rfl
@[simp] theorem rotate_past (s : State) : (s.rotate).past = s.past := rfl
@[simp] theorem rotate_objects (s : State) : (s.rotate).objects = s.objects := rfl
@[simp] theorem rotate_tlb1 (s : State) : (s.rotate).tlb1 = s.tlb1 := rfl
@[simp] theorem rotate_tlb2 (s : State) : (s.rotate).tlb2 = s.tlb2 := rfl
@[simp] theorem rotate_teams (s : State) : (s.rotate).teams = s.teams := rfl
@[simp] theorem rotate_saved (s : State) : (s.rotate).saved = s.saved := rfl
@[simp] theorem rotate_launches (s : State) : (s.rotate).launches = s.launches := rfl
@[simp] theorem rotate_offers (s : State) : (s.rotate).offers = s.offers := rfl
@[simp] theorem rotate_parts (s : State) : (s.rotate).parts = s.parts := rfl
@[simp] theorem rotate_cores (s : State) : (s.rotate).cores = s.cores := rfl
@[simp] theorem rotate_sups (s : State) : (s.rotate).sups = s.sups := rfl
@[simp] theorem rotate_insts (s : State) : (s.rotate).insts = s.insts := rfl
@[simp] theorem rotate_admissions (s : State) : (s.rotate).admissions = s.admissions := rfl
@[simp] theorem rotate_rings (s : State) : (s.rotate).rings = s.rings := rfl
@[simp] theorem rotate_savedRings (s : State) : (s.rotate).savedRings = s.savedRings := rfl
@[simp] theorem rotate_arrivals (s : State) : (s.rotate).arrivals = s.arrivals := rfl
@[simp] theorem rotate_sumpWrites (s : State) : (s.rotate).sumpWrites = s.sumpWrites := rfl
@[simp] theorem rotate_sumps (s : State) : (s.rotate).sumps = s.sumps := rfl
@[simp] theorem rotate_reports (s : State) : (s.rotate).reports = s.reports := rfl
@[simp] theorem rotate_handlers (s : State) : (s.rotate).handlers = s.handlers := rfl
@[simp] theorem rotate_drbase (s : State) : (s.rotate).drbase = s.drbase := rfl
@[simp] theorem rotate_drsize (s : State) : (s.rotate).drsize = s.drsize := rfl
@[simp] theorem rotate_drhead (s : State) : (s.rotate).drhead = s.drhead := rfl
@[simp] theorem rotate_drtail (s : State) : (s.rotate).drtail = s.drtail := rfl
@[simp] theorem rotate_drdrop (s : State) : (s.rotate).drdrop = s.drdrop := rfl
@[simp] theorem rotate_asidt (s : State) : (s.rotate).asidt = s.asidt := rfl
@[simp] theorem rotate_scopes (s : State) : (s.rotate).scopes = s.scopes := rfl
@[simp] theorem rotate_carves (s : State) : (s.rotate).carves = s.carves := rfl
@[simp] theorem rotate_carveDie (s : State) : (s.rotate).carveDie = s.carveDie := rfl
@[simp] theorem rotate_ptpst (s : State) : (s.rotate).ptpst = s.ptpst := rfl
@[simp] theorem rotate_ptoff (s : State) : (s.rotate).ptoff = s.ptoff := rfl
@[simp] theorem rotate_locked (s : State) : (s.rotate).locked = s.locked := rfl
@[simp] theorem rotate_bootsrv (s : State) : (s.rotate).bootsrv = s.bootsrv := rfl
@[simp] theorem rotate_hostpw (s : State) : (s.rotate).hostpw = s.hostpw := rfl
@[simp] theorem rotate_atblk (s : State) : (s.rotate).atblk = s.atblk := rfl
@[simp] theorem rotate_atstat (s : State) : (s.rotate).atstat = s.atstat := rfl
@[simp] theorem rotate_devnum (s : State) : (s.rotate).devnum = s.devnum := rfl
@[simp] theorem rotate_nrbase (s : State) : (s.rotate).nrbase = s.nrbase := rfl
@[simp] theorem rotate_nrsize (s : State) : (s.rotate).nrsize = s.nrsize := rfl
@[simp] theorem rotate_nrhead (s : State) : (s.rotate).nrhead = s.nrhead := rfl
@[simp] theorem rotate_nrtail (s : State) : (s.rotate).nrtail = s.nrtail := rfl
@[simp] theorem rotate_nrdrop (s : State) : (s.rotate).nrdrop = s.nrdrop := rfl
@[simp] theorem rotate_ntbase (s : State) : (s.rotate).ntbase = s.ntbase := rfl
@[simp] theorem rotate_ntsize (s : State) : (s.rotate).ntsize = s.ntsize := rfl
@[simp] theorem rotate_nthead (s : State) : (s.rotate).nthead = s.nthead := rfl
@[simp] theorem rotate_nttail (s : State) : (s.rotate).nttail = s.nttail := rfl
@[simp] theorem rotate_portUp (s : State) : (s.rotate).portUp = s.portUp := rfl
@[simp] theorem rotate_sentFrames (s : State) : (s.rotate).sentFrames = s.sentFrames := rfl
@[simp] theorem rotate_links (s : State) : (s.rotate).links = s.links := rfl
@[simp] theorem rotate_flows (s : State) : (s.rotate).flows = s.flows := rfl
@[simp] theorem rotate_outPort (s : State) : (s.rotate).outPort = s.outPort := rfl
@[simp] theorem rotate_noRoute (s : State) : (s.rotate).noRoute = s.noRoute := rfl
@[simp] theorem rotate_sent (s : State) : (s.rotate).sent = s.sent := rfl
@[simp] theorem rotate_invocations (s : State) : (s.rotate).invocations = s.invocations := rfl
@[simp] theorem rotate_invQueues (s : State) : (s.rotate).invQueues = s.invQueues := rfl
@[simp] theorem rotate_replyWords (s : State) : (s.rotate).replyWords = s.replyWords := rfl

/-! ### Team.updWave -/

@[simp] theorem team_updWave_id (t : Team) (w : Nat) (f : Wave → Wave) : (t.updWave w f).id = t.id := rfl
@[simp] theorem team_updWave_launch (t : Team) (w : Nat) (f : Wave → Wave) : (t.updWave w f).launch = t.launch := rfl
@[simp] theorem team_updWave_core (t : Team) (w : Nat) (f : Wave → Wave) : (t.updWave w f).core = t.core := rfl
@[simp] theorem team_updWave_logical (t : Team) (w : Nat) (f : Wave → Wave) : (t.updWave w f).logical = t.logical := rfl
@[simp] theorem team_updWave_linear (t : Team) (w : Nat) (f : Wave → Wave) : (t.updWave w f).linear = t.linear := rfl
@[simp] theorem team_updWave_spad (t : Team) (w : Nat) (f : Wave → Wave) : (t.updWave w f).spad = t.spad := rfl
@[simp] theorem team_updWave_spadSize (t : Team) (w : Nat) (f : Wave → Wave) : (t.updWave w f).spadSize = t.spadSize := rfl
@[simp] theorem team_updWave_spadBase (t : Team) (w : Nat) (f : Wave → Wave) : (t.updWave w f).spadBase = t.spadBase := rfl
@[simp] theorem team_updWave_spadRegions (t : Team) (w : Nat) (f : Wave → Wave) : (t.updWave w f).spadRegions = t.spadRegions := rfl
@[simp] theorem team_updWave_spadBad (t : Team) (w : Nat) (f : Wave → Wave) : (t.updWave w f).spadBad = t.spadBad := rfl
@[simp] theorem team_updWave_tags (t : Team) (w : Nat) (f : Wave → Wave) : (t.updWave w f).tags = t.tags := rfl
@[simp] theorem team_updWave_barriers (t : Team) (w : Nat) (f : Wave → Wave) : (t.updWave w f).barriers = t.barriers := rfl
@[simp] theorem team_updWave_gangBase (t : Team) (w : Nat) (f : Wave → Wave) : (t.updWave w f).gangBase = t.gangBase := rfl
@[simp] theorem team_updWave_gangSize (t : Team) (w : Nat) (f : Wave → Wave) : (t.updWave w f).gangSize = t.gangSize := rfl
@[simp] theorem team_updWave_preempt (t : Team) (w : Nat) (f : Wave → Wave) : (t.updWave w f).preempt = t.preempt := rfl
@[simp] theorem team_updWave_preemptAt (t : Team) (w : Nat) (f : Wave → Wave) : (t.updWave w f).preemptAt = t.preemptAt := rfl
@[simp] theorem team_updWave_limitPassed (t : Team) (w : Nat) (f : Wave → Wave) : (t.updWave w f).limitPassed = t.limitPassed := rfl
@[simp] theorem team_updWave_ending (t : Team) (w : Nat) (f : Wave → Wave) : (t.updWave w f).ending = t.ending := rfl
@[simp] theorem team_updWave_fillLog (t : Team) (w : Nat) (f : Wave → Wave) : (t.updWave w f).fillLog = t.fillLog := rfl
@[simp] theorem team_updWave_dual (t : Team) (w : Nat) (f : Wave → Wave) : (t.updWave w f).dual = t.dual := rfl
@[simp] theorem team_updWave_restoring (t : Team) (w : Nat) (f : Wave → Wave) : (t.updWave w f).restoring = t.restoring := rfl
@[simp] theorem team_updWave_held (t : Team) (w : Nat) (f : Wave → Wave) : (t.updWave w f).held = t.held := rfl
@[simp] theorem team_updWave_heldFences (t : Team) (w : Nat) (f : Wave → Wave) : (t.updWave w f).heldFences = t.heldFences := rfl
@[simp] theorem team_updWave_echo (t : Team) (w : Nat) (f : Wave → Wave) : (t.updWave w f).echo = t.echo := rfl
@[simp] theorem team_updWave_gone (t : Team) (w : Nat) (f : Wave → Wave) : (t.updWave w f).gone = t.gone := rfl

/-! ### The field that an update changes -/

@[simp] theorem addReport_reports (s : State) (r : Report) : (s.addReport r).reports = s.reports ++ [r] := rfl
@[simp] theorem updPart_parts (s : State) (p : Nat) (f : Part → Part) : (s.updPart p f).parts = s.parts.modify p f := rfl
@[simp] theorem updSup_sups (s : State) (i : Nat) (f : Sup → Sup) : (s.updSup i f).sups = s.sups.modify i f := rfl
@[simp] theorem storeNow_mem (s : State) (pa : Nat) (bs : List Byte) : (s.storeNow pa bs).mem = Memory.writeN s.mem pa bs := rfl
@[simp] theorem tick_ticks (s : State) : s.tick.ticks = s.ticks + 1 := rfl

end Sys2Proof.Laws
end

