-- ==== Sys2Proof/Tests/Slice0.lean ====
section
/-!
SUPPORT. Tests of the model, and for each statement of the provers a witness: states and operands that meet its hypotheses.
-/

set_option maxRecDepth 20000

namespace Sys2Proof.Tests

open Sys2Proof Sys2Proof.Machine Sys2Proof.Claims

/-! ## Well-formed words: an ill-formed term for each check -/

/-- A word for which a device's own step stands (R63). -/
theorem test_wf_hasWord : Instr.wf .powerOn = false ∧ Instr.wf (.aringRelease 4 16 6) = false := by decide
/-- A latch as a destination (R18), an odd pair (R17), a group that passes g119 (R17). -/
theorem test_wf_fieldsOk : Instr.fieldsOk (.add false 121 1 2) = false ∧ Instr.fieldsOk (.addw 3 4 6) = false ∧
    Instr.fieldsOk (.addw 2 5 6) = false ∧ Instr.fieldsOk (.recset 1 114) = false := by decide
/-- NW with a D field, and on a word with no result in one register (R35, R58). -/
theorem test_wf_noWriteOk : Instr.noWriteOk (.add true 3 1 2) = false ∧ Instr.noWriteOk (.add true 0 1 2) = true ∧
    Instr.noWriteOk (.sld true 0 4 0 .d) = false := by decide
/-- Sub-fields out of range (R58, R59, R61, R87, R88, R93, R95, R96). -/
theorem test_wf_specialOk : Instr.specialOk (.br 0 true 4) = false ∧ Instr.specialOk (.loop 3 0) = false ∧ Instr.specialOk (.loopi 0 4) = false ∧
    Instr.specialOk (.winb 12) = false ∧ Instr.specialOk (.winb 512) = false ∧ Instr.specialOk (.gets false 3 0x005) = false ∧
    Instr.specialOk (.sets 3 0x010) = false ∧ Instr.specialOk (.fcvt false 3 4 .f32 .f32) = false ∧
    Instr.specialOk (.vote .all 8 1) = false ∧ Instr.specialOk (.topki 1 3 1 2) = false := by decide
/-- Trailers: a range past g119, a second range without a first, fields of a range that is not present (R37, R59). -/
theorem test_wf_trailOk : trailOk 118 2 0 0 false true = false ∧ trailOk 0 0 4 1 true false = false ∧ trailOk 4 0 0 0 false false = false ∧
    trailOk 8 3 20 1 true true = true := by decide

/-! ## Words

Each word is written out from the opcode map (R65) and the formats of R57; most are the examples of 02_encoding.md, "Words worked out", and of
the instructions' own rules. -/

theorem test_decode_scalar1 :
    decode 0x0200C082 = some (.add false 3 1 2) ∧
    decode 0x0221C3F9 = some (.sub false 7 7 121) ∧
    decode 0x0280C082 = some (.xor false 3 1 2) ∧
    decode 0x04004103 = some (.min false 1 2 3) ∧
    decode 0x04604103 = some (.maxu false 1 2 3) ∧
    decode 0x06018301 = some (.shl false 6 6 1) ∧
    decode 0x06218301 = some (.shr false 6 6 1) ∧
    decode 0x06418301 = some (.sra false 6 6 1) ∧
    decode 0x06618301 = some (.rot false 6 6 1) ∧
    decode 0x180A17FF = some (.andi false 5 5 0x3FF) ∧
    decode 0x08010280 = some (.clz false 4 5) ∧
    decode 0x08210280 = some (.popc false 4 5) ∧
    decode 0x08410280 = some (.brev false 4 5) := by decide

theorem test_decode_scalar2 :
    decode 0x08607D00 = some (.mov false 1 122) ∧
    decode 0x0A01440C = some (.mul false 5 8 12) ∧
    decode 0x0A428205 = some (.mulhu false 10 4 5) ∧
    decode 0x0C030103 = some (.mad false 12 2 3) ∧
    decode 0x0E208409 = some (.divu false 2 8 9) ∧
    decode 0x12041C68 = some (.bfx false 2 7 3 8) ∧
    decode 0x140625F0 = some (.bfi false 3 9 15 16) ∧
    decode 0x10010208 = some (.addw 4 4 8) ∧
    decode 0x16080410 = some (.addi false 4 1 16) ∧
    decode 0x20101678 = some (.movi 4 0x1678) ∧
    decode 0x221048D1 = some (.movhi 4 0x48D1) ∧
    decode 0x0240C082 = some (.and false 3 1 2) ∧
    decode 0x0260C082 = some (.or false 3 1 2) := by decide

theorem test_decode_scalar3 :
    decode 0x04204103 = some (.max false 1 2 3) ∧
    decode 0x04404103 = some (.minu false 1 2 3) ∧
    decode 0x0A21440C = some (.mulh false 5 8 12) ∧
    decode 0x0E008409 = some (.div false 2 8 9) ∧
    decode 0x0E408409 = some (.rem false 2 8 9) ∧
    decode 0x0E608409 = some (.remu false 2 8 9) ∧
    decode 0x10210208 = some (.subw 4 4 8) ∧
    decode 0x10410208 = some (.mulw 4 4 8) ∧
    decode 0x1A0A17FF = some (.ori false 5 5 0x3FF) ∧
    decode 0x1C0A17FF = some (.xori false 5 5 0x3FF) := by decide

theorem test_decode_predicates :
    decode 0x40404205 = some (.cmp .lt 1 4 5) ∧
    decode 0x42441864 = some (.cmpi .ltu 2 6 100) ∧
    decode 0x4460C082 = some (.kop .andn 3 1 2) ∧
    decode 0x46420082 = some (.sel false 2 8 1 2) := by decide

theorem test_decode_control1 :
    decode 0x60003FFD = some (.br 0 false (-3)) ∧
    decode 0x60600002 = some (.br 1 true 2) ∧
    decode 0x62190028 = some (.brl 0 false 100 40) ∧
    decode 0x64190000 = some (.jr 0 false 100 0) ∧
    decode 0x66002406 = some (.loop 9 6) ∧
    decode 0x68000508 = some (.loopi 5 8) ∧
    decode 0x6A000000 = some (.leave) ∧
    decode 0x6C000000 = some (.nop) ∧
    decode 0x6E000010 = some (.winb 16) ∧
    decode 0x70280020 = some (.gets false 20 0x20) ∧
    decode 0x72000C03 = some (.sets 3 3) ∧
    decode 0xFE000000 = some (.trail 0 0 0 0 false false false) ∧
    decode 0xFE100001 = some (.trail 4 0 0 0 false false true) := by decide

theorem test_decode_control2 :
    decode 0xFE219427 = some (.trail 8 3 20 1 true true true) := by decide

theorem test_decode_memory :
    decode 0xC4009400 = some (.recld 2 40) ∧
    decode 0xC420C800 = some (.recset 3 16) ∧
    decode 0xC001801D = some (.ld 3 0 1 .byp .h) ∧
    decode 0xC0021072 = some (.ld 4 2 7 .dflt .w) ∧
    decode 0xC2030823 = some (.st 0 6 1 2 .dflt .d) ∧
    decode 0xC2421872 = some (.st 1 4 3 7 .dflt .w) ∧
    decode 0xC6122424 = some (.sld false 9 9 4 .w) ∧
    decode 0xC6100FF6 = some (.sld false 8 3 (-2) .d) ∧
    decode 0xC80C2C04 = some (.sst 6 11 0 .w) ∧
    decode 0xC6083015 = some (.sldm 4 12 2 .w) ∧
    decode 0xC8043005 = some (.sstm 2 12 0 .w) ∧
    decode 0xCA00107A = some (.pref 2 7 .keep .w) := by decide

theorem test_decode_lanes1 :
    decode 0x8000C082 = some (.fadd false .f32 3 1 2) ∧
    decode 0x84210286 = some (.fmul false .bf16x2 4 5 6) ∧
    decode 0x86020082 = some (.ffma false .f32 8 1 2) ∧
    decode 0x8800C082 = some (.fmin false false .f32 3 1 2) ∧
    decode 0x8A80C082 = some (.fmax false true .f32 3 1 2) ∧
    decode 0x8C20C081 = some (.fsgn false .jn 3 1 1) ∧
    decode 0x8C00C0F8 = some (.fsgn false .j 3 1 120) ∧
    decode 0x8E204205 = some (.fcmp .lt 1 4 5) ∧
    decode 0x90018380 = some (.fclass false 6 7) ∧
    decode 0x920A1046 = some (.fcvt false 5 4 .f32 .bf16) ∧
    decode 0x920A1040 = some (.fcvt false 5 4 .f32 .s32) ∧
    decode 0x94040C03 = some (.frnd false 2 3 .rdn) ∧
    decode 0xA001C300 = some (.sfn false .exp2 7 6) := by decide

theorem test_decode_lanes2 :
    decode 0xA061C300 = some (.sfn false .rsq 7 6) ∧
    decode 0xA2018084 = some (.maxex false 6 1 4) ∧
    decode 0xA2208108 = some (.scalb false 2 2 8) ∧
    decode 0xA241C206 = some (.exp2m false 7 4 6) ∧
    decode 0xA4028184 = some (.dot4 false .s8 10 3 4) ∧
    decode 0xA6121000 = some (.pack false 9 4 .bf16x2) ∧
    decode 0xA8182402 = some (.unpk 12 9 .e4m3) ∧
    decode 0xAA650082 = some (.topki 3 20 1 2) ∧
    decode 0xAC20C000 = some (.rand false .f32 3) ∧
    decode 0x8200C082 = some (.fsub false .f32 3 1 2) := by decide

theorem test_decode_crossLane1 :
    decode 0xB0614209 = some (.shfl false .xor 5 4 9) ∧
    decode 0xB220C080 = some (.vote .any 3 1) ∧
    decode 0xB2418100 = some (.vote .ballot 6 2) ∧
    decode 0xB4020380 = some (.lred false .add 8 7) ∧
    decode 0xB6224180 = some (.scan false .addx 9 3) ∧
    decode 0xBA000000 = some (.rcb) ∧
    decode 0xBA200000 = some (.yield) ∧
    decode 0xBA400000 = some (.exit) ∧
    decode 0xBA600000 = some (.lpass) ∧
    decode 0xB801E003 = some (.bar 120 3) ∧
    decode 0xB8002903 = some (.bara 10 3) ∧
    decode 0xB8000203 = some (.barw 3) ∧
    decode 0xBE203C00 = some (.gbar 120) := by decide

theorem test_decode_crossLane2 :
    decode 0xBC010A00 = some (.fork 4 20) ∧
    decode 0xBC400500 = some (.take 0 10) ∧
    decode 0xBC210000 = some (.join 4) ∧
    decode 0xBE000A05 = some (.launch 20 5) := by decide

theorem test_decode_order1 :
    decode 0xCC010A00 = some (.bdecl 4 20) ∧
    decode 0xCC21440C = some (.benter 5 8 12) ∧
    decode 0xCC41440C = some (.bwait 5 8 12) ∧
    decode 0xCC60040C = some (.bleave 8 12) ∧
    decode 0xCC818200 = some (.bdrop 6 4) ∧
    decode 0xCE008286 = some (.acq 2 5 6) ∧
    decode 0xCE208280 = some (.rel 2 5) ∧
    decode 0xCE408000 = some (.fence 2) ∧
    decode 0xCE410000 = some (.fence 4) ∧
    decode 0xD0009000 = some (.waitc 1 2 0 .eq) ∧
    decode 0xD0021074 = some (.waitc 4 2 7 .geu) ∧
    decode 0xDA02107A = some (.atomOr 0 4 2 7 2) ∧
    decode 0xD2008802 = some (.redAdd 0 1 1 0 2) := by decide

theorem test_decode_order2 :
    decode 0xDE028019 = some (.atomXchg 0 5 0 1 1) ∧
    decode 0xDE031822 = some (.cas 0 6 3 2 2) ∧
    decode 0xD202107A = some (.atomAdd 0 4 2 7 2) ∧
    decode 0xD402107A = some (.atomMin 0 4 2 7 2) ∧
    decode 0xD4008802 = some (.redMin 0 1 1 0 2) ∧
    decode 0xD602107A = some (.atomMax 0 4 2 7 2) ∧
    decode 0xD6008802 = some (.redMax 0 1 1 0 2) ∧
    decode 0xD802107A = some (.atomAnd 0 4 2 7 2) ∧
    decode 0xD8008802 = some (.redAnd 0 1 1 0 2) ∧
    decode 0xDA008802 = some (.redOr 0 1 1 0 2) ∧
    decode 0xDC02107A = some (.atomXor 0 4 2 7 2) ∧
    decode 0xDC008802 = some (.redXor 0 1 1 0 2) := by decide

theorem test_decode_engines :
    decode 0xE0000805 = some (.copy 0 16 5) ∧
    decode 0xE0200805 = some (.copy 1 16 5) ∧
    decode 0xE2010A00 = some (.wtag 4 20) ∧
    decode 0xE2210A00 = some (.wtany 4 20) ∧
    decode 0xE2410A00 = some (.tfirst 4 20) ∧
    decode 0xE4018385 = some (.vfill 6 7 5) ∧
    decode 0xE6018805 = some (.mloop 6 16 5) ∧
    decode 0xE8018A05 = some (.aring 6 20 5) ∧
    decode 0xE8218A05 = some (.epi 6 20 5) ∧
    decode 0xEA000380 = some (.qfence 7) ∧
    decode 0xEA210380 = some (.qseq 4 7) ∧
    decode 0xEC010A09 = some (.sumpw 4 20 9) ∧
    decode 0xEC210A09 = some (.sumpx 4 20 9) := by decide

theorem test_decode_system :
    decode 0xF0000005 = some (.trap 5) ∧
    decode 0xF2400A05 = some (.tlbi 20 5) ∧
    decode 0xF2610A05 = some (.partEnq 4 20 5) ∧
    decode 0xF2A10A00 = some (.lostclr 4 20) ∧
    decode 0xF4000485 = some (.invoke 9 5) ∧
    decode 0xF6050184 = some (.frame 20 3 4) ∧
    decode 0xF6204A00 = some (.fchk 1 20) ∧
    decode 0xF8005007 = some (.evt 20 7) ∧
    decode 0xF2000000 = some (.eret) ∧
    decode 0xF2200000 = some (.wfi) ∧
    decode 0xF2800000 = some (.halt) := by decide

/-- Words that R63 makes ILLEGAL: the examples of 02_encoding.md. -/
theorem test_decode_illegal :
    decode 0x00000000 = none ∧
    decode 0xFC000000 = none ∧
    decode 0x02E00000 = none ∧
    decode 0x6C000001 = none ∧
    decode 0x17080410 = none ∧
    decode 0xC0421072 = none ∧
    decode 0x60200002 = none ∧
    decode 0xFE000008 = none ∧
    decode 0xFE000002 = none := by decide
/-! ## Small states -/

/-- A run of one word and a trailer, of two active lanes. -/
def run0 (i : Instr) : Run :=
  { start := 0x40, words := [i, .trail 0 0 0 0 false false false], idx := 0, cycle := 0, mask := 3, parkedMask := 0, parks := [],
    winb := 0, newWinb := none, taken := [], push := none, skipTo := none, leaves := 0, yields := false, exits := false, lpass := false,
    turnEnds := false, blocks := [], spadPort := 0, bundlePort := 0, returns := false, jump := none }

/-- A wave of 16 lanes with 24 registers each that stands before the word; every lane's first registers hold `rs`. -/
def wave0 (i : Instr) (rs : List Word) : Wave :=
  let ln : Lane := { Lane.fresh 24 with regs := rs ++ List.replicate (24 - rs.length) 0 }
  { Wave.fresh 0 16 24 0x40 0 .user with lanes := List.replicate 16 ln, frontier := [], run := some (run0 i) }

/-- A team of that wave on compute core 3 of D0. -/
def team0 (w : Wave) : Team :=
  { Team.supervisor 0 with id := 20, core := 3, waves := [w], spadSize := 1024, tags := List.replicate 16 Tag.fresh, linear := 7 }

/-- A running device with that team and one compute core. -/
def dev (t : Team) : State :=
  { State.reset with boot := .running, nextId := 100, cur := (20, 0), teams := [t], cores := [{ Core.fresh 0 3 with part := some 5, started := true }], devnum := 0 }

/-- The device before a word; `f` changes the wave, `g` the team. -/
def atWord (i : Instr) (rs : List Word := []) (f : Wave → Wave := id) (g : Team → Team := id) : State := dev (g (team0 (f (wave0 i rs))))

/-- The same with the team on supervisor core 1 of D0. -/
def atSup (i : Instr) (rs : List Word := []) (f : Wave → Wave := id) : State :=
  atWord i rs (fun w => f { w with priv := .supervisor }) fun t => { t with core := 97 }

/-- The issue of the current wave. -/
def cur (s : State) : Issue := s.issuer.getD { team := team0 (wave0 .nop []), wave := wave0 .nop [], run := run0 .nop }

/-- A wave that stands in a run, outside runahead and DUAL, with no register in error, issues. -/
theorem issues_cur {s : State} (h : (s.issuer.map fun c => c.wave.runahead.isNone && c.team.dual.isNone &&
    c.wave.lanes.all fun l => l.badRegs.isEmpty) = some true) : s.issues (cur s) := by
  unfold State.issues cur
  cases hc : s.issuer with
  | none => simp [hc] at h
  | some c => simp_all

/-- The state after a word, the state before where it does not go on. -/
def after (i : Instr) (s : State) : State :=
  match exec i s with
  | .next t => t
  | _ => s

/-- The current wave's lane 0 once its results have been written (R28). -/
def lane0 (s : State) : Lane := (((s.wave? 20 0).bind fun w => w.lanes[0]?).getD (Lane.fresh 0)).drain

/-- What a word leaves in a register of lane 0. -/
def res (i : Instr) (rs : List Word) (p : Nat) : Word := (lane0 (after i (atWord i rs))).regs.getD p 0

/-- What a word leaves in a predicate of lane 0. -/
def resPred (i : Instr) (rs : List Word) (k : Nat) : Bool := (lane0 (after i (atWord i rs))).preds.getLsbD k

/-! ## Results that the rules state -/

/-- R76: SRA and SHL by 40, ROT by 1. -/
theorem test_shifts : res (.sra false 6 6 1) [0, 40, 0, 0, 0, 0, 0x80000000] 6 = 0xFFFFFFFF ∧
    res (.shl false 6 6 1) [0, 40, 0, 0, 0, 0, 0x80000000] 6 = 0 ∧
    res (.rot false 6 6 1) [0, 1, 0, 0, 0, 0, 0x80000001] 6 = 3 := by decide
/-- R79: MULH and MULHU of all ones. -/
theorem test_mulh : res (.mulh false 2 0 1) [0xFFFFFFFF, 0xFFFFFFFF] 2 = 0 ∧
    res (.mulhu false 2 0 1) [0xFFFFFFFF, 0xFFFFFFFF] 2 = 0xFFFFFFFE := by decide
/-- R80, the table: -7 by 2. -/
theorem test_division : res (.div false 2 0 1) [0xFFFFFFF9, 2] 2 = 0xFFFFFFFD ∧ res (.rem false 2 0 1) [0xFFFFFFF9, 2] 2 = 0xFFFFFFFF ∧
    res (.divu false 2 0 1) [0xFFFFFFF9, 2] 2 = 0x7FFFFFFC ∧ res (.remu false 2 0 1) [0xFFFFFFF9, 2] 2 = 1 := by decide
/-- R80, the table: overflow and division by zero. -/
theorem test_division_corners : res (.div false 2 0 1) [0x80000000, 0xFFFFFFFF] 2 = 0x80000000 ∧
    res (.rem false 2 0 1) [0x80000000, 0xFFFFFFFF] 2 = 0 ∧ res (.div false 2 0 1) [12345, 0] 2 = 0xFFFFFFFF ∧
    res (.rem false 2 0 1) [12345, 0] 2 = 12345 := by decide
/-- R81: BFX of four bits from bit 8. -/
theorem test_bfx : res (.bfx false 2 7 3 8) [0, 0, 0, 0, 0, 0, 0, 0xAB00] 2 = 0xB := by decide
/-- R82: the carry of ADDW reaches the high half. -/
theorem test_addw : res (.addw 4 4 8) [0, 0, 0, 0, 0xFFFFFFFF, 1, 0, 0, 1, 0] 4 = 0 ∧
    res (.addw 4 4 8) [0, 0, 0, 0, 0xFFFFFFFF, 1, 0, 0, 1, 0] 5 = 2 := by decide
/-- R84: CMPI.ltu compares the sign-extended immediate as an unsigned value. -/
theorem test_cmpi : resPred (.cmpi .ltu 2 6 100) [0, 0, 0, 0, 0, 0, 0xFFFFFFFF] 2 = false ∧
    resPred (.cmpi .ltu 2 6 0x3FF) [0, 0, 0, 0, 0, 0, 5] 2 = true := by decide

/-! ## Witnesses: states and operands that meet the hypotheses of each statement -/

theorem witness_IntegerResults : ∃ r, (atWord (.add false 3 1 2)).issues (cur (atWord (.add false 3 1 2))) ∧ intRow (.add false 3 1 2) = some r :=
  ⟨_, issues_cur (by decide), rfl⟩
theorem witness_IntegerResults_words : (∃ w, intWord (.movi 120 5) = some w) ∧ Instr.wf (.movi 120 5) = true ∧ intReserved 0x02E00000 :=
  ⟨⟨_, rfl⟩, by decide, by unfold intReserved; decide⟩
theorem witness_PairResults : ∃ d lat a b g, (atWord (.mulw 4 4 8)).issues (cur (atWord (.mulw 4 4 8))) ∧
    pairRow (.mulw 4 4 8) = some (d, lat, a, b, g) := ⟨_, _, _, _, _, issues_cur (by decide), rfl⟩
theorem witness_PredicateResults : ∃ r, (atWord (.cmp .lt 0 4 5)).issues (cur (atWord (.cmp .lt 0 4 5))) ∧ predRow (.cmp .lt 0 4 5) = some r :=
  ⟨_, issues_cur (by decide), rfl⟩
theorem witness_FloatResults : ∃ r, (atWord (.ffma false .f32 3 1 2)).issues (cur (atWord (.ffma false .f32 3 1 2))) ∧
    floatRow (.ffma false .f32 3 1 2) = some r := ⟨_, issues_cur (by decide), rfl⟩
theorem witness_GroupResults : (atWord (.unpk 12 9 .e4m3)).issues (cur (atWord (.unpk 12 9 .e4m3))) ∧
    (atWord (.topki 3 20 1 2)).issues (cur (atWord (.topki 3 20 1 2))) := ⟨issues_cur (by decide), issues_cur (by decide)⟩
theorem witness_CrossLaneResults : ∃ lat bank out, (atWord (.shfl false .xor 5 4 9)).issues (cur (atWord (.shfl false .xor 5 4 9))) ∧
    crossRow (.shfl false .xor 5 4 9) = some (lat, bank, out) := ⟨_, _, _, issues_cur (by decide), rfl⟩
theorem witness_SpecialOperands : f32 0x7FC00000 = .nan false ∧ f32 0x7F800001 = .nan true ∧ ∃ m e, f32 0xBF800000 = .fin true m e ∧ m ≠ 0 :=
  ⟨by decide, by decide, _, _, rfl, by decide⟩
theorem witness_RoundingIsExact : ∃ (f : FpFmt) (neg : Bool) (m : Nat) (e : Int), (1 : Nat) < 2 ^ f.width ∧ f.decode 1 = .fin neg m e :=
  ⟨.e4m3, _, _, _, by decide, rfl⟩

/-- What a lane with one pending result, due in cycle 3 for register 5, and one latched result reads in a cycle. -/
def ctx0 (cyc : Nat) : LaneCtx :=
  { lane := { Lane.fresh 24 with pend := [{ due := 3, dst := .reg 5, val := 9 }], latches := [{ idx := 2, due := 3, val := 9 }] },
    l := 0, winb := 0, idx := 3, cyc := cyc }

/-- Before the cycle in which the result is due, and in it; a latch that is complete, one that is not, and one that names no word. -/
theorem witness_ReadsOfAField :
    (∀ w ∈ (ctx0 2).lane.pend, w.dst = .reg (0 + 5) → 2 < w.due) ∧
    (∀ v ∈ (ctx0 3).lane.pend, v.dst = .reg (0 + 5) → v.due ≤ 3 → v = { due := 3, dst := .reg 5, val := 9 }) ∧
    (∀ v ∈ (ctx0 2).lane.latches, v.idx + ((121 : Reg).toNat - 120) = 3 → 2 < v.due) ∧
    (ctx0 3).lane.latches.filter (fun v => v.idx + ((121 : Reg).toNat - 120) == 3) = [{ idx := 2, due := 3, val := 9 }] := by decide
theorem witness_ResultTiming : (outReg (ctx0 0) false 5 9).regs = [(5, 9)] ∧ (outReg (ctx0 0) false 5 9).pred = none ∧
    (∃ z, (outReg (ctx0 0) false 5 9).latch = some z) ∧ ∀ w ∈ (ctx0 0).lane.latches, w.idx ≠ 3 := ⟨by decide, by decide, ⟨_, rfl⟩, by decide⟩
theorem witness_RunEndDrains : (∀ w ∈ (ctx0 0).lane.pend, w.due ≤ 3) ∧ 23 < (ctx0 0).lane.regs.length := by decide
theorem witness_Branches : ∃ k n t, (atWord (.brl 1 true 100 5)).issues (cur (atWord (.brl 1 true 100 5))) ∧
    branchTarget (cur (atWord (.brl 1 true 100 5))) (.brl 1 true 100 5) = some (k, n, t) := ⟨_, _, _, issues_cur (by decide), rfl⟩

/-- Four entries on the loop stack. -/
def fullLoops (w : Wave) : Wave := { w with loops := List.replicate 4 { start := 0x40, stop := 0x50, count := 2 } }

/-- A count of 0, a full loop stack, and neither. -/
theorem witness_Loops : (atWord (.loop 1 2)).issues (cur (atWord (.loop 1 2))) ∧ ((cur (atWord (.loop 1 2))).laneAt 1 0).reg 1 = 0 ∧
    ((cur (atWord (.loop 1 2) [0, 3])).laneAt 1 0).reg 1 = 3 ∧
    4 ≤ (cur (atWord (.loop 1 2) [0, 3] fullLoops)).wave.loops.length - (cur (atWord (.loop 1 2) [0, 3] fullLoops)).run.leaves ∧
    (cur (atWord (.loop 1 2))).lowest = some 0 := ⟨issues_cur (by decide), by decide, by decide, by decide, by decide⟩
theorem witness_MarkingWords : ∃ f g, (atWord .exit).issues (cur (atWord .exit)) ∧ markOf (cur (atWord .exit)) .exit = some f ∧
    markOf (cur (atWord (.winb 16))) (.winb 16) = some g ∧ (cur (atWord .exit)).lanes ≠ [] := ⟨_, _, issues_cur (by decide), rfl, rfl, by decide⟩
theorem witness_NopLeaveWinb : (atWord .leave).issues (cur (atWord .leave)) ∧ (cur (atWord .leave)).lowest = some 0 ∧
    (cur (atWord .leave)).wave.loops.length ≤ (cur (atWord .leave)).run.leaves ∧ (cur (atWord .leave)).wave.nregs ≤ BitVec.toNat (24 : BitVec 10) :=
  ⟨issues_cur (by decide), by decide, by decide, by decide⟩

/-- The device with a word at address 0x100 of D0's memory. -/
def withWord (w : Nat) (s : State) : State := { s with mem := Memory.writeN s.mem 0x100 (bytesLE 4 w) }

/-- MOV g1, b1 after a NOP. -/
theorem witness_NopWord : ∃ s' x, (withWord 0x08607C80 (atSup .nop)).fetchWord (cur (atSup .nop)).team 0x40 = (s', .ok x) ∧
    checkWord .user x = .ok (.mov false 1 121) ∧ ((121 : Reg), 1) ∈ Instr.sources (fun _ => 1) (.mov false 1 121) ∧
    [Instr.nop].reverse[(121 : Reg).toNat - 121]? = some .nop := ⟨_, _, rfl, by decide, by decide, by decide⟩
theorem witness_Trailers : (atWord (.trail 4 0 0 0 false false true)).issues (cur (atWord (.trail 4 0 0 0 false false true))) ∧
    (cur (atWord (.trail 4 0 0 0 false false true))).team.isSup = false ∧ (cur (atWord (.trail 4 0 0 0 false false true))).wave.priv = .user ∧
    let r := (cur (atWord (.trail 4 0 0 0 false false true))).run
    r.exits = false ∧ r.lpass = false ∧ r.yields = false ∧ r.turnEnds = false ∧ r.returns = false ∧ r.blocks.any BlockWhy.endsTurn = false :=
  ⟨issues_cur (by decide), by decide⟩
theorem witness_TrailerPlacesLanes :
    let w := { wave0 .nop [] with frontier := [{ pc := 0x90, mask := 4, st := .runnable, age := 0, land := .here }] }
    let r := { run0 .nop with taken := [(1, 0x80)] }
    r.parks = [] ∧ r.blocks = [] ∧ w.loops = [] ∧ (∀ e ∈ w.frontier, e.mask &&& r.mask = 0 ∧ e.isHeld = false) ∧
    (w.frontier.Pairwise fun a b => a.mask &&& b.mask = 0) ∧ laneIn r.mask 1 = true ∧ laneIn r.mask 2 = false ∧ w.width ≤ 64 := by decide

theorem witness_SpecialReads : (atSup (.gets false 4 0x020)).issues (cur (atSup (.gets false 4 0x020))) ∧
    (∀ x, userRegister (atSup (.gets false 4 0x020)) (cur (atSup (.gets false 4 0x020))) x 0x020 = some 0) ∧
    (0x200 : BitVec 10).toNat ∉ [0x207, 0x209, 0x217, 0x249] ∧ (0x249 : BitVec 10).toNat ∈ [0x207, 0x209, 0x217, 0x249] :=
  ⟨issues_cur (by decide), fun _ => rfl, by decide, by decide⟩
theorem witness_SpecialWrites : (atWord (.sets 1 0x002) [0, 63]).issues (cur (atWord (.sets 1 0x002) [0, 63])) ∧
    (cur (atWord (.sets 1 0x002) [0, 63])).lowest = some 0 ∧
    ∀ j ∈ (cur (atWord (.sets 1 0x002) [0, 63])).lanes, (((cur (atWord (.sets 1 0x002) [0, 63])).laneAt 1 j).reg 1).toNat < 64 :=
  ⟨issues_cur (by decide), by decide, by decide⟩
theorem witness_SupervisorWrites : (atSup (.sets 1 0x200)).issues (cur (atSup (.sets 1 0x200))) ∧ (cur (atSup (.sets 1 0x200))).lowest = some 0 ∧
    0x200 ≤ (0x200 : BitVec 10).toNat := ⟨issues_cur (by decide), by decide, by decide⟩
theorem witness_SupervisorRegistersReadBack : State.reset.wellKept ∧ (0x21C ∈ readWrite ∧ 0x201 ∈ readWrite) ∧
    (∃ t, State.reset.setSup 15 0x21C 1048576 = some t) ∧ (∃ t, State.reset.setSup 0 0x201 128 = some t) ∧ perPartition 0x21C = true :=
  ⟨⟨⟨rfl, by decide⟩, by decide, by decide, by decide⟩, by decide, ⟨_, rfl⟩, ⟨_, rfl⟩, by decide⟩
theorem witness_FaultsPark : (atWord .nop).issues (cur (atWord .nop)) ∧ (cur (atWord .nop)).team.isSup = false ∧
    (cur (atWord .nop)).run.jump = none ∧ FaultCode.align ≠ .eccUncorr ∧
    (cur (atWord .nop)).run.mask &&& ~~~(cur (atWord .nop)).run.parkedMask ≠ 0 := ⟨issues_cur (by decide), by decide, by decide, by decide, by decide⟩

/-- The device with %tfp of supervisor core 1. -/
def withTfp (a : DWord) (s : State) : State := s.updSup 1 fun u => { u with tfp := a }

/-- The frame fits exactly, and does not by one byte. -/
theorem witness_TrapEntry : (atSup .nop).sups.length = 16 ∧ (cur (atSup .nop)).team.supIdx < 16 ∧
    (∃ w, (atSup .nop).wave? (cur (atSup .nop)).team.id 0 = some w) ∧
    ((withTfp 128 (atSup .nop)).sup 1).tlim.toNat + 128 ≤ ((withTfp 128 (atSup .nop)).sup 1).tfp.toNat ∧
    ((withTfp 127 (atSup .nop)).sup 1).tfp.toNat < ((withTfp 127 (atSup .nop)).sup 1).tlim.toNat + 128 :=
  ⟨by decide, by decide, ⟨_, rfl⟩, by decide, by decide⟩
theorem witness_TrapFrames : let w := fullLoops (wave0 .nop []); w.loops.length ≤ 4 ∧ w.winb < 512 ∧ w.winb % 8 = 0 ∧ w.rmode.toNat ≤ 4 ∧
    ∀ ln ∈ w.lanes, ln.flags.toNat < 64 := by decide
theorem witness_TrapAndEret : (atSup .eret).issues (cur (atSup .eret)) ∧ (cur (atSup .eret)).lowest = some 0 ∧
    (atSup .eret).stalls (cur (atSup .eret)) .eret = false := ⟨issues_cur (by decide), by decide, by decide +kernel⟩

/-- Whether the FENCE of a TLBI is held back. -/
def tlbiHolds (s : State) : Bool :=
  (nextIdentity (s.issued (cur s) ((cur s).slots 1 (some (4, 2))))).fenceHolds (cur s).team.id (cur s).wave s.nextId 2
/-- A posted write of a word at 0x3000. -/
def posted0 : Posted :=
  { id := 40, team := 20, wave := 0, core := 3, pa := 0x3000, bytes := [some 1, some 2, some 3, some 4], remote := false, bound := false,
    applied := false, acks := [], noneHeld := [], dropped := [], shared := false, va := 0x3000 }
/-- A legal control value, with a write to wait for and without one, and one of SCOPE 3. -/
theorem witness_TlbInvalidations : (atSup (.tlbi 4 2)).issues (cur (atSup (.tlbi 4 2))) ∧ (cur (atSup (.tlbi 4 2))).lowest = some 0 ∧
    (((cur (atSup (.tlbi 4 2))).laneAt 1 0).reg 2).toNat = 0 ∧ (((cur (atSup (.tlbi 4 2))).laneAt 1 0).pair 4).toNat < 2 ^ 56 ∧
    (((cur (atSup (.tlbi 4 2) [0, 0, 0xC0000000])).laneAt 1 0).reg 2).toNat / 2 ^ 30 = 3 ∧ tlbiHolds (atSup (.tlbi 4 2)) = false ∧
    tlbiHolds { atSup (.tlbi 4 2) with posted := [posted0] } = true :=
  ⟨issues_cur (by decide), by decide, by decide, by decide, by decide, by decide +kernel, by decide +kernel⟩

/-- PART with the operation `op` on compute core 3: the B operand. -/
def partWord (op : Nat) : State := atSup (.partAdd 8 4 2) [0, 0, BitVec.ofNat 32 (op * 2 ^ 28 + 5), 0, 3, 0]

/-- ENQ, ADD, REMOVE and RESET of a core that exists, and an unknown operation. -/
theorem witness_Partitions : (partWord 1).issues (cur (partWord 1)) ∧ (cur (partWord 1)).lowest = some 0 ∧
    partFields (.partAdd 8 4 2) = some (8, 4, 2) ∧
    (∀ op ∈ [0, 1, 2, 3, 4], (((cur (partWord op)).laneAt ((cur (partWord op)).slots 1 (some (4, 2))) 0).reg 2).toNat = op * 2 ^ 28 + 5) ∧
    (((cur (partWord 1)).laneAt 1 0).pair 4).toNat % 2 ^ 32 = 3 ∧
    (∃ core, ((partWord 1).issued (cur (partWord 1)) 1).core? (3 / 96 * 100 + 3 % 96) = some core) ∧ ∃ y, (partWord 1).core? 3 = some y :=
  ⟨issues_cur (by decide), by decide, by decide, by decide, by decide, ⟨_, rfl⟩, _, rfl⟩

/-- LOSTCLR of an address in a pair; line 0x1C0 is LOST, and 4 MiB of D0 are carved as stalagmite lines. -/
def lostWord (a : DWord) : State :=
  { atSup (.lostclr 8 4) [0, 0, 0, 0, a.setWidth 32, (a >>> 32).setWidth 32] with lost := [0x1C0], carves := [1, 0, 0, 0] }

/-- The pair of LOSTCLR. -/
def lostAt (a : DWord) : Nat := (((cur (lostWord a)).laneAt 1 0).pair 4).toNat

/-- Past the address space, misaligned, a stalagmite line, outside HBM, a line that is not LOST, and one that is. -/
theorem witness_LostLines : (lostWord 0).issues (cur (lostWord 0)) ∧ (cur (lostWord 0)).lowest = some 0 ∧ 2 ^ 43 ≤ lostAt 0x80000000000 ∧
    lostAt 0x1C1 % 64 ≠ 0 ∧ (lostWord 0x10000000000).inWindow (lostAt 0x10000000000) = true ∧
    ((lostWord 0x8000000000).inWindow (lostAt 0x8000000000) = false ∧ inHbm (lostAt 0x8000000000) = false ∧ lostAt 0x8000000000 % 64 = 0 ∧
      lostAt 0x8000000000 < 2 ^ 43 ∧ (cur (lostWord 0x8000000000)).team.isSup = true) ∧
    (inHbm (lostAt 0) = true ∧ lostAt 0 ∉ (lostWord 0).lost ∧ (lostWord 0).inWindow (lostAt 0) = false) ∧
    inHbm (lostAt 0x1C0) = true ∧ lostAt 0x1C0 ∈ (lostWord 0x1C0).lost :=
  ⟨issues_cur (by decide), by decide, by decide, by decide, by decide, by decide, by decide, by decide, by decide⟩

/-- An unbound record of 100 elements from address 0x1000. -/
def rec0 (f : Nat) : BufRec := { BufRec.zero with base := 0x1000, extent := 100, stride := 4, fmt := BitVec.ofNat 8 f, ver := 0x10 }

/-- A supervisor core before a word, with that record, of format code `f` (7: 32-bit integers), in record register 1. -/
def atRec (i : Instr) (rs : List Word := [0, 0, 5]) (f : Nat := 7) : State := atSup i rs fun w => { w with recs := w.recs.set 1 (rec0 f) }

/-- The lanes' addresses through record register 1 with index register 2. -/
def addrsOf (s : State) (z : Nat) (lanes : List Nat) : List (Nat × Option Nat) :=
  match (cur s).laneAddrs 1 ((cur s).record 1) 2 z lanes with
  | .ok a => a
  | .error _ => []

/-- The lanes' translated accesses, with the state. -/
def reach (s : State) (z : Nat) (lanes : List Nat) (k : Access) : State × List LaneTarget :=
  State.laneTargets (cur s).team ((cur s).record 1) k (addrsOf s z lanes) (s.issued (cur s) 1)

/-- Each translated access of a list succeeds, outside stalagmite lines. -/
def allGood (p : State × List LaneTarget) : Bool :=
  p.2.all fun t => match t.pa with
    | .ok g => !(decide (devOf g = p.1.ownDev) && p.1.inWindow (localOf g))
    | .error _ => false

theorem reaches_of {s : State} {z : Nat} {lanes : List Nat} {k : Access} (hb : ((cur s).record 1).bound = false)
    (hz : Fmt.size ((cur s).record 1).format = z) (hf : (cur s).laneAddrs 1 ((cur s).record 1) 2 z lanes = .ok (addrsOf s z lanes))
    (hg : allGood (reach s z lanes k) = true) :
    Reaches s (cur s) 1 2 z lanes k (reach s z lanes k).1 (addrsOf s z lanes) (reach s z lanes k).2 := by
  refine ⟨hb, hz, hf, rfl, ?_⟩
  intro t ht
  have := List.all_eq_true.mp hg t ht
  split at this
  · rename_i g hp
    refine ⟨g, hp, fun h => ?_⟩
    simp [h.1, h.2] at this
  · cases this

/-- The state before LD, ST, WAITC and RED through the record, whose lanes read element 5. -/
def ldAt : State := atRec (.ld 4 1 2 .dflt .w)

theorem witness_Records : (atSup (.recld 1 4)).issues (cur (atSup (.recld 1 4))) ∧ (cur (atSup (.recld 1 4))).lowest = some 0 ∧
    (((atSup (.recld 1 4)).issued (cur (atSup (.recld 1 4))) 1).translateFor (cur (atSup (.recld 1 4))).team 0 .read).2.toOption = some 0 ∧
    (((cur (atSup (.recld 1 4) [0, 0, 0, 0, 4])).laneAt 1 0).pair 4).toNat % 32 ≠ 0 ∧
    (let x := (cur (atSup (.recset 1 4) [0, 0, 0, 0, 0x0710, 4, 0x1000, 0, 100])).laneAt 1 0;
      (BufRec.ofBytes ((List.range 8).flatMap fun i => bytesLE 4 (x.grp 4 i).toNat)).check = none) ∧
    let x := (cur (atSup (.recset 1 4))).laneAt 1 0
    (BufRec.ofBytes ((List.range 8).flatMap fun i => bytesLE 4 (x.grp 4 i).toNat)).check = some .version :=
  ⟨issues_cur (by decide), by decide, by decide +kernel, by decide, by decide +kernel, by decide +kernel⟩
theorem witness_Loads : ldAt.issues (cur ldAt) ∧ (cur ldAt).lanes ≠ [] ∧
    Reaches ldAt (cur ldAt) 1 2 (Size.bytes .w) (cur ldAt).lanes .read (reach ldAt 4 (cur ldAt).lanes .read).1
      (addrsOf ldAt 4 (cur ldAt).lanes) (reach ldAt 4 (cur ldAt).lanes .read).2 :=
  ⟨issues_cur (by decide), by decide, reaches_of (by decide) (by decide) rfl (by decide +kernel)⟩
/-- An index past the end is out of bounds under clamp-to-zero. -/
theorem witness_Loads_outOfBounds : let s := atRec (.ld 4 1 2 .dflt .w) [0, 0, 100]
    Reaches s (cur s) 1 2 (Size.bytes .w) (cur s).lanes .read (reach s 4 (cur s).lanes .read).1 (addrsOf s 4 (cur s).lanes)
      (reach s 4 (cur s).lanes .read).2 ∧ addrsOf s 4 (cur s).lanes = [(0, none), (1, none)] :=
  ⟨reaches_of (by decide) (by decide) rfl (by decide +kernel), by decide⟩
theorem witness_Stores : let ls := (cur ldAt).lanes.filter fun l => ((cur ldAt).laneAt 1 l).pred 0
    ldAt.issues (cur ldAt) ∧ ls ≠ [] ∧
    Reaches ldAt (cur ldAt) 1 2 (Size.bytes .w) ls .write (reach ldAt 4 ls .write).1 (addrsOf ldAt 4 ls) (reach ldAt 4 ls .write).2 :=
  ⟨issues_cur (by decide), by decide, reaches_of (by decide) (by decide) rfl (by decide +kernel)⟩
theorem witness_AccessTypes : ldAt.issues (cur ldAt) ∧ (cur ldAt).lanes ≠ [] ∧ Fmt.size ((cur ldAt).record 1).format ≠ Size.bytes .d ∧
    ((cur (atRec .nop [] 9)).record 1).format ∈ [Fmt.f32, .f16, .bf16] ∧ ((cur (atRec .nop [] 0x0C)).record 1).format ∈ [Fmt.e4m3, .e5m2] ∧
    Fmt.size ((cur (atRec .nop [] 0)).record 1).format = 0 ∧
    atomicForm (.redOr 0 4 1 2 2) = some (.or, false, 0, 4, 1, 2, 2) ∧ atomicForm (.atomAdd 0 4 1 2 2) = some (.add, true, 0, 4, 1, 2, 2) :=
  ⟨issues_cur (by decide), by decide, by decide, by decide, by decide, by decide, rfl, rfl⟩
theorem witness_Atomics : let ls := (cur ldAt).lanes.filter fun l => ((cur ldAt).laneAt 1 l).pred 0
    let f := ((cur ldAt).record 1).format
    atomicForm (.cas 0 4 1 2 2) = some (.cas, true, 0, 4, 1, 2, 2) ∧ RmwOp.takes .cas f = true ∧ RmwOp.dataOk .cas f 4 = true ∧
    (cur ldAt).dFits 4 (Fmt.regs f * 2) = true ∧ Reaches ldAt (cur ldAt) 1 2 (Fmt.size f) ls .rmw (reach ldAt 4 ls .rmw).1 (addrsOf ldAt 4 ls) (reach ldAt 4 ls .rmw).2 :=
  ⟨rfl, by decide, by decide, by decide, reaches_of (by decide) (by decide) rfl (by decide +kernel)⟩
/-- The last word of the scratchpad, as it is and with a byte in error. -/
theorem witness_ScratchpadLoads : let s := atWord (.sld false 8 3 0 .w) [0, 0, 0, 1020]
    let t := atWord (.sld false 8 3 0 .w) [0, 0, 0, 1020] id fun t => { t with spadBad := [1023] }
    s.goes (cur s) (.sld false 8 3 0 .w) ∧ (cur s).lanes ≠ [] ∧
    (∀ l ∈ (cur s).lanes, let a := (((cur s).laneAt 1 l).reg 3).toNat + (0 : BitVec 7).toInt * 4
      0 ≤ a ∧ a + 4 ≤ (cur s).team.spadSize ∧ a.toNat % 4 = 0 ∧ (cur s).team.spadError a.toNat 4 = false) ∧
    (cur t).lanes.find? (fun l => (cur t).team.spadError (((cur t).laneAt 1 l).reg 3).toNat 4) = some 0 :=
  ⟨⟨issues_cur (by decide), by decide +kernel⟩, by decide, by decide, by decide +kernel⟩
/-- One past it, and a misaligned address: the lowest lane faults. -/
theorem witness_ScratchpadStores : let s := atWord (.sst 8 3 0 .w) [0, 0, 0, 1021]
    let t := atWord (.sst 8 3 0 .w) [0, 0, 0, 1018]
    s.goes (cur s) (.sst 8 3 0 .w) ∧ Memory.wf (cur s).team.spad = true ∧
    ¬ (((cur s).laneAt 1 0).reg 3).toNat + (0 : BitVec 7).toInt * 4 + 4 ≤ (cur s).team.spadSize ∧ (cur s).lanes.head? = some 0 ∧
    (((cur t).laneAt 1 0).reg 3).toNat % 4 ≠ 0 := ⟨⟨issues_cur (by decide), by decide +kernel⟩, by decide +kernel, by decide +kernel, by decide +kernel, by decide +kernel⟩

/-- A second member of the gang on the core, which has started; `w` is its waves. -/
def withPeer (w : List Wave) (s : State) : State :=
  let me := (cur s).team
  { s with teams := [{ me with gangSize := 2, launch := some 9 },
                     { me with id := 21, logical := 1, gangSize := 2, launch := some 9, waves := w }] }

/-- A lane's own member, and one that has not started. -/
theorem witness_MemberLoads : let s := atWord (.sldm 4 3 0 .w) [0, 0, 0, 0x3FC]
    s.issues (cur s) ∧ (cur s).lanes ≠ [] ∧ ∀ l ∈ (cur s).lanes, memberOk (cur s) 3 0 4 l = true :=
  ⟨issues_cur (by decide), by decide +kernel, by decide +kernel⟩
/-- A member that runs, and one that has exited. -/
theorem witness_MemberStores : let s := withPeer [wave0 .nop []] (atWord (.sstm 4 3 0 .w) [0, 0, 0, 0x100000])
    let t := withPeer [] (atWord (.sstm 4 3 0 .w) [0, 0, 0, 0x100000])
    s.goes (cur s) (.sstm 4 3 0 .w) ∧ (cur s).lanes ≠ [] ∧ (∀ l ∈ (cur s).lanes, memberOk (cur s) 3 0 4 l = true) ∧
    (∀ l ∈ (cur s).lanes, ((s.member? (cur s).team (memberOf (cur s) 3 0 4 l).1).map Team.hasExited) = some false) ∧
    (∀ l ∈ (cur t).lanes, ((t.member? (cur t).team (memberOf (cur t) 3 0 4 l).1).map Team.hasExited) = some true) :=
  ⟨⟨issues_cur (by decide), by decide +kernel⟩, by decide +kernel, by decide +kernel, by decide +kernel, by decide +kernel⟩
/-- One active lane whose element's line lies in another die's HBM. -/
def prefAt : State :=
  atSup (.pref 1 2 .dflt .w) [0, 0, 5] fun w =>
    { w with recs := w.recs.set 1 { rec0 7 with base := 0x20000001000 }, run := w.run.map fun r => { r with mask := 1 } }

/-- The translation of that element's address. -/
def prefPa : State × Except FaultCode Nat := (prefAt.issued (cur prefAt) 1).translateFor (cur prefAt).team 0x20000001014 .read

theorem witness_Prefetches : prefAt.issues (cur prefAt) ∧ (cur prefAt).lanes = [0] ∧ ((cur prefAt).record 1).bound = false ∧
    ((cur prefAt).record 1).addr (((cur prefAt).laneAt 1 0).reg 2) 4 = .ok (some 0x20000001014) ∧ prefPa.2 = .ok 0x20000001014 ∧
    prefPa.1.lineFault (localOf 0x20000001014) = none ∧ prefPa.1.heldAway (lineOf (localOf 0x20000001014)) = false ∧
    prefPa.1.lineLocked (lineOf (localOf 0x20000001014)) = false ∧
    prefPa.1.inWindow (localOf 0x20000001014) = false ∧ devOf 0x20000001014 = prefAt.ownDev ∧ inHbm (localOf 0x20000001014) = true ∧
    dieOf (cur prefAt).team.core ≠ homeDie (localOf 0x20000001014) ∧ Fmt.size ((cur prefAt).record 1).format = Size.bytes .w :=
  ⟨issues_cur (by decide), by decide, by decide, by rfl, by decide +kernel, by decide, by decide, by decide, by decide, by decide, by decide, by decide, by decide⟩
/-- A wave whose FENCE of this run is pending. -/
def fencing (w : Wave) : Wave := { w with run := w.run.map fun r => { r with blocks := [.fence 50 2 []] } }
/-- Compares that are made at once, compares that a FENCE holds back, and a format that has none. -/
theorem witness_Waits : let s := atRec (.waitc 4 1 2 .eq)
    let p := reach s 4 (cur s).lanes .read
    s.issues (cur s) ∧ Reaches s (cur s) 1 2 4 (cur s).lanes .read p.1 (addrsOf s 4 (cur s).lanes) p.2 ∧
    (∀ t ∈ p.2, t.pa.toOption.map (fun g => decide (devOf g = p.1.ownDev ∧ p.1.lineFault (localOf g) = none)) = some true) ∧
    p.1.unmonitored [] (distinct (p.2.filterMap fun t => (globalOf p.2 t.lane).map fun g => lineOf (localOf g))) = [] ∧
    p.1.nextId = 100 ∧ (cur s).wave.gates 100 = false ∧
    (fencing (cur s).wave).gates 100 = true ∧
    ((cur (atRec (.waitc 4 1 2 .eq) [] 9)).record 1).format = .f32 :=
  ⟨issues_cur (by decide), reaches_of (by decide) (by decide) rfl (by decide +kernel), by decide +kernel, by decide +kernel, by decide +kernel,
    by decide +kernel, by decide +kernel, by decide +kernel⟩

/-- A region of one team, as a control block of defaults gives it. -/
def region0 : Region :=
  { block := 0, ord := false, dual := false, nofair := false, preempt := false, task := false, prio := 0, width := 16, nregs := 24, carve := 0,
    curve := 0, tile := 0, serpentine := false, dualn := 0, waves := 2, gang := 1, tags := 16, spad := 1024, cores := 1, blines := 100, rslots := 1,
    budgets := [], gx := 1, gy := 1, entry := 0x40, fdh := 0, fdpol := 0, wdog := 0, fair := 4096, spilln := 0, spill := 0, csa := 0, shr := [],
    syn := [0x2000, 0x2008, 0, 0, 0, 0, 0, 0] }

/-- A launch of it in partition 5. -/
def launch0 : Launch :=
  { id := 9, part := 5, source := .supervisor 0 0, asid := 0, queue := 0, aged := 0, agedAt := 0, region := region0, args := [], bundles := [],
    walk := 0, nextTeam := 1, savedTeams := [], ended := 0, lantern := none, entryDies := [], ending := none, range := none, exited := [],
    gangs := [], after := [] }

/-- The device before a word of that launch's team, with 64 KiB of its address space from 0 on in the core's TLB. -/
def atApp (i : Instr) (rs : List Word := []) (f : Wave → Wave := id) (g : Team → Team := id) : State :=
  { atWord i rs f (fun t => g { t with launch := some 9 }) with
    launches := [launch0], tlb1 := [{ holder := 3, asid := 0, va := 0, log := 16, pa := 0, r := true, w := true, x := true }] }

/-- A descriptor of one extent of 128 bytes from 0x4000 on. -/
def descr0 : List Byte := [0x10, 1] ++ List.replicate 14 0 ++ bytesLE 8 0x4000 ++ bytesLE 8 128

/-- A device whose partition 5 may hold 64 lines on each die, with that descriptor at 0x3000. -/
def bdeclAt (budget : Word) : State :=
  { atApp (.bdecl 8 4) [0, 0, 0, 0, 0x3000, 0] with
    parts := State.reset.parts.modify 5 fun p => { p with pbud := List.replicate 4 budget },
    mem := Memory.writeN [] 0x3000 descr0 }

/-- The descriptor's head, and the whole of it, as BDECL reads them. -/
def bdeclHead (s : State) : State × Except (FaultCode × Nat) (List Byte) :=
  (s.issued (cur s) 1).readVirtual (cur s).team (cur s).wave.idx 0x3000 16
def bdeclBody (s : State) : State × Except (FaultCode × Nat) (List Byte) :=
  (bdeclHead s).1.readVirtual (cur s).team (cur s).wave.idx 0x3000 32

/-- With room on a die, and with none. -/
theorem witness_BundleDeclarations : (bdeclAt 64).goes (cur (bdeclAt 64)) (.bdecl 8 4) ∧ (cur (bdeclAt 64)).lowest = some 0 ∧
    ((((cur (bdeclAt 64)).laneAt 1 0).pair 4).toNat = 0x3000) ∧
    (bdeclHead (bdeclAt 64)).2.toOption = some (descr0.take 16) ∧ versionOk (descr0.getD 0 0) = true ∧ fieldLE descr0 1 1 = 1 ∧
    (bdeclBody (bdeclAt 64)).2.toOption = some descr0 ∧ (descriptorOf descr0).toOption = some [{ base := 0x4000, len := 128 }] ∧
    2 ≤ (bdeclBody (bdeclAt 64)).1.bundleBudget 5 0 ∧ lineCount [{ base := 0x4000, len := 128 }] = 2 ∧
    (∀ i < 4, (bdeclBody (bdeclAt 1)).1.bundleBudget 5 i < 2) ∧
    (bdeclBody (bdeclAt 64)).1.partOf (cur (bdeclAt 64)).team = (bdeclAt 64).partOf (cur (bdeclAt 64)).team :=
  ⟨⟨issues_cur (by decide), by decide +kernel⟩, by decide, by decide, by decide +kernel, by decide +kernel, by decide +kernel, by decide +kernel,
    by decide +kernel, by decide +kernel, by decide +kernel, by decide +kernel, by decide +kernel⟩

/-- Handle 0x50000400 names entry 0 of partition 5; `insts` are the instances on the device. -/
def bundleAt (insts : List BInst) (i : Instr) (n : Word := 1) : State :=
  { atApp i [0, 0, 0, 0, 0x50000400, n] with
    parts := State.reset.parts.modify 5 fun p =>
      { p with pbud := List.replicate 4 64, decls := [{ idx := 0, gen := 1, live := true, extents := [{ base := 0x4000, len := 128 }] }] },
    insts := insts }

/-- An instance of the bundle, held by a team. -/
def inst0 (team : Nat) (st : BState) (h : Word := 0x50000400) : BInst :=
  { id := 30, part := 5, handle := h, die := 0, st := st, entries := [.team team], lines := [(0x4000, some 0x4000), (0x4040, some 0x4040)],
    leftAt := 0, failure := none, creator := .team team, wave := 0, pageWait := none }

/-- The handle list of a bundle word. -/
def handlesOf (s : State) : Option (List Word) :=
  (s.issued (cur s) 1).handleList (cur s) ((cur s).laneAt ((cur s).slots 1 (some (4, 5))) 0) 4 5

/-- No list (a count of 0); a list of a held instance, and one of an instance that is not held, with and without room. -/
theorem witness_BundleWords_lists : let s := bundleAt [] (.benter 8 4 5)
    let held := bundleAt [inst0 20 .entered] (.benter 8 4 5)
    let other : State := { bundleAt [inst0 20 .entered 0x50000401] (.benter 8 4 5) with
      parts := (bundleAt [] .nop).parts.map fun p => { p with pbud := [3] } }
    s.issues (cur s) ∧ (cur s).lowest = some 0 ∧ handlesOf (bundleAt [] (.benter 8 4 5) 0) = none ∧ handlesOf s = some [0x50000400] ∧
    (held.heldInst (cur held).team 5 0x50000400).map (·.failure) = some none ∧ s.heldInst (cur s).team 5 0x50000400 = none ∧
    s.tooBig 5 0 (s.asidOf (cur s).team) 0x50000400 = false ∧ s.liveInst 5 0 0x50000400 = none ∧ s.holdsAny (cur s).team = false ∧
    s.admissions = [] ∧ other.holdsAny (cur other).team = true ∧ other.heldInst (cur other).team 5 0x50000400 = none ∧
    other.tooBig 5 0 (other.asidOf (cur other).team) 0x50000400 = false ∧ other.liveInst 5 0 0x50000400 = none ∧
    other.tryFit 5 0 (.team 20) [0x50000400] = none :=
  ⟨issues_cur (by decide), by decide, by decide +kernel, by decide +kernel, by decide +kernel, by decide +kernel, by decide +kernel,
    by decide +kernel, by decide +kernel, by decide, by decide +kernel, by decide +kernel, by decide +kernel, by decide +kernel, by decide +kernel⟩
/-- A declaration that is not there, one whose instance is held, and one without. -/
theorem witness_BundleWords_drop : let s := bundleAt [] (.bdrop 8 4)
    let held := bundleAt [inst0 20 .entered] (.bdrop 8 4)
    (s.issued (cur s) 1).declOf 5 0 = none ∧ ((s.issued (cur s) 1).declOf 5 (((cur s).laneAt 1 0).reg 4)).isSome = true ∧
    (∃ i ∈ held.insts, i.part = 5 ∧ i.handle = 0x50000400 ∧ i.entries ≠ []) :=
  ⟨by decide +kernel, by decide +kernel, ⟨inst0 20 .entered, by decide⟩⟩

/-- A sync object whose value is 3, looked up for an access. -/
def syncAt (i : Instr) (rs : List Word) : State := { atApp i rs with mem := Memory.writeN [] 0x2000 (bytesLE 8 3) }
def objectAt (s : State) (k : Access) : State × Except (FaultCode × Option Nat × Word) Nat := (s.issued (cur s) 1).objectFor (cur s).team 0 k

/-- An object whose value is read as 3, no object, and a release and a fence with nothing and with something to wait for; an ACQ that a FENCE holds
back. -/
theorem witness_OrderingWords : let s := syncAt (.acq 2 4 5) [0, 0, 0, 0, 0, 3]
    let t := syncAt (.rel 2 4) []
    let w : State := { t with
      posted := [posted0]
      launches := [{ launch0 with region := { region0 with shr := [{ base := 0x3000, len := 64, so := 0 }] } }] }
    let waits := fun (s : State) => (nextIdentity (objectAt s .rmw).1).relWaits (cur s).team (cur s).wave 100 2 0
    s.issues (cur s) ∧ (cur s).lowest = some 0 ∧ (objectAt s .read).2.toOption = some 0x2000 ∧ (objectAt s .read).1.nextId = 100 ∧
    (nextIdentity (objectAt s .read).1).writesBefore (cur s).team.id (cur s).wave 100 (localOf 0x2000) 8 = [] ∧ (cur s).wave.gates 100 = false ∧
    (fencing (cur s).wave).gates 100 = true ∧ ((nextIdentity (objectAt s .read).1).objectValue 0x2000).2.toOption = some 3 ∧
    (s.issued (cur s) 1).syncObject (cur s).team 2 = none ∧ (objectAt t .rmw).2.toOption = some 0x2000 ∧ waits t = [] ∧ waits w = [40] ∧
    (nextIdentity (t.issued (cur t) 1)).wavePending (cur t).team.id (cur t).wave = [] ∧ (cur t).wave.deps = Deps.none ∧
    (cur t).wave.readsOut 100 = false :=
  ⟨issues_cur (by decide), by decide, by decide +kernel, by decide +kernel, by decide +kernel, by decide +kernel, by decide +kernel,
    by decide +kernel, by decide +kernel, by decide +kernel, by decide +kernel, by decide +kernel, by decide +kernel, by decide +kernel,
    by decide +kernel⟩
/-- A count above WAVES and one within it; a barrier that the wave has arrived at. -/
theorem witness_BarrierWords : let s := atApp (.bara 4 3) [0, 0, 0, 0, 2]
    let t := atApp (.bara 4 3) [0, 0, 0, 0, 3]
    s.issues (cur s) ∧ (cur s).lowest = some 0 ∧ (cur s).team.barriers[(3 : BitVec 4).toNat]? = some Barrier.fresh ∧
    ((cur s).laneAt 1 0 |>.reg 4).toNat ≤ s.wavesOf (cur s).team ∧ s.cur.1 = (cur s).team.id ∧ s.cur.2 = (cur s).wave.idx ∧ (∀ x ∈ s.saved, x.id ≠ (cur s).team.id) ∧
    t.wavesOf (cur t).team < ((cur t).laneAt 1 0 |>.reg 4).toNat :=
  ⟨issues_cur (by decide), by decide, by decide, by decide, by decide, by decide, by decide, by decide⟩
theorem witness_GangBarriers : let s := atApp (.gbar 4) [0, 0, 0, 0, 1]
    s.issues (cur s) ∧ (cur s).lowest = some 0 ∧ s.launchOf (cur s).team = some launch0 ∧
    ((cur s).laneAt 1 0 |>.reg 4).toNat ≤ (cur s).team.gangSize := ⟨issues_cur (by decide), by decide, by rfl, by decide⟩

/-- The register values of an engine word: A's group in g4 to g7, B in g8, D in g2. -/
def engineAt (i : Instr) (d : Word) (a : List Word) (b : Word) : State :=
  atApp i ([0, 0, d, 0] ++ a ++ List.replicate (4 - a.length) 0 ++ [b]) (fun w =>
    { w with recs := (w.recs.set 1 (rec0 7)).set 2 (rec0 7) }) fun t => { t with spadSize := 65536 }

/-- What the lowest lane reads before an engine word with A in g4 and B in g8. -/
def operands (s : State) : LaneCtx := (cur s).laneAt ((cur s).slots 1 (some (4, 8))) 0
/-- The tag that it selects. -/
def selected (s : State) : Option (Option Nat) := ((cur s).team.tagOf ((operands s).reg 8)).toOption

/-- A copy of record register 1's elements to the scratchpad. -/
theorem witness_Copies : let s := engineAt (.copy 0 4 8) 0 [0x4, 0, 0, 8] 3
    let x := operands s
    s.issues (cur s) ∧ (cur s).lowest = some 0 ∧ (cur s).team.isSup = false ∧ selected s = some (some 3) ∧
    (copyArgs (cur s).wave (x.grp 4 0) (x.grp 4 1) (x.grp 4 2) (x.grp 4 3)).map (fun k => k.check (cur s).team.spadSize) = some none :=
  ⟨issues_cur (by decide), by decide, by decide, by decide +kernel, by decide +kernel⟩

/-- A ring of four slots on die 0. -/
def fring0 (e : Option ArmedEpi) : Ring :=
  { die := 0, num := 2, part := 5, launch := 9, base := 0x40000, pas := [], slots := List.replicate 4 Slot.fresh, target := 1, int := true, tail := 0,
    epi := e, frameHeld := false }

/-- A vault fill of one set, and a product into a ring of the die. -/
theorem witness_MatrixWords : let s := engineAt (.vfill 2 4 8) 0x18080 [0] 3
    let m := { engineAt (.mloop 2 4 8) 0x18080 [0, 0, 0x500010, 0x2000] 3 with rings := [{ fring0 none with int := false }] }
    let x := operands m
    s.issues (cur s) ∧ (cur s).lowest = some 0 ∧ (cur s).team.isSup = false ∧ selected s = some (some 3) ∧
    ((vaultSet ((operands s).reg 2)).map fun v =>
      decide (((operands s).reg 4).toNat % 64 = 0 ∧ ((operands s).reg 4).toNat + v.chain * v.groups * Fmt.vaultBytes v.bf ≤ (cur s).team.spadSize)) = some true ∧
    (mloopArgs (x.reg 2) (x.grp 4 0) (x.grp 4 1) (x.grp 4 2) (x.grp 4 3)).map (fun k =>
      k.check (m.liveRing? (dieOf (cur m).team.core) k.ring) (m.partOf (cur m).team) (cur m).team.spadSize) = some none :=
  ⟨issues_cur (by decide), by decide, by decide, by decide +kernel, by decide +kernel, by decide +kernel⟩

/-- The descriptor of an EPI, read at 0x3000. -/
def epiAt (s : State) : State × Except (FaultCode × Nat) (List Byte) :=
  (s.issued (cur s) ((cur s).slots 1 (some (4, 8)))).readVirtual (cur s).team (cur s).wave.idx 0x3000 64

/-- A ring declaration; an EPI of a ring, with a well-formed descriptor; a tag that is not there. -/
theorem witness_FlowstoneWords : let s := engineAt (.aring 2 4 8) 0x1000 [0x4000] 0x80000000
    let bs := [0x10, 7, 0, 0, 1, 0, 0, 0] ++ bytesLE 8 0x4000 ++ bytesLE 4 512 ++ bytesLE 4 0x3F800000
    let e := { engineAt (.epi 2 4 8) 0x20001 [0x3000] 3 with rings := [fring0 none], mem := Memory.writeN [] 0x3000 bs }
    s.issues (cur s) ∧ (cur s).lowest = some 0 ∧ (cur s).team.isSup = false ∧ selected s = some none ∧
    selected (engineAt (.aring 2 4 8) 0 [] 16) = none ∧ e.stalls (cur e) (.epi 2 4 8) = false ∧ ((operands e).reg 2).toNat = 0x20001 ∧
    (e.liveRing? 0 2).isSome = true ∧ ((operands e).pair 4).toNat = 0x3000 ∧
    (match (epiAt e).2 with | .ok bs => (epilogueOf 0x3000 bs true).toOption.isSome | _ => false) = true :=
  ⟨issues_cur (by decide), by decide, by decide, by decide +kernel, by decide +kernel, by decide +kernel, by decide +kernel, by decide +kernel,
    by decide +kernel, by decide +kernel⟩

/-- A team whose tag 0 is ready and whose tag 1 is owned. -/
def someTags (t : Team) : Team :=
  { t with tags := [{ Tag.fresh with ready := true }, { Tag.fresh with owner := some 1 }] ++ List.replicate 14 Tag.fresh }

/-- A mask of those tags; one with a tag that is neither; one beyond the tags; and the empty one. -/
theorem witness_TagWaits : let s := atWord (.wtag 4 2) [0, 0, 3, 0] id someTags
    let good := fun m : DWord => m.toNat < 2 ^ (cur s).team.tags.length ∧
      ∀ p ∈ ((cur s).team.tags.mapIdx fun i g => (i, g)).filter fun p => m.getLsbD p.1, p.2.ready = true ∨ p.2.owner ≠ none
    s.issues (cur s) ∧ (cur s).lowest = some 0 ∧ ((cur s).laneAt 1 0).pair 2 = 3 ∧ good 3 ∧ good 0 ∧ ¬ good 4 ∧ ¬ good 0x10000 ∧
    ((cur s).team.tags.any fun g => g.far) = false := ⟨issues_cur (by decide), by decide, by decide, by decide, by decide, by decide, by decide, by decide⟩
theorem witness_QueueWords : let s := atWord (.qfence 2) [0, 0, 0x1FF]
    let t := atWord (.qseq 4 2) [0, 0, 8]
    s.issues (cur s) ∧ (cur s).lowest = some 0 ∧ (cur s).team.isSup = false ∧ (s.core? (cur s).team.core).map (fun k => k.queues.length) = some 9 ∧
    ((cur s).laneAt 1 0 |>.reg 2).toNat < 2 ^ 9 ∧ ((cur t).laneAt 1 0 |>.reg 2).toNat = 8 ∧
    ((cur (atWord (.qseq 4 2) [0, 0, 0x200])).laneAt 1 0 |>.reg 2).toNat = 2 ^ 9 :=
  ⟨issues_cur (by decide), by decide, by decide, by rfl, by decide, by decide, by decide⟩

/-- The device before a word of a task region, with a task record at 0x3000 and `deque` on its core. -/
def taskAt (i : Instr) (rs : List Word) (deque : List Task) (f : Wave → Wave := id) : State :=
  { atApp i rs f with
    launches := [{ launch0 with region := { region0 with task := true } }], mem := Memory.writeN [] 0x3000 [0x10],
    cores := [{ Core.fresh 0 3 with part := some 5, started := true, deque := deque }] }

/-- The record that FORK reads. -/
def forkRead (s : State) : State × Except (FaultCode × Nat) (List Byte) := (s.issued (cur s) 1).readVirtual (cur s).team (cur s).wave.idx 0x3000 64

/-- In a task region, with an aligned and a misaligned record; and elsewhere. -/
theorem witness_Forks : let s := taskAt (.fork 4 2) [0, 0, 0x3000, 0] []
    s.issues (cur s) ∧ (cur s).lowest = some 0 ∧ s.inTask (cur s).team = true ∧ ((cur s).laneAt 1 0 |>.pair 2).toNat = 0x3000 ∧
    (forkRead s).2.toOption = some (0x10 :: List.replicate 63 0) ∧
    (Task.ofBytes (0x10 :: List.replicate 63 0) ((forkRead s).1.fencePending 20 (cur s).wave (forkRead s).1.nextId)).toOption.isSome = true ∧
    ((forkRead s).1.core? 3).map (·.deque) = some [] ∧ ((forkRead s).1.launchOf (cur s).team).isSome = true ∧
    ((cur (taskAt (.fork 4 2) [0, 0, 0x3001, 0] [])).laneAt 1 0 |>.pair 2).toNat % 64 ≠ 0 ∧
    (atWord (.fork 4 2)).inTask (cur (atWord (.fork 4 2))).team = false :=
  ⟨issues_cur (by decide), by decide, by decide, by decide, by decide +kernel, by decide +kernel, by decide +kernel, by decide +kernel, by decide,
    by decide⟩

/-- A task with nothing to wait for. -/
def task0 : Task := { entry := 0x80, joinc := 0x2000, args := List.replicate 10 0, after := [] }

/-- A deque with a record and an empty one; a wave without a join cell and with one. -/
theorem witness_TakesAndJoins : let s := taskAt (.take 4 2) [] [task0]
    let j := taskAt (.join 4) [] [] fun w => { w with joinCell := 0x2000 }
    let g := ((j.issued (cur j) 1).translateFor (cur j).team 0x2000 .rmw)
    s.issues (cur s) ∧ (cur s).lowest = some 0 ∧ s.inTask (cur s).team = true ∧ (s.core? (cur s).team.core).map (·.deque) = some [task0] ∧
    (j.core? (cur j).team.core).map (fun k => (k.deque, k.spill)) = some ([], []) ∧ (cur s).wave.joinCell = 0 ∧
    (cur j).wave.joinCell ≠ 0 ∧ (cur j).wave.joinCell.toNat % 8 = 0 ∧ g.2.toOption = some 0x2000 ∧ devOf 0x2000 = g.1.ownDev ∧
    g.1.inWindow (localOf 0x2000) = false ∧ g.1.lineFault (localOf 0x2000) = none :=
  ⟨issues_cur (by decide), by decide, by decide, by decide, by decide, by decide, by decide, by decide, by decide +kernel, by decide +kernel,
    by decide +kernel, by decide +kernel⟩
theorem witness_LaunchWords : let s := atWord (.launch 4 2) [0, 0, 3]
    s.issues (cur s) ∧ (cur s).lowest = some 0 ∧ ((cur s).team.tagOf ((cur s).laneAt 1 0 |>.reg 2)).toOption = some (some 3) ∧
    ((cur s).team.tagOf 16).toOption = none := ⟨issues_cur (by decide), by decide, by decide, by decide⟩

/-- A block of a sump node: 64-byte records, a queue of two at 0x4000, a tile of one, and TAIL. -/
def block0 (tail : Nat) : List Byte :=
  [0x10, 0, 0, 0] ++ bytesLE 4 2 ++ bytesLE 8 0x4000 ++ bytesLE 8 0 ++ bytesLE 4 1 ++ bytesLE 4 0 ++ bytesLE 8 0 ++ bytesLE 8 0 ++ bytesLE 8 tail ++
    bytesLE 8 0

/-- A device with that block at 0x3000; the team's launch names a range of it. -/
def sumpAt (i : Instr) (tail : Nat) (rs : List Word := [0, 0, 0, 0, 0x3000, 0]) : State :=
  { atApp i rs with
    launches := [{ launch0 with range := some { node := 0x3000, start := 0, count := 1, released := 0 } }],
    mem := Memory.writeN [] 0x3000 (block0 tail) }

/-- The node that a sump word names. -/
def nodeAt (s : State) : State × Except (FaultCode × Option Nat × Word) (Option Nat) :=
  (s.issued (cur s) ((cur s).slots 1 (some (4, 8)))).nodeFor (cur s).team 0x3000

/-- Room for a record, and a full block; a range of the node; a misaligned block. -/
theorem witness_SumpWords : let s := sumpAt (.sumpw 2 4 8) 1
    let s₂ := (nodeAt s).1.flushLine 3 0x3000
    let f := sumpAt (.sumpw 2 4 8) 2
    let m := sumpAt (.sumpx 2 4 8) 1 [0, 0, 0, 0, 0x3001, 0]
    s.issues (cur s) ∧ (cur s).lowest = some 0 ∧ (((cur s).laneAt ((cur s).slots 1 (some (4, 8))) 0).pair 4).toNat = 0x3000 ∧
    (nodeAt s).2.toOption = some (some 0x3000) ∧ blockFault (s₂.peek 0x3000 64) = none ∧ (s₂.node 0x3000).owned = false ∧
    ((cur s).laneAt 1 0 |>.reg 8).toNat + (s₂.node 0x3000).size ≤ (cur s).team.spadSize ∧
    (s₂.node 0x3000).tail - (s₂.node 0x3000).head < (s₂.node 0x3000).cap ∧
    (((nodeAt f).1.flushLine 3 0x3000).node 0x3000).cap ≤ (((nodeAt f).1.flushLine 3 0x3000).node 0x3000).tail ∧
    (((nodeAt s).1.launchOf (cur s).team).bind (·.range)).map (·.node) = some 0x3000 ∧
    (((cur m).laneAt ((cur m).slots 1 (some (4, 8))) 0).pair 4).toNat % 64 ≠ 0 :=
  ⟨issues_cur (by decide), by decide, by decide, by decide +kernel, by decide +kernel, by decide +kernel, by decide +kernel, by decide +kernel,
    by decide +kernel, by decide +kernel, by decide⟩
/-- A device whose TLB maps the team's addresses to device 3, behind a link with every feature. -/
def farAt (i : Instr) : State :=
  { sumpAt i 1 with
    tlb1 := [{ holder := 3, asid := 0, va := 0, log := 16, pa := 0x180000000000, r := true, w := true, x := true }],
    links := [{ Link.fresh with up := true, peer := some 3, features := 0xF }] }
/-- A block of another device. -/
theorem witness_SumpWords_far : let s := farAt (.sumpw 2 4 8)
    (nodeAt s).2.toOption = some none ∧ (cur s).team.performs = true ∧ ((cur s).laneAt 1 0 |>.reg 8).toNat % 64 = 0 := by decide +kernel
/-- A packet of version 1 in an otherwise empty scratchpad; a misaligned offset, and one past the end. -/
theorem witness_FabricWords : let s := atWord (.invoke 4 2) [0, 0, 3] id fun t => { t with spad := Memory.writeN [] 0 [0x10] }
    let pkt := Memory.readN (cur s).team.spad 0 64
    s.issues (cur s) ∧ (cur s).lowest = some 0 ∧ ((cur s).laneAt 1 0 |>.reg 4).toNat = 0 ∧ versionOk (pkt.getD 0 0) = true ∧
    pktClean pkt = true ∧ pktUnwritten pkt = true ∧ ((cur s).team.tagOf 3).toOption = some (some 3) ∧
    ((cur (atWord (.invoke 4 2) [0, 0, 3, 0, 1])).laneAt 1 0 |>.reg 4).toNat % 64 ≠ 0 ∧
    (cur s).team.spadSize < ((cur (atWord (.invoke 4 2) [0, 0, 3, 0, 1024])).laneAt 1 0 |>.reg 4).toNat + 64 :=
  ⟨issues_cur (by decide), by decide, by decide, by decide +kernel, by decide +kernel, by decide +kernel, by decide, by decide, by decide⟩

theorem witness_ComputingWordsFrame : computes (.add false 3 1 2) = true ∧ ∃ t, exec (.add false 3 1 2) (atWord (.add false 3 1 2)) = .next t :=
  ⟨by decide, _, rfl⟩

/-- A wave in runahead mode. -/
def ahead (w : Wave) : Wave :=
  { w with runahead := some { lanes := w.lanes, loops := [], winb := 0, rmode := 0, frontier := w.frontier, progress := 0, waitsOn := [],
                              written := [], issued := 0 } }

theorem witness_RunaheadWords : (atWord .exit [] ahead).issuer = some (cur (atWord .exit [] ahead)) ∧
    (cur (atWord .exit [] ahead)).wave.runahead.isSome = true ∧ (cur (atWord .exit [] ahead)).team.dual = none ∧ endsRunahead .exit = true ∧
    idleAhead (.st 0 4 1 2 .dflt .w) = true := ⟨by rfl, by decide, by decide, by decide, by decide⟩

/-- A team that is a DUAL copy. -/
def paired (t : Team) : Team :=
  { t with dual := some { primary := true, peer := 21, stream := [], atPoint := none, passed := false, shares := none } }

theorem witness_ComparePoints : (atWord .exit [] id paired).issuer = some (cur (atWord .exit [] id paired)) ∧
    (cur (atWord .exit [] id paired)).wave.runahead = none ∧ ((cur (atWord .exit [] id paired)).team.dual.map (·.passed)) = some false ∧
    comparesAt .exit = true := ⟨by rfl, by decide, by decide, by decide⟩
/-- A wave in a run. -/
theorem witness_StepRunsDecoded_run : (atWord .nop).boot = .running ∧ (atWord .nop).agenda = [] ∧
    (atWord .nop).issuer = some (cur (atWord .nop)) ∧ (cur (atWord .nop)).run.words[(cur (atWord .nop)).run.idx]? = some .nop ∧
    (cur (atWord .nop)).wave.holds = 0 := ⟨rfl, rfl, rfl, by decide, by decide⟩

/-- Supervisor core 0 of D0 about to fetch ADD from address 0, as withFetchWord leaves it. -/
def fetching : State := State.reset.withFetchWord 32 0x0200C082

/-- A supervisor core between runs. -/
theorem witness_StepRunsDecoded_fetch : let t := (fetching.team? fetching.cur.1).getD (team0 (wave0 .nop []))
    let w := t.waves.getD 0 (wave0 .nop [])
    fetching.boot = .running ∧ fetching.agenda = [] ∧ (fetching.team? fetching.cur.1).isSome = true ∧ t.id = 0 ∧ t.core = 96 ∧
    t.isSup = true ∧ t.waves.length = 1 ∧ fetching.cur.2 = 0 ∧ w.idx = 0 ∧ w.run = none ∧ w.runahead = none ∧ w.sel = none ∧ w.skip = none ∧
    w.frontier = [{ pc := 0, mask := 1, st := .runnable, age := 0, land := .here, redo := none, after := [] }] ∧ w.loops = [] ∧ w.marks = [] ∧
    w.recLoads = [] ∧ w.holds = 0 ∧ t.ending = false ∧ t.preempt = false ∧ t.dual = none ∧ t.launch = none := by decide +kernel
theorem witness_StepRunsDecoded_words : (∀ x ∈ fetching.teams, x.core = 96 → x.id = 0) ∧ (∀ x ∈ fetching.teams, x.id = 0 → x.core = 96) ∧
    (fetching.sup 0).halted = false ∧ (fetching.sup 0).wakes = false ∧ fetching.turn % 2 = 0 ∧
    (∀ x ∈ [0, 4], inHbm x = true ∧ fetching.inWindow x = false ∧ fetching.lineFault x = none) ∧
    checkWord .supervisor (field32 (fetching.peek 0 4) 0) = .ok (.add false 3 1 2) ∧
    placeOk 0 512 [] (.add false 3 1 2) = true ∧ Instr.queueOf 0 (.add false 3 1 2) = none ∧
    decode (field32 (fetching.peek 4 4) 0) = some (.trail 0 0 0 0 false false false) ∧
    placeOk 0 512 [.add false 3 1 2] (.trail 0 0 0 0 false false false) = true := by decide +kernel
theorem witness_DecodeAndEncode : Instr.wf (.trail 8 3 20 1 true true true) = true ∧ decode 0xFE219427 = some (.trail 8 3 20 1 true true true) := by
  decide
theorem witness_StepsKeepTheState : State.reset.wellKept ∧ ∃ t, step fetching = .next t :=
  ⟨⟨⟨rfl, by decide⟩, by decide, by decide, by decide⟩, _, rfl⟩

/-- Two runnable entries of a wave between runs; the second has reached the fairness interval or not. -/
def twoEntries (age : Nat) (w : Wave) : Wave :=
  { w with run := none, frontier := [{ pc := 0x40, mask := 1, st := .runnable, age := 0, land := .here },
                                     { pc := 0x50, mask := 2, st := .runnable, age := age, land := .here }] }

/-- The current team and wave of a state. -/
def teamOf (s : State) : Team := (s.team? s.cur.1).getD (team0 (wave0 .nop []))
def waveOf (s : State) : Wave := (s.wave? s.cur.1 s.cur.2).getD (wave0 .nop [])

/-- The lowest PC, and the oldest entry at the interval. -/
theorem witness_Selection : let s := atApp .nop [] (twoEntries 0)
    let o := atApp .nop [] (twoEntries 4096)
    (s.team? 20).isSome = true ∧ (teamOf s).id = 20 ∧ (s.wave? 20 0).isSome = true ∧ (waveOf s).idx = 0 ∧ (waveOf s).run = none ∧
    (waveOf s).runahead = none ∧ s.mayRun (teamOf s) (waveOf s) = true ∧ (waveOf s).loops = [] ∧ (waveOf s).sel = none ∧ (waveOf s).skip = none ∧
    (∀ x ∈ (waveOf s).frontier, x.st = .runnable ∧ x.after = [] ∧ x.mask ≠ 0) ∧
    ((waveOf s).frontier.Pairwise fun x y => x.pc ≠ y.pc) ∧ (waveOf s).drain = 0 ∧ (teamOf s).restoring = false ∧ s.fairness (teamOf s) = some 4096 ∧
    ((waveOf s).frontier.any fun x => decide (4096 ≤ x.age)) = false ∧ ((waveOf o).frontier.any fun x => decide (4096 ≤ x.age)) = true := by
  decide +kernel

/-- The run of NOP and TRAIL at the wave's entry, 0x40. -/
def startAt : State :=
  { atApp .nop [] (fun w => { twoEntries 0 w with sel := some 0x40 }) with mem := Memory.writeN [] 0x100 (bytesLE 4 0x6C000000 ++ bytesLE 4 0xFE000000) }
def entry0 : Entry := { pc := 0x40, mask := 1, st := .runnable, age := 0, land := .here }
def fetched0 : State × Fetched := startAt.runOf (teamOf startAt) (waveOf startAt) entry0

theorem witness_RunStart : startAt.selected (teamOf startAt) (waveOf startAt) = some entry0 ∧ entry0.redo = none ∧
    startAt.chosen (teamOf startAt) (waveOf startAt) = true ∧ fetched0.2.toOption = some [.nop, .trail 0 0 0 0 false false false] ∧
    (waveOf startAt).waits [.nop, .trail 0 0 0 0 false false false] = false ∧
    fetched0.1.queueRoom (teamOf startAt) (waveOf startAt) [.nop, .trail 0 0 0 0 false false false] = true ∧
    fetched0.1.lanternHolds (teamOf startAt) (waveOf startAt) entry0 [.nop, .trail 0 0 0 0 false false false] = false ∧
    fetched0.1.accessHolds (teamOf startAt) (waveOf startAt) [.nop, .trail 0 0 0 0 false false false] = false := by decide +kernel

/-- A load of one word of lane 0, in the wave's frontier. -/
def item0 : LoadItem := { lane := 0, dst := some 5, pair := false, src := .memory 0x3000 .s32 .dflt, va := 0x3000 }
def loadingAt : State := atApp .nop [] fun w => { twoEntries 0 w with loads := [{ seq := 30, pc := 0x40, whole := none, items := [item0] }] }

theorem witness_DataArrives : let s := loadingAt
    let w := waveOf s
    (teamOf s).id = 20 ∧ w.idx = 0 ∧ w.runahead = none ∧ (teamOf s).dual = none ∧ w.recLoads = [] ∧
    (w.loads.find? fun l => l.seq == 30).map (·.items) = some [item0] ∧ laneIn w.liveMask 0 = true ∧ w.gates 30 = false ∧
    s.inWindow 0x3000 = false ∧ s.lineFault 0x3000 = none ∧ s.heldAway (lineOf 0x3000) = false ∧ homeDie 0x3000 = dieOf (teamOf s).core ∧
    s.l2Copy (dieOf (teamOf s).core) (lineOf 0x3000) = none ∧ s.l1Copy (teamOf s).core (lineOf 0x3000) = none ∧ (w.lanes[0]?).isSome = true ∧
    laneIn 1 0 = true ∧ s.readHeld (teamOf s) w 30 (s.ownDev * 2 ^ 43 + 0x3000) 4 = false ∧
    s.laterWrite 20 0 30 none (s.ownDev * 2 ^ 43 + 0x3000) 4 = none ∧ w.loads.map (·.upTo) = [none] := by
  decide +kernel

/-- A wave in runahead mode whose registers have arrived, which has issued 256, or whose team is pre-empted. -/
theorem witness_WaveEvents_runahead : let s := atApp .nop [] ahead
    (s.team? 20).isSome = true ∧ (waveOf s).runahead.map (·.waitsOn) = some [] := by decide +kernel
/-- A WAITC whose lane was polled at 0, in the wave's entry. -/
def waiting0 : CmpWait :=
  { seq := 30, armed := true, fmt := .s32, cond := .eq, redo := { instr := .waitc 4 1 2 .eq, winb := 0, pc := 0x3F, ctxs := [], recs := [] },
    lanes := [{ lane := 0, pa := some 0x3000, val := 0, seen := false, va := 0x3000, poll := some 0, after := [] }] }
/-- An entry that waits in a WAITC and may be polled again. -/
theorem witness_WaveEvents_poll : let s := atApp .nop [] fun w => { w with
      run := none, frontier := [{ pc := 0x40, mask := 3, st := .blocked [.waitc waiting0], age := 0, land := .here }] }
    let w := waveOf s
    w.run = none ∧ w.runahead = none ∧ w.frontier.map (·.st) = [.blocked [.waitc waiting0]] ∧ w.frontier.map (·.after) = [[]] ∧
    (∀ l ∈ waiting0.lanes, ∀ g, l.pa = some g → devOf g = s.ownDev ∧ s.lineFault (localOf g) = none) ∧ (∃ l ∈ waiting0.lanes, l.seen = false) := by
  refine ⟨by decide +kernel, by decide +kernel, by decide +kernel, by decide +kernel, ?_, _, List.mem_singleton.mpr rfl, rfl⟩
  intro l hl g hg
  cases List.mem_singleton.mp hl
  cases hg
  decide +kernel

/-- A second team of the launch on core 4, whose deque is given; the team on core 3 waits in a TAKE. -/
def stealAt (d : List Task) : State :=
  let s := taskAt .nop [] [] fun w =>
    { w with run := none, frontier := [{ pc := 0x40, mask := 3, st := .blocked [.steal 8 none], age := 0, land := .here }] }
  { s with teams := s.teams ++ (s.teams.map fun t => { t with id := 21, core := 4, logical := 1, waves := [wave0 .nop []] }),
           cores := s.cores ++ [{ Core.fresh 0 4 with deque := d }] }

/-- A victim with records, and one without. -/
theorem witness_WaveEvents_steal : let s := stealAt [task0]
    let n := stealAt []
    (takersOf s 3).head? = some (20, 0) ∧ ((s.core? 3).bind fun c => s.victim (teamOf s) c) = some 4 ∧
    (s.core? 4).map (·.records) = some [task0] ∧ ((n.core? 3).bind fun c => n.victim (teamOf n) c) = some 4 ∧ (n.core? 4).map (·.records) = some [] := by
  decide +kernel

/-- A device with that write, or one like it. -/
def postAt (f : Posted → Posted := id) : State := { atApp .nop with posted := [f posted0] }

/-- A directory entry of die 0 for that line alone, with sharers. -/
def dir0 (sharers : List Nat) : DirEntry :=
  { die := 0, base := 0x3000, j := 0, sharers := sharers, update := false, counter := 0, invalidated := [], readSince := false, usedAt := 0 }

/-- No copies; a sharer on die 1; a LOST line; a write of another device's memory. -/
theorem witness_WritesAtHome : let s := postAt
    let l : State := { postAt with lost := [0x3000] }
    let r : State := { postAt fun p => { p with pa := 0x80000003000, remote := true } with links := [{ Link.fresh with up := true }] }
    s.posted.find? (fun q => q.id == 40) = some posted0 ∧ s.mayApply posted0 = true ∧ s.heldAway (lineOf 0x3000) = false ∧
    (lineOf 0x3000 ∉ s.lost) ∧ s.memoryCanonical ∧ s.dirEntry (lineOf 0x3000) = none ∧
    (({ s with dir := [dir0 [1]] } : State).dirEntry (lineOf 0x3000)).map (·.sharers) = some [1] ∧
    (lineOf 0x3000 ∈ l.lost ∧ l.mayApply posted0 = true ∧ posted0.bytes.length ≠ 64) ∧
    lineOf 0x3000 ∉ s.ecc ∧ r.hasRoute (devOf 0x80000003000) = true ∧ r.gated 20 0 40 = false ∧ r.performed posted0.after = true ∧
    r.farEarlier 3 40 0x80000003000 4 false = false ∧ r.farReadsFirst 20 0 40 0x80000003000 4 = false :=
  ⟨by decide +kernel, by decide +kernel, by decide +kernel, by decide +kernel, ⟨rfl, by decide⟩, by decide +kernel, by decide +kernel,
    by decide +kernel, by decide +kernel, by decide +kernel, by decide +kernel, by decide +kernel, by decide +kernel, by decide +kernel⟩

/-- An atomic of lane 0 on the word at 0x3000. -/
def rmw0 (op : RmwOp) : Rmw :=
  { id := 41, req := 41, team := 20, wave := 0, lane := 0, core := 3, pa := 0x3000, op := op, fmt := .s32, operand := 5, comparand := 0,
    load := some 30, level := 2, ordered := false, remote := false, sentAt := none, va := 0x3000, pc := 0x40 }
def rmwAt (op : RmwOp) : State :=
  { atApp .nop [] (fun w => { w with loads := [{ seq := 30, pc := 0x40, whole := none, items := [{ item0 with src := .rmw }] }] }) with rmws := [rmw0 op] }

theorem witness_AtomicsAtHome : let s := rmwAt .cas
    s.rmws.find? (fun x => x.id == 41) = some (rmw0 .cas) ∧ (s.rmws.filter fun x => x.req == 41) = [rmw0 .cas] ∧ s.mayPerform (rmw0 .cas) = true ∧
    s.inWindow 0x3000 = false ∧ s.lineFault 0x3000 = none ∧ s.heldAway (lineOf 0x3000) = false ∧ Fmt.fp (rmw0 .cas).fmt = none ∧
    RmwOp.cas ≠ .join ∧ (∀ x ∈ s.rmws, x.result ≠ some s.nextId) ∧ s.dirEntry (lineOf 0x3000) = none ∧
    (({ s with dir := [dir0 [1]] } : State).dirEntry (lineOf 0x3000)).map (·.sharers) = some [1] ∧ (rmw0 .cas).load = some 30 ∧ (waveOf s).runahead = none ∧
    (((waveOf s).loads.find? fun l => l.seq == 30).bind fun l => l.items.find? fun i => i.lane == 0).map (·.src) = some .rmw := by decide +kernel

/-- A copy of the line at 0x3000 on die 1. -/
def copy0 (modified : Bool) : LineCopy := { holder := 1, line := 0x3000, data := List.replicate 64 7, modified := modified }

/-- A request that memory answers, and one that goes to a holder; its answer; a write-back that leaves and one that arrives. -/
theorem witness_DirectoryEvents_reads : let s := atApp .nop
    let m : State := { s with l2 := [copy0 true], dir := [dir0 [1]] }
    let f : State := { m with forwards := [(0x3000, 2, 1, 0)] }
    (0x3000 % 64 = 0 ∧ inHbm 0x3000 = true ∧ s.lineFault 0x3000 = none ∧ s.lineLocked 0x3000 = false ∧ s.heldAway 0x3000 = false ∧
      1 ≠ homeDie 0x3000 ∧ s.pinned 0x3000 = false ∧ m.lineFault 0x3000 = none ∧ m.lineLocked 0x3000 = false) ∧
    (m.modifiedCopy 0x3000).map (·.holder) = some 1 ∧ (∀ f ∈ m.forwards, ¬ (f.1 = 0x3000 ∧ f.2.1 = 2)) ∧
    f.forwards.find? (fun f => f.1 == 0x3000 && f.2.1 == 2) = some (0x3000, 2, 1, 0) ∧ (f.modifiedCopy 0x3000).isSome = true ∧
    (∀ x ∈ f.writeBacks, x.line ≠ 0x3000) ∧ m.writeBacks.find? (fun c => c.line == 0x3000 && c.holder == 1) = none ∧
    m.l2.find? (fun c => c.line == 0x3000 && c.holder == 1 && c.modified) = some (copy0 true) := by decide +kernel
/-- A push; an invalidation that is due, one that has dropped its copy; two siblings that have been idle. -/
theorem witness_DirectoryEvents_writes : let w := fun dropped : List Nat =>
      { postAt (fun p => { p with applied := true, acks := [1], dropped := dropped }) with l2 := [copy0 false], dir := [dir0 [1]] }
    let p : Posted := { posted0 with applied := true, acks := [1] }
    let push : Push := { posted := 40, die := 1, pa := 0x3000, bytes := [some 1], num := 1 }
    let u : State := { w [] with pushes := [push] }
    lineOf 0x3000 ∉ u.ecc ∧ (u.posted.find? fun p => p.id == push.posted).isSome = true ∧
    minBy (fun q : Push => q.num) (u.pushes.filter fun q => q.die == 1 && lineOf q.pa == 0x3000) = some push ∧
    (w []).invalidates p 1 = true ∧ (1 ∉ p.dropped ∧ 1 ∉ p.noneHeld) ∧ ((w [1]).posted.map (·.dropped)) = [[1]] ∧
    (w [1]).invalidates { p with dropped := [1] } 1 = true := by decide +kernel
theorem witness_DirectoryEvents_merge : let e := { dir0 [1] with base := 0x3000 }
    let f := { dir0 [2] with base := 0x3040 }
    let s : State := { atApp .nop with dir := [e, f], time := mergeIdle }
    s.dir.find? (fun e => e.die == 0 && e.base == 0x3000) = some e ∧ s.dir.find? (fun f => f.base == 0x3000 + e.bytes && f.j == e.j) = some f ∧
    e.j < 10 ∧ 0x3000 % (2 * e.bytes) = 0 ∧ s.pinned 0x3000 = false ∧ s.pinned f.base = false ∧
    ∀ x ∈ [e, f], x.update = false ∧ x.usedAt + mergeIdle ≤ s.time ∧ ∀ p ∈ s.posted, p.applied = true → p.remote = false → x.covers (lineOf p.pa) = false := by
  decide +kernel

/-- A page table for address space 0: the ASID table at 0x10000, the root at 0x100000, and a 1 GiB leaf. -/
def tables (leaf : Nat) : List Host.Cell :=
  Memory.writeN (Memory.writeN (Memory.writeN [] 0x10000 (bytesLE 8 0x100001)) 0x100000 (bytesLE 8 0x200001)) 0x200000 (bytesLE 8 leaf)
def tableAt : State := { atWord .nop with asidt := 0x10000, mem := tables 0x1F }
theorem witness_WaveEvents_walk : (∀ e ∈ tableAt.tlb1, e.hits 3 0 0x3000 = false) ∧ (∀ e ∈ tableAt.tlb2, e.hits 0 0 0x3000 = false) ∧
    (tableAt.walk 0 0x3000).toOption = some { log := 30, pa := 0, r := true, w := true, x := true } := by decide +kernel

/-- A launch template that names the block at 0x3100, and that block: a region of one team of one 16-lane wave. -/
def template0 : List Byte := [0x10, 0] ++ List.replicate 6 0 ++ bytesLE 8 0x3100 ++ List.replicate 112 0
def rcb0 : List Byte :=
  [0x10, 0, 0xFF, 0x1F, 0, 0, 24, 0, 0, 0, 0, 0, 0, 1, 0, 0, 1, 0, 0, 0] ++ List.replicate 12 0 ++ bytesLE 4 1 ++ bytesLE 4 1 ++ bytesLE 8 0x40 ++
  List.replicate 12 0 ++ bytesLE 4 1000 ++ List.replicate 24 0 ++ bytesLE 8 0x8000 ++ List.replicate 160 0

/-- An offer of the template to partition 5. -/
def offer0 : Offer := { id := 45, part := 5, template := 0x3000, source := .supervisor 0 30, after := [], args := none, prio := none }
def offerAt (m : List Host.Cell) : State := { atApp .nop with offers := [offer0], mem := m }

/-- A template that is accepted, and an empty one, which is refused. -/
theorem witness_LaunchEvents_offer : let s := offerAt (Memory.writeN (Memory.writeN [] 0x3000 template0) 0x3100 rcb0)
    s.offers.find? (fun x => x.id == 45) = some offer0 ∧ s.performed offer0.after = true ∧ (s.part 5).resetting = none ∧
    ((({ s with offers := [] } : State).resolveLaunch offer0).2.2.toOption.map fun l => (l.part, l.region.entry)) = some (5, 0x40) ∧
    (({ offerAt [] with offers := [] } : State).resolveLaunch offer0).2.2.toOption = none := by decide +kernel

/-- A launch of which no team has been placed. -/
def launch1 : Launch := { launch0 with nextTeam := 0, region := { region0 with spad := 0 } }
def placeAt : State := { atApp .nop with teams := [], launches := [launch1] }
theorem witness_LaunchEvents_place : (placeAt.part 5).resetting = none ∧ placeAt.tryOrder 5 = [launch1] ∧ placeAt.launch? 9 = some launch1 ∧
    placeAt.gangLeaving launch1 = false ∧ launch1.bundles = [] ∧ launch1.savedTeams = [] ∧ launch1.region.twice launch1.nextTeam = false ∧
    (placeAt.choose launch1 (placeAt.eligible launch1)).map (·.id) = some 3 ∧ launch1.region.nextStep (2 ^ 66) launch1.walk = some (0, 0, 0) := by
  decide +kernel
theorem witness_LaunchEvents_aging : 0 < ((atApp .nop).part 5).paging.toNat * 1000 := by decide

/-- The last team of a launch, whose waves have exited, and one of a launch of two teams. -/
def endAt (gx : Nat) : State :=
  { atApp .nop [] id (fun t => { t with waves := [] }) with
    launches := [{ launch0 with region := { region0 with gx := gx } }], boot := .running }
theorem witness_LaunchEnds_team : let s := endAt 2
    let t := (s.team? 20).getD (team0 (wave0 .nop []))
    (s.team? 20).isSome = true ∧ t.launch = some 9 ∧ (s.launch? 9).isSome = true ∧ s.teamDone t = true ∧ t.ending = false ∧ t.gangSize < 2 ∧
    t.dual = none ∧ ((s.launch? 9).map fun l => (l.ending, l.ended)) = some (none, 0) := by decide +kernel
theorem witness_LaunchEnds_launch : let s := endAt 1
    (s.launch? 9).map (fun l => (l.source, decide (l.part < s.parts.length))) = some (.supervisor 0 0, true) ∧ (s.part 5).resetting = none ∧
    (∀ x ∈ s.teams, x.launch = some 9 → x.id = 20) ∧ (∀ x ∈ s.saved, x.launch ≠ some 9) ∧ (∀ r ∈ s.reports, r.launch ≠ some 9) := by decide +kernel
/-- A lantern that passes on from wave 0 to wave 1, which stands on a core, and one that passes from the last wave. -/
theorem witness_LanternPass : let s := fun v : Nat =>
      { atApp .nop with launches := [{ launch0 with lantern := some (.passing v), exited := if v = 0 then [] else [0, 1] }] }
    ((s 0).launch? 9).map (fun l => (l.lantern, l.nextWave 0)) = some (some (.passing 0), some 1) ∧
    (∀ t ∈ (s 0).teams ++ (s 0).saved, t.launch = some 9 → t.logical = 0 → t.gone = false → t.performs = true →
      (s 0).lanternClear t 0 = true) ∧ (∃ t ∈ (s 0).teams, t.launch = some 9 ∧ t.gone = false ∧ t.logical = 1 / region0.waves) ∧
    ((s 1).launch? 9).map (fun l => (l.lantern, l.nextWave 1)) = some (some (.passing 1), none) := by decide +kernel

/-- A request for the bundle of partition 5 that waits for its die. -/
def admission0 : Admission :=
  { die := 0, part := 5, holder := .team 20, handles := [0x50000400], level := 0, atTop := 0, since := 0, reply := some (20, 0, 30) }
def admitAt (insts : List BInst) : State :=
  { atApp .nop with
    parts := State.reset.parts.modify 5 fun p =>
      { p with pbud := List.replicate 4 64, decls := [{ idx := 0, gen := 1, live := true, extents := [{ base := 0x4000, len := 128 }] }] },
    admissions := [admission0], insts := insts }
theorem witness_BundleAdmission : (admitAt []).ranked 0 = [admission0] ∧ ((admitAt []).tryFit 5 0 (.team 20) [0x50000400]).isSome = true := by
  decide +kernel

/-- An instance whose second line is not placed yet. -/
def filling0 : BInst :=
  { id := 30, part := 5, handle := 0x50000400, die := 0, st := .filling, entries := [.team 20], lines := [(0x100, some 0x4000), (0x101, none)],
    leftAt := 0, failure := none, creator := .team 20, wave := 0, pageWait := none }
/-- Its line is placed; its page is missing; its page may not be read. -/
theorem witness_BundleFill : let s := admitAt [filling0]
    let k := fun x : Nat => ({ s with asidt := 0x10000, carves := [0x100, 0, 0, 0], mem := tables x } : State)
    let place := match (k 0x1F).fillNext filling0 with | some (v, .placed pl) => (k 0x1F).slotFree filling0 v pl | _ => false
    let how := fun (s : State) => (s.fillNext filling0).map fun x => match x.2 with | .placed _ => 0 | .missing => 1 | .failed _ => 2
    s.insts.find? (fun x => x.id == 30 && x.failure.isNone && (x.st == .filling || x.st == .orphaned)) = some filling0 ∧
    (((k 0x1F).fillNext filling0).map (·.1)) = some 0x101 ∧ place = true ∧ filling0.entries ≠ [] ∧ how (k 0x1F) = some 0 ∧ how (k 0) = some 1 ∧ how (k 0x1B) = some 2 := by decide +kernel

/-- A partition's registers with a report ring of two records at 0x8000. -/
def ringPart : Part → Part := fun p => { p with prbase := 0x8000, prsize := 1 }

/-- A report of partition 5's launch, of a kind. -/
def report0 (kind : Nat) : Report := { Report.blank 60 (some 5) kind 3 with launch := some 9 }

/-- A device with a report, whose partition 5 is changed by `f`. -/
def reportAt (r : Report) (f : Part → Part := ringPart) : State :=
  { atApp .nop with parts := State.reset.parts.modify 5 f, reports := [r] }

/-- A team of the launch that has been asked to give up its core and stands between runs. -/
def haltedAt : State := atApp .nop [] (fun w => { w with run := none, frontier := [] }) fun t => { t with preempt := true }
theorem witness_PreemptionEvents_save : let s := haltedAt
    (s.team? 20).map (fun t => (t.launch, s.halted t, decide (t.spadSize ≤ 131072))) = some (some 9, true, true) ∧
    (s.launch? 9).map (·.id) = some 9 ∧ (∀ y ∈ s.saved, y.id ≠ 20) := by decide +kernel

/-- A DUAL pair of which both copies stand at a compare point of their wave 0. -/
def pairAt (stream : List DualStore) : State :=
  let s := atApp .nop [] id fun t => { t with dual := some { peer := 21, primary := true, stream := stream, atPoint := some 0, passed := false, shares := none } }
  { s with teams := s.teams ++ (s.teams.map fun t => { t with
      id := 21, core := 5, dual := some { peer := 20, primary := false, stream := [], atPoint := some 0, passed := false, shares := none } }) }
def store0 : DualStore := { id := 40, va := 0x3000, pa := 0x3000, bytes := [some 1, some 2] }
/-- What the statement asks of the pair. -/
def pairOk (x : List DualStore) : Bool :=
  let d := fun i : Nat => ((pairAt x).team? i).bind (·.dual)
  (d 20).map (fun d => (d.peer, d.primary, d.atPoint, d.passed, d.stream)) == some (21, true, some 0, false, x) &&
  (d 21).map (fun d => (d.stream, d.atPoint, d.passed)) == some ([], some 0, false) && ((pairAt x).team? 20).map (·.ending) == some false
/-- Equal streams and requests, and unequal streams. -/
theorem witness_PreemptionEvents_compare : pairOk [] = true ∧ pairOk [store0] = true := by decide +kernel
theorem witness_PreemptionEvents_requests :
    ((pairAt []).team? 20).map (fun t => t.requestAt 0) = ((pairAt []).team? 21).map (fun t => t.requestAt 0) := by rfl

/-- Room and no domain; no ring; a full ring. -/
theorem witness_ReportEvents_ring : let s := reportAt (report0 2)
    s.reports.find? (fun x => x.id == 60 && x.index.isNone) = some (report0 2) ∧ s.reportWaits (report0 2) = false ∧ 5 < s.parts.length ∧
    (s.part 5).prbase ≠ 0 ∧ (s.part 5).prbase.toNat % 64 = 0 ∧ ¬ 2 ^ (s.part 5).prsize.toNat ≤ ((s.part 5).prtail - (s.part 5).prhead).toNat ∧ s.domainOf (report0 2) = none ∧
    ((reportAt (report0 2) id).part 5).prbase = 0 ∧
    let f := (reportAt (report0 4) fun p => { ringPart p with prtail := 2 }).part 5
    2 ^ f.prsize.toNat ≤ (f.prtail - f.prhead).toNat := by decide +kernel
/-- A fault of a domain whose policy is 0. -/
theorem witness_ReportEvents_fault : let s := reportAt (report0 0)
    (s.domainOf (report0 0)).map (fun l => (l.ending, l.region.fdpol)) = some (none, 0) ∧ s.reportWaits (report0 0) = false := by decide +kernel
/-- A record for the device ring. -/
theorem witness_ReportEvents_device : let r := { report0 0 with ring := none }
    let s := { reportAt r with drbase := 0x9000, drsize := 1 }
    s.reports.find? (fun x => x.id == 60 && x.index.isNone) = some r ∧ s.reportWaits r = false ∧ s.drbase ≠ 0 ∧ s.drbase.toNat % 64 = 0 ∧
    (s.drtail - s.drhead).toNat < 2 ^ s.drsize.toNat := by decide +kernel
/-- A record in the ring whose handler is to be launched. -/
theorem witness_ReportEvents_handler : let r := { report0 0 with index := some 0 }
    let s := { reportAt r with handlers := [60] }
    s.reports.find? (fun x => x.id == 60 && s.handlers.contains x.id) = some r ∧ (s.launch? 9).isSome = true ∧ s.queueHasRoom 5 3 = true ∧
    (s.handlers.find? fun j => (s.reports.find? fun x => x.id == j).bind (·.ring) == some 5) = some 60 ∧
    (s.launch? 9).map (fun l => (l.ending, decide (l.ended < l.region.gx * l.region.gy))) = some (none, true) := by decide +kernel
/-- A watchdog at its limit. -/
theorem witness_ReportEvents_watchdog : let s := { reportAt (report0 2) fun p => { p with timers := [some (9, 0, 3)] } with time := 3000000 }
    (((s.part 5).timers[0]?).join) = some (9, 0, 3) ∧ 0 + 3 * 1000000 ≤ s.time ∧ (s.part 5).resetting = none := by decide +kernel

/-- What the ROM has of an image while it asks server 0 at port 0. -/
def fetching0 : Fetching := { port := 0, server := 0, retries := 5, since := 0, got := [] }
/-- Each state of the boot that an event acts in, at its moment. -/
theorem witness_BootEvents : let k := fun b : Boot => ({ State.reset with boot := b, time := 5000000000 } : State)
    State.reset.boot = .off ∧ (k (.waitLink 0 0)).boot = .waitLink 0 0 ∧ 0 + 5000000000 ≤ (k (.waitLink 0 0)).time ∧
    (k (.fetching fetching0)).boot = .fetching fetching0 ∧ fetching0.since + 1000000000 ≤ (k (.fetching fetching0)).time ∧
    (k (.pausing 1 0)).boot = .pausing 1 0 ∧ 0 + 1000000000 ≤ (k (.pausing 1 0)).time := by decide +kernel
theorem witness_ImageArrives : ({ State.reset with boot := .fetching fetching0 } : State).boot = .fetching fetching0 := by decide

/-- Supervisor core 0 between runs, with its timer and its doorbell pending. -/
def pendingAt : State :=
  let t := Team.supervisor 0
  { State.reset with
    boot := .running,
    teams := [{ t with waves := t.waves.map fun w => { w with
      frontier := [{ pc := 0x40, mask := 1, st := .runnable, age := 0, land := .here }], loops := [], run := none, skip := none, runahead := none } }],
    sups := State.reset.sups.modify 0 fun u => { u with halted := false, sie := 0x80000005, sip := 5 } }
theorem witness_PlatformEvents_interrupt : let s := pendingAt
    (s.team? 0).map (fun t => (t.isSup, t.supIdx)) = some (true, 0) ∧ (∀ x ∈ s.teams, x.id = 0 → some x = s.team? 0) ∧
    (s.wave? 0 0).map (fun w => (w.run.isNone, w.runahead.isNone, w.loops, w.skip)) = some (true, true, [], none) ∧
    (s.wave? 0 0).map (fun w => w.frontier.map fun e => (e.st, e.after.isEmpty)) = some [(.runnable, true)] ∧
    (s.sup 0).halted = false ∧ (s.sup 0).sie.getLsbD 31 = true ∧ (s.sup 0).sip &&& (s.sup 0).sie &&& 0x1F ≠ 0 := by decide +kernel
/-- Nine cores of a partition that have not started: the first group, and the second one 2 microseconds later and earlier. -/
theorem witness_PlatformEvents_cores : let s := fun (n at_ time : Nat) => ({ State.reset with
      time := time, cores := (List.range 9).map fun i => { Core.fresh 0 i with part := some 5, started := decide (i < n) }
      parts := State.reset.parts.modify 5 fun p => { p with groupAt := if n = 0 then none else some at_ } } : State)
    let group := fun s : State => ((s.cores.filter fun c => c.part == some 5 && !c.started && !s.diesFailed.contains (dieOf c.id)).map (·.id)).take 8
    group (s 0 0 0) = [0, 1, 2, 3, 4, 5, 6, 7] ∧ ((s 0 0 0).part 5).groupAt = none ∧ group (s 8 10 2010) = [8] ∧
    ((s 8 10 2010).part 5).groupAt = some 10 ∧ 10 + 2000 ≤ (s 8 10 2010).time ∧ (s 8 10 2009).time < 10 + 2000 := by decide +kernel
/-- A quote of an image, whose block may be written, and one whose block may not. -/
def quoteAt (a : DWord) : State :=
  { State.reset with atstat := 1, atblk := a, image := List.replicate 256 0, mem := Memory.writeN [] 0x10000 [0x10] }
theorem witness_PlatformEvents_quote : (quoteAt 0x10000).atstat = 1 ∧ (quoteAt 0x10000).quotable 0x10000 = true ∧
    (quoteAt 0x10000).memoryCanonical ∧ (∀ c ∈ (quoteAt 0x10000).l2, c.modified = false) ∧ (quoteAt 0x10000).writeBacks = [] ∧
    (quoteAt 0x10000).image.length = 256 ∧ (quoteAt 0x10001).quotable 0x10001 = false :=
  ⟨rfl, by decide +kernel, ⟨by decide +kernel, by decide +kernel⟩, by decide +kernel, rfl, rfl, by decide +kernel⟩
theorem witness_PlatformEvents_clock : let s : State := { State.reset with time := 10 }
    s.locked = false ∧ s.time ≤ (10 : DWord).toNat ∧ ({ s with locked := true } : State).locked = true ∧
    bitsOf ({ s with ptpst := 2 } : State).ptpst.toNat 0 2 = 2 := by decide +kernel
theorem witness_PlatformEvents_corrected : let s : State := { State.reset with corrected := [(3, 0)], time := 1000000000 }
    s.corrected[0]? = some (3, 0) ∧ 0 + 1000000000 ≤ s.time ∧ 0 < 3 := by decide +kernel

/-- A device with a receive ring and a transmit ring, whose first slot holds a header of a frame of `len` bytes. -/
def frameAt (len : Byte) : State :=
  { State.reset with
    boot := .running, nrbase := 0x80000, nrsize := 0x10004, ntbase := 0x90000, ntsize := 4, nttail := 1, portUp := [true, false],
    mem := Memory.writeN [] 0x90000 [len, 0, 0, 1] }
/-- A frame to a group address is one the port takes. -/
theorem witness_takesFrame (port : Nat) (bytes : List Byte) (h : (bytes.getD 0 0).getLsbD 0 = true) : takesFrame port bytes = true := by
  unfold takesFrame; rw [h, Bool.or_true]
/-- The longest frame to a group address; one byte more; a full ring. -/
theorem witness_FrameEvents_receive : let s := frameAt 14
    let good := fun (s : State) (bytes : List Byte) => (bytes.getD 0 0).getLsbD 0 && decide (14 ≤ bytes.length ∧ bytes.length ≤ 2032 ∧ s.nrbase ≠ 0 ∧
      (s.nrtail - s.nrhead).toNat < 2 ^ bitsOf s.nrsize.toNat 0 4)
    s.boot = .running ∧ good s (List.replicate 14 0xFF) = true ∧ good s (List.replicate 2032 0xFF) = true ∧
    good s (List.replicate 2033 0xFF) = false ∧ good s (List.replicate 13 0xFF) = false ∧
    good { s with nrtail := 16 } (List.replicate 14 0xFF) = false := by decide +kernel
/-- The shortest frame, one byte less, and a port without a link. -/
theorem witness_FrameEvents_transmit : let len := fun s : State => fieldLE (s.peek 0x90000 8) 0 2
    (frameAt 14).ntbase ≠ 0 ∧ (frameAt 14).nthead ≠ (frameAt 14).nttail ∧ len (frameAt 14) = 14 ∧ len (frameAt 13) = 13 ∧
    fieldLE ((frameAt 14).peek 0x90000 8) 2 1 = 0 ∧ fieldLE ((frameAt 14).peek 0x90000 8) 3 1 = 1 ∧
    zeroBytes ((frameAt 14).peek 0x90000 8) 4 4 = true ∧ (frameAt 14).portUp.getD 0 false = true ∧
    ({ frameAt 14 with portUp := [] } : State).portUp.getD 0 false = false := by decide +kernel

/-- A running device with a link up to device 3, whose flow of class 1 from die 0 of that device expects sequence number 7. -/
def linkAt (b : Bool) : State :=
  { atApp .nop with
    links := [{ Link.fresh with up := b, peer := some 3, features := 1 }],
    flows := [{ dev := 3, die := 0, cls := 1, out := false, next := 7, early := [], lastAt := 0 }], time := 100000 }
theorem witness_LinksAndFlows : (linkAt true).links[0]?.map (·.up) = some true ∧ (linkAt false).links[0]?.map (·.up) = some false ∧
    (linkAt true).ownDev = 0 ∧ ((linkAt true).flows.find? (Flow.inboundOf 3 0 1)).map (fun f => (f.next, f.early.isEmpty)) = some (7, true) ∧
    (linkAt false).hasRoute 3 = false ∧ 3 ≠ (linkAt true).ownDev ∧ 1 ≤ BitVec.toNat (w := 8) 0x10 / 16 := by decide +kernel
/-- A posted write to device 3 of a team that stands on a core. -/
theorem witness_LinksAndFlows_posted : let s : State := { linkAt true with posted := [{ posted0 with pa := 0x180000003000, remote := true }] }
    (∀ p ∈ s.posted, p.remote = true ∧ devOf p.pa = 3) ∧ (∃ u ∈ s.teams ++ s.saved, u.id = 20) := by decide +kernel

/-- Device 3's access of the lowest admitted address, of its highest, and of a refused one. -/
theorem witness_RemoteAccesses_inbound : let s := linkAt true
    3 ≠ s.ownDev ∧ s.inboundStalls = false ∧ (∀ g ∈ [2048, 2047], devOf g = s.ownDev ∧ s.inWindow (localOf g) = false) ∧
    s.lineLocked (lineOf 2048) = false ∧ inHbm (localOf 2048) = true ∧ lineOf 2048 ∉ s.lost ∧ lineOf 2048 ∉ s.ecc ∧ (∀ l ∈ s.routeLinks 3, l.features.getLsbD 0 = true) ∧
    Fmt.fp .s32 = none ∧ inHbm (hbmBytes - 8) = true ∧ inHbm hbmBytes = false ∧ InboundOp.isRmw (.load 4) = false := by decide +kernel
/-- A COPY of one element. -/
def copy0Args : CopyArgs :=
  { dir := 0, src := BufRec.zero, dst := BufRec.zero, spos := 0, dpos := 0, cnt := 1, dq := false, dqf32 := false, swz := 0 }
/-- A command of the wave that has started. -/
def cmd0 (k : CmdKind) : Command :=
  { id := 1, team := 20, wave := 0, lane := 0, tag := some 2, pc := 0, kind := k, waits := [], after := [], started := true, flags := 0,
    fault := none, page := none, writes := [], fetches := [], shared := false }
/-- Its read of device 3's memory. -/
def fetch0 : Fetch := { id := 70, addr := 0x180000003000, size := 4, sentAt := 0, data := none }
/-- A read-modify-write that was sent, and a command's read that was, whose port timeout has passed. -/
theorem witness_RemoteAccesses_timeout : let m := { rmw0 .cas with remote := true, sentAt := some 0 }
    let q : Queue := { cmds := [{ cmd0 (.copy copy0Args 0) with fetches := [fetch0] }], counter := 0, fence := [] }
    let s : State := { linkAt true with rmws := [m], cores := [{ Core.fresh 0 3 with queues := [q] }] }
    s.rmws.find? (fun x => x.id == 41 && x.remote) = some m ∧ m.load.isSome = true ∧ 0 + s.portTimeout ≤ s.time ∧
    (∀ x ∈ s.rmws, x.id ≠ 70) ∧ s.loadOf 70 = none ∧
    (∃ c ∈ s.cores, ∃ q ∈ c.queues, ∃ x ∈ q.cmds, ∃ f ∈ x.fetches, f.id = 70 ∧ f.data = none ∧
      f.sentAt + s.portTimeout ≤ s.time) ∧ s.recLoadOf 70 = none := by decide +kernel
/-- A record's read that was sent, whose port timeout has passed. -/
theorem witness_RemoteAccesses_record :
    let r : RecLoad := { seq := 72, reg := 1, pa := 0x180000003000, pc := 0x40, va := 0x3000, mask := 3, sent := some 0,
                         redo := { instr := .recld 1 4, winb := 0, pc := 0x40, ctxs := [], recs := [] } }
    let s : State := { atApp .nop [] (fun w => { w with recLoads := [r] }) with time := 100000 }
    (∀ x ∈ s.rmws, x.id ≠ 72) ∧ s.loadOf 72 = none ∧ (s.recLoadOf 72).map (fun x => x.2.2) = some r ∧ 0 + s.portTimeout ≤ s.time := by decide +kernel
/-- Die 1 has not answered an invalidation for 1 ms. -/
theorem witness_RemoteAccesses_die : let s : State := { postAt (fun p => { p with applied := true, acks := [1] }) with time := 1000000 }
    1 ∉ s.diesFailed ∧ minBy (fun q : Nat × Nat => q.2) (s.unanswered 1) = some (0x3000, 0) ∧ 0 + 1000000 ≤ s.time := by decide +kernel

/-- A packet of version `v` for handler 0, of priority 1 and without WEND. -/
def packet0 (v : Byte) : List Byte := [v, 1] ++ List.replicate 62 0
/-- A device whose handler table, at 0x10000, names partition 5, priority 3 and template 0x3000 for handler 0 if `f` is 1; queue 21 holds `n` packets
and has no overflow ring. -/
def handlerAt (f : Byte) (n : Nat) : State :=
  { linkAt true with
    mem := Memory.writeN (Memory.writeN (Memory.writeN [] 0 [0x10, 0, 0, 0, 0, 0, 0, 0, 0, 0, 1]) (72 + 16 * 21) [0xFF])
      0x10000 [f, 5, 3, 0, 0, 0, 0, 0, 0, 0x30],
    invQueues := State.reset.invQueues.modify 21 fun v => { v with slots := List.replicate n (packet0 0x10) } }
theorem witness_InvocationEvents_arrival : let s := handlerAt 1 63
    let h := s.handlerOf (pktHidx (packet0 0x10))
    s.fcbOk = true ∧ ({ s with mem := [] } : State).fcbOk = false ∧ (packet0 0x10).length = 64 ∧ versionOk ((packet0 0x20).getD 0 0) = false ∧ versionOk ((packet0 0x10).getD 0 0) = true ∧ s.badHtab = [] ∧
    (handlerAt 0 0).handlerOf (pktHidx (packet0 0x10)) = none ∧ h.map (fun h => (h.part, Nat.min (pktPrio (packet0 0x10)) h.maxp)) = some (5, 1) ∧
    pktClean (packet0 0x10) = true ∧ pktHost (packet0 0x10) = false ∧ s.badQueue 21 = [] ∧ (s.invQueue 21).slots.length = 63 ∧
    (s.invQueue 21).head = (s.invQueue 21).tail ∧ (handlerAt 1 64).badQueue 21 = [] ∧ ((handlerAt 1 64).invQueue 21).slots.length = 64 ∧
    (handlerAt 1 64).overflowRing 21 = none := by decide +kernel
theorem witness_InvocationEvents_slot : let s := handlerAt 1 1
    (s.invQueue 21).slots = [packet0 0x10] ∧ s.queueHasRoom (21 / 4) (21 % 4) = true ∧ (s.handlerOf (pktHidx (packet0 0x10))).isSome = true := by
  decide +kernel
/-- An invocation with reply tag 2, whose reply comes or whose port timeout has passed; a packet at die 0's outbound port. -/
theorem witness_InvocationEvents_reply : let v : Invocation := { id := 71, team := 20, tag := 2, wend := false, dev := 3, die := 0, seq := 0, sentAt := 0 }
    let s : State := { linkAt true with invocations := [v], outPort := [{ die := 0, dev := 3, bytes := packet0 0x10 }] }
    s.invocations.find? (fun x => x.id == 71 && x.takes 2) = some v ∧
    s.invocations.find? (fun x => x.id == 71 && !x.wend && decide (x.sentAt + s.portTimeout ≤ s.time)) = some v ∧
    ((s.team? 20).bind fun t => t.tags[2]?).isSome = true ∧ (s.outPort.find? fun x => x.die == 0).map (·.dev) = some 3 ∧ s.hasRoute 3 = true := by
  decide +kernel

/-- The team's core with that command at the head of queue `q`. -/
def headAt (q : Nat) (c : Command) (f : State → State := id) : State :=
  let s := atApp .nop [] id fun t => { t with spadSize := 65536 }
  f { s with cores := [{ Core.fresh 0 3 with part := some 5, started := true, queues := (Core.fresh 0 3).queues.set q { cmds := [c], counter := 0, fence := [] } }] }
/-- The descriptor of an EPI that rounds to 32-bit words from address 0x4000. -/
def epi0 : Epilogue :=
  { addr := 0x1000, ofmt := .s32, act := 0, bias := false, svec := false, rtz := false, ct := 1, obase := 0x4000, ostride := 512, scale := 0,
    biasv := 0, scalev := 0 }
def set0 : VaultSet := { v0 := 0, chain := 1, groups := 1, bf := .s8 }
/-- What the statements ask of a command, apart from what it does. -/
def headOk (q : Nat) (c : Command) (s : State) : Bool :=
  decide (s.headCmd 3 q = some c) && ((s.team? c.team).map fun t => t.dual.isNone && !t.ending) == some true && c.page.isNone && s.performed c.writes && c.fault.isNone
/-- Commands that have not started; an EPI without a ring yet. -/
theorem witness_CommandEvents_start : let c := { cmd0 (.vfill set0 0) with started := false }
    let e := { cmd0 (.epi 0 2 1 epi0) with started := false }
    let s := headAt 8 e fun s => { s with rings := [fring0 none] }
    headOk 4 c (headAt 4 c) = true ∧ c.started = false ∧ (headAt 4 c).mayStart c = true ∧ c.ringOf 3 = none ∧ headOk 8 e s = true ∧ s.mayStart e = true ∧
    s.isSaved 0 2 = false ∧
    (s.ring? 0 2).map (·.epi) = some none := by decide +kernel
/-- A COPY of no element left, an EPI whose ring has gone, an MLOOP whose rows are done; one that has failed. -/
theorem witness_CommandEvents_end : let a : MloopArgs := { set := set0, abase := 0, ainc := 0, int := true, af := .s8, rows := 16, ktag := 0, ring := 2, first := 0 }
    let c := cmd0 (.copy { copy0Args with cnt := 0 } 0)
    let e := cmd0 (.epi 0 2 0 epi0)
    let m := cmd0 (.mloop a 1)
    headOk 0 c (headAt 0 c) = true ∧ { copy0Args with cnt := 0 }.total ≤ 0 ∧ headOk 8 e (headAt 8 e) = true ∧ (headAt 8 e).ring? 0 2 = none ∧
    headOk 4 m (headAt 4 m) = true ∧ a.steps ≤ 1 ∧ (headAt 4 m).arrivals = [] ∧
    (headAt 0 { c with fault := some (.bounds, none) }).headCmd 3 0 = some { c with fault := some (.bounds, none) } := by decide +kernel
theorem witness_CommandEvents_acts : let c := cmd0 (.vfill set0 0)
    let r := cmd0 (.aring false true 2 1 4 0x40000)
    headOk 4 c (headAt 4 c) = true ∧ ((headAt 4 c).core? 3).map (fun k => (k.asleep set0, (headAt 4 c).vaultsBusy k set0)) = some (false, false) ∧
    ((headAt 4 c).team? 20).map (fun t => t.spadError 0 (set0.chain * set0.groups * Fmt.vaultBytes set0.bf)) = some false ∧ 0 + set0.chain * set0.groups * Fmt.vaultBytes set0.bf ≤ 65536 ∧ headOk 8 r (headAt 8 r) = true := by decide +kernel

/-- An MLOOP before its only step. -/
def mloop0 : MloopArgs := { set := set0, abase := 0, ainc := 0, int := true, af := .s8, rows := 16, ktag := 0, ring := 2, first := 3 }
theorem witness_MatrixAndFlowstoneEvents_step : let c := cmd0 (.mloop mloop0 0)
    let s := headAt (4 + 3) c fun s => { s with rings := [fring0 none] }
    c.stepping = false ∧ headOk 7 { c with stepping := true } (headAt 7 { c with stepping := true }) = true ∧
    (s.core? 3).map (fun k => s.stepWaits k 3 set0) = some false ∧ (s.team? 20).map (fun t => t.spadError 0 (mloop0.rowsOf 0 * mloop0.rowBytes)) = some false ∧
    headOk 7 c s = true ∧ 0 < mloop0.steps ∧ (s.core? 3).map (fun k => k.asleep set0) = some false ∧ s.arrivals = [] ∧ (s.ring? (dieOf 3) 2).isSome = true ∧
    (s.core? 3).map (fun k => set0.vaults.all fun i => ((k.vaults[i]?).map fun v => v.bf.isNone && !v.bad).getD true) = some true := by decide +kernel
/-- A partial for slot 3, which lacks one, whose only add lies in slice 0. -/
theorem witness_MatrixAndFlowstoneEvents_partial :
    let a : Arrival := { id := 80, die := 0, ring := 2, slot := 3, rows := 16, adds := [(0, 1)], ktag := 0, ordered := false, cmd := some 1, held := false }
    let s : State := { atApp .nop with rings := [fring0 none], arrivals := [a] }
    s.arrivals.find? (fun b => b.id == 80) = some a ∧ (s.ring? 0 2).map (fun r => r.slots[3]?) = some (some Slot.fresh) ∧
    Slot.fresh.meets (fring0 none).target a = .apply ∧ Slot.fresh.count < (fring0 none).target ∧
    (fring0 none).sliceOfElem 3 0 = 0 ∧ (a.adds.all fun p => laneIn 1 ((fring0 none).sliceOfElem 3 p.1)) = true ∧
    (a.adds.all fun p => laneIn 2 ((fring0 none).sliceOfElem 3 p.1)) = false ∧
    (∀ b ∈ s.arrivals, b.id ≠ 80 → b.isFor (fring0 none) 3 = false) := by decide +kernel
/-- An EPI whose ring's tail slot is complete, with one row; one that has failed. -/
def drainAt (err : Option (FaultCode × DWord)) : State :=
  headAt 8 (cmd0 (.epi 0 2 1 epi0)) fun s => { s with rings := [{ fring0 (some { addr := 0x1000, drained := 0, core := 3, cmd := some 1 }) with
    slots := (List.replicate 4 Slot.fresh).set 0 { Slot.fresh with st := .complete, count := 1, vr := 1, err := err } }] }
def drainOk (s : State) : Bool :=
  headOk 8 (cmd0 (.epi 0 2 1 epi0)) s && ((s.ring? 0 2).map fun r => r.tail == 0 && ((r.slots[0]?).map fun x => x.st != .armed) == some true &&
    (r.epi.map (·.cmd)) == some (some 1)) == some true
theorem witness_MatrixAndFlowstoneEvents_drain : drainOk (drainAt none) = true ∧ drainOk (drainAt (some (.bounds, 0))) = true := by decide +kernel
/-- Its row's bytes have a place to go to. -/
def rowsGo (s : State) : Bool :=
  match s.ring? 0 2, s.team? 20 with
  | some r, some t =>
    match State.drainTargets t (epi0.rows r (r.slots.getD 0 Slot.fresh) 0 [] []).1 ((s.updSlot r 0 fun x => { x with st := .draining }).updHead 3 8 fun c => { c with ringFault := false }) with
    | (u, .ok ws) => (u.lostPart ws).isNone
    | _ => false
  | _, _ => false
theorem witness_MatrixAndFlowstoneEvents_rows : rowsGo (drainAt none) = true := by decide +kernel
/-- A vault at the 100 microseconds; one of a command that is retained. -/
theorem witness_MatrixAndFlowstoneEvents_vaults : let s := headAt 4 (cmd0 (.vfill set0 0)) fun s => { s with
      time := 100000, cores := s.cores.map fun k => { k with vaults := k.vaults.set 0 { Vault.fresh with retained := true } } }
    ((s.core? 3).bind fun k => k.vaults[31]?).map (fun v => decide (v.usedAt + 100000 ≤ s.time)) = some true ∧
    ((s.core? 3).bind fun k => k.wanted.head?) = some 0 := by decide +kernel

/-- A node at 0x2000 of 8 records of 64 bytes from 0x4000, whose tile is 2; partition 5 owns it; `arr` records of it are written. -/
def node0 (arr : Nat) : List Byte :=
  [0x10, 0, 1, 0x15, 8, 0, 0, 0] ++ bytesLE 8 0x4000 ++ bytesLE 8 0x3000 ++ [2, 0, 0, 0, 0, 0, 0, 0] ++ bytesLE 8 0 ++ bytesLE 8 0 ++ bytesLE 8 3 ++ bytesLE 8 arr
def sump0 (pending timed : Bool) : SumpNode := { pa := 0x2000, times := [], timed := timed, checkedAt := 0, ranges := [], pending := pending }
def write0 : SumpWrite :=
  { id := 90, node := 0x2000, seqno := 2, bytes := List.replicate 64 7, team := 20, wave := 0, written := false, load := 30, pc := 0x40, lane := 0,
    blocked := none, fault := none }
def sumpNodeAt (arr : Nat) (tlb : Bool) : State :=
  { atApp .nop with mem := Memory.writeN [] 0x2000 (node0 arr), sumpWrites := [write0], time := 10000, tlb1 := if tlb then (atApp .nop).tlb1 else [] }
/-- A record whose slot can be reached, and one whose page is missing. -/
theorem witness_SumpEvents_record : let s := sumpNodeAt 2 true
    let u := { sumpNodeAt 2 false with asidt := 0x10000 }
    s.sumpWrites.find? (fun y => y.id == 90 && !y.written && y.blocked.isNone && y.sent.isNone) = some write0 ∧ (s.wave? 20 0).isSome = true ∧
    s.secondaryLags 20 = false ∧ (s.team? 20).map (fun t => s.performed ((s.wavePending t.id (waveOf s)).filter fun i => decide (i < 90))) = some true ∧ (s.node 0x2000).cap = 8 ∧
    (s.team? 20).map (fun t => ((s.sumpTarget t 0x4080).2.toOption, t.isSup)) = some (some 0x4080, false) ∧
    (devOf 0x4080 = s.ownDev ∧ devOf 0x180000004080 ≠ s.ownDev ∧ s.hasRoute 3 = false) ∧
    (u.team? 20).map (fun t => match (u.sumpTarget t 0x4080).2 with | .error .page => true | _ => false) = some true := by decide +kernel
def isFull (p : State × Accepting) : Bool := match p.2 with | .full => true | _ => false
/-- The three checks; a node that finds its range due and its launch queue full. -/
theorem witness_SumpEvents_checks : let s := sumpNodeAt 2 true
    let full : State := { s with
      mem := Memory.writeN (Memory.writeN s.mem 0x3000 template0) 0x3100 rcb0
      launches := (List.range 256).map fun i => { launch1 with id := i, queue := 1 } }
    let o := fun r : SumpRange => ({ id := 0, part := 5, template := 0x3000, source := .sump r, after := [], args := none, prio := some 1 } : Offer)
    let r : SumpRange := { node := 0x2000, start := 0, count := 2, released := 0 }
    (s.node 0x2000).owned = true ∧ (s.node 0x2000).part = 5 ∧ s.sumpDue (sump0 true false) (s.node 0x2000) = some r ∧
    s.sumpDue (sump0 true false) ((sumpNodeAt 1 true).node 0x2000) = none ∧ 0 + 10000 ≤ s.time ∧ (sump0 false true).timed = true ∧
    isFull (full.accept (o r)) = true := by decide +kernel

/-- What register writes ask of the state, at reset: no unit is in use, no link is up and no core is in a partition; core 1 is halted, core 0 is not. -/
theorem witness_RegisterWriteSteps : let s := pendingAt
    let t := State.reset
    (t.sup 1).halted = true ∧ (t.wave? 1 0).isSome = true ∧ t.sups.length = 16 ∧ (s.sup 0).halted = false ∧ (s.wave? 0 0).isSome = true ∧
    (t.insts = [] ∧ t.rings = []) ∧ (∀ l ∈ t.links, l.up = false) ∧ (∀ c ∈ t.cores, c.part = none) := by decide +kernel
/-- The ends of the ranges: CARVE of die 3, PTSIZE, NRSIZE, NTSIZE; aligned bases; a tail that is a whole ring ahead. -/
theorem witness_RegisterWriteSteps_ranges : let die3 := fun w : Word => decide (w.toNat / 2 ^ 28 = 3 ∧ w.toNat % 2 ^ 28 < 2 ^ 13 ∧ w.toNat % 16 ≤ 8 ∧
      w.toNat / 16 % 16 = 0 ∧ w.toNat / 256 % 32 ≤ 16)
    let ptsize := fun w : Word => decide (w.toNat < 512 ∧ w.toNat / 32 % 8 = 0 ∧ 6 ≤ w.toNat % 32 ∧ w.toNat % 32 ≤ 20)
    let nrsize := fun w : Word => decide (w.toNat / 16 % 4096 = 0 ∧ 4 ≤ w.toNat % 16 ∧ w.toNat % 16 ≤ 12)
    die3 0x30001008 = true ∧ die3 0x30000000 = true ∧ die3 0x30001009 = false ∧ die3 0x30001108 = false ∧ ptsize 6 = true ∧ ptsize 0x114 = true ∧
    ptsize 5 = false ∧ ptsize 21 = false ∧ nrsize 4 = true ∧ nrsize 0xFFFF000C = true ∧ nrsize 3 = false ∧ nrsize 13 = false ∧
    (0x80000 : DWord).toNat % (32 * 2 ^ 6) = 0 ∧ (0x80000 : DWord).toNat % (2048 * 2 ^ 4) = 0 ∧ (511 : Word).toNat < 512 ∧
    (0xF00000040 : DWord).toNat < 2 ^ 36 ∧ (31 : Word).toNat < 32 ∧ (0xFFFF : Word).toNat < 65536 ∧
    ((16 : Word) - 0).toNat ≤ 2 ^ ((4 : Word).toNat % 16) := by decide

/-- The last lane of the last wave. -/
theorem witness_Draws : 15 < 16 ∧ 63 < 64 := by decide

end Sys2Proof.Tests
end

section
/-!
The scalar words: results and encodings of the integer words (O1), of the 64-bit words and the words with a predicate result (O2), and the
words that mark their run for its trailer, with NOP (O9).
-/

namespace Sys2Proof.Proofs.Scalar

open Sys2Proof Sys2Proof.Machine Sys2Proof.Claims Sys2Proof.Laws

/-! ## The functions of R76 to R81 and R83 as operations on words -/

theorem minS_eq (a b : Word) : minS a b = if b.slt a then b else a := by
  unfold minS
  by_cases h : a.toInt ≤ b.toInt
  · simp [h, BitVec.slt, Int.not_lt.mpr h]
  · simp [h, BitVec.slt, Int.not_le.mp h]

theorem maxS_eq (a b : Word) : maxS a b = if a.slt b then b else a := by
  unfold maxS
  rcases lt_trichotomy a.toInt b.toInt with h | h | h
  · simp [h, h.le, BitVec.slt]
  · simp [BitVec.eq_of_toInt_eq h]
  · simp [h.not_ge, h.not_gt, BitVec.slt]

theorem minU_eq (a b : Word) : minU a b = if b < a then b else a := by
  unfold minU
  by_cases h : a.toNat ≤ b.toNat
  · simp [h, BitVec.lt_def, Nat.not_lt.mpr h]
  · simp [h, BitVec.lt_def, Nat.not_le.mp h]

theorem maxU_eq (a b : Word) : maxU a b = if a < b then b else a := by
  unfold maxU
  rcases lt_trichotomy a.toNat b.toNat with h | h | h
  · simp [h, h.le, BitVec.lt_def]
  · simp [BitVec.eq_of_toNat_eq h]
  · simp [h.not_ge, h.not_gt, BitVec.lt_def]

theorem shlW_eq (a b : Word) : shlW a b = a <<< b.toNat := by
  unfold shlW
  split
  · next h => exact (BitVec.shiftLeft_eq_zero h).symm
  · rfl

theorem shrW_eq (a b : Word) : shrW a b = a >>> b.toNat := by
  unfold shrW
  split
  · next h => exact (BitVec.ushiftRight_eq_zero h).symm
  · rfl

/-- Past 31 an arithmetic shift gives the sign in every bit, as by 31. -/
theorem sraW_eq (a b : Word) : sraW a b = a.sshiftRight b.toNat := by
  unfold sraW
  by_cases hb : b.toNat ≤ 31
  · rw [show Nat.min b.toNat 31 = b.toNat from Nat.min_eq_left hb]
  · rw [show Nat.min b.toNat 31 = 31 from Nat.min_eq_right (by omega)]
    ext i hi
    rw [BitVec.getElem_sshiftRight, BitVec.getElem_sshiftRight, dif_neg (show ¬ b.toNat + i < 32 by omega)]
    split
    · next h => simp [show i = 0 by omega, BitVec.msb_eq_getLsbD_last]
    · rfl

theorem rotW_eq (a b : Word) : rotW a b = a.rotateLeft b.toNat := BitVec.rotateLeft_mod_eq_rotateLeft

theorem mulhS_eq (a b : Word) : mulhS a b = BitVec.ofInt 32 ((a.toInt * b.toInt) >>> 32) :=
  congrArg (BitVec.ofInt 32) ((Int.shiftRight_eq_div_pow _ 32).symm.trans (Int.shiftRight_natCast_right _ 32).symm)

theorem mulhU_eq (a b : Word) : mulhU a b = BitVec.ofNat 32 ((a.toNat * b.toNat) >>> 32) := by
  rw [mulhU, Nat.shiftRight_eq_div_pow]

theorem ofInt_tdiv (a b : Word) : BitVec.ofInt 32 (a.toInt.tdiv b.toInt) = a.sdiv b := by
  apply BitVec.eq_of_toInt_eq
  rw [BitVec.toInt_ofInt, BitVec.toInt_sdiv]

theorem ofInt_tmod (a b : Word) : BitVec.ofInt 32 (a.toInt.tmod b.toInt) = a.srem b := by
  rw [← BitVec.toInt_srem, BitVec.ofInt_toInt]

theorem divS_eq (a b : Word) : divS a b = if b = 0 then 0xFFFFFFFF else a.sdiv b := by
  rw [divS, ofInt_tdiv]

theorem divU_eq (a b : Word) : divU a b = if b = 0 then 0xFFFFFFFF else a / b := by
  rw [divU, BitVec.udiv_def]

theorem remS_eq (a b : Word) : remS a b = if b = 0 then a else a.srem b := by
  rw [remS, ofInt_tmod]

theorem remU_eq (a b : Word) : remU a b = if b = 0 then a else a % b := by
  rw [remU, BitVec.umod_def]

/-- The leading zeros of the low `n` bits, which `q` tests from the top of them down. -/
theorem clzFrom_eq (a : Word) (n : Nat) (q : Nat → Bool) (hq : ∀ k < n, q k = !a.getLsbD (n - 1 - k)) :
    clzFrom a n = ((List.range n).takeWhile q).length := by
  induction n generalizing q with
  | zero => rfl
  | succ n ih =>
    have hrest := ih (q ∘ Nat.succ) fun k hk => by
      rw [Function.comp_apply, hq (k + 1) (by omega), show n + 1 - 1 - (k + 1) = n - 1 - k by omega]
    rw [clzFrom, hrest, List.range_succ_eq_map, List.takeWhile_cons, List.takeWhile_map, hq 0 (by omega)]
    cases h : a.getLsbD n <;> simp [h, Nat.add_comm]

theorem clzW_eq (a : Word) : clzW a = BitVec.ofNat 32 ((List.range 32).takeWhile fun k => !a.getMsbD k).length := by
  rw [clzW, clzFrom_eq]
  intro k hk
  simp [BitVec.getMsbD, hk]

theorem popcW_eq (a : Word) : popcW a = BitVec.ofNat 32 ((List.range 32).filter fun k => a.getLsbD k).length := by
  rw [popcW, List.countP_eq_length_filter]

theorem getLsbD_fieldMask (w p : BitVec 5) (j : Nat) :
    (fieldMask w p).getLsbD j = decide (p.toNat ≤ j ∧ j < p.toNat + (w.toNat + 1) ∧ j < 32) := by
  have hn : Nat.min (w.toNat + 1) (32 - p.toNat) = min (w.toNat + 1) (32 - p.toNat) := rfl
  simp only [fieldMask, BitVec.getLsbD_shiftLeft, BitVec.getLsbD_ofNat, Nat.testBit_two_pow_sub_one, hn]
  rw [Bool.eq_iff_iff]
  simp only [Bool.and_eq_true, decide_eq_true_eq, Bool.not_eq_true', decide_eq_false_iff_not]
  omega

theorem bfxW_eq (a : Word) (w p : BitVec 5) : bfxW a w p = (a.extractLsb' p.toNat (w.toNat + 1)).zeroExtend 32 := by
  apply BitVec.eq_of_getLsbD_eq
  intro i hi
  simp only [bfxW, BitVec.getLsbD_ushiftRight, BitVec.getLsbD_and, getLsbD_fieldMask, BitVec.getLsbD_setWidth, BitVec.getLsbD_extractLsb']
  by_cases h : p.toNat + i < 32
  · simp [h, hi, Bool.and_comm]
  · simp [h, BitVec.getLsbD_of_ge a (p.toNat + i) (by omega)]

theorem movhiW_eq (d : Word) (i : BitVec 18) : movhiW d i = i ++ d.extractLsb' 0 14 := by
  apply BitVec.eq_of_getLsbD_eq
  intro k hk
  have hmask : (0x3FFF : Word).getLsbD k = decide (k < 14) := by
    rw [show (0x3FFF : Word) = BitVec.ofNat 32 (2 ^ 14 - 1) from rfl, BitVec.getLsbD_ofNat, Nat.testBit_two_pow_sub_one]
    simp [hk]
  simp only [movhiW, zext32, BitVec.getLsbD_or, BitVec.getLsbD_shiftLeft, BitVec.getLsbD_and, BitVec.getLsbD_append,
    BitVec.getLsbD_setWidth, BitVec.getLsbD_extractLsb', hmask]
  by_cases h : k < 14
  · simp [h, hk]
  · simp [h, hk, show k - 14 < 32 by omega]

/-! ## The integer words as lane operations of their rows -/

/-- A register result of A and B, by an equal function of them. -/
theorem aluOp_eq {i : Instr} {lat : Nat} {n : Bool} {d a b : Reg} {g g' : Word → Word → Word} {s : State} (hg : ∀ x y, g x y = g' x y) :
    aluOp i lat n d a b g s = laneOp i 1 lat (fun _ x => outReg x n d (g' (x.reg a) (x.reg b))) s := by
  simp only [aluOp, hg]

/-- A register result of A, by an equal function of it. -/
theorem unaryOp_eq {i : Instr} {n : Bool} {d a : Reg} {g g' : Word → Word} {s : State} (hg : ∀ x, g x = g' x) :
    unaryOp i n d a g s = laneOp i 1 4 (fun _ x => outReg x n d (g' (x.reg a))) s := by
  simp only [unaryOp, hg]

theorem exec_movhi (d : Reg) (i : BitVec 18) (s : State) :
    exec (.movhi d i) s = laneOp (.movhi d i) 1 4 (fun _ x => outReg x false d (movhiW (x.reg d) i)) s := rfl

/-- The model computes an integer word's result in each lane as its row says. -/
theorem exec_of_intRow {i : Instr} {r : LaneRow} (hr : intRow i = some r) (s : State) :
    exec i s = laneOp i 1 r.lat (fun _ x => outReg x r.nw r.d (r.val x)) s := by
  cases i with
  | min n d a b => cases hr; change aluOp _ _ _ _ _ _ minS _ = _; rw [aluOp_eq minS_eq]
  | max n d a b => cases hr; change aluOp _ _ _ _ _ _ maxS _ = _; rw [aluOp_eq maxS_eq]
  | minu n d a b => cases hr; change aluOp _ _ _ _ _ _ minU _ = _; rw [aluOp_eq minU_eq]
  | maxu n d a b => cases hr; change aluOp _ _ _ _ _ _ maxU _ = _; rw [aluOp_eq maxU_eq]
  | shl n d a b => cases hr; change aluOp _ _ _ _ _ _ shlW _ = _; rw [aluOp_eq shlW_eq]
  | shr n d a b => cases hr; change aluOp _ _ _ _ _ _ shrW _ = _; rw [aluOp_eq shrW_eq]
  | sra n d a b => cases hr; change aluOp _ _ _ _ _ _ sraW _ = _; rw [aluOp_eq sraW_eq]
  | rot n d a b => cases hr; change aluOp _ _ _ _ _ _ rotW _ = _; rw [aluOp_eq rotW_eq]
  | mulh n d a b => cases hr; change aluOp _ _ _ _ _ _ mulhS _ = _; rw [aluOp_eq mulhS_eq]
  | mulhu n d a b => cases hr; change aluOp _ _ _ _ _ _ mulhU _ = _; rw [aluOp_eq mulhU_eq]
  | div n d a b => cases hr; change aluOp _ _ _ _ _ _ divS _ = _; rw [aluOp_eq divS_eq]
  | divu n d a b => cases hr; change aluOp _ _ _ _ _ _ divU _ = _; rw [aluOp_eq divU_eq]
  | rem n d a b => cases hr; change aluOp _ _ _ _ _ _ remS _ = _; rw [aluOp_eq remS_eq]
  | remu n d a b => cases hr; change aluOp _ _ _ _ _ _ remU _ = _; rw [aluOp_eq remU_eq]
  | clz n d a => cases hr; change unaryOp _ _ _ _ clzW _ = _; rw [unaryOp_eq clzW_eq]
  | popc n d a => cases hr; change unaryOp _ _ _ _ popcW _ = _; rw [unaryOp_eq popcW_eq]
  | bfx n d a w p => cases hr; change unaryOp _ _ _ _ (bfxW · w p) _ = _; rw [unaryOp_eq (bfxW_eq · w p)]
  | movhi d i => cases hr; simp only [exec_movhi, movhiW_eq]
  | _ => cases hr <;> rfl

/-- What the bank rule compares in an integer word is what its row says. -/
theorem bankPair_of_intRow {i : Instr} {r : LaneRow} (hr : intRow i = some r) : Instr.bankPair i = r.bank := by
  revert hr
  fun_cases intRow i <;> rintro ⟨⟩ <;> rfl

/-- An integer word makes no access, so it never has to wait. -/
theorem goes_of_intRow {s : State} {c : Issue} {i : Instr} {r : LaneRow} (h : s.issues c) (hr : intRow i = some r) : s.goes c i := by
  revert hr
  fun_cases intRow i <;> rintro ⟨⟩ <;> exact issues_goes h rfl rfl

/-- R76 to R81, R83 and R86: an integer word completes with its row's result. -/
theorem integerWord_next (s : State) (c : Issue) (i : Instr) (r : LaneRow) (h : s.issues c) (hr : intRow i = some r) :
    let k := c.slots 1 r.bank
    exec i s = .next ((s.putLanes c (c.dueAt k r.lat) fun l => outReg (c.laneAt k l) r.nw r.d (r.val (c.laneAt k l))).issued c k) := by
  rw [exec_of_intRow hr]
  exact laneOp_next (goes_of_intRow h hr) 1 r.lat _ (bankPair_of_intRow hr)

/-! ## Decoding by family -/

theorem decode_of_candidate {w : Word} {i : Instr} (h : candidate w = some i) : decode w = if i.wf then some i else none := by
  rw [decode, h]

theorem decode_of_no_candidate {w : Word} (h : candidate w = none) : decode w = none := by
  rw [decode, h]

/-- A word of a major opcode of R76 to R82 is decoded from the fields of the R format. -/
theorem candidate_int {w : Word} (h : familyOf (fMajor w).toNat = .int) :
    candidate w = decInt (fMajor w).toNat (fNW w) (fF w) (fDR w) (fAR w) (fBR w) := by
  rw [candidate, h]

theorem candidate_encR_int (m : BitVec 7) (n : Bool) (f : BitVec 3) (d a b : Reg) (h : familyOf m.toNat = .int) :
    candidate (encR m n f d a b) = decInt m.toNat n f d a b := by
  obtain ⟨hm, hn, hf, hd, ha, hb⟩ := encR_fields m n f d a b
  rw [candidate_int (hm.symm ▸ h), hm, hn, hf, hd, ha, hb]

theorem candidate_encR_pred (m : BitVec 7) (n : Bool) (f : BitVec 3) (d a b : Reg) (h : familyOf m.toNat = .pred) :
    candidate (encR m n f d a b) = decPred m.toNat n f d a b := by
  obtain ⟨hm, hn, hf, hd, ha, hb⟩ := encR_fields m n f d a b
  rw [candidate, hm, h, hn, hf, hd, ha, hb]

theorem candidate_encI_imm (m : BitVec 7) (n : Bool) (d a : Reg) (i : BitVec 10) (h : familyOf m.toNat = .imm) :
    candidate (encI m n d a i) = decImm m.toNat n d a i := by
  obtain ⟨hm, hn, hd, ha, hi⟩ := encI_fields m n d a i
  rw [candidate, hm, h, hn, hd, ha, hi]

theorem candidate_encL_const (m : BitVec 7) (d : Reg) (i : BitVec 18) (h : familyOf m.toNat = .const) :
    candidate (encL m d i) = some (if m.toNat = 0x10 then .movi d i else .movhi d i) := by
  obtain ⟨hm, hd, hi⟩ := encL_fields m d i
  rw [candidate, hm, h, hd, hi]

/-- The two five-bit fields of BFX and BFI are the immediate of the I format (R81). -/
theorem append_bitFields (m : BitVec 7) (n : Bool) (d a : Reg) (w p : BitVec 5) :
    (m ++ BitVec.ofBool n ++ d ++ a ++ w ++ p : BitVec 32) = encI m n d a (w ++ p) :=
  BitVec.append_assoc

theorem bitField_halves (w p : BitVec 5) : (w ++ p : BitVec 10).extractLsb' 5 5 = w ∧ (w ++ p : BitVec 10).extractLsb' 0 5 = p :=
  ⟨(extract_append_left w p 5 5 (by omega)).trans BitVec.extractLsb'_eq_self,
    (extract_append_right w p 0 5 (by omega)).trans BitVec.extractLsb'_eq_self⟩

/-- The word that the encoding tables give an integer instruction names that instruction. -/
theorem candidate_of_intWord {i : Instr} {w : Word} (hw : intWord i = some w) : candidate w = some i := by
  cases i with
  | bfx n d a w p =>
    cases hw
    rw [append_bitFields, candidate_encI_imm _ _ _ _ _ rfl]
    simp [decImm, bitField_halves]
  | bfi n d a w p =>
    cases hw
    rw [append_bitFields, candidate_encI_imm _ _ _ _ _ rfl]
    simp [decImm, bitField_halves]
  | addi n d a i => cases hw; exact candidate_encI_imm 0x0B n d a i rfl
  | andi n d a i => cases hw; exact candidate_encI_imm 0x0C n d a i rfl
  | ori n d a i => cases hw; exact candidate_encI_imm 0x0D n d a i rfl
  | xori n d a i => cases hw; exact candidate_encI_imm 0x0E n d a i rfl
  | movi d i => cases hw; exact candidate_encL_const 0x10 d i rfl
  | movhi d i => cases hw; exact candidate_encL_const 0x11 d i rfl
  | sel n g d a b => cases hw; exact candidate_encR_pred 0x23 n g d a b rfl
  | _ => cases hw <;> exact candidate_encR_int _ _ _ _ _ _ rfl

theorem decInt_reserved {m : Nat} {n : Bool} {f : BitVec 3} {d a b : Reg}
    (h : (m = 1 ∧ 5 ≤ f.toNat) ∨ (m ∈ [2, 3, 4, 7] ∧ 4 ≤ f.toNat) ∨ (m = 5 ∧ 3 ≤ f.toNat) ∨ (m = 6 ∧ 1 ≤ f.toNat) ∨
      (m = 4 ∧ b ≠ 0)) :
    decInt m n f d a b = none := by
  rcases h with ⟨rfl, hf⟩ | ⟨hm, hf⟩ | ⟨rfl, hf⟩ | ⟨rfl, hf⟩ | ⟨rfl, hb⟩
  case' inr.inl => fin_cases hm
  all_goals
    simp only [decInt]
    split <;> simp_all [only]

/-- A reserved function code, or a B field in a unary word, is ILLEGAL. -/
theorem decode_of_intReserved {w : Word} (h : intReserved w) : decode w = none := by
  have hfam : familyOf (fMajor w).toNat = .int := by
    have hm : 1 ≤ (fMajor w).toNat ∧ (fMajor w).toNat ≤ 8 := by
      simp only [intReserved, List.mem_cons, List.not_mem_nil, or_false] at h
      unfold fMajor
      omega
    simp [familyOf, hm.2, show (fMajor w).toNat ≠ 0 by omega]
  exact decode_of_no_candidate ((candidate_int hfam).trans (decInt_reserved h))

/-- Settles O1: each integer word is the lane operation of its row, the functions of R76 to R83 being the model's as operations on words; and
the decoder reads the fields of the R, I and L formats back. -/
theorem integerResults : Obligations.IntegerResults := by
  refine ⟨integerWord_next, fun i w hw hwf => ?_, fun w => decode_of_intReserved⟩
  rw [decode_of_candidate (candidate_of_intWord hw), if_pos hwf]

/-! ## The 64-bit words and the words with a predicate result -/

/-- The halves of a pair are its low and its high 32 bits (R17). -/
theorem outPair_eq (x : LaneCtx) (d : Reg) (v : DWord) :
    outPair x d v = {
      regs := if d.toNat < 120 then [(x.winb + d.toNat, v.extractLsb' 0 32), (x.winb + d.toNat + 1, v.extractLsb' 32 32)] else [],
      latch := some v } := by
  have hlo : lo32 v = v.extractLsb' 0 32 := by rw [← BitVec.setWidth_eq_extractLsb' (by omega)]; rfl
  have hhi : hi32 v = v.extractLsb' 32 32 := by rw [← BitVec.setWidth_ushiftRight_eq_extractLsb]; rfl
  by_cases h : d.toNat < 120
  · simp [outPair, h, Nat.not_le.mpr h, hlo, hhi]
  · simp [outPair, h, Nat.not_lt.mp h]

theorem exec_of_pairRow {i : Instr} {d a b : Reg} {lat : Nat} {g : DWord → DWord → DWord} (hr : pairRow i = some (d, lat, a, b, g)) (s : State) :
    exec i s = laneOp i 1 lat (fun _ x => outPair x d (g (x.pair a) (x.pair b))) s := by
  revert hr
  fun_cases pairRow i <;> rintro ⟨⟩ <;> rfl

theorem bankPair_of_pairRow {i : Instr} {d a b : Reg} {lat : Nat} {g : DWord → DWord → DWord} (hr : pairRow i = some (d, lat, a, b, g)) :
    Instr.bankPair i = some (a, b) := by
  revert hr
  fun_cases pairRow i <;> rintro ⟨⟩ <;> rfl

theorem goes_of_pairRow {s : State} {c : Issue} {i : Instr} {p} (h : s.issues c) (hr : pairRow i = some p) : s.goes c i := by
  revert hr
  fun_cases pairRow i <;> rintro ⟨⟩ <;> exact issues_goes h rfl rfl

/-- R82: a 64-bit word completes with its pair in two registers and, whole, in the latch. -/
theorem pairResults : PairResults := by
  intro s c i d lat a b g h hr
  rw [exec_of_pairRow hr, laneOp_next (goes_of_pairRow h hr) _ _ _ (bankPair_of_pairRow hr)]
  simp only [outPair_eq]

theorem condHolds_eq (c : Cond) (a b : Word) : condHolds c a b = cmpOutcome c a b := by
  cases c with
  | eq => exact Bool.beq_eq_decide_eq a b
  | ne => simp [condHolds, cmpOutcome, bne, Bool.beq_eq_decide_eq]
  | lt | le | ltu | leu => rfl

theorem isNan_of_isSig {x : FV} (h : x.isSig = true) : x.isNan = true := by
  cases x with
  | nan => rfl
  | inf | fin => cases h

theorem fcmpFn_eq (cnd : FCond) (a b : Word) :
    fcmpFn cnd a b = (fcmpOutcome cnd (f32 a) (f32 b), if fcmpNV cnd (f32 a) (f32 b) then flNV else 0) := by
  by_cases h : ((f32 a).isNan || (f32 b).isNan) = true
  · cases cnd <;> simp [fcmpFn, fcmpOutcome, fcmpNV, flIf, h]
  · obtain ⟨hna, hnb⟩ : (f32 a).isNan ≠ true ∧ (f32 b).isNan ≠ true := by simpa using h
    have ha : (f32 a).isSig = false := by simpa using mt isNan_of_isSig hna
    have hb : (f32 b).isSig = false := by simpa using mt isNan_of_isSig hnb
    cases cnd <;> simp [fcmpFn, fcmpOutcome, fcmpNV, h, ha, hb]

theorem exec_cmp (c : Cond) (d : Pred) (a b : Reg) (s : State) :
    exec (.cmp c d a b) s = laneOp (.cmp c d a b) 1 4 (fun _ x => outPred d (condHolds c (x.reg a) (x.reg b))) s := rfl

theorem exec_cmpi (c : Cond) (d : Pred) (a : Reg) (i : BitVec 10) (s : State) :
    exec (.cmpi c d a i) s = laneOp (.cmpi c d a i) 1 4 (fun _ x => outPred d (condHolds c (x.reg a) (i.signExtend 32))) s := rfl

theorem exec_fcmp (c : FCond) (d : Pred) (a b : Reg) (s : State) :
    exec (.fcmp c d a b) s =
      laneOp (.fcmp c d a b) 1 4 (fun _ x => outPred d (fcmpFn c (x.reg a) (x.reg b)).1 (fcmpFn c (x.reg a) (x.reg b)).2) s := rfl

/-- The model computes a predicate word's outcome and flags in each lane as its row says. -/
theorem exec_of_predRow {i : Instr} {r : PredRow} (hr : predRow i = some r) (s : State) :
    exec i s = laneOp i 1 4 (fun _ x => outPred r.d (r.val x) (r.flags x)) s := by
  cases i with
  | cmp c d a b => cases hr; simp only [exec_cmp, condHolds_eq]
  | cmpi c d a i => cases hr; simp only [exec_cmpi, condHolds_eq]
  | fcmp c d a b => cases hr; simp only [exec_fcmp, fcmpFn_eq]
  | kop f d a b => cases f <;> cases hr <;> rfl
  | _ => cases hr

theorem bankPair_of_predRow {i : Instr} {r : PredRow} (hr : predRow i = some r) : Instr.bankPair i = r.bank := by
  revert hr
  fun_cases predRow i <;> rintro ⟨⟩ <;> rfl

theorem goes_of_predRow {s : State} {c : Issue} {i : Instr} {r : PredRow} (h : s.issues c) (hr : predRow i = some r) : s.goes c i := by
  revert hr
  fun_cases predRow i <;> rintro ⟨⟩ <;> exact issues_goes h rfl rfl

/-- R84, R85 and R141: a word with a predicate result completes with its outcome and flags. -/
theorem predicateResults : PredicateResults := by
  intro s c i r h hr
  rw [exec_of_predRow hr, laneOp_next (goes_of_predRow h hr) _ _ _ (bankPair_of_predRow hr)]
  rfl

/-! ## Words of the 64-bit and predicate instructions -/

/-- An instruction that a word of any privilege level may name (R63, R64, R397). -/
def Unprivileged (i : Instr) : Prop :=
  Instr.supervisorOnly i = false ∧ i ≠ .eret ∧ Instr.supervisorReg i = false

theorem checkWord_of_candidate {p : Priv} {w : Word} {i : Instr} (hc : candidate w = some i) (hi : Unprivileged i) :
    checkWord p w = if i.wf then .ok i else .error .illegal := by
  obtain ⟨hso, her, hsr⟩ := hi
  rw [checkWord, decode_of_candidate hc]
  cases i.wf <;> simp [hso, her, hsr]

theorem checkWord_of_no_candidate {p : Priv} {w : Word} (hc : candidate w = none) : checkWord p w = .error .illegal := by
  rw [checkWord, decode_of_no_candidate hc]

theorem checkWord_of_only {p : Priv} {w : Word} {i : Instr} {b : Bool} (hc : candidate w = only b i) (hi : Unprivileged i) :
    checkWord p w = if b = true ∧ i.wf = true then .ok i else .error .illegal := by
  cases b
  · exact checkWord_of_no_candidate hc
  · simpa using checkWord_of_candidate hc hi

/-- A register field that may stand for a pair: an even register, or a latch (R17, log entry 68). -/
abbrev EvenOrLatch (r : Reg) : Prop := r.toNat % 2 = 0 ∨ 120 < r.toNat

theorem sourceOk_pair (r : Reg) : sourceOk (r, 2) = true ↔ EvenOrLatch r := by
  simp only [sourceOk, Bool.or_eq_true, decide_eq_true_eq, beq_iff_eq]
  omega

theorem destOk_pair (r : Reg) : destOk (r, 2) = true ↔ r.toNat ≤ 120 ∧ EvenOrLatch r := by
  simp only [destOk, Bool.and_eq_true, decide_eq_true_eq, beq_iff_eq]
  omega

/-- The three 64-bit words with given fields (R82). -/
def IsPairWord (d a b : Reg) (i : Instr) : Prop := i = .addw d a b ∨ i = .subw d a b ∨ i = .mulw d a b

theorem wf_pair {i : Instr} {d a b : Reg} (hi : IsPairWord d a b i) :
    i.wf = true ↔ d.toNat ≤ 120 ∧ EvenOrLatch d ∧ EvenOrLatch a ∧ EvenOrLatch b := by
  have hwf : i.wf = (true && (([(d, 2)].all destOk) && ([(a, 2), (b, 2)].all sourceOk)) && true && true) := by
    rcases hi with rfl | rfl | rfl <;> rfl
  simp [hwf, destOk_pair, sourceOk_pair, and_assoc]

theorem decInt_pair_reserved {n : Bool} {f : BitVec 3} {d a b : Reg} (hf : 3 ≤ f.toNat) : decInt 0x08 n f d a b = none := by
  simp only [decInt]
  split <;> simp_all

theorem checkWord_pair {p : Priv} {w : Word} {n : Bool} {i : Instr} {d a b : Reg} (hc : candidate w = only (!n) i) (hi : IsPairWord d a b i) :
    checkWord p w = if n = false ∧ d.toNat ≤ 120 ∧ EvenOrLatch d ∧ EvenOrLatch a ∧ EvenOrLatch b then .ok i else .error .illegal := by
  have hun : Unprivileged i := by
    rcases hi with rfl | rfl | rfl <;> exact ⟨rfl, nofun, rfl⟩
  rw [checkWord_of_only hc hun]
  simp only [wf_pair hi, Bool.not_eq_true']

/-- R82: which words of ADDW, SUBW and MULW decode. -/
theorem pairWords (p : Priv) (n : Bool) (f : BitVec 3) (d a b : Reg) :
    checkWord p (encR 0x08 n f d a b) =
      if n = false ∧ f.toNat < 3 ∧ d.toNat ≤ 120 ∧ EvenOrLatch d ∧ EvenOrLatch a ∧ EvenOrLatch b then
        .ok (if f = 0 then .addw d a b else if f = 1 then .subw d a b else .mulw d a b)
      else .error .illegal := by
  have hc := candidate_encR_int 0x08 n f d a b rfl
  rcases (show f = 0 ∨ f = 1 ∨ f = 2 ∨ 3 ≤ f.toNat by bv_omega) with rfl | rfl | rfl | hf
  · rw [checkWord_pair hc (.inl rfl)]; simp
  · rw [checkWord_pair hc (.inr (.inl rfl))]; simp
  · rw [checkWord_pair hc (.inr (.inr rfl))]; simp
  · rw [if_neg (by omega)]
    exact checkWord_of_no_candidate (hc.trans (decInt_pair_reserved hf))

/-- The condition codes of R84 in order. -/
theorem condOf_eq (c : BitVec 3) : condOf c = [Cond.eq, .ne, .lt, .le, .ltu, .leu][c.toNat]? := by
  revert c
  decide

/-- The function codes of R85 in order. -/
theorem kfnOf_eq (f : BitVec 3) : kfnOf f = [KFn.and, .or, .xor, .andn, .not][f.toNat]? := by
  revert f
  decide

theorem checkWord_cmp {p : Priv} {n : Bool} {c : BitVec 3} {cc : Cond} {d a b : BitVec 7} (hcc : condOf c = some cc) :
    checkWord p (encR 0x20 n c d a b) = if n = false ∧ d.toNat < 8 then .ok (.cmp cc (d.setWidth 3) a b) else .error .illegal := by
  have hc := candidate_encR_pred 0x20 n c d a b rfl
  split
  · next h =>
    have hcand : candidate (encR 0x20 n c d a b) = some (.cmp cc (d.setWidth 3) a b) := by
      rw [hc]; simp [decPred, hcc, predOf, h.1, h.2]
    exact checkWord_of_candidate hcand ⟨rfl, nofun, rfl⟩
  · next h => exact checkWord_of_no_candidate (hc.trans (by cases n <;> simp_all [decPred, predOf]))

theorem checkWord_cmp_reserved {p : Priv} {n : Bool} {c : BitVec 3} {d a b : BitVec 7} (hcc : condOf c = none) :
    checkWord p (encR 0x20 n c d a b) = .error .illegal :=
  checkWord_of_no_candidate ((candidate_encR_pred 0x20 n c d a b rfl).trans (by cases n <;> simp [decPred, hcc]))

/-- The condition and the predicate of CMPI share the D field of the I format (R84). -/
def cmpiField (z : Bool) (c : BitVec 3) (d : Pred) : BitVec 7 := BitVec.ofBool z ++ c ++ d

theorem append_cmpiField (m : BitVec 7) (n z : Bool) (c : BitVec 3) (d : Pred) (a : Reg) (i : BitVec 10) :
    (m ++ BitVec.ofBool n ++ BitVec.ofBool z ++ c ++ d ++ a ++ i : BitVec 32) = encI m n (cmpiField z c d) a i := by
  have hzc : (m ++ BitVec.ofBool n ++ BitVec.ofBool z ++ c : BitVec 12) = (m ++ BitVec.ofBool n) ++ (BitVec.ofBool z ++ c) := BitVec.append_assoc
  have hd : ((m ++ BitVec.ofBool n) ++ (BitVec.ofBool z ++ c) ++ d : BitVec 15) = (m ++ BitVec.ofBool n) ++ cmpiField z c d := BitVec.append_assoc
  exact congrArg (fun x : BitVec 15 => (x ++ a ++ i : BitVec 32)) ((congrArg (fun x : BitVec 12 => (x ++ d : BitVec 15)) hzc).trans hd)

theorem cmpiField_fields (z : Bool) (c : BitVec 3) (d : Pred) :
    (cmpiField z c d).getLsbD 6 = z ∧ (cmpiField z c d).extractLsb' 3 3 = c ∧ (cmpiField z c d).extractLsb' 0 3 = d := by
  refine ⟨?_, ?_, ?_⟩
  · simp only [cmpiField, BitVec.getLsbD_append]; simp
  · rw [cmpiField, extract_append_left _ _ _ _ (by omega), extract_append_right _ _ _ _ (by omega), BitVec.extractLsb'_eq_self]
  · rw [cmpiField, extract_append_right _ _ _ _ (by omega), BitVec.extractLsb'_eq_self]

theorem candidate_cmpi (n z : Bool) (c : BitVec 3) (d : Pred) (a : Reg) (i : BitVec 10) :
    candidate (encI 0x21 n (cmpiField z c d) a i) = if n || z then none else (condOf c).map fun cc => .cmpi cc d a i := by
  obtain ⟨hz, hc, hd⟩ := cmpiField_fields z c d
  rw [candidate_encI_imm _ _ _ _ _ rfl]
  change (if n || (cmpiField z c d).getLsbD 6 then none
    else (condOf ((cmpiField z c d).extractLsb' 3 3)).map fun cc => Instr.cmpi cc ((cmpiField z c d).extractLsb' 0 3) a i) = _
  rw [hz, hc, hd]

theorem checkWord_cmpi {p : Priv} {n z : Bool} {c : BitVec 3} {cc : Cond} {d : Pred} {a : Reg} {i : BitVec 10} (hcc : condOf c = some cc) :
    checkWord p (encI 0x21 n (cmpiField z c d) a i) = if n = false ∧ z = false then .ok (.cmpi cc d a i) else .error .illegal := by
  have hc := candidate_cmpi n z c d a i
  rw [hcc] at hc
  split
  · next h =>
    have hcand : candidate (encI 0x21 n (cmpiField z c d) a i) = some (.cmpi cc d a i) := by
      rw [hc]; simp [h.1, h.2]
    exact checkWord_of_candidate hcand ⟨rfl, nofun, rfl⟩
  · next h => exact checkWord_of_no_candidate (hc.trans (by simpa using h))

theorem checkWord_cmpi_reserved {p : Priv} {n z : Bool} {c : BitVec 3} {d : Pred} {a : Reg} {i : BitVec 10} (hcc : condOf c = none) :
    checkWord p (encI 0x21 n (cmpiField z c d) a i) = .error .illegal :=
  checkWord_of_no_candidate ((candidate_cmpi n z c d a i).trans (by simp [hcc]))

theorem setWidth_pred_eq_zero {b : BitVec 7} (hb : b.toNat < 8) : b.setWidth 3 = 0 ↔ b = 0 := by
  bv_omega

theorem lt_of_predOf {x : BitVec 7} {k : Pred} (h : predOf x = some k) : x.toNat < 8 := by
  by_contra hx
  rw [predOf, if_neg hx] at h
  cases h

/-- A word of KOP's major opcode with the no-write bit, or a field that names no predicate, is ILLEGAL (R58, R85). -/
theorem decPred_kop_none {n : Bool} {f : BitVec 3} {d a b : BitVec 7} (h : ¬(n = false ∧ d.toNat < 8 ∧ a.toNat < 8 ∧ b.toNat < 8)) :
    decPred 0x22 n f d a b = none := by
  simp only [decPred]
  split
  · rfl
  · next hn =>
    split
    · next hd ha hb => exact absurd ⟨by simpa using hn, lt_of_predOf hd, lt_of_predOf ha, lt_of_predOf hb⟩ h
    · rfl

theorem checkWord_kop {p : Priv} {n : Bool} {f : BitVec 3} {g : KFn} {d a b : BitVec 7} (hg : kfnOf f = some g) :
    checkWord p (encR 0x22 n f d a b) =
      if n = false ∧ d.toNat < 8 ∧ a.toNat < 8 ∧ b.toNat < 8 ∧ (g = .not → b = 0) then
        .ok (.kop g (d.setWidth 3) (a.setWidth 3) (b.setWidth 3)) else .error .illegal := by
  have hc := candidate_encR_pred 0x22 n f d a b rfl
  by_cases hfields : n = false ∧ d.toNat < 8 ∧ a.toNat < 8 ∧ b.toNat < 8
  · obtain ⟨hn, hd, ha, hb⟩ := hfields
    have honly : candidate (encR 0x22 n f d a b) = only (g != .not || b.setWidth 3 == 0) (.kop g (d.setWidth 3) (a.setWidth 3) (b.setWidth 3)) := by
      rw [hc]; simp [decPred, hg, predOf, hn, hd, ha, hb]
    rw [checkWord_of_only honly ⟨rfl, nofun, rfl⟩]
    have hnot : (g != .not || b.setWidth 3 == 0) = true ↔ (g = .not → b = 0) := by
      rw [Bool.or_eq_true, bne_iff_ne, beq_iff_eq, setWidth_pred_eq_zero hb, imp_iff_not_or]
    have hwf : Instr.wf (.kop g (d.setWidth 3) (a.setWidth 3) (b.setWidth 3)) = true := rfl
    simp only [hnot, hwf, hn, hd, ha, hb, true_and, and_true]
  · rw [if_neg fun ⟨hn, hd, ha, hb, _⟩ => hfields ⟨hn, hd, ha, hb⟩]
    exact checkWord_of_no_candidate (hc.trans (decPred_kop_none hfields))

theorem checkWord_kop_reserved {p : Priv} {n : Bool} {f : BitVec 3} {d a b : BitVec 7} (hg : kfnOf f = none) :
    checkWord p (encR 0x22 n f d a b) = .error .illegal :=
  checkWord_of_no_candidate ((candidate_encR_pred 0x22 n f d a b rfl).trans (by cases n <;> simp [decPred, hg]))

/-- A choice between two values of one term, as a choice between two equations. -/
theorem ite_eq_of_eq_ite {α : Type} {P : Prop} [Decidable P] {x a b : α} (h : x = if P then a else b) : if P then x = a else x = b := by
  split <;> simp_all

theorem pairAndPredicateWords : PairAndPredicateWords := by
  refine ⟨fun p n f d a b => ite_eq_of_eq_ite (pairWords p n f d a b), fun p n c d a b => ?_, fun p n z c d a i => ?_, fun p n f d a b => ?_⟩
  · rw [← condOf_eq]
    cases hcc : condOf c with
    | none => exact checkWord_cmp_reserved hcc
    | some cc => exact ite_eq_of_eq_ite (checkWord_cmp hcc)
  · rw [← condOf_eq, append_cmpiField]
    cases hcc : condOf c with
    | none => exact checkWord_cmpi_reserved hcc
    | some cc => exact ite_eq_of_eq_ite (checkWord_cmpi hcc)
  · rw [← kfnOf_eq]
    cases hg : kfnOf f with
    | none => exact checkWord_kop_reserved hg
    | some g => exact ite_eq_of_eq_ite (checkWord_kop hg)

/-- Settles O2: results by the rows of R82, R84, R85 and R141; words by the fields of the R and I formats and the code tables. -/
theorem pairAndPredicateResults : Obligations.PairAndPredicateResults := ⟨pairResults, predicateResults, pairAndPredicateWords⟩

/-! ## The words that mark their run, and NOP -/

theorem lowest_eq_none_iff (c : Issue) : c.lowest = none ↔ c.lanes = [] := List.head?_eq_none_iff

/-- What a lane reads is labelled with the lane's number, also in an instruction that is performed again (R367). -/
theorem ctx_l (c : Issue) (k l : Nat) : (c.ctx k l).l = l := by
  unfold Issue.ctx
  split
  · next x hx =>
    obtain ⟨xs, -, hfind⟩ := Option.bind_eq_some_iff.mp hx
    simpa using List.find?_some hfind
  · rfl

/-- A word that acts once (R74), in one cycle for each slice, and with an active lane only changes its run. -/
theorem waveOp_marks {s : State} {c : Issue} {i : Instr} {f : Run → Run} {act : Issue → LaneCtx → State → Acted} (h : s.goes c i)
    (hb : Instr.bankPair i = none) (hact : ∀ x u, act c x u = .ok (u.updRun f)) :
    waveOp i act s = .next (if c.lanes = [] then s.issued c 1 else (s.issued c 1).updRun f) := by
  have hk : c.cost i 1 = 1 := (cost_slots c i 1 hb).trans (slots_none c 1)
  cases hl : c.lowest with
  | none => rw [waveOp_empty h act hl, hk, if_pos ((lowest_eq_none_iff c).mp hl)]
  | some l =>
    have hne : c.lanes ≠ [] := fun he => by simp [(lowest_eq_none_iff c).mpr he] at hl
    rw [waveOp_next h act hl, hact, hk, if_neg hne]
    rfl

/-- A word that acts once (R74) and whose check fails in the lowest active lane raises ILLEGAL there. -/
theorem waveOp_illegal {s : State} {c : Issue} {i : Instr} {act : Issue → LaneCtx → State → Acted} {l : Nat} (h : s.goes c i)
    (hl : c.lowest = some l) (hact : ∀ x u, act c x u = .error { code := .illegal, lane := x.l }) :
    waveOp i act s = .next (s.raise c { code := .illegal, lane := l }) := by
  rw [waveOp_next h act hl, hact, ctx_l]
  rfl

theorem markingWords : MarkingWords := by
  intro s c i f h hf
  cases i with
  | rcb => cases hf; change execRcb s = _; exact waveOp_marks (issues_goes h rfl rfl) rfl fun _ _ => rfl
  | yield => cases hf; change execYield s = _; exact waveOp_marks (issues_goes h rfl rfl) rfl fun _ _ => rfl
  | exit => cases hf; change execExit s = _; exact waveOp_marks (issues_goes h rfl rfl) rfl fun _ _ => rfl
  | lpass => cases hf; change execLpass s = _; exact waveOp_marks (issues_goes h rfl rfl) rfl fun _ _ => rfl
  | wfi => cases hf; change execWfi s = _; exact waveOp_marks (issues_goes h rfl rfl) rfl fun _ _ => rfl
  | halt => cases hf; change execHalt s = _; exact waveOp_marks (issues_goes h rfl rfl) rfl fun _ _ => rfl
  | leave =>
    obtain ⟨hlt, hf⟩ := Option.ite_none_right_eq_some.mp hf
    cases hf
    change execLeave s = _
    exact waveOp_marks (issues_goes h rfl rfl) rfl fun _ _ => if_neg (Nat.not_le.mpr hlt)
  | winb i =>
    obtain ⟨hlt, hf⟩ := Option.ite_none_right_eq_some.mp hf
    cases hf
    change execWinb i s = _
    exact waveOp_marks (issues_goes h rfl rfl) rfl fun _ _ => if_neg (Nat.not_le.mpr hlt)
  | _ => cases hf

theorem exec_nop {s : State} {c : Issue} (h : s.issues c) : exec .nop s = .next (s.issued c 1) :=
  issue_goes (issues_goes h rfl rfl) _

theorem nopLeaveWinb : NopLeaveWinb := by
  intro s c h
  refine ⟨exec_nop h, fun l hl hle => ?_, fun l i hl hle => ?_⟩
  · change execLeave s = _
    exact waveOp_illegal (issues_goes h rfl rfl) hl fun _ _ => if_pos hle
  · change execWinb i s = _
    exact waveOp_illegal (issues_goes h rfl rfl) hl fun _ _ => if_pos hle

/-! ## The word of NOP -/

/-- A word is the one of the R format that its fields give (R57). -/
theorem encR_fields_eq (w : Word) : encR (fMajor w) (fNW w) (fF w) (fDR w) (fAR w) (fBR w) = w := by
  have hn : BitVec.ofBool (fNW w) = w.extractLsb' 24 1 := by
    ext i hi
    simp [fNW, show i = 0 by omega]
  rw [encR, hn, fMajor, fF, fDR, fAR, fBR]
  simp only [BitVec.extractLsb'_append_extractLsb'_eq_extractLsb']
  exact BitVec.extractLsb'_eq_self

theorem fMajor_nopMajor (r : BitVec 25) : fMajor (0x36#7 ++ r : BitVec 32) = 0x36 :=
  (extract_append_left (0x36#7) r 25 7 (by omega)).trans BitVec.extractLsb'_eq_self

theorem candidate_work {w : Word} (h : fMajor w = 0x36) :
    candidate w = if fNW w then none else only (fF w == 0 && fDR w == 0 && fAR w == 0 && fBR w == 0) .nop := by
  rw [candidate, h]
  rfl

/-- With every other field 0 the word is NOP's, so its remaining 25 bits are 0. -/
theorem nopMajor_rest_eq_zero {r : BitVec 25} {w : Word} (hw : w = 0x36#7 ++ r) (hn : fNW w = false) (hf : fF w = 0) (hd : fDR w = 0)
    (ha : fAR w = 0) (hb : fBR w = 0) : r = 0 := by
  have hzero : (0x36#7 ++ r : BitVec 32) = 0x36#7 ++ 0#25 := by
    rw [← hw, ← encR_fields_eq w, hn, hf, hd, ha, hb, hw, fMajor_nopMajor]
    rfl
  calc r = (0x36#7 ++ r : BitVec 32).extractLsb' 0 25 :=
        ((extract_append_right (0x36#7) r 0 25 (by omega)).trans BitVec.extractLsb'_eq_self).symm
    _ = 0 := by rw [hzero]; rfl

theorem candidate_nopMajor (r : BitVec 25) : candidate (0x36#7 ++ r : BitVec 32) = only (decide (r = 0)) .nop := by
  by_cases hr : r = 0
  · rw [hr]
    rfl
  · rw [candidate_work (fMajor_nopMajor r), decide_eq_false hr]
    split
    · rfl
    · next hn =>
      refine congrArg (only · .nop) (Bool.eq_false_iff.mpr fun hall => hr ?_)
      simp only [Bool.and_eq_true, beq_iff_eq, and_assoc] at hall
      obtain ⟨hf, hd, ha, hb⟩ := hall
      exact nopMajor_rest_eq_zero rfl (by simpa using hn) hf hd ha hb

/-- R91: of the words of NOP's major opcode only the one with every other field 0 is NOP. -/
theorem checkWord_nopMajor (p : Priv) (r : BitVec 25) :
    checkWord p (0x36#7 ++ r : BitVec 32) = if r = 0 then .ok .nop else .error .illegal := by
  rw [checkWord_of_only (candidate_nopMajor r) ⟨rfl, nofun, rfl⟩]
  simp [show Instr.wf .nop = true from rfl]

/-! ## A NOP leaves no latch -/

theorem latchesOk_nop {before : List Instr} {i : Instr} {b : Reg} {n : Nat} (hs : (b, n) ∈ Instr.sources (fun _ => 1) i) (hb : 120 < b.toNat)
    (hnop : before.reverse[b.toNat - 121]? = some .nop) : latchesOk before i = false := by
  refine List.all_eq_false.mpr ⟨(b, n), hs, ?_⟩
  simp [hnop, Instr.latches, Nat.not_le.mpr hb]

theorem misplaced_eq_false {before : List Instr} (h : ∀ j, before.getLast? = some j → Instr.mustBeLast j = false) (x : Word) :
    misplaced before x = false := by
  cases hl : before.getLast? with
  | none => simp [misplaced, hl]
  | some j => simp [misplaced, hl, h j hl]

/-- R34: the fetch of a run stops at a word with a source that names the latch of a NOP. -/
theorem fetchFrom_latch_of_nop {t : Team} {w : Wave} {top : Option Word} {fuel : Nat} {s s' : State} {pc x : Word} {before : List Instr} {i : Instr}
    {b : Reg} {n : Nat} (hx : s.fetchWord t pc = (s', .ok x)) (hi : checkWord w.priv x = .ok i) (hs : (b, n) ∈ Instr.sources (fun _ => 1) i)
    (hb : 120 < b.toNat) (hnop : before.reverse[b.toNat - 121]? = some .nop)
    (hlast : ∀ j, before.getLast? = some j → Instr.mustBeLast j = false) :
    State.fetchFrom t w top (fuel + 1) s pc before = (s', .error (.illegal, pc)) := by
  have hplace : placeOk w.winb w.nregs before i = false := by simp [placeOk, latchesOk_nop hs hb hnop]
  simp [State.fetchFrom, hx, misplaced_eq_false hlast x, hi, hplace]

theorem nopWord : NopWord :=
  ⟨checkWord_nopMajor, rfl, fun _ _ => exec_nop, fun _ _ _ _ _ _ _ _ _ _ _ _ => fetchFrom_latch_of_nop⟩

/-- Settles O9: a marking word acts once, after its issue, on the run alone; NOP's word is the one whose fields are all 0, and a NOP has no
latch to name. -/
theorem runMarks : Obligations.RunMarks := ⟨markingWords, nopWord, nopLeaveWinb⟩

end Sys2Proof.Proofs.Scalar
end
